-- ==== Sys2Proof/Word.lean ====
section
/-! DEFINITION. The word types of the part: octets, codes, dates and sequence numbers (R183, 11.7). -/

namespace Sys2Proof

/-- One octet of a frame or of a terminal message. -/
abbrev Byte := BitVec 8

/-- A halt code, 0..65535 (00_scope.md 4.2). -/
abbrev HaltCode := BitVec 16

/-- A train number, the first half of a call's key (5.2). -/
abbrev TrainNo := BitVec 16

/-- A service date: days since 2000-01-01, modulo 65536 (00_scope.md 4.1). -/
abbrev Date := BitVec 16

/-- A timing point code (5.2). -/
abbrev PointCode := BitVec 16

/-- A journal sequence number, which wraps (R165). -/
abbrev Seq := BitVec 32

/-- A ticket number, 1..4294967295 (R159). -/
abbrev TicketNo := BitVec 32

/-- The broadcast destination (00_scope.md 4.2). -/
def allHalts : HaltCode := 0#16

/-- The control centre's code (00_scope.md 4.2). -/
def centre : HaltCode := 65535#16

end Sys2Proof
end

