-- ==== Sys2Proof/Syntax.lean ====
section
/-! DEFINITION. The commands of the part: one constructor for each row of spec/opcode_table.json,
with the operands the surroundings give it. -/

namespace Sys2Proof

/-- The two line ports (01). -/
inductive Port
  | up | down
deriving DecidableEq, Repr

/-- The other port, by which a relayed frame leaves (R36). -/
def Port.other : Port → Port
  | .up => .down
  | .down => .up

/-- The two platforms (07). -/
inductive Platform
  | one | two
deriving DecidableEq, Repr

/-- The five line rates (1.6). -/
inductive Rate
  | r1200 | r2400 | r4800 | r9600 | r19200
deriving DecidableEq, Repr

/-- Settings of the three Up port rate pins (R174). -/
inductive UpRateStrap
  | auto | fixed (r : Rate) | unusedA | unusedB
deriving DecidableEq, Repr

/-- Settings of the two terminal port rate pins (R174). -/
inductive TerminalRateStrap
  | r9600 | r38400 | r115200 | unused
deriving DecidableEq, Repr

/-- Levels at the strap pins (R174). -/
structure StrapPins where
  haltCode : BitVec 12
  upRate : UpRateStrap
  terminalRate : TerminalRateStrap
deriving DecidableEq, Repr

/-- Key of a call record: train number and run date (R72). -/
structure Key where
  train : TrainNo
  runDate : Date
deriving DecidableEq, Repr

/-- Body of a QUOTE request, field by field (11.7). -/
structure QuoteRequest where
  destination : HaltCode
  type : Byte
  cls : Byte
  callPresent : Byte
  train : TrainNo
  runDate : Date
  quantity : Byte
deriving DecidableEq, Repr

/-- Body of an ISSUE request (11.7). The token is opaque to the part (10.3). -/
structure IssueRequest where
  slot : Byte
  payment : Byte
  tendered : BitVec 24
  token : List Byte
deriving DecidableEq, Repr

/-- Body of a FIND request (11.7). `start` of all ones is NOW. -/
structure FindRequest where
  destination : HaltCode
  start : BitVec 24
  tokenPresent : Byte
  generation : BitVec 16
  position : Byte
  count : Byte
deriving DecidableEq, Repr

/-- What is wrong with a terminal message that is not a request (R179). -/
inductive BadForm
  | lengthAbove120 | checkFails | unknownCode | bodyLength
deriving DecidableEq, Repr

/-- The commands. -/
inductive Instr
  /-- POWER_UP (R178): whether the backup supply held, and the levels at the pins. -/
  | powerUp (backupHeld : Bool) (straps : StrapPins) (lowEnergy : Bool)
  /-- MAIN_POWER_LOSS (R56). -/
  | mainPowerLoss
  /-- FLAG_RECEIVED (R1). -/
  | flagReceived (p : Port)
  /-- FRAME_CLOSED (R3): the line bits between the two flags, stuffed zeros included. -/
  | frameClosed (p : Port) (bits : List Bool)
  /-- ABORT (R4): the line bits between the flag and the abort, stuffed zeros included. -/
  | abort (p : Port) (bits : List Bool)
  /-- LONG_FRAME (R6). -/
  | longFrame (p : Port)
  /-- OCTET_GROUP (R7). -/
  | octetGroup (p : Port)
  /-- DWELL_EXPIRY (R11). -/
  | dwellExpiry (p : Port)
  /-- TX_FRAME_END (R15). -/
  | txFrameEnd (p : Port)
  /-- TX_FLAG_END (R15). -/
  | txFlagEnd (p : Port)
  /-- FILL_DUE_EXPIRY (R30). -/
  | fillDueExpiry (p : Port)
  /-- PERIOD_EXPIRY (R24). -/
  | periodExpiry (p : Port)
  /-- PAUSE_EXPIRY (R23). -/
  | pauseExpiry (p : Port)
  /-- INTERVAL_EXPIRY (R26). -/
  | intervalExpiry (p : Port)
  /-- SILENCE_EXPIRY (R28). -/
  | silenceExpiry (p : Port)
  /-- RETRY_EXPIRY (R29). -/
  | retryExpiry (p : Port)
  /-- FRAME_CLASSIFY (R36): the port, and the levels at the strap pins, read by WARM_RESET. -/
  | frameClassify (p : Port) (straps : StrapPins)
  /-- BEACON_TIMER_EXPIRY (R47). -/
  | beaconTimerExpiry
  /-- SERVICE_SECOND (R56). -/
  | serviceSecond
  /-- UPTIME_SECOND (R57). -/
  | uptimeSecond
  /-- MINUTE_TICK (R57). -/
  | minuteTick
  /-- BUTTON_PRESS (R108). -/
  | buttonPress (p : Platform)
  /-- BUTTON_RELEASE (R106). -/
  | buttonRelease (p : Platform)
  /-- NO_TARGET_EXPIRY (R117). -/
  | noTargetExpiry (p : Platform)
  /-- RESEND_EXPIRY (R111): the call whose timer expires. -/
  | resendExpiry (k : Key)
  /-- CONTACT_PULSE (R118). -/
  | contactPulse (p : Platform)
  /-- CONTACT_LOCKOUT_EXPIRY (R118). -/
  | contactLockoutExpiry (p : Platform)
  /-- SCREEN_MESSAGE_SENT (R129). -/
  | screenMessageSent
  /-- LOW_ENERGY_CHANGE (R135): the new level. -/
  | lowEnergyChange (asserted : Bool)
  /-- ACTIVITY_EXPIRY (R136). -/
  | activityExpiry
  /-- WARM_UP_EXPIRY (R137). -/
  | warmUpExpiry
  /-- QUOTE (R147). -/
  | quote (r : QuoteRequest)
  /-- CANCEL_QUOTE (R149). -/
  | cancelQuote (slot : Byte)
  /-- QUOTE_EXPIRY (R149). -/
  | quoteExpiry (slot : Fin 4)
  /-- FIND (R152). -/
  | find (r : FindRequest)
  /-- ISSUE (R158). -/
  | issue (r : IssueRequest)
  /-- AUTH_TIMER_EXPIRY (R164). -/
  | authTimerExpiry
  /-- TICKET (R160). -/
  | ticket (n : TicketNo)
  /-- PRINTED (R160). -/
  | printed (n : TicketNo)
  /-- VOID (R161). -/
  | void (n : TicketNo)
  /-- TICKET_LIMIT_EXPIRY (R160): the ticket whose timer expires. -/
  | ticketLimitExpiry (n : TicketNo)
  /-- ACK_TIMER_EXPIRY (R168). -/
  | ackTimerExpiry
  /-- NOTICES (R181). -/
  | notices (count : Byte)
  /-- STATUS (R180). -/
  | status
  /-- TP_GAP (R179). -/
  | tpGap
  /-- TERMINAL_REPLY_SENT (R180). -/
  | terminalReplySent
  /-- IDLE_LINE (R1). -/
  | idleLine (p : Port)
  /-- CANDIDATE_FRAME_BEGIN (R1). -/
  | candidateFrameBegin (p : Port)
  /-- TX_ABORT_END (R16). -/
  | txAbortEnd (p : Port)
  /-- BAD_MESSAGE (R179): the message's code octet and what is wrong with it. -/
  | badMessage (code : Byte) (form : BadForm)
deriving DecidableEq, Repr

end Sys2Proof
end

