-- ==== Sys2Proof/Config.lean ====
section
/-! DEFINITION. What the part fixes (times, capacities) and the values the manual leaves open. -/

namespace Sys2Proof.Config

/-! Fixed times, in milliseconds. -/

/-- Dwell of the rate search (R11). -/
def dwellMs : Nat := 2000
/-- FILL spacing (R30). -/
def fillMs : Nat := 500
/-- Proving pause (R23). -/
def pauseMs : Nat := 1000
/-- Monitoring interval of INTERVAL mode (R26). -/
def intervalMs : Nat := 100
/-- Silence limit (R28). -/
def silenceMs : Nat := 2000
/-- Retry wait in OUTAGE (R29). -/
def retryMs : Nat := 30000
/-- Resend interval of a STOPREQ (R110). -/
def resendMs : Nat := 30000
/-- No-target indication (R108). -/
def noTargetMs : Nat := 5000
/-- Contact lockout (R118). -/
def lockoutMs : Nat := 10000
/-- Activity span (R136). -/
def activityMs : Nat := 60000
/-- Warm-up of the screens (R137). -/
def warmUpMs : Nat := 2000
/-- Limit timer of an issued ticket (R160). -/
def ticketMs : Nat := 60000
/-- Acknowledgement timer of the journal drain (R167). -/
def ackMs : Nat := 30000

/-! Fixed counts. -/

/-- Receive buffers of a port (R9). -/
def rxBuffers : Nat := 8
/-- Good frames in a row that lock the rate (R13). -/
def lockRun : Nat := 4
/-- Proving attempts before OUTAGE (R23). -/
def maxAttempts : Nat := 5
/-- Slots of a transmit queue (R50). -/
def queueSlots : Nat := 32
/-- Slots that non-urgent frames may take (R51). -/
def nonUrgentSlots : Nat := 26
/-- Non-urgent occupancy below which the journal drains (R54). -/
def drainBelow : Nat := 8
/-- Records of one timetable bank (R72). -/
def bankRecords : Nat := 160
/-- Records of the journal (R165). -/
def journalRecords : Nat := 512
/-- Free places a SALE leaves for the other kinds (R165). -/
def saleNeeds : Nat := 9
/-- Occupancy at which JOURNAL_NEAR_FULL is posted (R165). -/
def nearFull : Nat := 448
/-- Send window of the journal (R167). -/
def sendWindow : Nat := 64
/-- Notices of the ring (R181). -/
def ringSlots : Nat := 32
/-- Replies the reply queue holds (R180). -/
def replySlots : Nat := 4
/-- Records one FIND examines (R153). -/
def findRecords : Nat := 32
/-- Issued tickets the window holds (R160), and timed-out tags the list holds (R164). -/
def ticketSlots : Nat := 4
/-- Largest value of a 32-bit count (00_scope.md 4.4). -/
def max32 : Nat := 4294967295
/-- Seconds of a service day. -/
def daySeconds : Nat := 86400
/-- Largest service seconds of a report or a scheduled departure (5.2). -/
def maxService : Nat := 91799

/-! Free values: the manual leaves them open and nothing constrains them. -/

/-- Whether a flag octet other than 0 and 1 counts as set: R183 gives a meaning to 0 and 1 alone.
Log entry 13. -/
opaque flagOctet : Byte → Bool

/-- Code octet of a reply to a message whose own code octet is 128 or more: R180's code plus 128
does not fit an octet. Log entry 14. -/
opaque replyCodeOver : Byte → Byte

/-- The 2-octet head of a JRNL record from its kind, payment kind, class, offline flag,
call-reference flag and quantity: 11.7 names what it holds and not where. Log entry 15. -/
opaque journalHead : Nat → Nat → Nat → Bool → Bool → Nat → BitVec 16

/-- Octets of one field of the body of a REPLY or of a terminal reply that 11.7 and R183 give no size,
or no coding for its absence: from the reply's code, the field's place and its value. Log entry 15. -/
opaque fieldOctets : Nat → Nat → Option Int → List Byte

end Sys2Proof.Config
end

