-- ==== Sys2Proof/Machine/State.lean ====
section
/-! DEFINITION. The state of the part, block by block, and the state after reset. -/

namespace Sys2Proof.Machine

/-! ## Shared shapes -/

/-- A timer: stopped, running with the length it was started with, or expired. Log entry 2. -/
inductive Timer
  | stopped | running (ms : Nat) | expired
deriving DecidableEq, Repr

/-- A window of clock minutes (00_scope.md 4.1). -/
structure Window where
  start : Nat
  stop : Nat
deriving DecidableEq, Repr

/-! ## Line ports (01) -/

/-- Receiver states (1.2). -/
inductive RxState
  | off | seek | idle | frame | counting
deriving DecidableEq, Repr

/-- Rate mode: FIXED at the strapped rate, or AUTO (R10, R11). -/
inductive RateMode
  | fixed (r : Rate) | auto
deriving DecidableEq, Repr

/-- Terminal port rates (R174). -/
inductive TerminalRate
  | r9600 | r38400 | r115200
deriving DecidableEq, Repr

/-- A received good frame, without its FCS (R9). -/
structure RxFrame where
  kind : Byte
  destination : HaltCode
  origin : HaltCode
  hop : Byte
  payload : List Byte
deriving DecidableEq, Repr

/-- The ten port counters (1.8). -/
structure PortCounters where
  goodFrames : Nat := 0
  errShort : Nat := 0
  errOdd : Nat := 0
  errFcs : Nat := 0
  errAbort : Nat := 0
  errLong : Nat := 0
  octetGroups : Nat := 0
  rxOverrun : Nat := 0
  hopZero : Nat := 0
  txFrames : Nat := 0
deriving DecidableEq, Repr

/-! ## Link supervision (02) -/

/-- Port states (2.1). -/
inductive PortState
  | off | hunt | proving | service | outage
deriving DecidableEq, Repr

/-- Proving phases (2.1). -/
inductive Phase
  | period | pause
deriving DecidableEq, Repr

/-- Last outage causes (2.1). -/
inductive OutageCause
  | none | provingFailed | errorRate | silence
deriving DecidableEq, Repr

/-- Monitor modes (2.1.1). -/
inductive MonitorMode
  | frame | interval
deriving DecidableEq, Repr

/-- Peer record (R32). The state is HUNT, PROVING or SERVICE. -/
structure PeerRecord where
  state : PortState
  bucket : Byte
  haltCode : HaltCode
  uptime : Nat
deriving DecidableEq, Repr

/-- The three counters of an LSU (2.8). -/
structure LsuCounters where
  outages : Nat := 0
  provingFails : Nat := 0
  fillForm : Nat := 0
deriving DecidableEq, Repr

/-- Link Supervision Unit of one port (2.1). -/
structure Lsu where
  state : PortState
  phase : Phase := .period
  period : Timer := .stopped
  pause : Timer := .stopped
  interval : Timer := .stopped
  silence : Timer := .stopped
  retry : Timer := .stopped
  fillDue : Timer
  ca : Nat := 0
  attempts : Nat := 0
  peerSeen : Bool := false
  bucket : Nat := 0
  bucketRun : Nat := 0
  intervalMark : Bool := false
  cause : OutageCause := .none
  peer : Option PeerRecord := none
  ctr : LsuCounters := {}
deriving DecidableEq, Repr

/-! ## Timetable, forecast and stop request items of a call (05, 06, 07) -/

/-- Direction of a call (5.2). -/
inductive Direction
  | up | down
deriving DecidableEq, Repr

/-- Stop modes (5.2). -/
inductive StopMode
  | always | request | pass
deriving DecidableEq, Repr

/-- Call states (5.4). -/
inductive CallState
  | scheduled | running | departed | cancelled | expired
deriving DecidableEq, Repr

/-- Stop states (7.1). -/
inductive StopState
  | none | wanted | sent | confirmed | late
deriving DecidableEq, Repr

/-- Stop causes (7.1). -/
inductive StopCause
  | button | ticket
deriving DecidableEq, Repr

/-- Confidence of a held report (6.1). -/
inductive Confidence
  | planned | firm | aged | lapsed
deriving DecidableEq, Repr

/-- Display statuses (6.1). -/
inductive DisplayStatus
  | cancelled | delayed | noInfo | onTime | expected
deriving DecidableEq, Repr

/-- One entry of a timing point list (5.2). -/
structure TimingPoint where
  code : PointCode
  allowance : Nat
deriving DecidableEq, Repr

/-- A held position report (R82). `taken = none` is an unknown take uptime (R91). -/
structure Report where
  point : PointCode
  index : Int
  delay : Int
  time : Nat
  taken : Option Nat
deriving DecidableEq, Repr

/-- The loaded fields of a call record (5.2). -/
structure Loaded where
  train : TrainNo
  runDate : Date
  direction : Direction
  platform : Platform
  stopMode : StopMode
  sched : Nat
  destinations : List HaltCode
  points : List TimingPoint
  beyond : Option PointCode
deriving DecidableEq, Repr

/-- A call record with what the TTS, the SRU and the FCE keep with it (5.2, 6.1, 7.1). -/
structure Call where
  loaded : Loaded
  state : CallState := .scheduled
  report : Option Report := none
  stop : StopState := .none
  stopCause : Option StopCause := none
  resend : Timer := .stopped
  forecast : Nat := 0
  confidence : Option Confidence := none
  overdue : Bool := false
  display : Option DisplayStatus := none
  shownMinute : Option Nat := none
deriving DecidableEq, Repr

/-- CURRENT bank states (R70). -/
inductive CurrentState
  | active | empty
deriving DecidableEq, Repr

/-- NEXT bank states (R70). -/
inductive NextState
  | empty | loading | ready
deriving DecidableEq, Repr

/-- Counters of the TTS (5.7). -/
structure TtsCounters where
  form : Nat := 0
  state : Nat := 0
  date : Nat := 0
  full : Nat := 0
  noKey : Nat := 0
  runForm : Nat := 0
  runNoMatch : Nat := 0
  runStale : Nat := 0
deriving DecidableEq, Repr

/-- Timetable Store (5.1). -/
structure Tts where
  currentState : CurrentState := .empty
  currentDate : Date := 0#16
  current : List Call := []
  nextState : NextState := .empty
  nextDate : Date := 0#16
  next : List Call := []
  generation : BitVec 16 := 0#16
  ctr : TtsCounters := {}
deriving DecidableEq, Repr

/-! ## Halt time (04) -/

/-- Sync states (4.1). -/
inductive SyncState
  | unset | locked | holdover
deriving DecidableEq, Repr

/-- Counters of the HTB (R66). -/
structure HtbCounters where
  rejected : Nat := 0
  form : Nat := 0
  deferLimit : Nat := 0
deriving DecidableEq, Repr

/-- Halt Time Base (4.1). `minuteDue` is the model's: a minute tick signalled and not yet taken. -/
structure Htb where
  date : Date := 0#16
  secs : Nat := 0
  hour : Nat := 3
  sync : SyncState := .unset
  sinceSync : Nat := 0
  deferral : Bool := false
  stand : Nat := 0
  uptime : Nat := 0
  minuteDue : Bool := false
  ctr : HtbCounters := {}
deriving DecidableEq, Repr

/-! ## Stop Request Unit (07) -/

/-- Debounced button states (7.1). -/
inductive Button
  | released | pressed
deriving DecidableEq, Repr

/-- Lamp outputs (7.1). -/
inductive Lamp
  | off | steady | slowFlash | fastFlash
deriving DecidableEq, Repr

/-- What the SRU holds for one platform (7.1). -/
structure PlatformIo where
  button : Button := .released
  noTarget : Timer := .stopped
  lockout : Timer := .stopped
  lamp : Lamp := .off
deriving DecidableEq, Repr

/-- Counters of the SRU (7.7). -/
structure SruCounters where
  noTarget : Nat := 0
  confForm : Nat := 0
  confUnexpected : Nat := 0
  contactRepeat : Nat := 0
  contactUnmatched : Nat := 0
  contactNoPoint : Nat := 0
  stopreqBuilt : Nat := 0
deriving DecidableEq, Repr

/-- Stop Request Unit (7.1). -/
structure Sru where
  serial : Byte := 0#8
  one : PlatformIo := {}
  two : PlatformIo := {}
  ctr : SruCounters := {}
deriving DecidableEq, Repr

/-! ## Board Compositor (08) -/

/-- Screens (8.1). -/
inductive ScreenNo
  | one | two | three
deriving DecidableEq, Repr

/-- Stop lines (R126). -/
inductive StopLine
  | requestStop | requestPending | stopping | signalDriver
deriving DecidableEq, Repr

/-- A call row record (R125). Times are clock minutes; the destination is the characters shown, a name
or the digits of a code. -/
structure CallRow where
  scheduled : Nat
  destination : List Byte
  platform : Platform
  status : Option DisplayStatus
  shown : Option Nat
  stopLine : Option StopLine
deriving DecidableEq, Repr

/-- A row record (R125, R127, R133). -/
inductive RowRecord
  | blank | noTime | noTimetable | call (r : CallRow) | text (t : List Byte)
deriving DecidableEq, Repr

/-- Row image and pending mark of one row (8.1). -/
structure RowCell where
  image : RowRecord := .blank
  pending : Bool := false
deriving DecidableEq, Repr

/-- A present screen: its rows, departure rows first and the message row last, and the pending mark
of its brightness (8.1). -/
structure Screen where
  rows : List RowCell
  brightnessPending : Bool := false
deriving DecidableEq, Repr

/-- Screen messages (R129). Rows are numbered from 1. -/
inductive ScreenMessage
  | row (screen : ScreenNo) (number : Nat) (record : RowRecord)
  | brightness (screen : ScreenNo) (level : Nat)
deriving DecidableEq, Repr

/-- A passenger message record (8.5). -/
structure Message where
  id : Byte
  priority : Nat
  screens : BitVec 3
  window : Option Window
  lastDate : Option Date
  text : List Byte
  hold : List HaltCode
deriving DecidableEq, Repr

/-- Energy modes (8.6). -/
inductive Energy
  | lit | dim | dark
deriving DecidableEq, Repr

/-- Wake causes (R137). -/
inductive WakeCause
  | none | dueTrain | message | terminal | button | notice
deriving DecidableEq, Repr

/-- Counters of the BDC (8.7). -/
structure BdcCounters where
  form : Nat := 0
  full : Nat := 0
  noId : Nat := 0
  darkEntries : Nat := 0
deriving DecidableEq, Repr

/-- A screen with blank rows and no mark: the start value (R139, log entry 24). -/
def Screen.fresh : ScreenNo → Screen
  | .one | .two => ⟨List.replicate 6 {}, false⟩
  | .three => ⟨List.replicate 9 {}, false⟩

/-- Board Compositor (8.1). A screen not present is `none` (R122). -/
structure Bdc where
  one : Option Screen := some (.fresh .one)
  two : Option Screen := some (.fresh .two)
  three : Option Screen := some (.fresh .three)
  link : Option ScreenMessage := none
  messages : Vector (Option Message) 8 := Vector.replicate 8 none
  valid : List Message := []
  held : List HaltCode := []
  energy : Energy := .lit
  brightness : Nat := 6
  supply : Bool := true
  activity : Timer := .running Config.activityMs
  warmUp : Timer := .running Config.warmUpMs
  wakeCause : WakeCause := .none
  ctr : BdcCounters := {}
deriving DecidableEq, Repr

/-! ## Fare and Quote Unit (09) -/

/-- A destination record (R140). -/
structure DestinationRecord where
  code : HaltCode
  distance : Nat
  name : List Byte
  sellable : Bool
deriving DecidableEq, Repr

/-- Validity rules of a ticket type (R140). -/
inductive ValidityRule
  | any | offPeakOnly | specifiedCall
deriving DecidableEq, Repr

/-- A ticket type (R140). -/
structure TicketType where
  id : Byte
  multiplier : Nat
  rule : ValidityRule
deriving DecidableEq, Repr

/-- A time band (R140). -/
structure TimeBand where
  window : Window
  factor : Nat
deriving DecidableEq, Repr

/-- A concession class (R140). -/
structure Concession where
  discount : Nat
  minimum : Nat
deriving DecidableEq, Repr

/-- A fare table; the defaults are the empty values of R140. Class n stands at index n − 1. -/
structure FareTable where
  destinations : List DestinationRecord := []
  base : Vector Nat 16 := Vector.replicate 16 0
  types : List TicketType := []
  bands : Vector (Option TimeBand) 4 := Vector.replicate 4 none
  classes : Vector (Option Concession) 4 := Vector.replicate 4 none
  unit : Nat := 1
  dayKey : BitVec 16 := 0#16
deriving DecidableEq, Repr

/-- An activation instant (R142). -/
structure Instant where
  date : Date
  secs : Nat
deriving DecidableEq, Repr

/-- A quote (R146). Class n stands as `n − 1`. -/
structure Quote where
  destination : HaltCode
  type : Byte
  cls : Option (Fin 4)
  call : Option Key
  unitPrice : Nat
  quantity : Nat
  total : Nat
  created : Nat
deriving DecidableEq, Repr

/-- Quote slot states (9.4). -/
inductive Slot
  | free | opened (q : Quote) | pendingAuth (q : Quote) (withdrawn : Bool)
deriving DecidableEq, Repr

/-- Counters of the FQU (9.7). -/
structure FquCounters where
  form : Nat := 0
  full : Nat := 0
  noPend : Nat := 0
  expired : Nat := 0
  withdrawn : Nat := 0
deriving DecidableEq, Repr

/-- Fare and Quote Unit (9.1). -/
structure Fqu where
  active : Option FareTable := none
  pendingTable : Option FareTable := none
  schedule : Option Instant := none
  activations : BitVec 16 := 0#16
  slots : Vector Slot 4 := Vector.replicate 4 .free
  ctr : FquCounters := {}
deriving DecidableEq, Repr

/-! ## Sales Journal Unit (10) -/

/-- Payment kinds (10.3). -/
inductive PaymentKind
  | cash | cardOnline | cardOffline
deriving DecidableEq, Repr

/-- Authorisation tag (R162). -/
structure Tag where
  haltCode : HaltCode
  slot : Byte
  serial : Byte
deriving DecidableEq, Repr

/-- Count and amount of one payment kind (10.1). -/
structure Tally where
  count : Nat := 0
  amount : Nat := 0
deriving DecidableEq, Repr

/-- Day totals (R170). -/
structure DayTotals where
  cash : Tally := {}
  cardOnline : Tally := {}
  cardOffline : Tally := {}
deriving DecidableEq, Repr

/-- Fields of a SALE record but its sequence (R166). -/
structure Sale where
  date : Date
  secs : Nat
  ticket : TicketNo
  destination : HaltCode
  type : Byte
  cls : Option (Fin 4)
  quantity : Nat
  unitPrice : Nat
  total : Nat
  payment : PaymentKind
  authCode : Option (List Byte)
  call : Option Key
  offline : Bool
  checkCode : BitVec 16
deriving DecidableEq, Repr

/-- Journal record kinds with their fields (R166). -/
inductive JournalBody
  | sale (r : Sale)
  | void (date : Date) (secs : Nat) (ticket : TicketNo) (total : Nat)
  | reversal (date : Date) (secs : Nat) (tag : Tag) (total : Nat) (authCode : List Byte)
  | dayTotal (closed : Date) (totals : DayTotals)
  | restore (date : Date) (secs : Nat) (authsLost quotesLost : Nat)
deriving DecidableEq, Repr

/-- A journal record (R166). -/
structure JournalRecord where
  seq : Seq
  body : JournalBody
deriving DecidableEq, Repr

/-- Sales modes (10.1). -/
inductive SalesMode
  | opened | offline | closed
deriving DecidableEq, Repr

/-- Entry of the issued-ticket window (R160). -/
structure IssuedTicket where
  seq : Seq
  sale : Sale
  limit : Timer
deriving DecidableEq, Repr

/-- The pending authorisation (R162). -/
structure PendingAuth where
  tag : Tag
  slot : Fin 4
  total : Nat
  timer : Timer
deriving DecidableEq, Repr

/-- Entry of the timed-out tag list (R164). -/
structure LateTag where
  tag : Tag
  total : Nat
deriving DecidableEq, Repr

/-- Counters of the SJU (10.7). -/
structure SjuCounters where
  authForm : Nat := 0
  authUnknown : Nat := 0
  authLate : Nat := 0
  authTimeouts : Nat := 0
  authLinkLosses : Nat := 0
  reversalLost : Nat := 0
  recordLost : Nat := 0
  jackForm : Nat := 0
  ackAhead : Nat := 0
  ackBehind : Nat := 0
deriving DecidableEq, Repr

/-- Sales Journal Unit (10.1). `ackSeq`, `nextSeq`, `writeSeq` are the pointers A, N, W. -/
structure Sju where
  journal : List JournalRecord := []
  ackSeq : Seq := 1#32
  nextSeq : Seq := 1#32
  writeSeq : Seq := 1#32
  quotesHeld : Nat := 0
  authsPending : Nat := 0
  ticketCounter : TicketNo := 1#32
  totals : DayTotals := {}
  journalLost : Bool := true
  salesMode : SalesMode := .closed
  xc : Nat := 0
  xa : Nat := 0
  window : List IssuedTicket := []
  pendingAuth : Option PendingAuth := none
  authSerial : Byte := 0#8
  lateTags : List LateTag := []
  ackTimer : Timer := .stopped
  ctr : SjuCounters := {}
deriving DecidableEq, Repr

/-! ## Results, notices and replies (11) -/

/-- Results of a reply or an ISSUE_DONE notice, in code order (R183). -/
inductive Result
  | ok | badMessage | busy | salesClosed | noDest | notSellable | held | noCall | callGone
  | typeNotValidNow | quoteUnknown | linkDown | offlineLimit | pending | tooLate | journalFull
  | found | partialScan | ended | stale | notFound | ready | mismatch | declined
  | quoteWithdrawn | authTimeout | authLink
deriving DecidableEq, Repr

/-- Notices (R181). -/
inductive Notice
  | salesMode (m : SalesMode)
  | quoteWithdrawn (slot : Fin 4)
  | issueDone (slot : Fin 4) (result : Result) (ticket : Option TicketNo)
  | stopState (k : Key) (st : StopState)
  | journalNearFull
  | timeSync (st : SyncState)
deriving DecidableEq, Repr

/-- One result of a FIND (R153). The scheduled and shown times are clock minutes. -/
structure FindResult where
  key : Key
  scheduled : Nat
  display : Option DisplayStatus
  shown : Option Nat
  platform : Platform
  stopMode : StopMode
deriving DecidableEq, Repr

/-- Resume token of a FIND (R152). -/
structure FindToken where
  generation : BitVec 16
  position : Nat
deriving DecidableEq, Repr

/-- The three states of a quote slot, which STATUS reports (9.4, R180). -/
inductive SlotState
  | free | opened | pendingAuth
deriving DecidableEq, Repr

/-- Content of the STATUS reply (R180). -/
structure TerminalStatus where
  salesMode : SalesMode
  upState : PortState
  sync : SyncState
  uncertainty : Nat
  energy : Energy
  occupancy : Nat
  xc : Nat
  xa : Nat
  currentState : CurrentState
  slots : List SlotState
  notices : Nat
deriving DecidableEq, Repr

/-- Body of a terminal reply after its result (9.4, 9.6, 10.3, 10.4, 11.6). -/
inductive TerminalBody
  | empty
  | quote (slot : Fin 4) (unitPrice total : Nat) (activations : BitVec 16) (stopNeeded : Bool)
  | issue (ticket : TicketNo) (change : Option Nat)
  | ticket (sale : Sale)
  | find (results : List FindResult) (token : Option FindToken)
  | notices (overflow : Bool) (list : List Notice)
  | status (st : TerminalStatus)
deriving DecidableEq, Repr

/-- A terminal reply: the code octet of the message it answers, the result, the body (R180). -/
structure TerminalReply where
  code : Byte
  result : Result
  body : TerminalBody := .empty
deriving DecidableEq, Repr

/-- Where the request parser stands between messages (R179). -/
inductive Parser
  | waiting | ignoring
deriving DecidableEq, Repr

/-- Counters of the TPI (R182). -/
structure TpiCounters where
  gap : Nat := 0
  check : Nat := 0
  form : Nat := 0
  overrun : Nat := 0
deriving DecidableEq, Repr

/-- Terminal Port Interface (11.6). -/
structure Tpi where
  parser : Parser := .waiting
  replies : List TerminalReply := []
  ring : List Notice := []
  overflow : Bool := false
  ctr : TpiCounters := {}
deriving DecidableEq, Repr

/-- Kinds of REPLY (R183). -/
inductive ReplyKind
  | status | counters | call | bank | price | config | bankClose
deriving DecidableEq, Repr

/-- A group window (R39). -/
structure GroupWindow where
  base : Nat
  size : Nat
deriving DecidableEq, Repr

/-- Body of the REPLY to QUERY STATUS (R176). `beacon` holds the 18 fields of R48. -/
structure StatusBody where
  beacon : List Nat
  upPeer : Option PeerRecord
  downPeer : Option PeerRecord
  configuredHour : Nat
  hourInForce : Nat
  activePresent : Bool
  pendingPresent : Bool
  activations : BitVec 16
  messageIds : List Byte
  salesClosed : Bool
  uptime : Nat
  date : Date
  secs : Nat
  sinceSync : Nat
deriving DecidableEq, Repr

/-- Body of the REPLY to QUERY BANK (R176). -/
structure BankBody where
  currentState : CurrentState
  currentDate : Date
  currentCount : Nat
  nextState : NextState
  nextDate : Date
  nextCount : Nat
  generation : BitVec 16
deriving DecidableEq, Repr

/-- Bodies of REPLY frames (R176, R78). -/
inductive ReplyBody
  | empty
  | status (b : StatusBody)
  | counters (values : List Nat)
  | call (c : Call) (expected : Nat)
  | bank (b : BankBody)
  | price (unitPrice total : Nat) (activations : BitVec 16)
  | value (v : Nat)
  | window (w : Option GroupWindow)
  | bankClose (count : Nat) (state : NextState) (date : Date)
deriving DecidableEq, Repr

/-- A REPLY (R176). -/
structure Reply where
  queryNumber : Byte
  kind : ReplyKind
  result : Result
  body : ReplyBody := .empty
deriving DecidableEq, Repr

/-! ## Transmit queues and the Frame Relay Unit (03) -/

/-- Payload of a frame to be sent: octets, or the named fields of a frame whose octet layout
11.7 leaves open in part (log entry 15). -/
inductive Payload
  | octets (bs : List Byte)
  | journal (first : Seq) (records : List JournalRecord)
  | reply (r : Reply)
deriving DecidableEq, Repr

/-- A frame to be sent. -/
structure TxFrame where
  kind : Byte
  destination : HaltCode
  origin : HaltCode
  hop : Byte
  payload : Payload
deriving DecidableEq, Repr

/-- Classes of a queued frame (R50). -/
inductive TxClass
  | urgent | relay | own
deriving DecidableEq, Repr

/-- An occupied slot of a transmit queue (R50). -/
structure Queued where
  cls : TxClass
  frame : TxFrame
deriving DecidableEq, Repr

/-- Transmitter states (1.1), and the abort of R16 while its ones are sent. -/
inductive TxState
  | silent | flags | sending (f : TxFrame) | aborting
deriving DecidableEq, Repr

/-- The FRU counters kept for one port (3.9). -/
structure FruPortCounters where
  hopEnd : Nat := 0
  kindUnknown : Nat := 0
  portDownDrop : Nat := 0
  dropUrgent : Nat := 0
  dropRelay : Nat := 0
  dropOwn : Nat := 0
  flushed : Nat := 0
deriving DecidableEq, Repr

/-- One line port with its LSU and its transmit queue. `seqCounted` is the model's: octets of the
present sequence already added to the octet count (log entry 9). -/
structure LinePort where
  rx : RxState
  buffers : List RxFrame := []
  octetCount : Nat := 0
  seqCounted : Nat := 0
  rateMode : RateMode
  rxRate : Rate
  dwell : Timer
  goodRun : Nat := 0
  txRate : Option Rate
  tx : TxState
  ctr : PortCounters := {}
  lsu : Lsu
  queue : List Queued := []
  runOfThree : Nat := 0
  fruCtr : FruPortCounters := {}
deriving DecidableEq, Repr

/-- An entry of the origin table (R44). `fields` holds the 18 BEACON field values. -/
structure OriginEntry where
  origin : HaltCode
  fields : List Nat
  uptime : Nat
deriving DecidableEq, Repr

/-- Frame Relay Unit: what is not kept per port (3.1). -/
structure Fru where
  windows : Vector (Option GroupWindow) 4 := Vector.replicate 4 none
  origins : Vector (Option OriginEntry) 32 := Vector.replicate 32 none
  beaconTimer : Timer := .running 60000
  unaddressed : Bool
  filtered : Nat := 0
  refused : Nat := 0
deriving DecidableEq, Repr

/-! ## Configuration and the Management Unit (11) -/

/-- Per-port parameters (2.1.1), at their defaults. -/
structure PortParams where
  enabled : Bool := true
  mode : MonitorMode := .frame
  limit : Nat := 32
  credit : Nat := 64
  align : Nat := 4
  period : Nat := 3
deriving DecidableEq, Repr

/-- The beacon mask's default: every field but 5, 7, 9, 10 and 14 (11.2). Field i is bit i − 1. -/
def defaultMask : BitVec 18 := 0x3DCAF#18

/-- Configuration parameters (11.2), at their defaults. -/
structure Params where
  phi : Nat := 50
  ageOne : Nat := 300
  ageTwo : Nat := 1200
  late : Nat := 2
  window : Nat := 45
  cutoff : Nat := 3
  darkLead : Nat := 20
  deferLimit : Nat := 60
  hour : Nat := 3
  beaconInterval : Nat := 60
  beaconMask : BitVec 18 := defaultMask
  refresh : Nat := 300
  offlineCount : Nat := 40
  offlineAmount : Nat := 40000
  authTimeout : Nat := 20
  quoteExpiry : Nat := 120
  initialHop : Nat := 32
  brightness : Nat := 6
  dimDivisor : Nat := 2
  night : Window := ⟨1410, 330⟩
  ownPoint : PointCode := 0#16
  screens : BitVec 3 := 7#3
  up : PortParams := {}
  down : PortParams := {}
deriving DecidableEq, Repr

/-- The three latched strap values (R174). -/
structure Latched where
  haltCode : HaltCode
  upMode : RateMode
  terminalRate : TerminalRate
deriving DecidableEq, Repr

/-- Counters of the MGU (R182). -/
structure MguCounters where
  configForm : Nat := 0
  queryForm : Nat := 0
  ctrlForm : Nat := 0
deriving DecidableEq, Repr

/-! ## The outcomes that stop -/

/-- Faults: none. The spec stops the part nowhere; every malformed input is counted, answered or
ignored (INVENTORY.md, Faults). -/
inductive Fault
deriving DecidableEq, Repr

/-- Refusals. -/
inductive Refusal
  /-- Raised by an arm of `exec` whose command has no meaning yet. Safe: the run stops there. -/
  | notModelled (mnemonic : String)
deriving DecidableEq, Repr

/-! ## The state -/

/-- The part, and the commands that wait. -/
structure State where
  /-- Commands that wait, first in, first out (model's own). -/
  pending : List Instr := []
  /-- Main power is present. -/
  powered : Bool := true
  /-- A start is being carried out, so that modes derived in it post no notice (R178). -/
  starting : Bool := false
  /-- Levels at the strap pins (R174). -/
  strapPins : StrapPins
  /-- Level of the LOW_ENERGY input (R135). -/
  lowEnergy : Bool := false
  /-- Retained integrity mark (R178). -/
  mark : Bool := true
  /-- Configuration parameters, retained (11.2). -/
  params : Params := {}
  /-- Latched straps (R174). -/
  own : Latched
  /-- Centre sales-close flag, retained (R177). -/
  salesClosed : Bool := false
  /-- Counters of the MGU (R182). -/
  mgu : MguCounters := {}
  /-- Up port (01, 02, 03). -/
  up : LinePort
  /-- Down port (01, 02, 03). -/
  down : LinePort
  /-- Frame Relay Unit (03). -/
  fru : Fru
  /-- Halt Time Base (04). -/
  htb : Htb := {}
  /-- Timetable Store, with the forecast and stop items of each call (05, 06, 07). -/
  tts : Tts := {}
  /-- Stop Request Unit (07). -/
  sru : Sru := {}
  /-- Board Compositor (08). -/
  bdc : Bdc := {}
  /-- Fare and Quote Unit (09). -/
  fqu : Fqu := {}
  /-- Sales Journal Unit (10). -/
  sju : Sju := {}
  /-- Terminal Port Interface (11). -/
  tpi : Tpi := {}
deriving DecidableEq, Repr

/-- Strap pins at reset: halt code 0, AUTO, 9600. DESIGN CHOICE, log entry 5. -/
def resetPins : StrapPins := ⟨0#12, .auto, .r9600⟩

/-- A port at a start that finds it enabled, AUTO, and without a transmit rate (R18, R35, R55). -/
def LinePort.atReset : LinePort where
  rx := .seek
  rateMode := .auto
  rxRate := .r19200
  dwell := .running Config.dwellMs
  txRate := none
  tx := .silent
  lsu := { state := .hunt, fillDue := .expired }

/-- The part just after a cold start with the pins of log entry 5 (R18, R35, R55, R69, R92, R121,
R139, R155, R173, R178, R181). -/
def State.reset : State where
  strapPins := resetPins
  own := ⟨0#16, .auto, .r9600⟩
  up := .atReset
  down := .atReset
  fru := { unaddressed := true }

end Sys2Proof.Machine
end

