-- ==== Sys2Proof/Machine/Ops.lean ====
section
/-! DEFINITION. Named operations over the state and its parts: counters, octets, bits, the check
code, timers, and the homes of ports, platforms, screens and calls. -/

namespace Sys2Proof.Machine

/-! ## Counts -/

/-- A 32-bit count one further, saturating (00_scope.md 4.4). -/
def tally (n : Nat) : Nat := min (n + 1) Config.max32

/-- A 32-bit quantity increased by `k`, saturating (00_scope.md 4.3). -/
def satAdd (n k : Nat) : Nat := min (n + k) Config.max32

/-- A value clamped to a range (00_scope.md 4.3). -/
def clamp (lo hi v : Nat) : Nat := max lo (min hi v)

/-- The command's effect on a part with main power; a part without it does nothing (log entry 7). -/
def whenPowered (s : State) (f : State → State) : Host.Outcome State Fault Refusal :=
  .next (if s.powered then f s else s)

/-- Whether a timer runs. -/
def Timer.isRunning : Timer → Bool
  | .running _ => true
  | .stopped | .expired => false

/-- The timer after its expiry. -/
def Timer.isExpired : Timer → Bool
  | .expired => true
  | .stopped | .running _ => false

/-- A number within 0..3 as a slot. -/
def slotOf (n : Nat) : Option (Fin 4) := if h : n < 4 then some ⟨n, h⟩ else none

/-! ## Octets: most significant first (11.7) -/

/-- The number that octets spell. -/
def beVal (bs : List Byte) : Nat := bs.foldl (fun v b => v * 256 + b.toNat) 0

/-- A number as `n` octets, the excess above them dropped. -/
def be : Nat → Nat → List Byte
  | 0, _ => []
  | n + 1, v => be n (v / 256) ++ [BitVec.ofNat 8 v]

/-- The number in the `n` octets from place `i`. -/
def field (bs : List Byte) (i n : Nat) : Nat := beVal ((bs.drop i).take n)

/-- The 16-bit word at place `i`. -/
def word (bs : List Byte) (i : Nat) : BitVec 16 := BitVec.ofNat 16 (field bs i 2)

/-- A flag or mark octet: 1 when set and 0 when clear (R183); any other octet is a free value. -/
def flagSet (b : Nat) : Bool :=
  if b = 0 then false else if b = 1 then true else Config.flagOctet (BitVec.ofNat 8 b)

/-- The exclusive-or of octets (R179). -/
def xorOctets (bs : List Byte) : Byte := bs.foldl (· ^^^ ·) 0#8

/-- A terminal message: code, length, body, check (R179). -/
def terminalMessage (code : Byte) (body : List Byte) : List Byte :=
  let m := code :: be 1 body.length ++ body
  m ++ [xorOctets m]

/-! ## Decimal digits (R125) -/

/-- The character of a decimal digit: its ASCII code, the model's presumption (log entry 48). -/
def digitChar (d : Nat) : Byte := BitVec.ofNat 8 (48 + d)

/-- A number of at most five digits in decimal digits without leading zeros (R125). -/
def decimalDigits (n : Nat) : List Byte :=
  ((([10000, 1000, 100, 10].map fun d => n / d % 10).dropWhile (· == 0)) ++ [n % 10]).map digitChar

/-! ## Bits of the line (R1, R5, R15) -/

/-- The bits of an octet in line order, least significant first. -/
def octetBits (b : Byte) : List Bool :=
  [b.getLsbD 0, b.getLsbD 1, b.getLsbD 2, b.getLsbD 3,
   b.getLsbD 4, b.getLsbD 5, b.getLsbD 6, b.getLsbD 7]

/-- An octet from its bits in line order. -/
def octetOf (bs : List Bool) : Byte :=
  BitVec.ofNat 8 (bs.foldr (fun b v => 2 * v + b.toNat) 0)

/-- The whole octets of a bit string in arrival order (R1); a rest of fewer than 8 bits is left. -/
def octetsOf : List Bool → List Byte
  | b0 :: b1 :: b2 :: b3 :: b4 :: b5 :: b6 :: b7 :: rest =>
    octetOf [b0, b1, b2, b3, b4, b5, b6, b7] :: octetsOf rest
  | _ => []

/-- Stuffed zeros removed, `n` ones having gone before: a zero after five ones goes (R1). -/
def destuffFrom (n : Nat) : List Bool → List Bool
  | [] => []
  | true :: bs => true :: destuffFrom (n + 1) bs
  | false :: bs => if n = 5 then destuffFrom 0 bs else false :: destuffFrom 0 bs

/-- The content of the line bits after a flag (R1). -/
def destuff (bs : List Bool) : List Bool := destuffFrom 0 bs

/-- Stuffed zeros inserted, `n` ones having gone before: one after every five ones (R15). -/
def stuffFrom (n : Nat) : List Bool → List Bool
  | [] => []
  | true :: bs => if n = 4 then true :: false :: stuffFrom 0 bs else true :: stuffFrom (n + 1) bs
  | false :: bs => false :: stuffFrom 0 bs

/-- The line bits of a content (R15). -/
def stuff (bs : List Bool) : List Bool := stuffFrom 0 bs

/-- One bit of the division by x^16 + x^12 + x^5 + 1 (R5). -/
def crcStep (r : BitVec 16) (b : Bool) : BitVec 16 :=
  if r.msb != b then (r <<< 1) ^^^ 0x1021#16 else r <<< 1

/-- The remainder after the bits, from a starting remainder (R5, R159). -/
def crcFrom (start : BitVec 16) (bits : List Bool) : BitVec 16 := bits.foldl crcStep start

/-- The 16 FCS bits of a content, the coefficient of x^15 first (R5). -/
def fcsBits (bits : List Bool) : List Bool :=
  let r := ~~~ crcFrom 0xFFFF#16 bits
  (List.range 16).map fun i => r.getMsbD i

/-- The receiver's check over the content and its FCS: the final remainder is
x^12 + x^11 + x^10 + x^8 + x^3 + x^2 + x + 1 (R5). -/
def fcsGood (bits : List Bool) : Bool := crcFrom 0xFFFF#16 bits == 0x1D0F#16

/-- The check code of a ticket over its 21 octets, from the day key (R159). -/
def checkCode (dayKey : BitVec 16) (octets : List Byte) : BitVec 16 :=
  crcFrom dayKey (octets.flatMap octetBits)

/-! ## Dates (R70) -/

/-- The difference of two dates modulo 65536, read as −32768..32767. -/
def dateDiff (a b : Date) : Int := (a - b).toInt

/-! ## Ports, platforms and screens: one home each -/

/-- A port's record. -/
def State.port (s : State) : Port → LinePort
  | .up => s.up
  | .down => s.down

/-- The state with a port's record replaced. -/
def State.setPort (s : State) (p : Port) (lp : LinePort) : State :=
  match p with
  | .up => { s with up := lp }
  | .down => { s with down := lp }

/-- The state with a port's record changed. -/
def State.modPort (s : State) (p : Port) (f : LinePort → LinePort) : State :=
  s.setPort p (f (s.port p))

/-- A port's LSU changed. -/
def State.modLsu (s : State) (p : Port) (f : Lsu → Lsu) : State :=
  s.modPort p fun lp => { lp with lsu := f lp.lsu }

/-- A port's parameters. -/
def Params.port (ps : Params) : Port → PortParams
  | .up => ps.up
  | .down => ps.down

/-- A port's parameters replaced. -/
def Params.setPort (ps : Params) (p : Port) (pp : PortParams) : Params :=
  match p with
  | .up => { ps with up := pp }
  | .down => { ps with down := pp }

/-- What the SRU holds for a platform. -/
def Sru.io (r : Sru) : Platform → PlatformIo
  | .one => r.one
  | .two => r.two

/-- What the SRU holds for a platform, changed. -/
def State.modIo (s : State) (p : Platform) (f : PlatformIo → PlatformIo) : State :=
  match p with
  | .one => { s with sru := { s.sru with one := f s.sru.one } }
  | .two => { s with sru := { s.sru with two := f s.sru.two } }

/-- A screen, if present. -/
def Bdc.screen (b : Bdc) : ScreenNo → Option Screen
  | .one => b.one
  | .two => b.two
  | .three => b.three

/-- A screen replaced. -/
def Bdc.setScreen (b : Bdc) (n : ScreenNo) (sc : Option Screen) : Bdc :=
  match n with
  | .one => { b with one := sc }
  | .two => { b with two := sc }
  | .three => { b with three := sc }

/-- Every present screen changed. -/
def Bdc.mapScreens (b : Bdc) (f : ScreenNo → Screen → Screen) : Bdc :=
  { b with one := b.one.map (f .one), two := b.two.map (f .two), three := b.three.map (f .three) }

/-- A port's counters changed. -/
def State.modCtr (s : State) (p : Port) (f : PortCounters → PortCounters) : State :=
  s.modPort p fun lp => { lp with ctr := f lp.ctr }

/-- The FRU counters of a port changed. -/
def State.modFruCtr (s : State) (p : Port) (f : FruPortCounters → FruPortCounters) : State :=
  s.modPort p fun lp => { lp with fruCtr := f lp.fruCtr }

/-- The TTS counters changed. -/
def State.modTtsCtr (s : State) (f : TtsCounters → TtsCounters) : State :=
  { s with tts := { s.tts with ctr := f s.tts.ctr } }

/-- The HTB counters changed. -/
def State.modHtbCtr (s : State) (f : HtbCounters → HtbCounters) : State :=
  { s with htb := { s.htb with ctr := f s.htb.ctr } }

/-- The SRU counters changed. -/
def State.modSruCtr (s : State) (f : SruCounters → SruCounters) : State :=
  { s with sru := { s.sru with ctr := f s.sru.ctr } }

/-- The BDC counters changed. -/
def State.modBdcCtr (s : State) (f : BdcCounters → BdcCounters) : State :=
  { s with bdc := { s.bdc with ctr := f s.bdc.ctr } }

/-- The FQU counters changed. -/
def State.modFquCtr (s : State) (f : FquCounters → FquCounters) : State :=
  { s with fqu := { s.fqu with ctr := f s.fqu.ctr } }

/-- The SJU counters changed. -/
def State.modSjuCtr (s : State) (f : SjuCounters → SjuCounters) : State :=
  { s with sju := { s.sju with ctr := f s.sju.ctr } }

/-- The TPI counters changed. -/
def State.modTpiCtr (s : State) (f : TpiCounters → TpiCounters) : State :=
  { s with tpi := { s.tpi with ctr := f s.tpi.ctr } }

/-! ## Calls and banks (05) -/

/-- A record's key. -/
def Loaded.key (l : Loaded) : Key := ⟨l.train, l.runDate⟩

/-- A call's key. -/
def Call.key (c : Call) : Key := c.loaded.key

/-- The record that holds a key. -/
def findCall (calls : List Call) (k : Key) : Option Call := calls.find? fun c => c.key == k

/-- The call of CURRENT that holds a key. -/
def State.call (s : State) (k : Key) : Option Call := findCall s.tts.current k

/-- The calls of CURRENT changed one by one. -/
def State.mapCalls (s : State) (f : Call → Call) : State :=
  { s with tts := { s.tts with current := s.tts.current.map f } }

/-- The call of CURRENT that holds a key, changed. -/
def State.modCall (s : State) (k : Key) (f : Call → Call) : State :=
  s.mapCalls fun c => if c.key = k then f c else c

/-- Bank order (R72): S, then train number, then run date. -/
def Loaded.before (a b : Loaded) : Bool :=
  a.sched < b.sched || (a.sched == b.sched &&
    (a.train < b.train || (a.train == b.train && a.runDate < b.runDate)))

/-- A record inserted in its place (R72). -/
def insertCall (c : Call) : List Call → List Call
  | [] => [c]
  | x :: xs => if c.loaded.before x.loaded then c :: x :: xs else x :: insertCall c xs

/-- The records without the one that holds a key; the gap closes (R72, R76). -/
def removeCall (k : Key) (calls : List Call) : List Call := calls.filter fun c => c.key != k

/-- Index of a point code in a timing point list, −1 when it is not there (5.2). -/
def pointIndex (points : List TimingPoint) (code : PointCode) : Int :=
  match points.findIdx? fun t => t.code == code with
  | some i => i
  | none => -1

/-- A call between SCHEDULED and its departure: a running call (5.4). -/
def Call.isRunning (c : Call) : Bool :=
  match c.state with
  | .scheduled | .running => true
  | .departed | .cancelled | .expired => false

/-- Expected departure E = S + F (R93). -/
def Call.expected (c : Call) : Nat := c.loaded.sched + c.forecast

end Sys2Proof.Machine
end

