-- ==== Sys2Proof/Machine/Operands.lean ====
section
/-! DEFINITION. Operand forms: the codes of R183, and what the payload of each frame kind, the body of
each load and each terminal message says, or that its form is bad. Places count from the first octet
of the payload or body. -/

namespace Sys2Proof.Machine

/-! ## Frame kinds and LOAD subkinds (11.7) -/

/-- Frame kinds (11.7). -/
inductive Kind
  | fill | time | load | query | ctrl | jack | authres | stopconf | run | beacon | jrnl | reply
  | stopreq | authreq
deriving DecidableEq, Repr

/-- The kind a code names. -/
def Kind.ofCode (c : Byte) : Option Kind :=
  match c.toNat with
  | 1 => some .fill | 2 => some .time | 3 => some .load | 4 => some .query | 5 => some .ctrl
  | 6 => some .jack | 7 => some .authres | 8 => some .stopconf | 9 => some .run
  | 10 => some .beacon | 11 => some .jrnl | 12 => some .reply | 13 => some .stopreq
  | 14 => some .authreq | _ => none

/-- The code of a kind. -/
def Kind.code : Kind → Byte
  | .fill => 1#8 | .time => 2#8 | .load => 3#8 | .query => 4#8 | .ctrl => 5#8 | .jack => 6#8
  | .authres => 7#8 | .stopconf => 8#8 | .run => 9#8 | .beacon => 10#8 | .jrnl => 11#8
  | .reply => 12#8 | .stopreq => 13#8 | .authreq => 14#8

/-- LOAD subkinds (11.7). -/
inductive LoadKind
  | callAdd | callDelete | bankOpen | bankClose | fare | fareActivate | message | messageDelete
  | config | window
deriving DecidableEq, Repr

/-- The subkind of a LOAD payload, if it is one of those named. -/
def LoadKind.ofPayload (bs : List Byte) : Option LoadKind :=
  match field bs 0 1 with
  | 1 => some .callAdd | 2 => some .callDelete | 3 => some .bankOpen | 4 => some .bankClose
  | 5 => some .fare | 6 => some .fareActivate | 7 => some .message | 8 => some .messageDelete
  | 9 => some .config | 10 => some .window | _ => none

/-! ## Codes of enumerated fields (R183) -/

/-- The two banks as fields name them. -/
inductive Bank
  | current | next
deriving DecidableEq, Repr

def Bank.ofCode : Nat → Option Bank
  | 1 => some .current | 2 => some .next | _ => none

def Direction.ofCode : Nat → Option Direction
  | 1 => some .up | 2 => some .down | _ => none

def platformOfCode : Nat → Option Platform
  | 1 => some .one | 2 => some .two | _ => none

def portOfCode : Nat → Option Port
  | 1 => some .up | 2 => some .down | _ => none

def StopMode.ofCode : Nat → Option StopMode
  | 1 => some .always | 2 => some .request | 3 => some .pass | _ => none

def ValidityRule.ofCode : Nat → Option ValidityRule
  | 1 => some .any | 2 => some .offPeakOnly | 3 => some .specifiedCall | _ => none

def PaymentKind.ofCode : Nat → Option PaymentKind
  | 1 => some .cash | 2 => some .cardOnline | 3 => some .cardOffline | _ => none

/-- The sender state of a FILL (11.7). -/
def fillState : Nat → Option PortState
  | 1 => some .hunt | 2 => some .proving | 3 => some .service | _ => none

/-! ## FILL, TIME, JACK, STOPCONF, AUTHRES, RUN, CTRL -/

/-- A well-formed FILL content (R32). -/
structure FillContent where
  state : PortState
  bucket : Byte
  haltCode : HaltCode
deriving DecidableEq, Repr

def FillContent.ofPayload (bs : List Byte) : Option FillContent :=
  if bs.length = 4 then
    (fillState (field bs 0 1)).map fun st => ⟨st, BitVec.ofNat 8 (field bs 1 1), word bs 2⟩
  else none

/-- A well-formed TIME (R59). -/
structure TimeFrame where
  date : Date
  secs : Nat
  force : Bool
deriving DecidableEq, Repr

def TimeFrame.ofPayload (bs : List Byte) : Option TimeFrame :=
  if bs.length = 6 ∧ field bs 2 3 < Config.daySeconds then
    some ⟨word bs 0, field bs 2 3, flagSet (field bs 5 1)⟩
  else none

/-- The sequence number a JACK of the right length carries (R169). -/
def jackOfPayload (bs : List Byte) : Option Seq :=
  if bs.length = 4 then some (BitVec.ofNat 32 (field bs 0 4)) else none

/-- The key a STOPCONF of the right length carries (R113). -/
def stopconfOfPayload (bs : List Byte) : Option Key :=
  if bs.length = 4 then some ⟨word bs 0, word bs 2⟩ else none

/-- A well-formed AUTHRES (R163). -/
structure AuthResult where
  tag : Tag
  approved : Bool
  authCode : List Byte
deriving DecidableEq, Repr

def AuthResult.ofPayload (bs : List Byte) : Option AuthResult :=
  if bs.length = 11 ∧ (field bs 4 1 = 1 ∨ field bs 4 1 = 2) then
    some ⟨⟨word bs 0, BitVec.ofNat 8 (field bs 2 1), BitVec.ofNat 8 (field bs 3 1)⟩,
      field bs 4 1 == 1, bs.drop 5⟩
  else none

/-- RUN events with the fields they use (R80). -/
inductive RunEvent
  | point (code : PointCode) (delay : Int) (time : Nat)
  | cancel | reinstate
  | platform (p : Platform)
deriving DecidableEq, Repr

/-- A well-formed RUN (R80). -/
structure RunNotice where
  key : Key
  event : RunEvent
deriving DecidableEq, Repr

/-- A delay clamped to −1800..21600 s (R80). -/
def clampDelay (d : Int) : Int := max (-1800) (min 21600 d)

/-- The event of a RUN payload of the right length, if its form is good (R80). -/
def RunEvent.ofPayload (bs : List Byte) : Option RunEvent :=
  match field bs 4 1 with
  | 1 =>
    if word bs 5 ≠ 0#16 ∧ field bs 9 3 ≤ Config.maxService then
      some (.point (word bs 5) (clampDelay (word bs 7).toInt) (field bs 9 3))
    else none
  | 2 => some .cancel
  | 3 => some .reinstate
  | 4 => (platformOfCode (field bs 12 1)).map .platform
  | _ => none

def RunNotice.ofPayload (bs : List Byte) : Option RunNotice :=
  if bs.length = 13 ∧ word bs 0 ≠ 0#16 then
    (RunEvent.ofPayload bs).map fun e => ⟨⟨word bs 0, word bs 2⟩, e⟩
  else none

/-- CTRL commands (R177). -/
inductive Command
  | warmReset | clearTables | clearJournalLost | forceDaySwitch | salesClose | salesOpen
  | portRestart (p : Port)
deriving DecidableEq, Repr

def Command.ofPayload (bs : List Byte) : Option Command :=
  if bs.length = 2 then
    match field bs 0 1 with
    | 1 => some .warmReset
    | 2 => some .clearTables
    | 3 => some .clearJournalLost
    | 4 => some .forceDaySwitch
    | 5 => some .salesClose
    | 6 => some .salesOpen
    | 7 => (portOfCode (field bs 1 1)).map .portRestart
    | _ => none
  else none

/-! ## Timetable loads (R73, R76, R77, R78) -/

/-- Destination codes of a CALL_ADD or hold codes of a MESSAGE: `n` words from place `i`. -/
def words (bs : List Byte) : Nat → Nat → List (BitVec 16)
  | _, 0 => []
  | i, n + 1 => word bs i :: words bs (i + 2) n

/-- Timing point entries: `n` of four octets from place `i`. -/
def timingPoints (bs : List Byte) : Nat → Nat → List TimingPoint
  | _, 0 => []
  | i, n + 1 => ⟨word bs i, field bs (i + 2) 2⟩ :: timingPoints bs (i + 4) n

/-- Whether a timing point list is one a record may hold (R73). -/
def pointsGood (points : List TimingPoint) (beyond : Option PointCode) : Bool :=
  points.length ≤ 6
    && points.all (fun t => t.code != 0#16 && decide (t.allowance ≤ 1800))
    && decide (points.map (·.code)).Nodup
    && match beyond with
       | some b => points.all fun t => t.code != b
       | none => true

/-- The bank and record of a CALL_ADD of good form (R73). -/
def callAddOfPayload (bs : List Byte) : Option (Bank × Loaded) :=
  let n := field bs 12 1
  let p := field bs 13 1
  let dests := words bs 16 n
  let points := timingPoints bs (16 + 2 * n) p
  let beyond := if word bs 14 = 0#16 then none else some (word bs 14)
  if 16 ≤ bs.length ∧ bs.length = 16 + 2 * n + 4 * p ∧ word bs 2 ≠ 0#16
      ∧ field bs 9 3 ≤ Config.maxService ∧ 1 ≤ n ∧ n ≤ 8 ∧ dests.all (· != 0#16)
      ∧ pointsGood points beyond then
    match Bank.ofCode (field bs 1 1), Direction.ofCode (field bs 6 1),
        platformOfCode (field bs 7 1), StopMode.ofCode (field bs 8 1) with
    | some b, some d, some pl, some m =>
      some (b, ⟨word bs 2, word bs 4, d, pl, m, field bs 9 3, dests, points, beyond⟩)
    | _, _, _, _ => none
  else none

/-- The bank and key of a CALL_DELETE of good form (R76). -/
def callDeleteOfPayload (bs : List Byte) : Option (Bank × Key) :=
  if bs.length = 6 then
    (Bank.ofCode (field bs 1 1)).map fun b => (b, ⟨word bs 2, word bs 4⟩)
  else none

/-- The bank and date of a BANK_OPEN of good form (R77). -/
def bankOpenOfPayload (bs : List Byte) : Option (Bank × Date) :=
  if bs.length = 4 then (Bank.ofCode (field bs 1 1)).map fun b => (b, word bs 2) else none

/-- The bank and count of a BANK_CLOSE of good form (R78). -/
def bankCloseOfPayload (bs : List Byte) : Option (Bank × Nat) :=
  if bs.length = 3 then (Bank.ofCode (field bs 1 1)).map fun b => (b, field bs 2 1) else none

/-! ## Fare loads (R141, R142) -/

/-- Rows of LOAD FARE (R141). -/
inductive FareRow
  | start
  | header (unit : Nat) (dayKey : BitVec 16)
  | dest (r : DestinationRecord)
  | destRemove (code : HaltCode)
  | base (band : Fin 16) (fare : Nat)
  | type (t : TicketType)
  | band (slot : Fin 4) (b : TimeBand)
  | bandRemove (slot : Fin 4)
  | cls (i : Fin 4) (c : Concession)
  | clsRemove (i : Fin 4)
deriving DecidableEq, Repr

/-- A concession class 1..4 as an index. -/
def classOf (n : Nat) : Option (Fin 4) := if n = 0 then none else slotOf (n - 1)

def FareRow.destOfPayload (bs : List Byte) : Option FareRow :=
  if 7 ≤ bs.length ∧ bs.length = 7 + field bs 6 1 ∧ word bs 2 ≠ 0#16
      ∧ 1 ≤ field bs 4 1 ∧ field bs 4 1 ≤ 63 ∧ field bs 5 1 ≤ 1
      ∧ 1 ≤ field bs 6 1 ∧ field bs 6 1 ≤ 20 then
    some (.dest ⟨word bs 2, field bs 4 1, bs.drop 7, field bs 5 1 == 1⟩)
  else none

def FareRow.typeOfPayload (bs : List Byte) : Option FareRow :=
  if bs.length = 6 ∧ 1 ≤ field bs 2 1 ∧ 50 ≤ field bs 3 2 ∧ field bs 3 2 ≤ 300 then
    (ValidityRule.ofCode (field bs 5 1)).map fun r =>
      .type ⟨BitVec.ofNat 8 (field bs 2 1), field bs 3 2, r⟩
  else none

def FareRow.bandOfPayload (bs : List Byte) : Option FareRow :=
  if bs.length = 8 ∧ field bs 3 2 ≤ 1439 ∧ field bs 5 2 ≤ 1439
      ∧ 10 ≤ field bs 7 1 ∧ field bs 7 1 ≤ 100 then
    (slotOf (field bs 2 1)).map fun i => .band i ⟨⟨field bs 3 2, field bs 5 2⟩, field bs 7 1⟩
  else none

/-- A LOAD FARE row of good form (R141): the length of its kind, every field in the range of R140. -/
def FareRow.ofPayload (bs : List Byte) : Option FareRow :=
  match field bs 1 1 with
  | 1 => if bs.length = 2 then some .start else none
  | 2 =>
    if bs.length = 5 ∧ field bs 2 1 ∈ [1, 5, 10, 50] then some (.header (field bs 2 1) (word bs 3))
    else none
  | 3 => FareRow.destOfPayload bs
  | 4 => if bs.length = 4 ∧ word bs 2 ≠ 0#16 then some (.destRemove (word bs 2)) else none
  | 5 =>
    if bs.length = 5 then
      if h : field bs 2 1 < 16 then some (.base ⟨field bs 2 1, h⟩ (field bs 3 2)) else none
    else none
  | 6 => FareRow.typeOfPayload bs
  | 7 => FareRow.bandOfPayload bs
  | 8 => if bs.length = 3 then (slotOf (field bs 2 1)).map .bandRemove else none
  | 9 =>
    if bs.length = 6 ∧ field bs 3 1 ≤ 90 then
      (classOf (field bs 2 1)).map fun i => .cls i ⟨field bs 3 1, field bs 4 2⟩
    else none
  | 10 => if bs.length = 3 then (classOf (field bs 2 1)).map .clsRemove else none
  | _ => none

/-- A FARE_ACTIVATE of good form: the instant, `none` when the IMMEDIATE mark is set (R142). -/
def fareActivateOfPayload (bs : List Byte) : Option (Option Instant) :=
  if bs.length = 7 ∧ field bs 4 3 < Config.daySeconds then
    some (if flagSet (field bs 1 1) then none else some ⟨word bs 2, field bs 4 3⟩)
  else none

/-! ## Message loads (R130, R131) -/

/-- A LOAD MESSAGE of good form (R130). The window ends are tested whether or not the presence octet
says that there is a window, and the bits of that octet above the two named are ignored (log
entry 21). -/
def messageOfPayload (bs : List Byte) : Option Message :=
  let h := field bs 11 1
  let t := field bs (12 + 2 * h) 1
  let hold := words bs 12 h
  if 13 ≤ bs.length ∧ bs.length = 13 + 2 * h + t ∧ field bs 2 1 ≤ 3
      ∧ 1 ≤ field bs 3 1 ∧ field bs 3 1 ≤ 7 ∧ field bs 5 2 ≤ 1439 ∧ field bs 7 2 ≤ 1439
      ∧ 1 ≤ t ∧ t ≤ 64 ∧ h ≤ 4 ∧ hold.all (· != 0#16) then
    some {
      id := BitVec.ofNat 8 (field bs 1 1)
      priority := field bs 2 1
      screens := BitVec.ofNat 3 (field bs 3 1)
      window := if (field bs 4 1).testBit 0 then some ⟨field bs 5 2, field bs 7 2⟩ else none
      lastDate := if (field bs 4 1).testBit 1 then some (word bs 9) else none
      text := bs.drop (13 + 2 * h)
      hold := hold }
  else none

/-- The id of a MESSAGE_DELETE of the right length (R131). -/
def messageDeleteOfPayload (bs : List Byte) : Option Byte :=
  if bs.length = 2 then some (BitVec.ofNat 8 (field bs 1 1)) else none

/-! ## LOAD CONFIG and LOAD WINDOW (R175, R40) -/

/-- A LOAD CONFIG of good form (R175). -/
structure ConfigLoad where
  number : Nat
  port : Option Port
  value : Nat
deriving DecidableEq, Repr

/-- Whether a parameter number is one of those kept per port (11.2). -/
def perPort (n : Nat) : Bool := decide (23 ≤ n ∧ n ≤ 28)

def ConfigLoad.ofPayload (bs : List Byte) : Option ConfigLoad :=
  let n := field bs 1 1
  let p := portOfCode (field bs 2 1)
  if bs.length = 7 ∧ 1 ≤ n ∧ n ≤ 28 ∧ (perPort n → p.isSome) then some ⟨n, p, field bs 3 4⟩ else none

/-- A LOAD WINDOW of the right length that names one of the four windows (R40). -/
structure WindowLoad where
  number : Fin 4
  base : Nat
  size : Nat
deriving DecidableEq, Repr

def WindowLoad.ofPayload (bs : List Byte) : Option WindowLoad :=
  if bs.length = 6 then
    (slotOf (field bs 1 1)).map fun i => ⟨i, field bs 2 2, field bs 4 2⟩
  else none

/-! ## QUERY (R176) -/

/-- Requests of a QUERY whose fields lie in their ranges (R176). -/
inductive QueryRequest
  | status
  | counters (group : Nat) (clear : Bool)
  | call (b : Bank) (k : Key)
  | bank
  | price (destination : HaltCode) (type cls : Nat) (time quantity : Nat)
  | config (number : Nat) (port : Option Port)
deriving DecidableEq, Repr

/-- What a QUERY payload says (R176): `none` when its length or subkind is wrong; otherwise its
number, its kind, and its request unless a field lies outside its range. -/
structure Query where
  number : Byte
  kind : ReplyKind
  request : Option QueryRequest
deriving DecidableEq, Repr

/-- Whether a number names a value QUERY CONFIG can report (11.2). -/
def configNumber (n : Nat) : Bool := decide ((1 ≤ n ∧ n ≤ 28) ∨ (40 ≤ n ∧ n ≤ 43))

/-- A QUERY payload read (R176, 11.7). A clear option above 1 is taken as a field outside its range, and a
PRICE time above 91799 too: the model's choice (log entry 20). -/
def Query.ofPayload (bs : List Byte) : Option Query :=
  let q := BitVec.ofNat 8 (field bs 0 1)
  match field bs 1 1 with
  | 1 => if bs.length = 2 then some ⟨q, .status, some .status⟩ else none
  | 2 =>
    if bs.length = 4 then
      some ⟨q, .counters,
        if 1 ≤ field bs 2 1 ∧ field bs 2 1 ≤ 5 ∧ field bs 3 1 ≤ 1 then
          some (.counters (field bs 2 1) (field bs 3 1 == 1))
        else none⟩
    else none
  | 3 =>
    if bs.length = 7 then
      some ⟨q, .call,
        if word bs 3 = 0#16 then none
        else (Bank.ofCode (field bs 2 1)).map fun b => .call b ⟨word bs 3, word bs 5⟩⟩
    else none
  | 4 => if bs.length = 2 then some ⟨q, .bank, some .bank⟩ else none
  | 5 =>
    if bs.length = 10 then
      some ⟨q, .price,
        if field bs 6 3 ≤ Config.maxService then
          some (.price (word bs 2) (field bs 4 1) (field bs 5 1) (field bs 6 3) (field bs 9 1))
        else none⟩
    else none
  | 6 =>
    if bs.length = 4 then
      some ⟨q, .config,
        if configNumber (field bs 2 1) ∧
            (perPort (field bs 2 1) → (portOfCode (field bs 3 1)).isSome) then
          some (.config (field bs 2 1) (portOfCode (field bs 3 1)))
        else none⟩
    else none
  | _ => none

/-! ## Terminal messages (R179, 11.7) -/

/-- An octet of a body. -/
def octetAt (bs : List Byte) (i : Nat) : Byte := BitVec.ofNat 8 (field bs i 1)

/-- The length of a request's body, for the codes that are requests (11.7). -/
def requestLength (code : Nat) : Option Nat :=
  match code with
  | 1 | 7 => some 10
  | 2 | 8 => some 1
  | 3 => some 21
  | 4 | 5 | 6 => some 4
  | 9 => some 0
  | _ => none

def quoteOfBody (bs : List Byte) : QuoteRequest where
  destination := word bs 0
  type := octetAt bs 2
  cls := octetAt bs 3
  callPresent := octetAt bs 4
  train := word bs 5
  runDate := word bs 7
  quantity := octetAt bs 9

def issueOfBody (bs : List Byte) : IssueRequest where
  slot := octetAt bs 0
  payment := octetAt bs 1
  tendered := BitVec.ofNat 24 (field bs 2 3)
  token := bs.drop 5

def findOfBody (bs : List Byte) : FindRequest where
  destination := word bs 0
  start := BitVec.ofNat 24 (field bs 2 3)
  tokenPresent := octetAt bs 5
  generation := word bs 6
  position := octetAt bs 8
  count := octetAt bs 9

/-- The request with a code and a body of the length of its layout (11.7). -/
def requestOfBody (code : Byte) (bs : List Byte) : Instr :=
  let ticket := BitVec.ofNat 32 (field bs 0 4)
  match code.toNat with
  | 1 => .quote (quoteOfBody bs)
  | 2 => .cancelQuote (octetAt bs 0)
  | 3 => .issue (issueOfBody bs)
  | 4 => .ticket ticket
  | 5 => .printed ticket
  | 6 => .void ticket
  | 7 => .find (findOfBody bs)
  | 8 => .notices (octetAt bs 0)
  | 9 => .status
  | _ => .badMessage code .unknownCode

/-- The command of a message whose check succeeds: a request, or a message of bad form (R179). -/
def commandOfBody (code : Byte) (body : List Byte) : Instr :=
  match requestLength code.toNat with
  | none => .badMessage code .unknownCode
  | some n => if body.length = n then requestOfBody code body else .badMessage code .bodyLength

/-- The command that the octets received since the parser began to wait make, by the tests of R179 in
order: none while the message is not complete. The terminal sends octets; this is the command they are
to the part. A length above 120 is told at its own octet, and what follows is ignored. -/
def commandOfMessage : List Byte → Option Instr
  | code :: length :: rest =>
    if 120 < length.toNat then some (.badMessage code .lengthAbove120)
    else if rest.length ≠ length.toNat + 1 then none
    else if xorOctets (code :: length :: rest) ≠ 0#8 then some (.badMessage code .checkFails)
    else some (commandOfBody code (rest.take length.toNat))
  | [] | [_] => none

/-! ## BEACON (R48, 11.7) -/

/-- Octet sizes of the 18 BEACON fields (11.7). -/
def beaconSizes : List Nat := [1, 1, 1, 1, 1, 1, 1, 1, 2, 2, 1, 1, 1, 4, 1, 2, 1, 2]

/-- Octets cut by a list of sizes into numbers. -/
def cut : List Nat → List Byte → List Nat
  | [], _ => []
  | n :: ns, bs => beVal (bs.take n) :: cut ns (bs.drop n)

/-- The 18 field values of a payload of the BEACON length. -/
def beaconOfPayload (bs : List Byte) : Option (List Nat) :=
  if bs.length = 25 then some (cut beaconSizes bs) else none

/-- The octets of 18 BEACON field values. -/
def beaconOctets (fields : List Nat) : List Byte :=
  (List.zipWith be beaconSizes fields).flatten

/-! ## A closed frame (1.3) -/

/-- The frame in the octets of a candidate that passed the tests of R3. -/
def RxFrame.ofOctets (os : List Byte) : RxFrame :=
  { kind := BitVec.ofNat 8 (field os 0 1)
    destination := word os 1
    origin := word os 3
    hop := BitVec.ofNat 8 (field os 5 1)
    payload := (os.drop 6).take (os.length - 8) }

/-- Errors of a closed frame (R3). -/
inductive FrameError
  | odd | short | fcs
deriving DecidableEq, Repr

/-- The judgement of a candidate's content bits: the first test that fails, or the frame (R3). -/
def judge (content : List Bool) : Except FrameError RxFrame :=
  if content.length % 8 ≠ 0 then .error .odd
  else if content.length < 64 then .error .short
  else if !fcsGood content then .error .fcs
  else .ok (RxFrame.ofOctets (octetsOf content))

end Sys2Proof.Machine
end

