-- ==== Sys2Proof/Machine/Flags.lean ====
section
/-! DEFINITION. Derived values: what the rules compute from the state and never store by themselves
(time, forecast, windows, lamps, rows, energy, prices, sales mode, rates, BEACON fields). -/

namespace Sys2Proof.Machine

/-! ## Choosing from lists -/

/-- The first of the elements that none comes before. -/
def firstBy {α : Type} (less : α → α → Bool) : List α → Option α
  | [] => none
  | a :: as =>
    match firstBy less as with
    | none => some a
    | some b => if less b a then some b else some a

/-- An element placed before the first it comes before. -/
def insertBy {α : Type} (less : α → α → Bool) (a : α) : List α → List α
  | [] => [a]
  | b :: bs => if less a b then a :: b :: bs else b :: insertBy less a bs

/-- The elements in order, equal ones as they stood. -/
def sortBy {α : Type} (less : α → α → Bool) (as : List α) : List α :=
  as.foldl (fun sorted a => insertBy less a sorted) []

/-! ## Time (04) -/

/-- Uncertainty U (R58). -/
def Htb.uncertainty (h : Htb) : Nat :=
  match h.sync with
  | .unset => 0
  | .locked | .holdover => min (h.sinceSync / 3600) 255

/-- The sync state that L gives once it has left UNSET (R58). -/
def syncOf (l : Nat) : SyncState := if l ≤ 3600 then .locked else .holdover

/-- Clock minute of a service-seconds value (R65). -/
def clockMinute (hour v : Nat) : Nat := (60 * hour + v / 60) % 1440

/-- Whether a window contains a clock minute (00_scope.md 4.1, R65). -/
def Window.contains (w : Window) (m : Nat) : Bool :=
  if w.start < w.stop then w.start ≤ m && m < w.stop
  else if w.stop < w.start then w.start ≤ m || m < w.stop
  else false

/-- The clock minute of the current s, none while UNSET (R65). -/
def State.minute (s : State) : Option Nat :=
  match s.htb.sync with
  | .unset => none
  | .locked | .holdover => some (clockMinute s.htb.hour s.htb.secs)

/-- Whether a window contains a minute, if there is one (R65). -/
def Window.containsAt (w : Window) (m : Option Nat) : Bool := m.any w.contains

/-- The held value h (R59). -/
def Htb.held (h : Htb) : Int := if h.stand = 0 then h.secs else -(h.stand : Int)

/-- A date and seconds placed against the held date (R59). -/
def Htb.target (h : Htb) (date : Date) (secs : Nat) : Int := secs + 86400 * dateDiff date h.date

/-- Whether an instant has been reached (R65). -/
def State.reached (s : State) (i : Instant) : Bool :=
  s.htb.sync != .unset && decide (s.htb.target i.date i.secs ≤ s.htb.held)

/-- Whether CURRENT holds a live call (R88). -/
def State.hasLiveCall (s : State) : Bool :=
  s.tts.current.any fun c => c.isRunning && decide (s.htb.secs ≤ c.expected + 60)

/-- Value of s at which the deferral limit ends the day (R61, R62). -/
def State.deferEnd (s : State) : Nat := Config.daySeconds + 60 * s.params.deferLimit

/-! ## Forecast (06) -/

/-- Remaining allowance R_k (R94). -/
def remainingAllowance (points : List TimingPoint) (k : Int) : Nat :=
  if k < 0 then 0 else min 3600 (((points.drop k.toNat).map (·.allowance)).sum)

/-- The forecast delay of a delay with an allowance (R95). -/
def delayAfter (phi : Nat) (d : Int) (allowance : Nat) : Nat :=
  min 21600 (d.toNat - min d.toNat allowance * phi / 100)

/-- The forecast delay F of a running call (R93, R95). -/
def Call.delayNow (phi : Nat) (c : Call) : Nat :=
  match c.report with
  | none => 0
  | some r => delayAfter phi r.delay (remainingAllowance c.loaded.points r.index)

/-- Confidence by age alone (R96). -/
def ageConfidence (ps : Params) (uptime : Nat) : Option Report → Confidence
  | none => .planned
  | some r =>
    match r.taken with
    | none => .lapsed
    | some u =>
      if uptime - u ≤ ps.ageOne then .firm else if uptime - u ≤ ps.ageTwo then .aged else .lapsed

/-- Confidence under the HOLDOVER cap (R96). -/
def capConfidence (h : Htb) (k : Confidence) : Confidence :=
  match k, h.sync with
  | .firm, .holdover => if 30 < h.uncertainty then .aged else .firm
  | k, _ => k

/-- Confidence of a call (R96). -/
def State.confidenceOf (s : State) (c : Call) : Option Confidence :=
  if c.isRunning then some (capConfidence s.htb (ageConfidence s.params s.htb.uptime c.report))
  else none

/-- The overdue mark of a call (R98). -/
def State.overdueOf (s : State) (c : Call) : Bool :=
  c.isRunning && decide (c.expected + 120 < s.htb.secs)

/-- Minutes rounded up to a multiple of 5 (R99). -/
def upToFive (m : Nat) : Nat := (m + 4) / 5 * 5

/-- Status and shown minute of a delay in minutes (R99, rows 6 and 7). -/
def expectedOr (late sched m : Nat) : Option DisplayStatus × Option Nat :=
  if m < late then (some .onTime, none) else (some .expected, some (sched / 60 + m))

/-- Display status and shown minute of a call (R99). -/
def displayOf (late : Nat) (c : Call) : Option DisplayStatus × Option Nat :=
  match c.state with
  | .departed | .expired => (none, none)
  | .cancelled => (some .cancelled, none)
  | .scheduled | .running =>
    if c.overdue then (some .delayed, none)
    else
      match c.confidence with
      | some .lapsed => (some .noInfo, none)
      | some .firm => expectedOr late c.loaded.sched (c.forecast / 60)
      | some .aged => expectedOr late c.loaded.sched (upToFive (c.forecast / 60))
      | some .planned | none => (some .onTime, none)

/-- The display of a call derived again (R99). -/
def State.showCall (s : State) (c : Call) : Call :=
  let d := displayOf s.params.late c
  { c with display := d.1, shownMinute := d.2 }

/-- The overdue mark and display derived again (R98, R99). -/
def State.markCall (s : State) (c : Call) : Call :=
  s.showCall { c with overdue := s.overdueOf c }

/-- F of a running call, confidence, overdue mark and display derived again (R93, R103). -/
def State.deriveCall (s : State) (c : Call) : Call :=
  let c := if c.isRunning then { c with forecast := c.delayNow s.params.phi } else c
  s.markCall { c with confidence := s.confidenceOf c }

/-- Whether a forecast change is announced between two derivations of a call (R101). -/
def forecastChanged (a b : Call) : Bool :=
  a.expected != b.expected || a.overdue != b.overdue || a.display != b.display
    || a.shownMinute != b.shownMinute

/-! ## Request stops (07) -/

/-- Whether a call is past its cutoff: s > E − 60 × C (R107, R147). -/
def State.pastCutoff (s : State) (c : Call) : Bool :=
  decide (c.expected < s.htb.secs + 60 * s.params.cutoff)

/-- Whether a call's window has opened: s ≥ E − 60 × W (R117). -/
def State.windowOpen (s : State) (c : Call) : Bool :=
  decide (c.expected ≤ s.htb.secs + 60 * s.params.window)

/-- Whether a call is inside its window (R107). -/
def State.insideWindow (s : State) (c : Call) : Bool := s.windowOpen c && !s.pastCutoff c

/-- A running REQUEST call of a platform (R108, R117). -/
def Call.requestableAt (c : Call) (p : Platform) : Bool :=
  c.loaded.platform == p && c.isRunning && c.loaded.stopMode == .request

/-- Earlier expected departure. -/
def Call.sooner (a b : Call) : Bool := a.expected < b.expected

/-- Target of a press (R108). -/
def State.pressTarget (s : State) (p : Platform) : Option Call :=
  firstBy Call.sooner (s.tts.current.filter fun c => c.requestableAt p && s.insideWindow c)

/-- Lamp call of a platform (R117). -/
def State.lampCall (s : State) (p : Platform) : Option Call :=
  firstBy Call.sooner (s.tts.current.filter fun c =>
    c.requestableAt p && s.windowOpen c
      && (s.insideWindow c || c.stop == .confirmed || c.stop == .late))

/-- What a lamp call's stop state shows (R117). -/
def lampFor : StopState → Lamp
  | .none => .off
  | .wanted | .sent => .slowFlash
  | .confirmed => .steady
  | .late => .fastFlash

/-- Lamp of a platform (R117). -/
def State.lampOf (s : State) (p : Platform) : Lamp :=
  if (s.sru.io p).noTarget.isRunning then .fastFlash
  else
    match s.lampCall p with
    | none => .off
    | some c => lampFor c.stop

/-- Distance of s from E (R118). -/
def State.distance (s : State) (c : Call) : Nat :=
  ((s.htb.secs : Int) - c.expected).natAbs

/-- Nearer to s, then earlier S (R118). -/
def State.nearer (s : State) (a b : Call) : Bool :=
  s.distance a < s.distance b
    || (s.distance a == s.distance b && a.loaded.sched < b.loaded.sched)

/-- Whether a call lies in the contact matching span (R118). -/
def State.inContactSpan (s : State) (c : Call) : Bool :=
  decide (c.expected ≤ s.htb.secs + 300) && decide (s.htb.secs ≤ c.expected + 1800)

/-- The call that a contact pulse matches (R118). -/
def State.contactMatch (s : State) (p : Platform) : Option Call :=
  firstBy s.nearer
    (s.tts.current.filter fun c => c.loaded.platform == p && c.isRunning && s.inContactSpan c)

/-! ## Boards (08) -/

/-- Departure rows of a screen (8.1). -/
def ScreenNo.departureRows : ScreenNo → Nat
  | .one | .two => 5
  | .three => 8

/-- Bit of a screen in a screen set (R183). -/
def ScreenNo.bit : ScreenNo → Nat
  | .one => 0
  | .two => 1
  | .three => 2

/-- Whether a screen shows a platform (R123). -/
def ScreenNo.shows : ScreenNo → Platform → Bool
  | .one, p => p == .one
  | .two, p => p == .two
  | .three, _ => true

/-- Whether a call is a candidate of a screen (R123). -/
def State.isCandidate (s : State) (n : ScreenNo) (c : Call) : Bool :=
  n.shows c.loaded.platform && c.loaded.stopMode != .pass
    && (c.isRunning || (c.state == .cancelled && decide (s.htb.secs ≤ c.loaded.sched + 600)))

/-- Order key of a candidate (R124). -/
def Call.orderKey (c : Call) : Nat := if c.isRunning then c.expected else c.loaded.sched

/-- Order of candidates (R124). -/
def Call.shownBefore (a b : Call) : Bool :=
  a.orderKey < b.orderKey || (a.orderKey == b.orderKey &&
    (a.loaded.sched < b.loaded.sched ||
      (a.loaded.sched == b.loaded.sched && a.loaded.train < b.loaded.train)))

/-- Shown calls of a screen (R124). -/
def State.shownCalls (s : State) (n : ScreenNo) : List Call :=
  (sortBy Call.shownBefore (s.tts.current.filter (s.isCandidate n))).take n.departureRows

/-- The record of a destination in a fare table. -/
def FareTable.destination (t : FareTable) (code : HaltCode) : Option DestinationRecord :=
  t.destinations.find? fun r => r.code == code

/-- Name of a destination on a board, or its code in digits (R125). -/
def State.destinationName (s : State) (code : HaltCode) : List Byte :=
  match s.fqu.active.bind (·.destination code) with
  | some r => r.name
  | none => decimalDigits code.toNat

/-- Stop line of a stop state (R126). -/
def stopLineFor (inService : Bool) : StopState → StopLine
  | .none => .requestStop
  | .confirmed => .stopping
  | .wanted | .sent | .late => if inService then .requestPending else .signalDriver

/-- Stop line of a call row (R125, R126). -/
def State.stopLineOf (s : State) (c : Call) : Option StopLine :=
  if c.loaded.stopMode = .request ∧ c.state ≠ .cancelled then
    some (stopLineFor (s.up.lsu.state == .service) c.stop)
  else none

/-- Row record of a shown call (R125). -/
def State.callRow (s : State) (c : Call) : RowRecord :=
  .call {
    scheduled := clockMinute s.htb.hour c.loaded.sched
    destination := s.destinationName (c.loaded.destinations.getLastD 0#16)
    platform := c.loaded.platform
    status := c.display
    shown := c.shownMinute.map fun m => (60 * s.htb.hour + m) % 1440
    stopLine := s.stopLineOf c }

/-- A list of records with blanks up to a number. -/
def padRows (n : Nat) (rows : List RowRecord) : List RowRecord :=
  rows ++ List.replicate (n - rows.length) .blank

/-- Departure rows of a screen without a priority-3 message (R127). -/
def State.plainRows (s : State) (n : ScreenNo) : List RowRecord :=
  padRows n.departureRows <|
    if s.htb.sync = .unset then [.noTime]
    else if s.tts.currentState = .empty then [.noTimetable]
    else (s.shownCalls n).map s.callRow

/-- Higher priority, then lower id (R133). -/
def Message.outranks (a b : Message) : Bool :=
  b.priority < a.priority || (a.priority == b.priority && a.id < b.id)

/-- Selected message of a screen (R133). -/
def State.selectedMessage (s : State) (n : ScreenNo) : Option Message :=
  firstBy Message.outranks (s.bdc.valid.filter fun m => m.screens.getLsbD n.bit)

/-- Rows of a screen, departure rows and then the message row (R133). -/
def State.rowsOf (s : State) (n : ScreenNo) : List RowRecord :=
  match s.selectedMessage n with
  | none => s.plainRows n ++ [.blank]
  | some m =>
    if m.priority = 3 then padRows (n.departureRows + 1) [.text m.text]
    else s.plainRows n ++ [.text m.text]

/-- Whether a message is valid (R132); a date 32768 days off is earlier (log entry 54). -/
def State.messageValid (s : State) (m : Message) : Bool :=
  (match m.window with
    | none => true
    | some w => w.containsAt s.minute)
  && (match m.lastDate with
    | none => true
    | some d => s.htb.sync != .unset && decide (0 ≤ dateDiff d s.htb.date))

/-- The messages valid now (R132). -/
def State.validMessages (s : State) : List Message :=
  (s.bdc.messages.toList.filterMap id).filter s.messageValid

/-- Union of hold lists (R134). -/
def heldCodes (ms : List Message) : List HaltCode :=
  (ms.flatMap (·.hold)).foldl (fun acc c => if c ∈ acc then acc else acc ++ [c]) []

/-- Whether a screen shows a due train (R136, condition 1). -/
def State.dueOn (s : State) (n : ScreenNo) : Bool :=
  (s.bdc.screen n).isSome && (s.shownCalls n).any fun c =>
    c.isRunning && decide (c.expected ≤ s.htb.secs + 60 * s.params.darkLead)

/-- Whether a shown call of a present screen is due (R136, condition 1). -/
def State.trainDue (s : State) : Bool := s.dueOn .one || s.dueOn .two || s.dueOn .three

/-- Whether the notice line is asserted (R181). -/
def State.noticeLine (s : State) : Bool := !s.tpi.ring.isEmpty

/-- The first dark condition that fails, as a wake cause; `recent` is the cause of the activity. A
failing condition 5 has no cause (R136, R137, log entry 11). -/
def State.darkFailure (s : State) (recent : WakeCause) : Option WakeCause :=
  if s.trainDue then some .dueTrain
  else if s.bdc.valid.any fun m => 2 ≤ m.priority then some .message
  else if !s.bdc.activity.isExpired then some recent
  else if s.noticeLine then some .notice
  else if s.htb.sync = .unset then some .none
  else none

/-- LIT or DIM (R135). -/
def State.litOrDim (s : State) : Energy :=
  if s.lowEnergy || s.params.night.containsAt s.minute then .dim else .lit

/-- Brightness in an energy mode that is not DARK (R135). -/
def Params.brightnessIn (ps : Params) : Energy → Nat
  | .dim => max 1 (ps.brightness / ps.dimDivisor)
  | .lit | .dark => ps.brightness

/-! ## Prices (09) -/

/-- The ticket type of an id. -/
def FareTable.typeOf (t : FareTable) (id : Byte) : Option TicketType :=
  t.types.find? fun y => y.id == id

/-- Distance band (R144, stage 1). -/
def distanceBand (distance : Nat) : Fin 16 :=
  ⟨min 15 ((distance - 1) / 4), by omega⟩

/-- Factor of the first band that contains a minute, 100 when none does (R144, stage 3). -/
def FareTable.factorAt (t : FareTable) (m : Option Nat) : Nat :=
  match (t.bands.toList.filterMap id).find? fun b => b.window.containsAt m with
  | some b => b.factor
  | none => 100

/-- Whether a band with a factor below 100 contains a minute (R147, test 10). -/
def FareTable.cheapAt (t : FareTable) (m : Option Nat) : Bool :=
  (t.bands.toList.filterMap id).any fun b => decide (b.factor < 100) && b.window.containsAt m

/-- A fare after a concession (R144, stage 4). -/
def concede (p : Nat) : Option Concession → Nat
  | none => p
  | some k => max (p - p * k.discount / 100) k.minimum

/-- A fare rounded to the unit, halves up (R145). -/
def roundFare (unit p : Nat) : Nat :=
  let r := p % unit
  if 2 * r < unit then p - r else min 65535 (p - r + unit)

/-- The unit price (R144, R145). -/
def FareTable.unitPrice (t : FareTable) (d : DestinationRecord) (y : TicketType)
    (k : Option Concession) (m : Option Nat) : Nat :=
  let p0 := t.base[distanceBand d.distance]
  let p1 := min 65535 (p0 * y.multiplier / 100)
  let p2 := p1 * t.factorAt m / 100
  roundFare t.unit (concede p2 k)

/-! ## Sales and journal (10) -/

/-- Occupancy W − A (R165). -/
def Sju.occupancy (j : Sju) : Nat := (j.writeSeq - j.ackSeq).toNat

/-- Free places of the journal (R165). -/
def Sju.freePlaces (j : Sju) : Nat := Config.journalRecords - j.occupancy

/-- The total of a CARD_OFFLINE SALE record (R157). -/
def JournalRecord.offlineTotal (r : JournalRecord) : Option Nat :=
  match r.body with
  | .sale x => if x.payment = .cardOffline then some x.total else none
  | .void .. | .reversal .. | .dayTotal .. | .restore .. => none

/-- The SJU with its exposure computed again (R157). -/
def Sju.withExposure (j : Sju) : Sju :=
  let totals := j.journal.filterMap (·.offlineTotal)
  { j with xc := totals.length, xa := totals.sum }

/-- The sales mode that its inputs give (R156). -/
def State.salesModeOf (s : State) : SalesMode :=
  if s.htb.sync = .unset ∨ s.fqu.active = none ∨ s.salesClosed = true
      ∨ s.sju.freePlaces ≤ 8 ∨ s.sju.ticketCounter = BitVec.ofNat 32 Config.max32
      ∨ s.fru.unaddressed = true then .closed
  else if s.up.lsu.state = .service then .opened
  else .offline

/-! ## Line rates (01) -/

/-- The Up port's settled rate (R14). -/
def LinePort.settledRate (lp : LinePort) : Option Rate :=
  match lp.rateMode, lp.lsu.state with
  | .fixed r, _ => some r
  | .auto, .proving | .auto, .service | .auto, .outage => some lp.rxRate
  | .auto, .off | .auto, .hunt => none

/-- The transmit rate that R14 gives a port. -/
def State.txRateOf (s : State) (p : Port) : Option Rate :=
  let lp := s.port p
  match lp.lsu.state, lp.rateMode with
  | .off, _ => none
  | .hunt, .fixed r => some r
  | .hunt, .auto =>
    match p with
    | .up => none
    | .down => s.up.settledRate
  | _, .fixed r => some r
  | _, .auto => some lp.rxRate

/-- Next rate down the list of R11. -/
def nextRate : Rate → Rate
  | .r19200 => .r9600
  | .r9600 => .r4800
  | .r4800 => .r2400
  | .r2400 => .r1200
  | .r1200 => .r19200

/-! ## Codes in BEACON fields (R48, R183) -/

def PortState.code : PortState → Nat
  | .off => 1 | .hunt => 2 | .proving => 3 | .service => 4 | .outage => 5

def OutageCause.code : OutageCause → Nat
  | .none => 1 | .provingFailed => 2 | .errorRate => 3 | .silence => 4

def SyncState.code : SyncState → Nat
  | .unset => 1 | .locked => 2 | .holdover => 3

def SalesMode.code : SalesMode → Nat
  | .opened => 1 | .offline => 2 | .closed => 3

def Energy.code : Energy → Nat
  | .lit => 1 | .dim => 2 | .dark => 3

def WakeCause.code : WakeCause → Nat
  | .none => 1 | .dueTrain => 2 | .message => 3 | .terminal => 4 | .button => 5 | .notice => 6

def CurrentState.code : CurrentState → Nat
  | .active => 1 | .empty => 2

def NextState.code : NextState → Nat
  | .empty => 1 | .loading => 2 | .ready => 3

/-- The 18 fields of the own BEACON (R48). -/
def State.beaconFields (s : State) : List Nat :=
  [s.up.lsu.state.code, s.up.lsu.cause.code, s.down.lsu.state.code, s.down.lsu.cause.code,
   s.up.lsu.bucket, s.htb.sync.code, s.htb.uncertainty, s.sju.salesMode.code, s.sju.occupancy,
   s.sju.xc, s.bdc.energy.code, s.bdc.wakeCause.code, s.sju.journalLost.toNat,
   s.sju.ctr.reversalLost, s.tts.currentState.code, s.tts.currentDate.toNat,
   s.tts.nextState.code, s.tts.nextDate.toNat]

end Sys2Proof.Machine
end

