-- ==== Sys2Proof/Machine/Boards.lean ====
section
/-! DEFINITION. The Board Compositor: composition, the screen link, screen power (08), and the
meanings of its own commands. -/

namespace Sys2Proof.Machine

/-! ## Marks and the screen link (R129) -/

/-- A screen with every row and its brightness marked pending. -/
def Screen.markAll (sc : Screen) : Screen :=
  { rows := sc.rows.map fun r => { r with pending := true }, brightnessPending := true }

/-- A screen with no mark. -/
def Screen.clearMarks (sc : Screen) : Screen :=
  { rows := sc.rows.map fun r => { r with pending := false }, brightnessPending := false }

/-- The first pending row from row `i`, and the rows with its mark cleared. -/
def takeRow : Nat → List RowCell → Option (Nat × RowRecord × List RowCell)
  | _, [] => none
  | i, r :: rs =>
    if r.pending then some (i, r.image, { r with pending := false } :: rs)
    else (takeRow (i + 1) rs).map fun x => (x.1, x.2.1, r :: x.2.2)

/-- The next item of a screen: its brightness, then its rows from the top (R129). -/
def Screen.nextItem (n : ScreenNo) (level : Nat) (sc : Screen) : Option (ScreenMessage × Screen) :=
  if sc.brightnessPending then some (.brightness n level, { sc with brightnessPending := false })
  else (takeRow 1 sc.rows).map fun x => (.row n x.1 x.2.1, { sc with rows := x.2.2 })

/-- The link takes the next item of one screen. -/
def Bdc.takeFrom (b : Bdc) (n : ScreenNo) : Option Bdc :=
  ((b.screen n).bind (Screen.nextItem n b.brightness)).map fun x =>
    { b.setScreen n (some x.2) with link := some x.1 }

/-- Whether the link may take an item (R129). -/
def Bdc.linkMayStart (b : Bdc) : Bool :=
  b.link.isNone && b.energy != .dark && !b.warmUp.isRunning

/-- The link takes the next pending item when it may (R129). -/
def Bdc.linkStart (b : Bdc) : Bdc :=
  if b.linkMayStart then
    ((b.takeFrom .one <|> b.takeFrom .two) <|> b.takeFrom .three).getD b
  else b

/-- The link takes the next pending item when it may. -/
def State.linkStart (s : State) : State := { s with bdc := s.bdc.linkStart }

/-! ## Energy (R135 to R137) -/

/-- The BDC in an energy mode that is not DARK, with its brightness; a changed brightness is marked
pending on every present screen (R135). -/
def Bdc.light (b : Bdc) (ps : Params) (e : Energy) : Bdc :=
  let level := ps.brightnessIn e
  let b' := { b with energy := e, brightness := level }
  if level = b.brightness then b'
  else b'.mapScreens fun _ sc => { sc with brightnessPending := true }

/-- LIT or DIM chosen again, unless DARK (R135). The events of R135 do so during the warm-up of a start
too, though R139 gives LIT until its end: the model's choice (log entry 24). -/
def State.chooseEnergy (s : State) : State :=
  if s.bdc.energy = .dark then s
  else State.linkStart { s with bdc := s.bdc.light s.params s.litOrDim }

/-- Entry into DARK (R136). -/
def State.enterDark (s : State) : State :=
  { s with
    bdc := { s.bdc.mapScreens (fun _ sc => sc.clearMarks) with
      energy := .dark, supply := false, link := none
      ctr := { s.bdc.ctr with darkEntries := tally s.bdc.ctr.darkEntries } } }

/-- Leaving DARK (R137). -/
def State.wake (s : State) (cause : WakeCause) : State :=
  { s with
    bdc := { s.bdc.light s.params s.litOrDim with
      supply := true, warmUp := .running Config.warmUpMs, wakeCause := cause } }

/-- The test of the dark conditions; `recent` is the cause if activity makes condition 3 fail
(R136, R137). -/
def State.darkTest (s : State) (recent : WakeCause) : State :=
  if s.bdc.warmUp.isRunning then s
  else
    match s.bdc.energy, s.darkFailure recent with
    | .dark, none | .dark, some .none => s
    | .dark, some cause => s.wake cause
    | .lit, none | .dim, none => s.enterDark
    | .lit, some _ | .dim, some _ => s

/-- Passenger or terminal activity announced to the BDC (R136, log entry 12). -/
def State.noteActivity (s : State) (cause : WakeCause) : State :=
  State.darkTest { s with bdc := { s.bdc with activity := .running Config.activityMs } } cause

/-! ## Composition (R128) -/

/-- A row with a new record: a different one replaces the image and sets the mark (R128). -/
def RowCell.update (r : RowRecord) (cell : RowCell) : RowCell :=
  if r = cell.image then cell else ⟨r, true⟩

/-- Every present screen's rows composed (R128). -/
def State.composeRows (s : State) : State :=
  { s with bdc := s.bdc.mapScreens fun n sc =>
      { sc with rows := List.zipWith RowCell.update (s.rowsOf n) sc.rows } }

/-- A composition, the dark test that each makes, and the link (R128, R129, R136). -/
def State.compose (s : State) : State := (s.composeRows.darkTest .none).linkStart

/-! ## Commands -/

/-- SCREEN_MESSAGE_SENT: the link is free and takes the next item (R129). -/
def execScreenMessageSent (s : State) : Host.Outcome State Fault Refusal :=
  whenPowered s fun s => State.linkStart { s with bdc := { s.bdc with link := none } }

/-- LOW_ENERGY_CHANGE (R135). -/
def execLowEnergyChange (asserted : Bool) (s : State) : Host.Outcome State Fault Refusal :=
  whenPowered s fun s => State.chooseEnergy { s with lowEnergy := asserted }

/-- ACTIVITY_EXPIRY (R136). -/
def execActivityExpiry (s : State) : Host.Outcome State Fault Refusal :=
  whenPowered s fun s =>
    if s.bdc.activity.isRunning then
      State.linkStart (State.darkTest { s with bdc := { s.bdc with activity := .expired } } .none)
    else s

/-- The end of a warm-up: a full refresh, after the choice of R135 when it is the warm-up of a start,
which leaves no wake cause (R137, R139). -/
def State.endWarmUp (s : State) : State :=
  let s := { s with bdc := { s.bdc with warmUp := .stopped } }
  let s := if s.bdc.wakeCause = .none then { s with bdc := s.bdc.light s.params s.litOrDim } else s
  State.linkStart
    (State.darkTest { s with bdc := s.bdc.mapScreens fun _ sc => sc.markAll } .none)

/-- WARM_UP_EXPIRY (R137). -/
def execWarmUpExpiry (s : State) : Host.Outcome State Fault Refusal :=
  whenPowered s fun s => if s.bdc.warmUp.isRunning then s.endWarmUp else s

end Sys2Proof.Machine
end

