-- ==== Sys2Proof/Machine/Terminal.lean ====
section
/-! DEFINITION. The Terminal Port Interface: the notice ring, the reply queue and the serving of
requests (11.6), and the meanings of NOTICES, STATUS, TP_GAP, TERMINAL_REPLY_SENT, BAD_MESSAGE. -/

namespace Sys2Proof.Machine

/-! ## Notice ring (R181) -/

/-- The ring replaced; a change of the notice line is announced to the BDC (R181, R136). -/
def State.setRing (s : State) (ring : List Notice) : State :=
  let s' := { s with tpi := { s.tpi with ring := ring } }
  if ring.isEmpty = s.tpi.ring.isEmpty then s' else (s'.darkTest .none).linkStart

/-- A notice posted (R181). -/
def State.postNotice (s : State) (n : Notice) : State :=
  if s.tpi.ring.length < Config.ringSlots then s.setRing (s.tpi.ring ++ [n])
  else { s with tpi := { s.tpi with overflow := true } }

/-! ## Serving (R179, R180) -/

/-- What serving a request gives: the state, the result and the body of the reply. -/
structure Served where
  state : State
  result : Result
  body : TerminalBody := .empty

/-- Code of the reply to a message (R180, log entry 14). -/
def replyCode (code : Byte) : Byte :=
  if code.toNat < 128 then code + 128#8 else Config.replyCodeOver code

/-- A reply at the end of the reply queue. -/
def State.pushReply (s : State) (r : TerminalReply) : State :=
  { s with tpi := { s.tpi with replies := s.tpi.replies ++ [r] } }

/-- A complete message: discarded while 4 replies wait; otherwise announced as activity, served and
answered (R179, R180). A parser that ignores octets completes none. A NOTICES is activity like any
request, against the worked night of 8.6 (log entry 47). A message that fails its check while 4 replies
wait counts TP_OVERRUN alone, and not TP_CHECK: the model's choice (log entry 53). -/
def State.serve (s : State) (code : Byte) (f : State → Served) : State :=
  if s.tpi.parser = .ignoring then s
  else if Config.replySlots ≤ s.tpi.replies.length then
    s.modTpiCtr fun c => { c with overrun := tally c.overrun }
  else
    let r := f (s.noteActivity .terminal)
    r.state.pushReply ⟨replyCode code, r.result, r.body⟩

/-- A request served by its owner, on a part with main power. -/
def whenServed (s : State) (code : Byte) (f : State → Served) : Host.Outcome State Fault Refusal :=
  whenPowered s fun s => s.serve code f

/-! ## Requests of the TPI -/

/-- NOTICES served (R181). -/
def serveNotices (count : Byte) (s : State) : Served :=
  let n := count.toNat
  if 1 ≤ n ∧ n ≤ 8 then
    let s' := s.setRing (s.tpi.ring.drop n)
    { state := { s' with tpi := { s'.tpi with overflow := false } }
      result := .ok
      body := .notices s.tpi.overflow (s.tpi.ring.take n) }
  else { state := s, result := .badMessage }

/-- NOTICES (R181). -/
def execNotices (count : Byte) (s : State) : Host.Outcome State Fault Refusal :=
  whenServed s 8#8 (serveNotices count)

/-- State of a quote slot as STATUS gives it; the WITHDRAWN mark is no state of its own (9.4, R180). -/
def Slot.shown : Slot → SlotState
  | .free => .free
  | .opened _ => .opened
  | .pendingAuth .. => .pendingAuth

/-- Content of the STATUS reply (R180). -/
def State.terminalStatus (s : State) : TerminalStatus where
  salesMode := s.sju.salesMode
  upState := s.up.lsu.state
  sync := s.htb.sync
  uncertainty := s.htb.uncertainty
  energy := s.bdc.energy
  occupancy := s.sju.occupancy
  xc := s.sju.xc
  xa := s.sju.xa
  currentState := s.tts.currentState
  slots := s.fqu.slots.toList.map Slot.shown
  notices := s.tpi.ring.length

/-- STATUS (R180). -/
def execStatus (s : State) : Host.Outcome State Fault Refusal :=
  whenServed s 9#8 fun s => { state := s, result := .ok, body := .status s.terminalStatus }

/-- TP_GAP: a partial message is discarded and counted, or the ignoring of octets ends
(R179, log entry 26). -/
def execTpGap (s : State) : Host.Outcome State Fault Refusal :=
  whenPowered s fun s =>
    match s.tpi.parser with
    | .waiting => s.modTpiCtr fun c => { c with gap := tally c.gap }
    | .ignoring => { s with tpi := { s.tpi with parser := .waiting } }

/-- TERMINAL_REPLY_SENT: the oldest reply leaves the reply queue (R180). -/
def execTerminalReplySent (s : State) : Host.Outcome State Fault Refusal :=
  whenPowered s fun s => { s with tpi := { s.tpi with replies := s.tpi.replies.drop 1 } }

/-- A message whose length octet is above 120: counted, the parser ignores octets, BAD_MESSAGE is
sent if the reply queue has room (R179, log entry 17). Without room the message is no activity and
counts no TP_OVERRUN: the model's choice (log entry 53). -/
def State.overLength (s : State) (code : Byte) : State :=
  let s' := s.modTpiCtr fun c => { c with form := tally c.form }
  let s' := { s' with tpi := { s'.tpi with parser := .ignoring } }
  if s.tpi.replies.length < Config.replySlots then
    (s'.noteActivity .terminal).pushReply ⟨replyCode code, .badMessage, .empty⟩
  else s'

/-- The meaning of a message that is not a request (R179). -/
def State.badMessage (s : State) (code : Byte) (form : BadForm) : State :=
  match form with
  | .lengthAbove120 => if s.tpi.parser = .ignoring then s else s.overLength code
  | .checkFails =>
    s.serve code fun s =>
      { state := s.modTpiCtr fun c => { c with check := tally c.check }, result := .badMessage }
  | .unknownCode | .bodyLength => s.serve code fun s => { state := s, result := .badMessage }

/-- BAD_MESSAGE (R179). -/
def execBadMessage (code : Byte) (form : BadForm) (s : State) : Host.Outcome State Fault Refusal :=
  whenPowered s fun s => s.badMessage code form

end Sys2Proof.Machine
end

