-- ==== Sys2Proof/Machine/Queues.lean ====
section
/-! DEFINITION. The transmit queues: classes, admission, the arbiter, the flush, the drain of the
journal, and the frames the part originates (3.6 to 3.9, R167), with BEACON_TIMER_EXPIRY. -/

namespace Sys2Proof.Machine

/-! ## Classes and occupancy (R37, R49, R50) -/

/-- Whether a kind is one of the URGENT ones (R50). -/
def urgentKind (code : Byte) : Bool :=
  match Kind.ofCode code with
  | some .time | some .run | some .stopreq | some .stopconf | some .authreq | some .authres => true
  | _ => false

/-- Class of a relayed frame (R37, R42). -/
def relayClass (code : Byte) : TxClass := if urgentKind code then .urgent else .relay

/-- Class of an own frame (R49). -/
def ownClass (code : Byte) : TxClass := if urgentKind code then .urgent else .own

/-- Non-urgent occupancy of a queue (R50). -/
def nonUrgent (q : List Queued) : Nat := (q.filter fun x => x.cls != .urgent).length

/-! ## Admission (R51) -/

/-- Whether a queue with this port state admits a frame of a class (R51): every frame needs a free
slot (R50, log entry 42). -/
def LinePort.admits (lp : LinePort) (c : TxClass) : Bool :=
  lp.lsu.state == .service && decide (lp.queue.length < Config.queueSlots)
    && (c == .urgent || decide (nonUrgent lp.queue < Config.nonUrgentSlots))

/-- The FRU counters after a frame of a class was dropped (R51). A non-urgent frame dropped for want of
any free slot counts under its own class: the model's choice (log entry 42). -/
def LinePort.countDrop (lp : LinePort) (c : TxClass) : FruPortCounters :=
  let k := lp.fruCtr
  if lp.lsu.state = .service then
    match c with
    | .urgent => { k with dropUrgent := tally k.dropUrgent }
    | .relay => { k with dropRelay := tally k.dropRelay }
    | .own => { k with dropOwn := tally k.dropOwn }
  else { k with portDownDrop := tally k.portDownDrop }

/-- A frame admitted behind the earlier ones, or dropped and counted (R51). -/
def LinePort.enqueue (lp : LinePort) (q : Queued) : LinePort :=
  if lp.admits q.cls then { lp with queue := lp.queue ++ [q] }
  else { lp with fruCtr := lp.countDrop q.cls }

/-! ## The drain of the journal (R54, R167) -/

/-- The drain condition (R54). -/
def State.drainCondition (s : State) : Bool :=
  s.up.lsu.state == .service && decide (nonUrgent s.up.queue < Config.drainBelow)

/-- Records sent and not acknowledged, N − A (R167). -/
def Sju.inFlight (j : Sju) : Nat := (j.nextSeq - j.ackSeq).toNat

/-- Whether a drain trigger builds a JRNL (R167, R43). -/
def State.canBuildJrnl (s : State) : Bool :=
  s.sju.nextSeq != s.sju.writeSeq && decide (s.sju.inFlight < Config.sendWindow)
    && !s.fru.unaddressed

/-- The number of records the next JRNL carries (R167). -/
def Sju.jrnlCount (j : Sju) : Nat :=
  min 4 (min (j.writeSeq - j.nextSeq).toNat (Config.sendWindow - j.inFlight))

/-- An own frame with its header (R49). -/
def State.ownFrame (s : State) (k : Kind) (destination : HaltCode) (payload : Payload) : TxFrame where
  kind := k.code
  destination := destination
  origin := s.own.haltCode
  hop := BitVec.ofNat 8 s.params.initialHop
  payload := payload

/-- The next JRNL (R167). -/
def State.jrnlFrame (s : State) : TxFrame :=
  s.ownFrame .jrnl centre
    (.journal s.sju.nextSeq ((s.sju.journal.drop s.sju.inFlight).take s.sju.jrnlCount))

/-- One JRNL built and offered (R167). -/
def State.buildJrnl (s : State) : State :=
  { s with
    up := s.up.enqueue ⟨.own, s.jrnlFrame⟩
    sju := { s.sju with
      nextSeq := s.sju.nextSeq + BitVec.ofNat 32 s.sju.jrnlCount
      ackTimer := if s.sju.ackTimer.isRunning then s.sju.ackTimer else .running Config.ackMs } }

/-- The drain trigger, signalled again after each admission while the condition holds, at most `n`
times (R54). -/
def State.drainUpTo : Nat → State → State
  | 0, s => s
  | n + 1, s =>
    if s.drainCondition && s.canBuildJrnl then
      if s.up.admits .own then State.drainUpTo n s.buildJrnl else s.buildJrnl
    else s

/-- The drain trigger. Eight admissions bring the occupancy to 8, so no more can follow (R54). -/
def State.drain (s : State) : State := s.drainUpTo Config.drainBelow

/-! ## Offers (R49, R51) -/

/-- A frame offered to a port's queue; an admission to the Up queue signals the drain trigger
(R51, R54). -/
def State.offer (s : State) (p : Port) (q : Queued) : State :=
  let s' := s.modPort p fun lp => lp.enqueue q
  if p = .up ∧ s.up.admits q.cls then s'.drain else s'

/-- An own frame offered to a queue; an unaddressed halt discards it (R43, R49). -/
def State.offerOwn (s : State) (p : Port) (k : Kind) (destination : HaltCode) (payload : Payload) :
    State :=
  if s.fru.unaddressed then s
  else s.offer p ⟨ownClass k.code, s.ownFrame k destination payload⟩

/-- The own BEACON originated; the beacon timer restarts (R47). -/
def State.originateBeacon (s : State) : State :=
  let s' := { s with fru := { s.fru with beaconTimer := .running (1000 * s.params.beaconInterval) } }
  s'.offerOwn .up .beacon centre (.octets (beaconOctets s.beaconFields))

/-- BEACON_TIMER_EXPIRY (R47). -/
def execBeaconTimerExpiry (s : State) : Host.Outcome State Fault Refusal :=
  whenPowered s fun s => if s.fru.beaconTimer.isRunning then s.originateBeacon else s

/-- A REPLY originated (R176). -/
def State.offerReply (s : State) (r : Reply) : State := s.offerOwn .up .reply centre (.reply r)

/-! ## Flush and arbiter (R52, R53) -/

/-- The queue of a port flushed (R53). -/
def LinePort.flush (lp : LinePort) : LinePort :=
  { lp with
    queue := []
    runOfThree := 0
    fruCtr := { lp.fruCtr with flushed := satAdd lp.fruCtr.flushed lp.queue.length } }

/-- Whether a queue holds a frame of a class. -/
def holds (c : TxClass) (q : List Queued) : Bool := q.any fun x => x.cls == c

/-- The class the arbiter takes next (R52). -/
def LinePort.choice (lp : LinePort) : Option TxClass :=
  if holds .urgent lp.queue then some .urgent
  else if holds .relay lp.queue && holds .own lp.queue then
    if lp.runOfThree < 3 then some .relay else some .own
  else if holds .relay lp.queue then some .relay
  else if holds .own lp.queue then some .own
  else none

/-- The run-of-three counter after a hand-over (R52). -/
def LinePort.runAfter (lp : LinePort) : TxClass → Nat
  | .urgent => lp.runOfThree
  | .relay => if holds .own lp.queue then lp.runOfThree + 1 else lp.runOfThree
  | .own => 0

/-- The frame the arbiter hands over, and the port without it (R52). -/
def LinePort.handOver (lp : LinePort) : Option (TxFrame × LinePort) := do
  let c ← lp.choice
  let x ← lp.queue.find? fun x => x.cls == c
  some (x.frame, { lp with queue := lp.queue.eraseP (fun x => x.cls == c), runOfThree := lp.runAfter c })

end Sys2Proof.Machine
end

