-- ==== Sys2Proof/Machine/Quotes.lean ====
section
/-! DEFINITION. The quote table and the journey search (9.3 to 9.6): QUOTE, CANCEL_QUOTE,
QUOTE_EXPIRY, FIND. -/

namespace Sys2Proof.Machine

/-! ## Slots (R146, R149, R150) -/

/-- The quote slots in the order one event takes them: the model's choice (log entry 43). -/
def allSlots : List (Fin 4) := [0, 1, 2, 3]

/-- Whether a slot is OPEN. -/
def Slot.isOpen : Slot → Bool
  | .opened _ => true
  | .free | .pendingAuth .. => false

/-- The number of OPEN slots (R172). -/
def openSlots (slots : Vector Slot 4) : Nat := (slots.toList.filter Slot.isOpen).length

/-- A quote slot changed; the count of quotes held follows (R172). -/
def State.setSlot (s : State) (i : Fin 4) (x : Slot) : State :=
  let slots := s.fqu.slots.set i x
  { s with fqu := { s.fqu with slots := slots }, sju := { s.sju with quotesHeld := openSlots slots } }

/-- An OPEN slot withdrawn (R150). -/
def State.withdrawSlot (s : State) (i : Fin 4) : State :=
  ((s.setSlot i .free).modFquCtr fun c => { c with withdrawn := tally c.withdrawn }).postNotice
    (.quoteWithdrawn i)

/-- A slot invalidated if its quote is hit (R150). -/
def State.invalidateSlot (hit : Quote → Bool) (s : State) (i : Fin 4) : State :=
  match s.fqu.slots[i] with
  | .free | .pendingAuth _ true => s
  | .opened q => if hit q then s.withdrawSlot i else s
  | .pendingAuth q false => if hit q then s.setSlot i (.pendingAuth q true) else s

/-- The occupied slots whose quotes are hit, invalidated in the order of their numbers (R150, log
entry 43). -/
def State.invalidate (s : State) (hit : Quote → Bool) : State :=
  allSlots.foldl (State.invalidateSlot hit) s

/-- Every occupied slot invalidated (R150). -/
def State.invalidateAll (s : State) : State := s.invalidate fun _ => true

/-- The slots whose quotes name a call, invalidated (R150). -/
def State.invalidateNaming (s : State) (k : Key) : State := s.invalidate fun q => q.call == some k

/-- Whether a quote names a call of CURRENT past its sales cutoff (R151). -/
def State.quotePastCutoff (s : State) (q : Quote) : Bool :=
  (q.call.bind s.call).any s.pastCutoff

/-- An OPEN slot past its sales cutoff withdrawn (R151). -/
def State.cutoffSlot (s : State) (i : Fin 4) : State :=
  match s.fqu.slots[i] with
  | .opened q => if s.quotePastCutoff q then s.withdrawSlot i else s
  | .free | .pendingAuth .. => s

/-- The sales cutoff tested for every slot (R151). -/
def State.cutoffQuotes (s : State) : State := allSlots.foldl State.cutoffSlot s

/-- An OPEN slot whose quote expiry has run, freed (R149). -/
def State.expireSlot (s : State) (i : Fin 4) : State :=
  match s.fqu.slots[i] with
  | .opened q =>
    if q.created + s.params.quoteExpiry ≤ s.htb.uptime then
      ((s.setSlot i .free).modFquCtr fun c => { c with expired := tally c.expired }).postNotice
        (.quoteWithdrawn i)
    else s
  | .free | .pendingAuth .. => s

/-- QUOTE_EXPIRY (R149, log entry 30). -/
def execQuoteExpiry (i : Fin 4) (s : State) : Host.Outcome State Fault Refusal :=
  whenPowered s fun s => s.expireSlot i

/-- CANCEL_QUOTE served (R149). -/
def serveCancel (slot : Byte) (s : State) : Served :=
  match slotOf slot.toNat with
  | none => { state := s, result := .quoteUnknown }
  | some i =>
    match s.fqu.slots[i] with
    | .opened _ => { state := s.setSlot i .free, result := .ok }
    | .pendingAuth .. => { state := s, result := .busy }
    | .free => { state := s, result := .quoteUnknown }

/-- CANCEL_QUOTE (R149). -/
def execCancelQuote (slot : Byte) (s : State) : Host.Outcome State Fault Refusal :=
  whenServed s 2#8 (serveCancel slot)

/-! ## QUOTE (R147, R148) -/

/-- The concession slot a class octet names: 0 is none (R159); `none` when it names no present slot
(R147, test 5; log entry 31). -/
def FareTable.classNamed (t : FareTable) (cls : Nat) : Option (Option (Fin 4)) :=
  if cls = 0 then some none
  else
    match classOf cls with
    | some i => if t.classes[i].isSome then some (some i) else none
    | none => none

/-- Tests 2 and 3 of R147: the destination's record in the ACTIVE table. -/
def State.sellableTo (s : State) (code : HaltCode) : Except Result (FareTable × DestinationRecord) :=
  match s.fqu.active with
  | none => .error .noDest
  | some t =>
    match t.destination code with
    | none => .error .noDest
    | some d => if d.sellable then .ok (t, d) else .error .notSellable

/-- Test 5 of R147: the type and the class, with a quantity in 1..9. -/
def FareTable.terms (t : FareTable) (type : Byte) (cls quantity : Nat) :
    Option (TicketType × Option (Fin 4)) :=
  match t.typeOf type, t.classNamed cls with
  | some y, some k => if 1 ≤ quantity ∧ quantity ≤ 9 then some (y, k) else none
  | _, _ => none

/-- Tests 7 to 9 of R147 on a named call. -/
def State.sellableCall (s : State) (k : Key) (destination : HaltCode) : Except Result Call :=
  match s.call k with
  | none => .error .noCall
  | some c =>
    if c.loaded.stopMode = .pass then .error .noCall
    else if !c.isRunning || s.pastCutoff c then .error .callGone
    else if destination ∈ c.loaded.destinations then .ok c
    else .error .noCall

/-- Tests 6 to 9 of R147. -/
def State.quoteCall (s : State) (rule : ValidityRule) (r : QuoteRequest) :
    Except Result (Option Call) :=
  if flagSet r.callPresent.toNat then
    match s.sellableCall ⟨r.train, r.runDate⟩ r.destination with
    | .ok c => .ok (some c)
    | .error e => .error e
  else if rule = .specifiedCall then .error .noCall
  else .ok none

/-- Clock minute of the travel time of a quote (9.3): S of the named call, or the current s. -/
def State.travelMinute (s : State) : Option Call → Option Nat
  | some c => some (clockMinute s.htb.hour c.loaded.sched)
  | none => s.minute

/-- The unit price with a class slot of the table (R144, R145). -/
def FareTable.priceOf (t : FareTable) (d : DestinationRecord) (y : TicketType)
    (k : Option (Fin 4)) (m : Option Nat) : Nat :=
  t.unitPrice d y (k.bind fun i => t.classes[i]) m

/-- The lowest-numbered FREE slot (R148). -/
def State.freeSlot (s : State) : Option (Fin 4) := allSlots.find? fun i => s.fqu.slots[i] == .free

/-- A QUOTE that passed tests 1 to 9: tests 10 and 11, and the slot with its quote (R147, R148). -/
def State.makeQuote (s : State) (r : QuoteRequest) (t : FareTable) (d : DestinationRecord)
    (y : TicketType) (k : Option (Fin 4)) (c : Option Call) : Except Result (Fin 4 × Quote) :=
  let m := s.travelMinute c
  if y.rule = .offPeakOnly ∧ t.cheapAt m = false then .error .typeNotValidNow
  else
    match s.freeSlot with
    | none => .error .busy
    | some i =>
      let unit := t.priceOf d y k m
      .ok (i, {
        destination := r.destination
        type := r.type
        cls := k
        call := c.map Call.key
        unitPrice := unit
        quantity := r.quantity.toNat
        total := unit * r.quantity.toNat
        created := s.htb.uptime })

/-- The tests of R147 in order, and the quote. -/
def State.judgeQuote (s : State) (r : QuoteRequest) : Except Result (Fin 4 × Quote × Option Call) :=
  if s.sju.salesMode = .closed then .error .salesClosed
  else
    match s.sellableTo r.destination with
    | .error e => .error e
    | .ok (t, d) =>
      if r.destination ∈ s.bdc.held then .error .held
      else
        match t.terms r.type r.cls.toNat r.quantity.toNat with
        | none => .error .badMessage
        | some (y, k) =>
          match s.quoteCall y.rule r with
          | .error e => .error e
          | .ok c =>
            match s.makeQuote r t d y k c with
            | .error e => .error e
            | .ok (i, q) => .ok (i, q, c)

/-- The stop-request-needed flag (R148). -/
def stopNeeded (c : Option Call) : Bool :=
  c.any fun c => c.loaded.stopMode == .request && c.stop == .none

/-- QUOTE served (R147, R148). -/
def serveQuote (r : QuoteRequest) (s : State) : Served :=
  match s.judgeQuote r with
  | .error e => { state := s, result := e }
  | .ok (i, q, c) =>
    { state := s.setSlot i (.opened q)
      result := .ok
      body := .quote i q.unitPrice q.total s.fqu.activations (stopNeeded c) }

/-- QUOTE (R147). -/
def execQuote (r : QuoteRequest) (s : State) : Host.Outcome State Fault Refusal :=
  whenServed s 1#8 (serveQuote r)

/-! ## FIND (R152, R153) -/

/-- Whether an examined record is a result (R153). -/
def State.isFindResult (s : State) (destination : HaltCode) (c : Call) : Bool :=
  c.isRunning && c.loaded.stopMode != .pass && decide (destination ∈ c.loaded.destinations)
    && !s.pastCutoff c

/-- What a result gives (R153). -/
def State.findResult (s : State) (c : Call) : FindResult where
  key := c.key
  scheduled := clockMinute s.htb.hour c.loaded.sched
  display := c.display
  shown := c.shownMinute.map fun m => (60 * s.htb.hour + m) % 1440
  platform := c.loaded.platform
  stopMode := c.loaded.stopMode

/-- Where a scan stops: its results, its completion code, the position its token gives. -/
structure Scan where
  results : List FindResult
  code : Result
  position : Option Nat := none
deriving DecidableEq, Repr

/-- The scan of the records from position `pos`, `examined` of them before, for `count` results
(R153). -/
def State.scan (s : State) (destination : HaltCode) (count : Nat) :
    Nat → Nat → List FindResult → List Call → Scan
  | _, _, found, [] => { results := found, code := .ended }
  | pos, examined, found, c :: rest =>
    let found := if s.isFindResult destination c then found ++ [s.findResult c] else found
    if found.length = count then { results := found, code := .found, position := some (pos + 1) }
    else if rest.isEmpty then { results := found, code := .ended }
    else if examined + 1 = Config.findRecords then
      { results := found, code := .partialScan, position := some (pos + 1) }
    else s.scan destination count (pos + 1) (examined + 1) found rest

/-- The start time of a FIND: none for a time above 91799; all ones is NOW (R152). -/
def State.findStart (s : State) (start : BitVec 24) : Option Nat :=
  if start = 0xFFFFFF#24 then some s.htb.secs
  else if start.toNat ≤ Config.maxService then some start.toNat
  else none

/-- The position of the first record whose S is at or after a time (R152). -/
def firstFrom (t : Nat) (calls : List Call) : Nat :=
  (calls.findIdx? fun c => decide (t ≤ c.loaded.sched)).getD calls.length

/-- The position a search starts at, or STALE (R152, cases 2 to 4). -/
def State.findPosition (s : State) (r : FindRequest) (t : Nat) : Option Nat :=
  if flagSet r.tokenPresent.toNat then
    if r.generation = s.tts.generation then some r.position.toNat else none
  else some (firstFrom t s.tts.current)

/-- The search of a well-formed FIND (R152, R153). -/
def State.search (s : State) (r : FindRequest) (t : Nat) : Scan :=
  if s.tts.currentState = .empty then { results := [], code := .ended }
  else
    match s.findPosition r t with
    | none => { results := [], code := .stale }
    | some p => s.scan r.destination r.count.toNat p 0 [] (s.tts.current.drop p)

/-- FIND served (R152, R153). -/
def serveFind (r : FindRequest) (s : State) : Served :=
  match s.findStart r.start with
  | none => { state := s, result := .badMessage }
  | some t =>
    if 1 ≤ r.count.toNat ∧ r.count.toNat ≤ 4 then
      let x := s.search r t
      { state := s
        result := x.code
        body := .find x.results (x.position.map fun p => ⟨s.tts.generation, p⟩) }
    else { state := s, result := .badMessage }

/-- FIND (R152). -/
def execFind (r : FindRequest) (s : State) : Host.Outcome State Fault Refusal :=
  whenServed s 7#8 (serveFind r)

end Sys2Proof.Machine
end

