-- ==== Sys2Proof/Machine/Journal.lean ====
section
/-! DEFINITION. The sales journal and the sales mode (10.2, 10.6, 10.7): appends, acknowledgement,
day totals, with ACK_TIMER_EXPIRY. -/

namespace Sys2Proof.Machine

/-! ## Sales mode (R156) -/

/-- The sales mode held and, when it differs, announced (R156). A start posts no notice (R178).
The notice stands before the withdrawals of a change into CLOSED: the model's choice (log entry
10). -/
def State.setSalesMode (s : State) (m : SalesMode) : State :=
  if m = s.sju.salesMode then s
  else
    let s := { s with sju := { s.sju with salesMode := m } }
    let s := if s.starting then s else s.postNotice (.salesMode m)
    if m = .closed then s.invalidateAll else s

/-- The sales mode derived again (R156). -/
def State.deriveSalesMode (s : State) : State := s.setSalesMode s.salesModeOf

/-! ## Appends (R165) -/

/-- Free places that a record needs (R165). -/
def JournalBody.needs : JournalBody → Nat
  | .sale _ => Config.saleNeeds
  | .void .. | .reversal .. | .dayTotal .. | .restore .. => 1

/-- Whether a record may be appended: not while UNSET, and with its places free (R165). -/
def State.mayAppend (s : State) (b : JournalBody) : Bool :=
  s.htb.sync != .unset && decide (b.needs ≤ s.sju.freePlaces)

/-- The record at W; W increases by one (R165). -/
def Sju.push (j : Sju) (b : JournalBody) : Sju :=
  { j with journal := j.journal ++ [⟨j.writeSeq, b⟩], writeSeq := j.writeSeq + 1#32 }

/-- A record appended if it may be, with JOURNAL_NEAR_FULL as the occupancy rises to 448 (R165). -/
def State.appendRecord (s : State) (b : JournalBody) : State :=
  if s.mayAppend b then
    let s := { s with sju := s.sju.push b }
    if s.sju.occupancy = Config.nearFull then s.postNotice .journalNearFull else s
  else s

/-- What follows an append: the sales mode and the drain trigger (R165, R167). -/
def State.afterAppend (s : State) : State := s.deriveSalesMode.drain

/-- A record appended with what follows, or lost and counted; while UNSET nothing happens (R165). -/
def State.appendOrLose (s : State) (b : JournalBody) (lost : SjuCounters → SjuCounters) : State :=
  if s.mayAppend b then (s.appendRecord b).afterAppend
  else if s.htb.sync = .unset then s
  else s.modSjuCtr lost

/-- A REVERSAL appended or lost (R163, R165). -/
def State.appendReversal (s : State) (tag : Tag) (total : Nat) (code : List Byte) : State :=
  s.appendOrLose (.reversal s.htb.date s.htb.secs tag total code)
    fun c => { c with reversalLost := tally c.reversalLost }

/-- A DAY_TOTAL or RESTORE appended or lost (R165). -/
def State.appendOther (s : State) (b : JournalBody) : State :=
  s.appendOrLose b fun c => { c with recordLost := tally c.recordLost }

/-- The DAY_TOTAL of a closed date; the day totals return to 0 (R170). -/
def State.closeDay (s : State) (closed : Date) : State :=
  let s := s.appendOther (.dayTotal closed s.sju.totals)
  { s with sju := { s.sju with totals := {} } }

/-! ## Day totals -/

/-- One tally of the day totals changed (R159, R161). -/
def DayTotals.modify (t : DayTotals) (k : PaymentKind) (f : Tally → Tally) : DayTotals :=
  match k with
  | .cash => { t with cash := f t.cash }
  | .cardOnline => { t with cardOnline := f t.cardOnline }
  | .cardOffline => { t with cardOffline := f t.cardOffline }

/-- A sale counted (R159). -/
def DayTotals.gain (t : DayTotals) (k : PaymentKind) (total : Nat) : DayTotals :=
  t.modify k fun x => ⟨tally x.count, satAdd x.amount total⟩

/-- A sale taken off (R161). -/
def DayTotals.lose (t : DayTotals) (k : PaymentKind) (total : Nat) : DayTotals :=
  t.modify k fun x => ⟨x.count - 1, x.amount - total⟩

/-! ## Acknowledgement and go-back (R168, R169) -/

/-- N set to A, with the acknowledgement timer stopped (R168). -/
def Sju.goBack (j : Sju) : Sju := { j with nextSeq := j.ackSeq, ackTimer := .stopped }

/-- ACK_TIMER_EXPIRY (R168). -/
def execAckTimerExpiry (s : State) : Host.Outcome State Fault Refusal :=
  whenPowered s fun s =>
    if s.sju.ackTimer.isRunning then State.drain { s with sju := s.sju.goBack } else s

/-- The first `n` records acknowledged: A moves on, the exposure is computed again, the timer restarts
or stops (R157, R168, R169). -/
def Sju.acknowledge (j : Sju) (n : Nat) : Sju :=
  let a := j.ackSeq + BitVec.ofNat 32 n
  Sju.withExposure { j with
    ackSeq := a
    journal := j.journal.drop n
    ackTimer := if a = j.nextSeq then .stopped else .running Config.ackMs }

/-- A advanced by `n` records (R169); by none it stays, and nothing follows. -/
def State.advanceAck (s : State) (n : Nat) : State :=
  if n = 0 then s else State.afterAppend { s with sju := s.sju.acknowledge n }

/-- A well-formed JACK (R169). -/
def State.ackThrough (s : State) (k : Seq) : State :=
  let distance := (k - s.sju.ackSeq).toNat
  if 2 ^ 31 ≤ distance then s.modSjuCtr fun c => { c with ackBehind := tally c.ackBehind }
  else if distance < s.sju.inFlight then s.advanceAck (distance + 1)
  else
    State.advanceAck (s.modSjuCtr fun c => { c with ackAhead := tally c.ackAhead }) s.sju.inFlight

/-- A JACK taken; one sent to 0 is misdirected even where the own code is 0 (R169, log entry 41). -/
def State.takeJack (s : State) (destination : HaltCode) (bs : List Byte) : State :=
  match jackOfPayload bs with
  | some k =>
    if destination = s.own.haltCode ∧ destination ≠ allHalts then s.ackThrough k
    else s.modSjuCtr fun c => { c with jackForm := tally c.jackForm }
  | none => s.modSjuCtr fun c => { c with jackForm := tally c.jackForm }

end Sys2Proof.Machine
end

