-- ==== Sys2Proof/Machine/Stops.lean ====
section
/-! DEFINITION. The Stop Request Unit: stop states, STOPREQ and STOPCONF, lamps, buttons (07), with
BUTTON_PRESS, BUTTON_RELEASE, NO_TARGET_EXPIRY, RESEND_EXPIRY. -/

namespace Sys2Proof.Machine

/-! ## Lamps (R117) -/

/-- Both lamps derived again (R117). -/
def State.deriveLamps (s : State) : State :=
  let one := s.lampOf .one
  let two := s.lampOf .two
  { s with sru := { s.sru with
      one := { s.sru.one with lamp := one }, two := { s.sru.two with lamp := two } } }

/-! ## Stop states (R116) -/

/-- Whether a change of stop state posts a notice: not one between WANTED and SENT (R116). -/
def stopNoticed (before after : StopState) : Bool :=
  match before, after with
  | .wanted, .sent | .sent, .wanted => false
  | a, b => a != b

/-- A changed stop state told to the BDC and, unless it is one between WANTED and SENT, to the
terminal; the lamps follow (R116, R117). -/
def State.announceStop (s : State) (k : Key) (before after : StopState) : State :=
  let s := s.deriveLamps
  let s := if before = after then s else s.compose
  if stopNoticed before after then s.postNotice (.stopState k after) else s

/-- A call's stop items changed, and the change announced (R116). -/
def State.changeStop (s : State) (c : Call) (f : Call → Call) : State :=
  (s.modCall c.key f).announceStop c.key c.stop (f c).stop

/-! ## Sending (R110) -/

def platformCode : Platform → Nat
  | .one => 1 | .two => 2

/-- Code of a stop cause; NONE has no cause and is never sent (R183). -/
def causeCode : Option StopCause → Nat
  | some .button => 1 | some .ticket => 2 | none => 0

/-- Payload of a STOPREQ (R110, 11.7). -/
def State.stopreqOctets (s : State) (c : Call) : List Byte :=
  be 2 c.loaded.train.toNat ++ be 2 c.loaded.runDate.toNat
    ++ [BitVec.ofNat 8 (platformCode c.loaded.platform), BitVec.ofNat 8 (causeCode c.stopCause), s.sru.serial]

/-- A STOPREQ built and offered; the call is SENT with its resend timer started (R110). -/
def State.sendStopreq (s : State) (c : Call) : State :=
  let payload := s.stopreqOctets c
  let s := { s with sru := { s.sru with serial := s.sru.serial + 1#8 } }
  let s := s.modSruCtr fun k => { k with stopreqBuilt := tally k.stopreqBuilt }
  let s := s.offerOwn .up .stopreq centre (.octets payload)
  s.changeStop c fun c => { c with stop := .sent, resend := .running Config.resendMs }

/-- Whether R110 sends a call. -/
def State.maySend (s : State) (c : Call) : Bool :=
  c.isRunning && c.stop == .wanted && s.up.lsu.state == .service && !s.pastCutoff c

/-- R110 tested for a call. -/
def State.trySend (s : State) (k : Key) : State :=
  match s.call k with
  | some c => if s.maySend c then s.sendStopreq c else s
  | none => s

/-! ## Windows and cutoffs (R107, R112) -/

/-- The cutoff test of one call (R112). -/
def State.testCutoff (s : State) (k : Key) : State :=
  match s.call k with
  | none => s
  | some c =>
    if !c.isRunning then s
    else if (c.stop = .wanted ∨ c.stop = .sent) ∧ s.pastCutoff c = true then
      s.changeStop c fun c => { c with stop := .late, resend := .stopped }
    else if c.stop = .late ∧ s.pastCutoff c = false then
      (s.changeStop c fun c => { c with stop := .wanted }).trySend k
    else s

/-- Keys of the calls of CURRENT in bank order. -/
def State.keys (s : State) : List Key := s.tts.current.map Call.key

/-- Windows and cutoffs of every call tested in bank order, and the lamps derived (R107, R117, log
entry 43). -/
def State.testCutoffs (s : State) : State := (s.keys.foldl State.testCutoff s).deriveLamps

/-! ## Presses and tickets (R108, R109) -/

/-- A call in NONE becomes WANTED with a cause; it is sent when it may be, and its cutoff is tested
(R108, R109, R110, R112). -/
def State.wantStop (s : State) (c : Call) (cause : StopCause) : State :=
  ((s.changeStop c fun c => { c with stop := .wanted, stopCause := some cause }).trySend
    c.key).testCutoff c.key

/-- A ticket request (R109). -/
def State.ticketRequest (s : State) (k : Key) : State :=
  match s.call k with
  | some c =>
    if c.isRunning = true ∧ c.loaded.stopMode = .request ∧ c.stop = .none then
      s.wantStop c .ticket
    else s
  | none => s

/-- A press on a platform (R108). -/
def State.press (s : State) (p : Platform) : State :=
  match s.pressTarget p with
  | none =>
    let s := s.modSruCtr fun k => { k with noTarget := tally k.noTarget }
    (s.modIo p fun io => { io with noTarget := .running Config.noTargetMs }).deriveLamps
  | some c =>
    let s := s.modIo p fun io => { io with noTarget := .stopped }
    (if c.stop = .none then s.wantStop c .button else s).deriveLamps

/-- BUTTON_PRESS: a change from RELEASED to PRESSED, announced as activity, is one press
(R106, R108, R136). -/
def execButtonPress (p : Platform) (s : State) : Host.Outcome State Fault Refusal :=
  whenPowered s fun s =>
    match (s.sru.io p).button with
    | .pressed => s
    | .released =>
      ((s.modIo p fun io => { io with button := .pressed }).noteActivity .button).press p

/-- BUTTON_RELEASE (R106). -/
def execButtonRelease (p : Platform) (s : State) : Host.Outcome State Fault Refusal :=
  whenPowered s fun s => s.modIo p fun io => { io with button := .released }

/-- NO_TARGET_EXPIRY (R117). -/
def execNoTargetExpiry (p : Platform) (s : State) : Host.Outcome State Fault Refusal :=
  whenPowered s fun s =>
    if (s.sru.io p).noTarget.isRunning then
      (s.modIo p fun io => { io with noTarget := .stopped }).deriveLamps
    else s

/-- RESEND_EXPIRY (R111). -/
def execResendExpiry (k : Key) (s : State) : Host.Outcome State Fault Refusal :=
  whenPowered s fun s =>
    match s.call k with
    | some c => if c.stop = .sent ∧ c.resend.isRunning = true then s.sendStopreq c else s
    | none => s

/-! ## STOPCONF and the Up port (R113, R114) -/

/-- A well-formed STOPCONF (R113). -/
def State.confirm (s : State) (k : Key) : State :=
  let unexpected := s.modSruCtr fun k => { k with confUnexpected := tally k.confUnexpected }
  match s.call k with
  | none => unexpected
  | some c =>
    if !c.isRunning then unexpected
    else
      match c.stop with
      | .none => unexpected
      | .confirmed => s
      | .wanted | .sent | .late =>
        s.changeStop c fun c => { c with stop := .confirmed, resend := .stopped }

/-- A STOPCONF taken (R113). -/
def State.takeStopconf (s : State) (bs : List Byte) : State :=
  match stopconfOfPayload bs with
  | some k => s.confirm k
  | none => s.modSruCtr fun k => { k with confForm := tally k.confForm }

/-- A call that is SENT, running or not, returns to WANTED (R114, R115, R121, log entry 29). -/
def Call.unsend (c : Call) : Call :=
  if c.stop = .sent then { c with stop := .wanted, resend := .stopped } else c

/-- The Up port has left SERVICE; changed stop states are told to the BDC (R114, R116). -/
def State.stopsLoseLink (s : State) : State :=
  let s' := (s.mapCalls Call.unsend).deriveLamps
  if s'.tts.current = s.tts.current then s' else s'.compose

/-- The Up port has entered SERVICE: the WANTED calls are sent in bank order (R114). -/
def State.stopsGainLink (s : State) : State := s.keys.foldl State.trySend s

/-! ## Announcements of the TTS (R115) -/

/-- The resend timer of a frozen call stops (R115). -/
def Call.freeze (c : Call) : Call := { c with resend := .stopped }

/-- The SRU's part of an announcement that names a call, present or gone (R115). -/
def State.stopsOnCall (s : State) (k : Key) : State :=
  let s :=
    match s.call k with
    | none => s
    | some c => if c.isRunning then s.testCutoff k else s.modCall k Call.freeze
  s.deriveLamps

/-- A WANTED call of a reinstatement sent, and the lamps derived (R110, R115). -/
def State.sendWanted (s : State) (k : Key) : State := (s.trySend k).deriveLamps

end Sys2Proof.Machine
end

