-- ==== Sys2Proof/Machine/Forecast.lean ====
section
/-! DEFINITION. The Forecast Engine: derivations and the forecast changes it announces (06). -/

namespace Sys2Proof.Machine

/-- A forecast change announced: the SRU tests the call, the FQU its cutoff, the BDC composes
(R101, R107, R128, R151). That they act in this order is the model's choice (log entry 10). -/
def State.announceForecast (s : State) (k : Key) : State :=
  (s.testCutoff k).deriveLamps.cutoffQuotes.compose

/-- Keys of the calls whose forecast items differ between two lists of the same calls (R101). -/
def changedKeys : List Call → List Call → List Key
  | a :: as, b :: bs =>
    if forecastChanged a b then b.key :: changedKeys as bs else changedKeys as bs
  | _, _ => []

/-- The calls of CURRENT derived again by `f`, every item of each before any announcement (R101);
the changed calls are announced in bank order: the model's choice (log entry 43). -/
def State.rederive (s : State) (f : Call → Call) : State :=
  let s' := s.mapCalls f
  (changedKeys s.tts.current s'.tts.current).foldl State.announceForecast s'

/-- One call derived again (R103). -/
def State.rederiveCall (s : State) (k : Key) : State :=
  s.rederive fun c => if c.key = k then s.deriveCall c else c

/-- F, confidence, overdue mark and display of every call derived again (R103). -/
def State.rederiveAll (s : State) : State := s.rederive s.deriveCall

/-- Confidence of every call derived again (R97). -/
def State.rederiveConfidence (s : State) : State :=
  s.rederive fun c => s.showCall { c with confidence := s.confidenceOf c }

/-- The overdue marks tested (R98, R104). -/
def State.testOverdue (s : State) : State := s.rederive s.markCall

/-- The display of every call derived again (R102). -/
def State.rederiveDisplay (s : State) : State := s.rederive s.showCall

/-- Every call derived at a start, with no announcement (R105). -/
def State.deriveQuietly (s : State) : State := s.mapCalls s.deriveCall

end Sys2Proof.Machine
end

