-- ==== Sys2Proof/Machine/Timetable.lean ====
section
/-! DEFINITION. The Timetable Store: loads, RUN notices, departure, expiry, bank switch and clearing
(05). -/

namespace Sys2Proof.Machine

/-! ## Announcements (R79): FCE, SRU, FQU, BDC in turn (log entry 10) -/

/-- A record added. -/
def State.announceAdded (s : State) (k : Key) : State :=
  ((s.rederiveCall k).stopsOnCall k).compose

/-- A call state changed; one that left the running states loses its quotes (R150). -/
def State.announceState (s : State) (k : Key) : State :=
  let s := (s.rederiveCall k).stopsOnCall k
  let s := if (s.call k).any Call.isRunning then s else s.invalidateNaming k
  s.compose

/-- A record replaced, whose stop state was `before` and is now `after` (R75, R115, R116, R150). A
change that the new E then makes is announced by the test that makes it. -/
def State.announceReplaced (s : State) (k : Key) (before after : StopState) : State :=
  ((((s.rederiveCall k).announceStop k before after).stopsOnCall k).invalidateNaming k).compose

/-- A record deleted. -/
def State.announceDeleted (s : State) (k : Key) : State :=
  ((s.stopsOnCall k).invalidateNaming k).compose

/-- A bank switch or clearing. -/
def State.announceSwitch (s : State) : State :=
  (s.rederiveAll.testCutoffs.invalidate fun q => q.call.isSome).compose

/-! ## CALL_ADD, CALL_DELETE (R73 to R76) -/

/-- The TTS with its generation one further (R71). -/
def Tts.bump (t : Tts) : Tts := { t with generation := t.generation + 1#16 }

/-- A held report with its point index taken again (R75). -/
def Report.reindex (points : List TimingPoint) (r : Report) : Report :=
  { r with index := pointIndex points r.point }

/-- A call with no stop request (R75, R115). -/
def Call.clearStop (c : Call) : Call :=
  { c with stop := .none, stopCause := none, resend := .stopped }

/-- What a replacement leaves of a held call (R75, R93). -/
def Call.replacedBy (c : Call) (l : Loaded) : Call :=
  let c' := { c with loaded := l }
  if l.sched = c.loaded.sched then
    let c' := { c' with report := c.report.map (Report.reindex l.points) }
    if l.stopMode = .request then c' else c'.clearStop
  else
    Call.clearStop { c' with
      report := none
      forecast := 0
      state := if c.isRunning then .scheduled else c.state }

/-- A bank after an applied CALL_ADD (R74, R75). -/
def addTo (calls : List Call) (l : Loaded) : List Call :=
  match findCall calls l.key with
  | some c => insertCall (c.replacedBy l) (removeCall l.key calls)
  | none => insertCall { loaded := l } calls

/-- The records of a bank. -/
def Tts.bank (t : Tts) : Bank → List Call
  | .current => t.current
  | .next => t.next

/-- Whether a bank's state lets it be loaded (R74, test 1). -/
def Tts.loadable (t : Tts) : Bank → Bool
  | .current => t.currentState == .active
  | .next => t.nextState != .empty

/-- The date of a bank. -/
def Tts.date (t : Tts) : Bank → Date
  | .current => t.currentDate
  | .next => t.nextDate

/-- Whether a bank has room for a key (R74, test 3). -/
def hasRoom (calls : List Call) (k : Key) : Bool :=
  (findCall calls k).isSome || decide (calls.length < Config.bankRecords)

/-- A CALL_ADD that passed its tests (R74, R75). -/
def State.addCall (s : State) (b : Bank) (l : Loaded) : State :=
  match b with
  | .next => { s with tts := { s.tts with next := addTo s.tts.next l } }
  | .current =>
    let s' := { s with tts := { s.tts with current := addTo s.tts.current l }.bump }
    match s.call l.key with
    | some c => s'.announceReplaced l.key c.stop (c.replacedBy l).stop
    | none => s'.announceAdded l.key

/-- A LOAD CALL_ADD taken (R73, R74). -/
def State.takeCallAdd (s : State) (bs : List Byte) : State :=
  match callAddOfPayload bs with
  | none => s.modTtsCtr fun c => { c with form := tally c.form }
  | some (b, l) =>
    if !s.tts.loadable b then s.modTtsCtr fun c => { c with state := tally c.state }
    else if l.runDate ≠ s.tts.date b then s.modTtsCtr fun c => { c with date := tally c.date }
    else if !hasRoom (s.tts.bank b) l.key then s.modTtsCtr fun c => { c with full := tally c.full }
    else s.addCall b l

/-- A record removed (R76). -/
def State.deleteCall (s : State) (b : Bank) (k : Key) : State :=
  match b with
  | .next => { s with tts := { s.tts with next := removeCall k s.tts.next } }
  | .current =>
    State.announceDeleted
      { s with tts := { s.tts with current := removeCall k s.tts.current }.bump } k

/-- A LOAD CALL_DELETE taken (R76). -/
def State.takeCallDelete (s : State) (bs : List Byte) : State :=
  match callDeleteOfPayload bs with
  | none => s.modTtsCtr fun c => { c with form := tally c.form }
  | some (b, k) =>
    if (findCall (s.tts.bank b) k).isSome then s.deleteCall b k
    else s.modTtsCtr fun c => { c with noKey := tally c.noKey }

/-! ## BANK_OPEN, BANK_CLOSE (R77, R78) -/

/-- A LOAD BANK_OPEN taken (R77, log entry 18). -/
def State.takeBankOpen (s : State) (bs : List Byte) : State :=
  match bankOpenOfPayload bs with
  | none => s.modTtsCtr fun c => { c with form := tally c.form }
  | some (.current, _) => s.modTtsCtr fun c => { c with state := tally c.state }
  | some (.next, d) =>
    { s with tts := { s.tts with next := [], nextDate := d, nextState := .loading } }

/-- The NEXT state after a close naming NEXT (R78). -/
def Tts.closed (t : Tts) (count : Nat) : NextState :=
  if t.nextState = .loading ∧ count = t.next.length then .ready else t.nextState

/-- The REPLY to a close of this count (R78, R176). -/
def Tts.closeReply (t : Tts) (count : Nat) : Reply where
  queryNumber := 0#8
  kind := .bankClose
  result := if t.nextState = .ready ∧ count = t.next.length then .ready else .mismatch
  body := .bankClose t.next.length t.nextState t.nextDate

/-- A LOAD BANK_CLOSE taken (R78, log entry 18). -/
def State.takeBankClose (s : State) (bs : List Byte) : State :=
  match bankCloseOfPayload bs with
  | none => s.modTtsCtr fun c => { c with form := tally c.form }
  | some (b, count) =>
    let s :=
      match b with
      | .current => s.modTtsCtr fun c => { c with state := tally c.state }
      | .next => { s with tts := { s.tts with nextState := s.tts.closed count } }
    s.offerReply (s.tts.closeReply count)

/-! ## RUN (R80 to R86) -/

/-- A call state changed and announced. -/
def State.setCallState (s : State) (k : Key) (st : CallState) : State :=
  (s.modCall k fun c => { c with state := st }).announceState k

/-- A RUN counted stale. -/
def State.runStale (s : State) : State := s.modTtsCtr fun c => { c with runStale := tally c.runStale }

/-- Whether a point code reports a train past the halt (R81). -/
def State.isPast (s : State) (c : Call) (code : PointCode) : Bool :=
  c.loaded.beyond == some code || (code == s.params.ownPoint && s.params.ownPoint != 0#16)

/-- Whether a report supersedes the held one (R82). -/
def Report.supersedes (r : Report) : Option Report → Bool
  | none => true
  | some h => decide (h.index < r.index) || (r.index == h.index && decide (h.time < r.time))

/-- An accepted report (R82). -/
def State.acceptReport (s : State) (c : Call) (r : Report) : State :=
  let s := s.modCall c.key fun c => { c with report := some r, state := .running }
  match c.state with
  | .running => s.rederiveCall c.key
  | _ => s.announceState c.key

/-- A RUN POINT for a matched call (R81, R82). -/
def State.runPoint (s : State) (c : Call) (code : PointCode) (delay : Int) (time : Nat) : State :=
  if !c.isRunning then s.runStale
  else if s.isPast c code then s.setCallState c.key .departed
  else
    let r : Report := ⟨code, pointIndex c.loaded.points code, delay, time, some s.htb.uptime⟩
    if r.supersedes c.report then s.acceptReport c r else s.runStale

/-- A RUN CANCEL for a matched call (R83). -/
def State.runCancel (s : State) (c : Call) : State :=
  match c.state with
  | .scheduled | .running | .expired => s.setCallState c.key .cancelled
  | .cancelled => s
  | .departed => s.runStale

/-- A cancelled call running again: no report, and a SENT request WANTED again (R84, R115). -/
def Call.reinstated (c : Call) : Call := Call.unsend { c with state := .scheduled, report := none }

/-- A RUN REINSTATE for a matched call (R84, R115). -/
def State.runReinstate (s : State) (c : Call) : State :=
  match c.state with
  | .cancelled =>
    ((((s.modCall c.key Call.reinstated).rederiveCall c.key).stopsOnCall c.key).sendWanted
      c.key).compose
  | .scheduled | .running | .departed | .expired => s.runStale

/-- A RUN PLATFORM for a matched call (R85). -/
def State.runPlatform (s : State) (c : Call) (p : Platform) : State :=
  if !c.isRunning then s.runStale
  else if c.loaded.platform = p then s
  else
    ((s.modCall c.key fun c => { c with loaded := { c.loaded with platform := p } }).stopsOnCall
      c.key).compose

/-- A RUN taken (R80). -/
def State.takeRun (s : State) (bs : List Byte) : State :=
  match RunNotice.ofPayload bs with
  | none => s.modTtsCtr fun c => { c with runForm := tally c.runForm }
  | some n =>
    match s.call n.key with
    | none => s.modTtsCtr fun c => { c with runNoMatch := tally c.runNoMatch }
    | some c =>
      match n.event with
      | .point code delay time => s.runPoint c code delay time
      | .cancel => s.runCancel c
      | .reinstate => s.runReinstate c
      | .platform p => s.runPlatform c p

/-! ## Expiry (R87) -/

/-- The expiry examination of one call (R87). -/
def State.expireCall (s : State) (k : Key) : State :=
  match s.call k with
  | some c =>
    if c.isRunning = true ∧ c.expected + 1800 < s.htb.secs then s.setCallState k .expired else s
  | none => s

/-- The expiry examination of CURRENT (R87), in bank order, each call announced before the next (log
entry 43). -/
def State.expireCalls (s : State) : State := s.keys.foldl State.expireCall s

/-! ## Bank switch and clearing (R89, R90) -/

/-- The banks after a switch to a new date (R89). -/
def Tts.switchTo (t : Tts) (newDate : Date) : Tts :=
  let t :=
    if t.nextState = .ready ∧ t.nextDate = newDate then
      { t with
        current := t.next, currentState := .active
        next := [], nextState := .empty, nextDate := t.currentDate }
    else
      let t := { t with current := [], currentState := .empty }
      if 0 < dateDiff t.nextDate newDate then t else { t with next := [], nextState := .empty }
  { t with currentDate := newDate }.bump

/-- The TTS's response to a day switch (R89). -/
def State.switchBanks (s : State) : State :=
  State.announceSwitch { s with tts := s.tts.switchTo s.htb.date }

/-- Both banks emptied (R90). -/
def Tts.clear (t : Tts) : Tts :=
  { t with current := [], currentState := .empty, next := [], nextState := .empty }.bump

/-- The TTS's response to CLEAR_TABLES (R90). -/
def State.clearBanks (s : State) : State := State.announceSwitch { s with tts := s.tts.clear }

/-- Every take uptime marked unknown (R91). -/
def State.forgetTakes (s : State) : State :=
  s.mapCalls fun c => { c with report := c.report.map fun r => { r with taken := none } }

end Sys2Proof.Machine
end

