-- ==== Sys2Proof/Machine/Messages.lean ====
section
/-! DEFINITION. Passenger messages: loads, removals, validity and the held set (8.5). -/

namespace Sys2Proof.Machine

/-! ## Validity (R132, R134) -/

/-- The codes of one list that are not in another. -/
def codesAdded (before after : List HaltCode) : List HaltCode := after.filter fun c => decide (c ∉ before)

/-- The validity of every message evaluated. A changed valid set rebuilds the held set, whose added
codes go to the FQU, composes the rows and tests the dark conditions (R132, R134). -/
def State.evaluateMessages (s : State) : State :=
  let valid := s.validMessages
  if valid = s.bdc.valid then s
  else
    let held := heldCodes valid
    let added := codesAdded s.bdc.held held
    let s := { s with bdc := { s.bdc with valid := valid, held := held } }
    ((s.invalidate fun q => decide (q.destination ∈ added)).compose.darkTest .none).linkStart

/-- The message records replaced: validity is evaluated and the rows composed (R128, R132). -/
def State.setMessages (s : State) (ms : Vector (Option Message) 8) : State :=
  (State.evaluateMessages { s with bdc := { s.bdc with messages := ms } }).compose

/-! ## Loads (R130, R131) -/

/-- The slot that holds an id. -/
def messageSlot (ms : Vector (Option Message) 8) (id : Byte) : Option (Fin 8) :=
  (List.finRange 8).find? fun i => ms[i].any fun m => m.id == id

/-- The lowest-numbered free slot. -/
def freeMessageSlot (ms : Vector (Option Message) 8) : Option (Fin 8) :=
  (List.finRange 8).find? fun i => ms[i].isNone

/-- A LOAD MESSAGE taken (R130). -/
def State.takeMessage (s : State) (bs : List Byte) : State :=
  match messageOfPayload bs with
  | none => s.modBdcCtr fun c => { c with form := tally c.form }
  | some m =>
    match (messageSlot s.bdc.messages m.id).orElse fun _ => freeMessageSlot s.bdc.messages with
    | some i => s.setMessages (s.bdc.messages.set i (some m))
    | none => State.evaluateMessages (s.modBdcCtr fun c => { c with full := tally c.full })

/-- A LOAD MESSAGE_DELETE taken (R131). -/
def State.takeMessageDelete (s : State) (bs : List Byte) : State :=
  match messageDeleteOfPayload bs with
  | none => s.modBdcCtr fun c => { c with form := tally c.form }
  | some id =>
    match messageSlot s.bdc.messages id with
    | some i => s.setMessages (s.bdc.messages.set i none)
    | none => s.modBdcCtr fun c => { c with noId := tally c.noId }

/-- Whether a message's last valid date is earlier than a new date (R131): a difference below 0, −32768
too, where R70 calls neither date later: the model's choice (log entry 54). -/
def Message.outdated (newDate : Date) (m : Message) : Bool :=
  m.lastDate.any fun d => decide (dateDiff d newDate < 0)

/-- The records kept at a day switch (R131). -/
def keepMessages (newDate : Date) (ms : Vector (Option Message) 8) : Vector (Option Message) 8 :=
  ms.map fun x => x.filter fun m => !m.outdated newDate

/-- The BDC's response to a day switch: outdated records removed, validity evaluated, LIT or DIM
chosen again, the rows composed (R128, R131, R132, R135). The rows are composed before the choice: the
model's choice (log entry 10). -/
def State.boardsOnSwitch (s : State) : State :=
  (s.setMessages (keepMessages s.htb.date s.bdc.messages)).chooseEnergy

/-- The BDC's response to CLEAR_TABLES (R131). -/
def State.clearMessages (s : State) : State := s.setMessages (Vector.replicate 8 none)

end Sys2Proof.Machine
end

