-- ==== Sys2Proof/Machine/Fares.lean ====
section
/-! DEFINITION. Fare tables: LOAD FARE, FARE_ACTIVATE, activation, clearing (9.2, 9.7). -/

namespace Sys2Proof.Machine

/-! ## Rows (R141) -/

/-- A table with a destination record added or replaced; none for a 97th code. -/
def FareTable.putDestination (t : FareTable) (r : DestinationRecord) : Option FareTable :=
  let rest := t.destinations.filter fun x => x.code != r.code
  if rest.length < 96 then some { t with destinations := rest ++ [r] } else none

/-- A table with a ticket type added or replaced; none for a 9th id. -/
def FareTable.putType (t : FareTable) (y : TicketType) : Option FareTable :=
  let rest := t.types.filter fun x => x.id != y.id
  if rest.length < 8 then some { t with types := rest ++ [y] } else none

/-- A table after a row; none when there is no room (R141). -/
def FareTable.apply (t : FareTable) : FareRow → Option FareTable
  | .start => some {}
  | .header unit dayKey => some { t with unit := unit, dayKey := dayKey }
  | .dest r => t.putDestination r
  | .destRemove code =>
    some { t with destinations := t.destinations.filter fun x => x.code != code }
  | .base band fare => some { t with base := t.base.set band fare }
  | .type y => t.putType y
  | .band slot b => some { t with bands := t.bands.set slot (some b) }
  | .bandRemove slot => some { t with bands := t.bands.set slot none }
  | .cls i c => some { t with classes := t.classes.set i (some c) }
  | .clsRemove i => some { t with classes := t.classes.set i none }

/-- A LOAD FARE taken (R141). -/
def State.takeFare (s : State) (bs : List Byte) : State :=
  match FareRow.ofPayload bs with
  | none => s.modFquCtr fun c => { c with form := tally c.form }
  | some row =>
    match (s.fqu.pendingTable.getD {}).apply row with
    | some t => { s with fqu := { s.fqu with pendingTable := some t } }
    | none => s.modFquCtr fun c => { c with full := tally c.full }

/-! ## Activation (R142, R143) -/

/-- The tables after an activation (R143, steps 1 to 3). -/
def Fqu.activated (f : Fqu) : Fqu :=
  { f with
    active := f.pendingTable, pendingTable := none, schedule := none
    activations := f.activations + 1#16 }

/-- An activation (R143). -/
def State.activate (s : State) : State :=
  (State.invalidateAll { s with fqu := s.fqu.activated }).deriveSalesMode

/-- The scheduled instant asked about (R142). -/
def State.testActivation (s : State) : State :=
  match s.fqu.schedule with
  | some i => if s.reached i && s.fqu.pendingTable.isSome then s.activate else s
  | none => s

/-- A LOAD FARE_ACTIVATE taken (R142). -/
def State.takeFareActivate (s : State) (bs : List Byte) : State :=
  match fareActivateOfPayload bs with
  | none => s.modFquCtr fun c => { c with form := tally c.form }
  | some at? =>
    if s.fqu.pendingTable.isNone then s.modFquCtr fun c => { c with noPend := tally c.noPend }
    else
      match at? with
      | none => s.activate
      | some i => State.testActivation { s with fqu := { s.fqu with schedule := some i } }

/-- The FQU's response to CLEAR_TABLES (R154). -/
def State.clearFares (s : State) : State :=
  State.deriveSalesMode
    (State.invalidateAll
      { s with fqu := { s.fqu with active := none, pendingTable := none, schedule := none } })

end Sys2Proof.Machine
end

