-- ==== Sys2Proof/Machine/Time.lean ====
section
/-! DEFINITION. The Halt Time Base: counting, TIME, rollover and deferral, the day switch (04), with
SERVICE_SECOND, UPTIME_SECOND, MINUTE_TICK. -/

namespace Sys2Proof.Machine

/-! ## Announcements (log entry 10 gives the order of the receivers) -/

/-- A change of sync state or of U since `before` (R58). The TIME_SYNC notice is posted after the
receivers have acted: the model's choice (log entry 10). -/
def State.announceSync (s : State) (before : Htb) : State :=
  if s.htb.sync = before.sync then
    if s.htb.uncertainty = before.uncertainty then s else s.rederiveConfidence
  else
    let s := s.rederiveConfidence.deriveSalesMode.evaluateMessages.chooseEnergy.compose
    s.postNotice (.timeSync s.htb.sync)

/-- A day switch: the TTS switches its banks, the FQU withdraws every quote and asks for its instant,
the SJU closes the closed date if there is one, the BDC removes outdated messages (R63). The
order is the model's choice (log entry 10). -/
def State.announceDaySwitch (s : State) (closed : Option Date) : State :=
  let s := s.switchBanks.invalidateAll.testActivation
  let s :=
    match closed with
    | some d => s.closeDay d
    | none => s
  s.boardsOnSwitch

/-- An applied TIME: the FCE, SRU, FQU and BDC read the new s (R59, R98, R107, R142, R151). Their order,
and that the FQU asks for its activation instant before it tests the sales cutoffs, are the model's
choice (log entry 10). -/
def State.announceTime (s : State) : State :=
  s.testOverdue.testCutoffs.testActivation.cutoffQuotes.evaluateMessages.chooseEnergy.compose

/-! ## The day switch (R61 to R63) -/

/-- Steps 1 to 4 of R63 from an extended value x. -/
def Htb.switchedAt (h : Htb) (newHour x : Nat) : Htb :=
  let k := x / Config.daySeconds
  let e : Int := (x % Config.daySeconds : Nat) - 3600 * ((newHour : Int) - h.hour)
  { h with
    date := h.date + BitVec.ofNat 16 k
    hour := newHour
    secs := e.toNat
    stand := (-e).toNat
    deferral := false }

/-- Steps 1 to 5 of R63. -/
def State.daySwitchOnce (s : State) (x : Nat) : State :=
  State.announceDaySwitch { s with htb := s.htb.switchedAt s.params.hour x } (some s.htb.date)

/-- DEFER_LIMIT counted (R66). -/
def State.countDefer (s : State) : State :=
  s.modHtbCtr fun c => { c with deferLimit := tally c.deferLimit }

/-- The rollover check, with the day switch it makes (R61). -/
def State.rolloverWith (daySwitch : State → Nat → State) (s : State) : State :=
  if !s.hasLiveCall || s.params.deferLimit == 0 then daySwitch s s.htb.secs
  else if s.deferEnd ≤ s.htb.secs then daySwitch s.countDefer s.htb.secs
  else { s with htb := { s.htb with deferral := true } }

/-- The day switch. Step 6 makes the rollover check; the hours are then equal, so a switch that the
check makes leaves s below 86400 and needs no check of its own (R63). -/
def State.daySwitch (s : State) (x : Nat) : State :=
  let s := s.daySwitchOnce x
  if Config.daySeconds ≤ s.htb.secs then s.rolloverWith State.daySwitchOnce else s

/-- The rollover check (R61). -/
def State.rolloverCheck (s : State) : State := s.rolloverWith State.daySwitch

/-- The deferral tests (R62). -/
def State.deferralTests (s : State) : State :=
  if s.deferEnd ≤ s.htb.secs then s.countDefer.daySwitch s.htb.secs
  else if s.hasLiveCall then s
  else s.daySwitch s.htb.secs

/-- CTRL FORCE_DAY_SWITCH (R62, log entry 36). -/
def State.forceDaySwitch (s : State) : State :=
  if s.htb.sync ≠ .unset ∧ Config.daySeconds ≤ s.htb.secs then s.daySwitch s.htb.secs else s

/-! ## TIME (R59, R60) -/

/-- s set, the stand remainder set, the deferral flag cleared. -/
def Htb.placed (h : Htb) (secs stand : Nat) : Htb :=
  { h with secs := secs, stand := stand, deferral := false }

/-- The rollover check or the deferral tests of a TIME placed at or past 86400 (R60). -/
def State.placePast (s : State) (t : Nat) : State :=
  let s := { s with htb := { s.htb with secs := t, stand := 0 } }
  if s.htb.deferral then s.deferralTests else s.rolloverCheck

/-- An applied TIME placed by its target t (R60). -/
def State.place (s : State) (t : Int) (f : TimeFrame) : State :=
  if 172800 ≤ t then s.daySwitch t.toNat
  else if 86400 ≤ t then s.placePast t.toNat
  else if 0 ≤ t then { s with htb := s.htb.placed t.toNat 0 }
  else if -7200 ≤ t then { s with htb := s.htb.placed 0 (-t).toNat }
  else if f.force then
    State.announceDaySwitch { s with htb := { s.htb.placed f.secs 0 with date := f.date } } none
  else { s with htb := s.htb.placed 0 7200 }

/-- L set to 0 and the sync state LOCKED (R59). -/
def Htb.locked (h : Htb) : Htb := { h with sinceSync := 0, sync := .locked }

/-- The first TIME after a cold start (R59). -/
def State.firstTime (s : State) (f : TimeFrame) : State :=
  let htb := { (s.htb.placed f.secs 0).locked with date := f.date, hour := s.params.hour }
  let s' := State.announceSync { s with htb := htb } s.htb
  (s'.announceDaySwitch none).announceTime

/-- A TIME applied in LOCKED or HOLDOVER (R59, R60, log entry 38). -/
def State.applyTime (s : State) (f : TimeFrame) : State :=
  let s' := s.place (s.htb.target f.date f.secs) f
  (State.announceSync { s' with htb := s'.htb.locked } s'.htb).announceTime

/-- Whether a TIME is applied (R59). -/
def State.acceptsTime (s : State) (f : TimeFrame) : Bool :=
  let step := s.htb.target f.date f.secs - s.htb.held
  f.force || (decide (-300 ≤ step) && decide (step ≤ 300))

/-- A TIME taken (R59). -/
def State.takeTime (s : State) (bs : List Byte) : State :=
  match TimeFrame.ofPayload bs with
  | none => s.modHtbCtr fun c => { c with form := tally c.form }
  | some f =>
    if s.htb.sync = .unset then s.firstTime f
    else if s.acceptsTime f then s.applyTime f
    else s.modHtbCtr fun c => { c with rejected := tally c.rejected }

/-! ## Counting (R56, R57) -/

/-- L advanced, with the sync state it gives (R56, R58). -/
def Htb.advanceSync (h : Htb) : Htb :=
  match h.sync with
  | .unset => h
  | .locked | .holdover =>
    let l := tally h.sinceSync
    { h with sinceSync := l, sync := syncOf l }

/-- The stand remainder or s advanced (R56, R64). -/
def Htb.advanceSecs (h : Htb) : Htb :=
  match h.sync with
  | .unset => h
  | .locked | .holdover =>
    if 0 < h.stand then { h with stand := h.stand - 1 } else { h with secs := tally h.secs }

/-- The checks that follow an increase of s (R56, R61, R62). -/
def State.checkDay (s : State) : State :=
  if s.htb.deferral then s.deferralTests
  else if Config.daySeconds ≤ s.htb.secs then s.rolloverCheck
  else s

/-- What an increase of s makes the FCE, the SRU and the FQU test (R98, R107, R142, R151). The order is
the model's (log entry 35); the activation instant stands before the sales cutoffs by its choice (log
entry 10). -/
def State.testSecond (s : State) : State := s.testOverdue.testCutoffs.testActivation.cutoffQuotes

/-- One second of the retained oscillator with main power (R56, log entry 35). -/
def State.serviceSecond (s : State) : State :=
  let s := State.announceSync { s with htb := s.htb.advanceSync } s.htb
  let htb := s.htb.advanceSecs
  if htb.secs = s.htb.secs then { s with htb := htb }
  else (State.checkDay { s with htb := htb }).testSecond

/-- SERVICE_SECOND: without main power the counts alone advance (R56, log entry 7). -/
def execServiceSecond (s : State) : Host.Outcome State Fault Refusal :=
  .next (if s.powered then s.serviceSecond
    else { s with htb := s.htb.advanceSync.advanceSecs })

/-- UPTIME_SECOND: uptime advances, the rows are composed, each multiple of 60 calls for a minute tick
(R57, R128, log entry 23). -/
def execUptimeSecond (s : State) : Host.Outcome State Fault Refusal :=
  whenPowered s fun s =>
    let u := tally s.htb.uptime
    State.compose
      { s with htb := { s.htb with uptime := u, minuteDue := s.htb.minuteDue || u % 60 == 0 } }

/-- The minute refresh of the screens (R129). -/
def State.minuteRefresh (s : State) : State :=
  if s.bdc.energy = .dark then s
  else State.linkStart { s with bdc := s.bdc.mapScreens fun _ sc => sc.markAll }

/-- A minute tick: expiry, ageing, validity, energy, refresh (R57, R87, R97, R129, R132, R135). That the
TTS, the FCE and the BDC act in this order is the model's choice (log entry 10). -/
def State.minuteTick (s : State) : State :=
  s.expireCalls.rederiveConfidence.evaluateMessages.chooseEnergy.minuteRefresh

/-- MINUTE_TICK: taken when uptime has called for it (R57, log entry 23). -/
def execMinuteTick (s : State) : Host.Outcome State Fault Refusal :=
  whenPowered s fun s =>
    if s.htb.minuteDue then State.minuteTick { s with htb := { s.htb with minuteDue := false } }
    else s

end Sys2Proof.Machine
end

