-- ==== Sys2Proof/Machine/Sales.lean ====
section
/-! DEFINITION. Issue, card authorisation, the issued ticket (10.3 to 10.5): ISSUE, AUTH_TIMER_EXPIRY,
TICKET, PRINTED, VOID, TICKET_LIMIT_EXPIRY. -/

namespace Sys2Proof.Machine

/-! ## Completing a sale (R159, R160) -/

/-- Code of a concession class, 0 for none (R159). -/
def classCode : Option (Fin 4) → Nat
  | none => 0
  | some i => i.val + 1

/-- Train and run date of a call reference, 0 where absent (R159). -/
def callOctets : Option Key → List Byte
  | some k => be 2 k.train.toNat ++ be 2 k.runDate.toNat
  | none => be 2 0 ++ be 2 0

/-- The 21 octets that a ticket's check code covers (R159, 11.7). -/
def Sale.checkOctets (x : Sale) : List Byte :=
  be 4 x.ticket.toNat ++ be 2 x.date.toNat ++ be 3 x.secs ++ be 2 x.destination.toNat ++ [x.type]
    ++ be 1 (classCode x.cls) ++ be 1 x.quantity ++ be 3 x.total ++ callOctets x.call

/-- The day key of the ACTIVE table (R140). -/
def State.dayKey (s : State) : BitVec 16 :=
  match s.fqu.active with
  | some t => t.dayKey
  | none => 0#16

/-- The fields of a SALE record (R159, step 3), with the check code of step 2. -/
def State.saleOf (s : State) (q : Quote) (k : PaymentKind) (code : Option (List Byte)) : Sale :=
  let x : Sale := {
    date := s.htb.date
    secs := s.htb.secs
    ticket := s.sju.ticketCounter
    destination := q.destination
    type := q.type
    cls := q.cls
    quantity := q.quantity
    unitPrice := q.unitPrice
    total := q.total
    payment := k
    authCode := code
    call := q.call
    offline := s.sju.salesMode == .offline
    checkCode := 0#16 }
  { x with checkCode := Machine.checkCode s.dayKey x.checkOctets }

/-- The issued-ticket window with an entry more; a full one loses its oldest (R160). -/
def enterWindow (w : List IssuedTicket) (t : IssuedTicket) : List IssuedTicket :=
  (if Config.ticketSlots ≤ w.length then w.drop 1 else w) ++ [t]

/-- The ticket counter, the day totals and the issued-ticket window after a sale whose record has the
given sequence (R159, steps 1, 4 and 5). -/
def Sju.sold (j : Sju) (seq : Seq) (x : Sale) : Sju :=
  { j with
    ticketCounter := j.ticketCounter + 1#32
    totals := j.totals.gain x.payment x.total
    window := enterWindow j.window ⟨seq, x, .running Config.ticketMs⟩ }

/-- A sale completed from a slot (R159). -/
def State.completeSale (s : State) (i : Fin 4) (q : Quote) (x : Sale) : State :=
  let seq := s.sju.writeSeq
  let s := s.appendRecord (.sale x)
  let s := { s with sju := s.sju.sold seq x }
  let s :=
    match q.call with
    | some k => s.ticketRequest k
    | none => s
  let s := s.setSlot i .free
  State.afterAppend { s with sju := s.sju.withExposure }

/-! ## ISSUE (R158, R162) -/

/-- Test 5 of R158. -/
def State.overOffline (s : State) (total : Nat) : Bool :=
  decide (s.params.offlineCount < s.sju.xc + 1) || decide (s.params.offlineAmount < s.sju.xa + total)

/-- Tests 2 to 5 of R158 on an OPEN slot: the payment kind, or the refusal. -/
def State.judgePayment (s : State) (q : Quote) (r : IssueRequest) : Except Result PaymentKind :=
  if s.sju.salesMode = .closed then .error .salesClosed
  else
    match PaymentKind.ofCode r.payment.toNat with
    | none => .error .badMessage
    | some k =>
      if r.tendered.toNat < q.total then .error .badMessage
      else if k = .cardOnline ∧ s.sju.salesMode = .offline then .error .linkDown
      else if k = .cardOffline ∧ s.overOffline q.total = true then .error .offlineLimit
      else .ok k

/-- The tests of R158 in order. -/
def State.judgeIssue (s : State) (r : IssueRequest) : Except Result (Fin 4 × Quote × PaymentKind) :=
  if s.sju.pendingAuth.isSome then .error .busy
  else
    match slotOf r.slot.toNat with
    | none => .error .quoteUnknown
    | some i =>
      match s.fqu.slots[i] with
      | .opened q =>
        match s.judgePayment q r with
        | .ok k => .ok (i, q, k)
        | .error e => .error e
      | .free | .pendingAuth .. => .error .quoteUnknown

/-- Octets of a tag (11.7). -/
def Tag.octets (t : Tag) : List Byte := be 2 t.haltCode.toNat ++ [t.slot, t.serial]

/-- An authorisation started (R162). -/
def State.startAuth (s : State) (i : Fin 4) (q : Quote) (token : List Byte) : State :=
  let tag : Tag := ⟨s.own.haltCode, BitVec.ofNat 8 i.val, s.sju.authSerial⟩
  let s := s.setSlot i (.pendingAuth q false)
  let s := { s with sju := { s.sju with
    authSerial := s.sju.authSerial + 1#8
    pendingAuth := some ⟨tag, i, q.total, .running (1000 * s.params.authTimeout)⟩
    authsPending := 1 } }
  s.offerOwn .up .authreq centre (.octets (tag.octets ++ be 3 q.total ++ token))

/-- The change due of an ISSUE (R158). -/
def changeDue (k : PaymentKind) (tendered total : Nat) : Option Nat :=
  if k = .cash then some (tendered - total) else none

/-- A sale completed at once (R158, R159). -/
def State.sellNow (s : State) (i : Fin 4) (q : Quote) (k : PaymentKind) (tendered : Nat) : Served :=
  let x := s.saleOf q k none
  { state := s.completeSale i q x
    result := .ok
    body := .issue x.ticket (changeDue k tendered q.total) }

/-- ISSUE served (R158). -/
def serveIssue (r : IssueRequest) (s : State) : Served :=
  match s.judgeIssue r with
  | .error e => { state := s, result := e }
  | .ok (i, q, k) =>
    match k with
    | .cardOnline => { state := s.startAuth i q r.token, result := .pending }
    | .cash | .cardOffline => s.sellNow i q k r.tendered.toNat

/-- ISSUE (R158). -/
def execIssue (r : IssueRequest) (s : State) : Host.Outcome State Fault Refusal :=
  whenServed s 3#8 (serveIssue r)

/-! ## The end of an authorisation (R163, R164) -/

/-- The pending authorisation none, its slot FREE (R162). -/
def State.endAuth (s : State) (p : PendingAuth) : State :=
  State.setSlot { s with sju := { s.sju with pendingAuth := none, authsPending := 0 } } p.slot .free

/-- A tag in the timed-out list; a full list loses its oldest (R164). -/
def addLateTag (tags : List LateTag) (t : LateTag) : List LateTag :=
  (if Config.ticketSlots ≤ tags.length then tags.drop 1 else tags) ++ [t]

/-- The pending authorisation ended without an answer (R164). -/
def State.abandonAuth (s : State) (result : Result) (count : SjuCounters → SjuCounters) : State :=
  match s.sju.pendingAuth with
  | none => s
  | some p =>
    let s := s.endAuth p
    let s := { s with sju := { s.sju with lateTags := addLateTag s.sju.lateTags ⟨p.tag, p.total⟩ } }
    (s.modSjuCtr count).postNotice (.issueDone p.slot result none)

/-- AUTH_TIMER_EXPIRY (R164). -/
def execAuthTimerExpiry (s : State) : Host.Outcome State Fault Refusal :=
  whenPowered s fun s =>
    if s.sju.pendingAuth.any fun p => p.timer.isRunning then
      s.abandonAuth .authTimeout fun c => { c with authTimeouts := tally c.authTimeouts }
    else s

/-- An approval of the pending tag (R163). ISSUE_DONE stands behind the notices of the sale or the
REVERSAL: the model's choice (log entry 50). -/
def State.approve (s : State) (p : PendingAuth) (code : List Byte) : State :=
  match s.fqu.slots[p.slot] with
  | .pendingAuth q false =>
    let x := s.saleOf q .cardOnline (some code)
    ((s.endAuth p).completeSale p.slot q x).postNotice (.issueDone p.slot .ok (some x.ticket))
  | .pendingAuth _ true | .free | .opened _ =>
    ((s.appendReversal p.tag p.total code).endAuth p).postNotice
      (.issueDone p.slot .quoteWithdrawn none)

/-- The result of a declined authorisation (R163). -/
def declinedAs : Slot → Result
  | .pendingAuth _ false => .declined
  | .pendingAuth _ true | .free | .opened _ => .quoteWithdrawn

/-- An answer to the pending tag (R163). -/
def State.answerPending (s : State) (p : PendingAuth) (a : AuthResult) : State :=
  if a.approved then s.approve p a.authCode
  else (s.endAuth p).postNotice (.issueDone p.slot (declinedAs s.fqu.slots[p.slot]) none)

/-- An answer to a tag of the timed-out list (R163). Of two entries with one tag the oldest gives the
total, and both leave the list: the model's choice (log entry 46). -/
def State.answerLate (s : State) (t : LateTag) (a : AuthResult) : State :=
  let s := { s with sju := { s.sju with lateTags := s.sju.lateTags.filter fun x => x.tag != t.tag } }
  if a.approved then s.appendReversal t.tag t.total a.authCode
  else s.modSjuCtr fun c => { c with authLate := tally c.authLate }

/-- A well-formed AUTHRES (R163). -/
def State.answerAuth (s : State) (a : AuthResult) : State :=
  match s.sju.pendingAuth.filter fun p => p.tag == a.tag with
  | some p => s.answerPending p a
  | none =>
    match s.sju.lateTags.find? fun t => t.tag == a.tag with
    | some t => s.answerLate t a
    | none => s.modSjuCtr fun c => { c with authUnknown := tally c.authUnknown }

/-- An AUTHRES taken (R163). -/
def State.takeAuthres (s : State) (bs : List Byte) : State :=
  match AuthResult.ofPayload bs with
  | some a => s.answerAuth a
  | none => s.modSjuCtr fun c => { c with authForm := tally c.authForm }

/-- The Up port has left SERVICE (R171). -/
def State.salesLoseLink (s : State) : State :=
  let s := s.abandonAuth .authLink fun c => { c with authLinkLosses := tally c.authLinkLosses }
  State.deriveSalesMode { s with sju := s.sju.goBack }

/-- The Up port has entered SERVICE (R171). -/
def State.salesGainLink (s : State) : State := s.deriveSalesMode.drain

/-! ## The issued ticket (R160, R161) -/

/-- The window entry of a ticket. -/
def Sju.ticket (j : Sju) (n : TicketNo) : Option IssuedTicket :=
  j.window.find? fun t => t.sale.ticket == n

/-- A ticket out of the window. -/
def State.dropTicket (s : State) (n : TicketNo) : State :=
  { s with sju := { s.sju with window := s.sju.window.filter fun t => t.sale.ticket != n } }

/-- TICKET (R160). -/
def execTicket (n : TicketNo) (s : State) : Host.Outcome State Fault Refusal :=
  whenServed s 4#8 fun s =>
    match s.sju.ticket n with
    | some t => { state := s, result := .ok, body := .ticket t.sale }
    | none => { state := s, result := .tooLate }

/-- PRINTED (R160). -/
def execPrinted (n : TicketNo) (s : State) : Host.Outcome State Fault Refusal :=
  whenServed s 5#8 fun s =>
    match s.sju.ticket n with
    | some _ => { state := s.dropTicket n, result := .ok }
    | none => { state := s, result := .tooLate }

/-- TICKET_LIMIT_EXPIRY (R160). -/
def execTicketLimitExpiry (n : TicketNo) (s : State) : Host.Outcome State Fault Refusal :=
  whenPowered s fun s =>
    if (s.sju.ticket n).any fun t => t.limit.isRunning then s.dropTicket n else s

/-- A ticket in the window voided (R161). -/
def State.voidTicket (s : State) (t : IssuedTicket) : State :=
  let s := s.appendRecord (.void s.htb.date s.htb.secs t.sale.ticket t.sale.total)
  let s := s.dropTicket t.sale.ticket
  State.afterAppend
    { s with sju := { s.sju with totals := s.sju.totals.lose t.sale.payment t.sale.total } }

/-- VOID served (R161). -/
def serveVoid (n : TicketNo) (s : State) : Served :=
  match s.sju.ticket n with
  | none => { state := s, result := .tooLate }
  | some t =>
    if s.mayAppend (.void s.htb.date s.htb.secs t.sale.ticket t.sale.total) then
      { state := s.voidTicket t, result := .ok }
    else { state := s, result := .journalFull }

/-- VOID (R161). -/
def execVoid (n : TicketNo) (s : State) : Host.Outcome State Fault Refusal :=
  whenServed s 6#8 (serveVoid n)

end Sys2Proof.Machine
end

