-- ==== Sys2Proof/Machine/Link.lean ====
section
/-! DEFINITION. The line ports and their Link Supervision Units (01, 02): the receiver, the rate
search, proving, monitoring, outage, the transmitter. -/

namespace Sys2Proof.Machine

/-! ## The transmitter's state (R14 to R16) -/

/-- The transmitter state that R15 gives a port with nothing to send. -/
def restingTx (st : PortState) (rate : Option Rate) : TxState :=
  match st, rate with
  | .off, _ | .outage, _ | _, none => .silent
  | .hunt, some _ | .proving, some _ | .service, some _ => .flags

/-- The transmitter at rest, at the rate R14 gives. -/
def State.restTx (s : State) (p : Port) : State :=
  let rate := s.txRateOf p
  s.modPort p fun lp => { lp with txRate := rate, tx := restingTx lp.lsu.state rate }

/-- The transmitter after the port entered HUNT, OUTAGE or OFF: a frame being sent is aborted (R16). The
ones of the abort keep the frame's rate, also where R14 gives the new port state none: the model's
choice (log entry 16). -/
def State.stopTx (s : State) (p : Port) : State :=
  match (s.port p).tx with
  | .sending _ | .aborting => s.modPort p fun lp => { lp with tx := .aborting }
  | .silent | .flags => s.restTx p

/-- The transmitter after the port entered PROVING: nothing being sent is interrupted (R16, R21). -/
def State.keepTx (s : State) (p : Port) : State :=
  match (s.port p).tx with
  | .sending _ | .aborting => s
  | .silent | .flags => s.restTx p

/-- A Down port silent in HUNT begins flags once the Up port has a settled rate (R14, R15,
log entry 16). -/
def State.lendRate (s : State) : State :=
  match s.down.lsu.state, s.down.tx with
  | .hunt, .silent => s.restTx .down
  | _, _ => s

/-! ## Port states (R19, R20, R24, R29, R33) -/

/-- The announcement of leaving SERVICE: the FRU, then for the Up port the SJU and the SRU (R33). -/
def State.leaveService (s : State) (p : Port) : State :=
  let s := s.modPort p LinePort.flush
  match p with
  | .up => s.salesLoseLink.stopsLoseLink
  | .down => s

/-- The announcement of leaving SERVICE, if the port was in it. -/
def State.leaveIf (s : State) (was : PortState) (p : Port) : State :=
  if was = .service then s.leaveService p else s

/-- The announcement of entering SERVICE: the FRU, the SJU and the SRU (R33, R53). -/
def State.enterServiceNews (s : State) (p : Port) : State :=
  match p with
  | .up => s.originateBeacon.drain.salesGainLink.stopsGainLink
  | .down => s

/-- The LSU's items on an entry into HUNT (R20, R34). -/
def Lsu.toHunt (l : Lsu) : Lsu :=
  { l with
    state := .hunt, phase := .period, period := .stopped, pause := .stopped
    interval := .stopped, silence := .stopped, retry := .stopped, fillDue := .expired
    ca := 0, attempts := 0, bucketRun := 0, peerSeen := false, intervalMark := false }

/-- The rate search begun again; a FIXED port keeps its rate (R10, R11). -/
def LinePort.startSearch (lp : LinePort) : LinePort :=
  match lp.rateMode with
  | .auto => { lp with rxRate := .r19200, dwell := .running Config.dwellMs, goodRun := 0 }
  | .fixed r => { lp with rxRate := r, dwell := .stopped, goodRun := 0 }

/-- The receiver back in SEEK, what it was doing dropped uncounted (R2, R12). -/
def LinePort.seek (lp : LinePort) : LinePort :=
  { lp with rx := .seek, octetCount := 0, seqCounted := 0 }

/-- A port on an entry into HUNT (R2, R11, R20). -/
def LinePort.toHunt (lp : LinePort) : LinePort :=
  { lp.seek.startSearch with lsu := lp.lsu.toHunt }

/-- An entry into HUNT with its announcement (R20, R33). -/
def State.enterHunt (s : State) (p : Port) : State :=
  let was := (s.port p).lsu.state
  (((s.modPort p LinePort.toHunt).stopTx p).lendRate).leaveIf was p

/-- The LSU's items on a disable (R19). -/
def Lsu.toOff (l : Lsu) : Lsu :=
  { l with
    state := .off, period := .stopped, pause := .stopped, interval := .stopped
    silence := .stopped, retry := .stopped, fillDue := .stopped
    ca := 0, attempts := 0, bucketRun := 0, peer := none }

/-- A port on a disable (R2, R19). -/
def LinePort.toOff (lp : LinePort) : LinePort :=
  { lp with
    rx := .off, buffers := [], octetCount := 0, seqCounted := 0, dwell := .stopped, goodRun := 0
    lsu := lp.lsu.toOff }

/-- A move to OFF with its announcement (R19). -/
def State.enterOff (s : State) (p : Port) : State :=
  let was := (s.port p).lsu.state
  (((s.modPort p LinePort.toOff).stopTx p).lendRate).leaveIf was p

/-- The LSU's items on an entry into OUTAGE (R29). -/
def Lsu.toOutage (l : Lsu) (cause : OutageCause) : Lsu :=
  { l with
    state := .outage, cause := cause, period := .stopped, pause := .stopped
    silence := .stopped, interval := .stopped, fillDue := .stopped
    ca := 0, attempts := 0, bucketRun := 0, retry := .running Config.retryMs
    ctr := { l.ctr with outages := tally l.ctr.outages } }

/-- An entry into OUTAGE with its announcement (R29, R33). -/
def State.enterOutage (s : State) (p : Port) (cause : OutageCause) : State :=
  let was := (s.port p).lsu.state
  ((s.modLsu p fun l => l.toOutage cause).stopTx p).leaveIf was p

/-- The LSU's items as a proving period starts (R21, R23). -/
def Lsu.startPeriod (l : Lsu) (seconds : Nat) : Lsu :=
  { l with
    phase := .period, period := .running (1000 * seconds), pause := .stopped, ca := 0
    peerSeen := false }

/-- The entry into PROVING at rate lock (R13, R21). -/
def State.enterProving (s : State) (p : Port) : State :=
  let s := s.modPort p fun lp => { lp with
    dwell := .stopped, goodRun := 0
    lsu := { lp.lsu.startPeriod (s.params.port p).period with
      state := .proving, attempts := 0, silence := .running Config.silenceMs, fillDue := .expired } }
  (s.keepTx p).lendRate

/-- The LSU's items on an entry into SERVICE (R24). -/
def Lsu.toService (l : Lsu) (mode : MonitorMode) : Lsu :=
  { l with
    state := .service, period := .stopped, bucket := 0, bucketRun := 0, attempts := 0
    intervalMark := false
    interval := if mode = .interval then .running Config.intervalMs else .stopped }

/-- The entry into SERVICE with its announcement (R24, R33). -/
def State.enterService (s : State) (p : Port) : State :=
  (s.modLsu p fun l => l.toService (s.params.port p).mode).enterServiceNews p

/-- A failed proving attempt (R23). -/
def State.failProving (s : State) (p : Port) : State :=
  let s := s.modLsu p fun l => { l with
    attempts := l.attempts + 1, ctr := { l.ctr with provingFails := tally l.ctr.provingFails } }
  if Config.maxAttempts ≤ (s.port p).lsu.attempts then s.enterOutage p .provingFailed
  else s.modLsu p fun l => { l with
    phase := .pause, period := .stopped, pause := .running Config.pauseMs }

/-! ## Reports to the LSU (1.9, 2.8) -/

/-- A flag received (R28). -/
def State.reportFlag (s : State) (p : Port) : State :=
  s.modLsu p fun l =>
    match l.state with
    | .proving | .service => { l with silence := .running Config.silenceMs }
    | .off | .hunt | .outage => l

/-- An error during a proving period (R22). -/
def State.errorInPeriod (s : State) (p : Port) : State :=
  let s := s.modLsu p fun l => { l with ca := l.ca + 1 }
  if (s.params.port p).align ≤ (s.port p).lsu.ca then s.failProving p else s

/-- An error in SERVICE, FRAME mode (R25). -/
def State.errorInService (s : State) (p : Port) : State :=
  let t := (s.params.port p).limit
  let s := s.modLsu p fun l => { l with bucket := min t (l.bucket + 1) }
  if t ≤ (s.port p).lsu.bucket then s.enterOutage p .errorRate else s

/-- An errored frame or an octet group reported (R13, R22, R25, R26). -/
def State.reportError (s : State) (p : Port) : State :=
  let l := (s.port p).lsu
  match l.state with
  | .off | .outage => s
  | .hunt => s.modPort p fun lp => { lp with goodRun := 0 }
  | .proving =>
    match l.phase with
    | .period => s.errorInPeriod p
    | .pause => s
  | .service =>
    match (s.params.port p).mode with
    | .frame => s.errorInService p
    | .interval => s.modLsu p fun l => { l with intervalMark := true }

/-- A good frame in HUNT: the dwell restarts, the run grows, the fourth locks (R11, R13). -/
def State.goodInHunt (s : State) (p : Port) : State :=
  let s := s.modPort p fun lp => { lp with
    goodRun := lp.goodRun + 1
    dwell := if lp.rateMode = .auto then .running Config.dwellMs else lp.dwell }
  if Config.lockRun ≤ (s.port p).goodRun then s.enterProving p else s

/-- The bucket run one further (R25). -/
def Lsu.creditGood (l : Lsu) (credit : Nat) : Lsu :=
  if credit ≤ l.bucketRun + 1 then { l with bucketRun := 0, bucket := l.bucket - 1 }
  else { l with bucketRun := l.bucketRun + 1 }

/-- A good frame reported (R13, R25). -/
def State.reportGood (s : State) (p : Port) : State :=
  match (s.port p).lsu.state with
  | .hunt => s.goodInHunt p
  | .service =>
    match (s.params.port p).mode with
    | .frame => s.modLsu p fun l => l.creditGood (s.params.port p).credit
    | .interval => s
  | .off | .proving | .outage => s

/-- A FILL's content recorded (R22, R32). -/
def Lsu.recordFill (l : Lsu) (f : FillContent) (uptime : Nat) : Lsu :=
  { l with
    peer := some ⟨f.state, f.bucket, f.haltCode, uptime⟩
    peerSeen := l.peerSeen || (l.state == .proving && l.phase == .period && f.state != .hunt) }

/-- A FILL's content reported (R32). -/
def State.reportFill (s : State) (p : Port) (bs : List Byte) : State :=
  match FillContent.ofPayload bs with
  | some f => s.modLsu p fun l => l.recordFill f s.htb.uptime
  | none => s.modLsu p fun l => { l with ctr := { l.ctr with fillForm := tally l.ctr.fillForm } }

/-! ## The receiver (R1 to R9) -/

/-- A frame placed in a receive buffer, or dropped by overrun (R8, R9). -/
def State.store (s : State) (p : Port) (f : RxFrame) : State :=
  if (s.port p).buffers.length < Config.rxBuffers then
    s.modPort p fun lp => { lp with buffers := lp.buffers ++ [f] }
  else s.modCtr p fun c => { c with rxOverrun := tally c.rxOverrun }

/-- A good frame handled (R8). -/
def State.goodFrame (s : State) (p : Port) (f : RxFrame) : State :=
  let s := (s.modCtr p fun c => { c with goodFrames := tally c.goodFrames }).reportGood p
  if f.hop = 0#8 then s.modCtr p fun c => { c with hopZero := tally c.hopZero }
  else if f.kind = Kind.fill.code then s.reportFill p f.payload
  else s.store p f

/-- The counter of an error (R3). -/
def PortCounters.countError (c : PortCounters) : FrameError → PortCounters
  | .odd => { c with errOdd := tally c.errOdd }
  | .short => { c with errShort := tally c.errShort }
  | .fcs => { c with errFcs := tally c.errFcs }

/-- A candidate frame closed in FRAME (R3). -/
def State.closeFrame (s : State) (p : Port) (content : List Bool) : State :=
  let s := s.modPort p fun lp => { lp with rx := .idle }
  match judge content with
  | .ok f => s.goodFrame p f
  | .error e => (s.modCtr p fun c => c.countError e).reportError p

/-- One octet group counted and reported (R7). -/
def State.reportGroup (s : State) (p : Port) : State :=
  (s.modCtr p fun c => { c with octetGroups := tally c.octetGroups }).reportError p

/-- Groups counted and reported in turn (R7). -/
def State.reportGroups (s : State) (p : Port) : Nat → State
  | 0 => s
  | n + 1 => (s.reportGroup p).reportGroups p n

/-- Octets added to the octet count (R7). -/
def State.addOctets (s : State) (p : Port) (k : Nat) : State :=
  let total := (s.port p).octetCount + k
  (s.modPort p fun lp => { lp with octetCount := total % 16 }).reportGroups p (total / 16)

/-- A sequence that is not good ends in COUNTING: its whole octets not yet counted are added (R7,
log entry 9). -/
def State.endSequence (s : State) (p : Port) (content : List Bool) : State :=
  let k := content.length / 8 - (s.port p).seqCounted
  (s.modPort p fun lp => { lp with seqCounted := 0 }).addOctets p k

/-- A sequence closed by a flag in COUNTING (R7). -/
def State.closeSequence (s : State) (p : Port) (content : List Bool) : State :=
  match judge content with
  | .ok f =>
    if content.length / 8 ≤ 128 ∧ (s.port p).seqCounted ≤ 128 then
      (s.modPort p fun lp => { lp with rx := .idle, octetCount := 0, seqCounted := 0 }).goodFrame p f
    else s.endSequence p content
  | .error _ => s.endSequence p content

/-- The 129th octet of a candidate frame in FRAME (R6). -/
def State.longInFrame (s : State) (p : Port) : State :=
  let s := (s.modCtr p fun c => { c with errLong := tally c.errLong }).reportError p
  s.modPort p fun lp => { lp with rx := .counting, octetCount := 1, seqCounted := 129 }

/-- A sequence ended by a flag in FRAME; one past 128 octets is a long frame first (R3, R6). -/
def State.flagInFrame (s : State) (p : Port) (content : List Bool) : State :=
  if content.length / 8 ≤ 128 then s.closeFrame p content
  else (s.longInFrame p).closeSequence p content

/-- A sequence ended by an abort in FRAME; one past 128 octets is a long frame first (R4, R6). -/
def State.abortInFrame (s : State) (p : Port) (content : List Bool) : State :=
  if content.length / 8 ≤ 128 then
    ((s.modPort p fun lp => { lp with rx := .seek }).modCtr p fun c =>
      { c with errAbort := tally c.errAbort }).reportError p
  else (s.longInFrame p).endSequence p content

/-- A flag with no content before it (R1). -/
def State.emptyFlag (s : State) (p : Port) : State :=
  match (s.port p).rx with
  | .off => s
  | .seek | .idle => (s.modPort p fun lp => { lp with rx := .idle }).reportFlag p
  | .frame | .counting => s.reportFlag p

/-- FLAG_RECEIVED (R1, log entry 8). -/
def execFlagReceived (p : Port) (s : State) : Host.Outcome State Fault Refusal :=
  whenPowered s fun s => s.emptyFlag p

/-- FRAME_CLOSED (R1, R3, R7, log entry 8). -/
def execFrameClosed (p : Port) (bits : List Bool) (s : State) : Host.Outcome State Fault Refusal :=
  whenPowered s fun s =>
    match (s.port p).rx with
    | .off | .seek | .idle => s.emptyFlag p
    | .frame => (s.reportFlag p).flagInFrame p (destuff bits)
    | .counting => (s.reportFlag p).closeSequence p (destuff bits)

/-- ABORT (R4, R7). -/
def execAbort (p : Port) (bits : List Bool) (s : State) : Host.Outcome State Fault Refusal :=
  whenPowered s fun s =>
    match (s.port p).rx with
    | .off | .seek | .idle => s
    | .frame => s.abortInFrame p (destuff bits)
    | .counting => s.endSequence p (destuff bits)

/-- LONG_FRAME: the 129th octet of a sequence (R6, R7, log entry 9). -/
def execLongFrame (p : Port) (s : State) : Host.Outcome State Fault Refusal :=
  whenPowered s fun s =>
    match (s.port p).rx with
    | .off | .seek | .idle => s
    | .frame => s.longInFrame p
    | .counting =>
      if (s.port p).seqCounted ≤ 128 then
        (s.modPort p fun lp => { lp with seqCounted := 129 }).addOctets p 129
      else s

/-- OCTET_GROUP: octets of a sequence past 128 bring the octet count to 16 (R7, log entry 9). -/
def execOctetGroup (p : Port) (s : State) : Host.Outcome State Fault Refusal :=
  whenPowered s fun s =>
    let lp := s.port p
    if lp.rx = .counting ∧ 128 < lp.seqCounted then
      (s.modPort p fun lp => { lp with
        octetCount := 0, seqCounted := lp.seqCounted + (16 - lp.octetCount) }).reportGroup p
    else s

/-- IDLE_LINE: seven ones directly after a flag (R1). -/
def execIdleLine (p : Port) (s : State) : Host.Outcome State Fault Refusal :=
  whenPowered s fun s =>
    if (s.port p).rx = .idle then s.modPort p fun lp => { lp with rx := .seek } else s

/-- CANDIDATE_FRAME_BEGIN: the first content bit (R1). -/
def execCandidateFrameBegin (p : Port) (s : State) : Host.Outcome State Fault Refusal :=
  whenPowered s fun s =>
    if (s.port p).rx = .idle then s.modPort p fun lp => { lp with rx := .frame } else s

/-- DWELL_EXPIRY (R11, R12). -/
def execDwellExpiry (p : Port) (s : State) : Host.Outcome State Fault Refusal :=
  whenPowered s fun s =>
    let lp := s.port p
    if lp.lsu.state = .hunt ∧ lp.dwell.isRunning = true then
      s.modPort p fun lp => { lp.seek with
        rxRate := nextRate lp.rxRate, dwell := .running Config.dwellMs, goodRun := 0 }
    else s

/-! ## Timers of the LSU -/

/-- The end of a proving period (R23, R24). -/
def State.endPeriod (s : State) (p : Port) : State :=
  let l := (s.port p).lsu
  if l.ca < (s.params.port p).align ∧ l.peerSeen = true then s.enterService p else s.failProving p

/-- PERIOD_EXPIRY (R23, R24). -/
def execPeriodExpiry (p : Port) (s : State) : Host.Outcome State Fault Refusal :=
  whenPowered s fun s => if (s.port p).lsu.period.isRunning then s.endPeriod p else s

/-- PAUSE_EXPIRY (R23). -/
def execPauseExpiry (p : Port) (s : State) : Host.Outcome State Fault Refusal :=
  whenPowered s fun s =>
    if (s.port p).lsu.pause.isRunning then
      s.modLsu p fun l => l.startPeriod (s.params.port p).period
    else s

/-- The LSU after an interval (R26). -/
def Lsu.judgeInterval (l : Lsu) (t : Nat) : Lsu :=
  { l with
    bucket := if l.intervalMark then min t (l.bucket + 4) else l.bucket - 1
    intervalMark := false
    interval := .running Config.intervalMs }

/-- INTERVAL_EXPIRY (R26). -/
def execIntervalExpiry (p : Port) (s : State) : Host.Outcome State Fault Refusal :=
  whenPowered s fun s =>
    if (s.port p).lsu.interval.isRunning then
      let t := (s.params.port p).limit
      let s := s.modLsu p fun l => l.judgeInterval t
      if t ≤ (s.port p).lsu.bucket then s.enterOutage p .errorRate else s
    else s

/-- SILENCE_EXPIRY (R28). -/
def execSilenceExpiry (p : Port) (s : State) : Host.Outcome State Fault Refusal :=
  whenPowered s fun s =>
    if (s.port p).lsu.silence.isRunning then s.enterOutage p .silence else s

/-- RETRY_EXPIRY (R29). -/
def execRetryExpiry (p : Port) (s : State) : Host.Outcome State Fault Refusal :=
  whenPowered s fun s => if (s.port p).lsu.retry.isRunning then s.enterHunt p else s

/-- FILL_DUE_EXPIRY (R30). -/
def execFillDueExpiry (p : Port) (s : State) : Host.Outcome State Fault Refusal :=
  whenPowered s fun s =>
    if (s.port p).lsu.fillDue.isRunning then s.modLsu p fun l => { l with fillDue := .expired } else s

/-! ## The transmitter's choice (R14, R15, R30, R31) -/

/-- Sender state of a FILL (11.7); none is built in OFF or OUTAGE (R31). -/
def fillCode : PortState → Nat
  | .hunt => 1
  | .proving => 2
  | .service | .off | .outage => 3

/-- The FILL that the LSU hands over (R14, R31). -/
def State.fillFrame (s : State) (p : Port) : TxFrame :=
  let l := (s.port p).lsu
  let b := if l.state = .service then l.bucket else 0
  { kind := Kind.fill.code, destination := allHalts, origin := s.own.haltCode, hop := 1#8
    payload := .octets (be 1 (fillCode l.state) ++ be 1 b ++ be 2 s.own.haltCode.toNat) }

/-- The transmitter begins a frame; the FILL-due timer restarts (R30). -/
def LinePort.begin (lp : LinePort) (f : TxFrame) : LinePort :=
  { lp with tx := .sending f, lsu := { lp.lsu with fillDue := .running Config.fillMs } }

/-- The choice when the arbiter hands over nothing: a FILL when due, else a flag (R15, R30). -/
def State.chooseFill (s : State) (p : Port) : State :=
  if (s.port p).lsu.fillDue.isExpired then s.modPort p fun lp => lp.begin (s.fillFrame p)
  else s.modPort p fun lp => { lp with tx := .flags }

/-- The choice in SERVICE: the arbiter first; a hand-over from the Up queue signals the drain trigger
(R15, R52, R54). -/
def State.chooseQueued (s : State) (p : Port) : State :=
  match (s.port p).handOver with
  | some (f, lp) =>
    let s := s.setPort p (lp.begin f)
    match p with
    | .up => s.drain
    | .down => s
  | none => s.chooseFill p

/-- The transmitter chooses again, at the rate R14 gives (R14, R15, R30). -/
def State.chooseTx (s : State) (p : Port) : State :=
  let s := s.restTx p
  match (s.port p).tx, (s.port p).lsu.state with
  | .flags, .service => s.chooseQueued p
  | .flags, _ => s.chooseFill p
  | _, _ => s

/-- TX_FRAME_END (R15). -/
def execTxFrameEnd (p : Port) (s : State) : Host.Outcome State Fault Refusal :=
  whenPowered s fun s =>
    match (s.port p).tx with
    | .sending _ => (s.modCtr p fun c => { c with txFrames := tally c.txFrames }).chooseTx p
    | .silent | .flags | .aborting => s

/-- TX_FLAG_END (R15). -/
def execTxFlagEnd (p : Port) (s : State) : Host.Outcome State Fault Refusal :=
  whenPowered s fun s =>
    match (s.port p).tx with
    | .flags => s.chooseTx p
    | .silent | .sending _ | .aborting => s

/-- TX_ABORT_END: the transmitter takes the state R15 gives (R16). -/
def execTxAbortEnd (p : Port) (s : State) : Host.Outcome State Fault Refusal :=
  whenPowered s fun s =>
    match (s.port p).tx with
    | .aborting => s.restTx p
    | .silent | .flags | .sending _ => s

/-! ## Port restart (R17, R34) -/

/-- CTRL PORT_RESTART (R17, R34). -/
def State.restartPort (s : State) (p : Port) : State :=
  if (s.port p).lsu.state = .off then s
  else (s.modPort p fun lp => { lp with buffers := [] }).enterHunt p

end Sys2Proof.Machine
end

