-- ==== Sys2Proof/Machine/Start.lean ====
section
/-! DEFINITION. Start-up and the loss of main power (11.1, 11.5): POWER_UP, MAIN_POWER_LOSS, and the
warm start that CTRL WARM_RESET makes. -/

namespace Sys2Proof.Machine

/-! ## Volatile start values (R178, step 1) -/

/-- A call with the volatile items dropped (6.1, 7.1). -/
def Call.retained (c : Call) : Call :=
  { c with
    resend := .stopped, confidence := none, overdue := false, display := none
    shownMinute := none }

/-- The HTB at a warm start (R68). -/
def Htb.atStart (h : Htb) : Htb := { h with uptime := 0, minuteDue := false, ctr := {} }

/-- The TTS at a warm start (R91). -/
def Tts.atStart (t : Tts) : Tts := { t with current := t.current.map Call.retained, ctr := {} }

/-- A screen named in the screens present parameter (R122). -/
def presentScreen (screens : BitVec 3) (n : ScreenNo) : Option Screen :=
  if screens.getLsbD n.bit then some (Screen.fresh n) else none

/-- The BDC at a start, with the message records it keeps (R139). -/
def Bdc.atStart (ps : Params) (messages : Vector (Option Message) 8) : Bdc where
  one := presentScreen ps.screens .one
  two := presentScreen ps.screens .two
  three := presentScreen ps.screens .three
  messages := messages
  brightness := ps.brightnessIn .lit

/-- The FQU at a warm start (R155). -/
def Fqu.atStart (f : Fqu) : Fqu := { f with slots := Vector.replicate 4 .free, ctr := {} }

/-- The SJU at a warm start, but for RESTORE, the exposure and the sales mode (R172). -/
def Sju.atStart (j : Sju) : Sju :=
  { j with
    nextSeq := j.ackSeq, salesMode := .closed, xc := 0, xa := 0
    window := [], pendingAuth := none, lateTags := [], ackTimer := .stopped
    authSerial := j.ticketCounter.setWidth 8, ctr := {} }

/-- The FRU at a warm start (R55). -/
def Fru.atStart (f : Fru) (ps : Params) (unaddressed : Bool) : Fru where
  windows := f.windows
  beaconTimer := .running (1000 * ps.beaconInterval)
  unaddressed := unaddressed

/-! ## Straps and ports (R174, R18, R35) -/

/-- The Up port's rate mode from its strap (R174). -/
def UpRateStrap.mode : UpRateStrap → RateMode
  | .fixed r => .fixed r
  | .auto | .unusedA | .unusedB => .auto

/-- The terminal port's rate from its strap (R174). -/
def TerminalRateStrap.rate : TerminalRateStrap → TerminalRate
  | .r38400 => .r38400
  | .r115200 => .r115200
  | .r9600 | .unused => .r9600

/-- The strap values latched (R174). -/
def latch (pins : StrapPins) : Latched where
  haltCode := pins.haltCode.setWidth 16
  upMode := UpRateStrap.mode pins.upRate
  terminalRate := TerminalRateStrap.rate pins.terminalRate

/-- Whether a latched halt code makes the halt unaddressed (R43). -/
def isUnaddressed (code : HaltCode) : Bool := code == 0#16 || decide (4000 < code.toNat)

/-- A port configured disabled, at a start (R18, R35). -/
def LinePort.disabled (mode : RateMode) : LinePort where
  rx := .off
  rateMode := mode
  rxRate := match mode with
    | .auto => .r19200
    | .fixed r => r
  dwell := .stopped
  txRate := none
  tx := .silent
  lsu := { state := .off, fillDue := .stopped }

/-- A port at a start, its transmitter not yet set (R18, R20, R35). -/
def LinePort.atStart (enabled : Bool) (mode : RateMode) : LinePort :=
  if enabled then (LinePort.disabled mode).toHunt else LinePort.disabled mode

/-! ## The start-up sequence (R178) -/

/-- Steps 1 and 2 over a state whose retained items stand as the start leaves them. -/
def State.startVolatile (s : State) : State :=
  let own := latch s.strapPins
  let s : State := { s with
    powered := true
    own := own
    mgu := {}
    up := .atStart s.params.up.enabled own.upMode
    down := .atStart s.params.down.enabled .auto
    fru := s.fru.atStart s.params (isUnaddressed own.haltCode)
    htb := s.htb.atStart
    tts := s.tts.atStart
    sru := {}
    bdc := .atStart s.params s.bdc.messages
    fqu := s.fqu.atStart
    sju := s.sju.atStart
    tpi := {} }
  (s.restTx .up).restTx .down

/-- The service day brought up to date (R68). -/
def State.settleDay (s : State) : State :=
  if s.htb.sync = .unset then s
  else if s.htb.secs < Config.daySeconds then { s with htb := { s.htb with deferral := false } }
  else if s.deferEnd ≤ s.htb.secs ∨ 172800 ≤ s.htb.secs then
    (if s.htb.secs / Config.daySeconds = 1 then s.countDefer else s).daySwitch s.htb.secs
  else if s.htb.deferral then s.deferralTests
  else s.rolloverCheck

/-- RESTORE appended unless UNSET, the restart counts set to 0, the exposure and the sales mode
derived (R172). -/
def State.restore (s : State) : State :=
  let s := s.appendOther
    (.restore s.htb.date s.htb.secs s.sju.authsPending s.sju.quotesHeld)
  State.deriveSalesMode
    { s with sju := { s.sju.withExposure with authsPending := 0, quotesHeld := 0 } }

/-- SENT calls made WANTED, cutoffs tested, lamps derived (R121). -/
def State.startStops (s : State) : State := (s.mapCalls Call.unsend).testCutoffs

/-- The start-up sequence from step 1 (R178). -/
def State.startUp (s : State) : State :=
  let s := { s.startVolatile with starting := true }
  let s := s.forgetTakes.deriveQuietly.expireCalls
  let s := s.settleDay.testActivation.restore.startStops.evaluateMessages
  { s with starting := false }

/-- A warm start (R178). -/
def State.warmStart (s : State) : State := s.startUp

/-- Every retained item at its default (R178, R55, R69, R92, R139, R155, R173). -/
def State.coldItems (s : State) : State :=
  { s with
    mark := true
    params := {}
    salesClosed := false
    fru := { unaddressed := true }
    htb := {}
    tts := {}
    bdc := {}
    fqu := {}
    sju := {} }

/-- A cold start; its authorisation serial is 0 (R173, R178). -/
def State.coldStart (s : State) : State :=
  let s := s.coldItems.startUp
  { s with sju := { s.sju with authSerial := 0#8 } }

/-- POWER_UP (R178, log entry 6). -/
def execPowerUp (backupHeld : Bool) (straps : StrapPins) (lowEnergy : Bool) (s : State) :
    Host.Outcome State Fault Refusal :=
  let s := { s with strapPins := straps, lowEnergy := lowEnergy }
  .next (if s.mark && backupHeld then s.warmStart else s.coldStart)

/-! ## Loss of main power -/

/-- The BDC without main power: no supply, nothing sent, no timer (log entry 7). -/
def Bdc.unpowered (ps : Params) (messages : Vector (Option Message) 8) : Bdc :=
  { Bdc.atStart ps messages with supply := false, activity := .stopped, warmUp := .stopped }

/-- The part without main power: the retained domain stands, the volatile items are gone
(00_scope.md section 3, log entry 7). -/
def State.losePower (s : State) : State :=
  { s with
    powered := false
    mgu := {}
    up := .disabled s.own.upMode
    down := .disabled .auto
    fru := { s.fru.atStart s.params s.fru.unaddressed with beaconTimer := .stopped }
    htb := s.htb.atStart
    tts := s.tts.atStart
    sru := {}
    bdc := .unpowered s.params s.bdc.messages
    fqu := s.fqu.atStart
    sju := { s.sju.atStart with nextSeq := s.sju.nextSeq }
    tpi := {} }

/-- MAIN_POWER_LOSS (R18, R56). -/
def execMainPowerLoss (s : State) : Host.Outcome State Fault Refusal := whenPowered s State.losePower

end Sys2Proof.Machine
end

