-- ==== Sys2Proof/Machine/Management.lean ====
section
/-! DEFINITION. The Management Unit: LOAD CONFIG, LOAD WINDOW, QUERY, CTRL (11.2 to 11.4, R40). -/

namespace Sys2Proof.Machine

/-! ## LOAD CONFIG (R175) -/

/-- The dim divisor clamped (R138). -/
def clampDivisor (v : Nat) : Nat := if v < 2 then 1 else if v < 4 then 2 else if v < 8 then 4 else 8

/-- The two ends of a night window value, each clamped (R175, R183). -/
def nightOf (v : Nat) : Window := ⟨min 1439 (v / 65536), min 1439 (v % 65536)⟩

/-- The per-port parameters with a value stored (11.2, R175). -/
def PortParams.store (pp : PortParams) (n v : Nat) : PortParams :=
  match n with
  | 23 => { pp with enabled := decide (1 ≤ v) }
  | 24 => { pp with mode := if 1 ≤ v then .interval else .frame }
  | 25 => { pp with limit := clamp 4 255 v }
  | 26 => { pp with credit := clamp 16 1024 v }
  | 27 => { pp with align := clamp 1 15 v }
  | 28 => { pp with period := clamp 1 10 v }
  | _ => pp

/-- The parameters with a value of number 1..22 stored (11.2, R102, R138, R175). -/
def Params.store (ps : Params) (n v : Nat) : Params :=
  match n with
  | 1 => { ps with phi := clamp 0 100 v }
  | 2 => { ps with ageOne := clamp 60 1800 v, ageTwo := max (clamp 60 1800 v) ps.ageTwo }
  | 3 => { ps with ageTwo := clamp ps.ageOne 7200 v }
  | 4 => { ps with late := clamp 1 10 v }
  | 5 => { ps with window := clamp 10 120 v }
  | 6 => { ps with cutoff := clamp 1 15 v }
  | 7 => { ps with darkLead := clamp 5 60 v }
  | 8 => { ps with deferLimit := clamp 0 90 v }
  | 9 => { ps with hour := clamp 2 4 v }
  | 10 => { ps with beaconInterval := clamp 10 600 v }
  | 11 => { ps with beaconMask := BitVec.ofNat 18 v }
  | 12 => { ps with refresh := clamp 60 3600 v }
  | 13 => { ps with offlineCount := clamp 0 500 v }
  | 14 => { ps with offlineAmount := clamp 0 999999 v }
  | 15 => { ps with authTimeout := clamp 5 60 v }
  | 16 => { ps with quoteExpiry := clamp 30 600 v }
  | 17 => { ps with initialHop := clamp 1 63 v }
  | 18 => { ps with brightness := clamp 1 8 v }
  | 19 => { ps with dimDivisor := clampDivisor v }
  | 20 => { ps with night := nightOf v }
  | 21 => { ps with ownPoint := BitVec.ofNat 16 (clamp 0 65535 v) }
  | 22 => { ps with screens := BitVec.ofNat 3 v }
  | _ => ps

/-- F of the running calls with a report computed again (R102). -/
def State.rederiveDelay (s : State) : State :=
  s.rederive fun c =>
    if c.isRunning && c.report.isSome then s.markCall { c with forecast := c.delayNow s.params.phi }
    else c

/-- A screen after a load of the screens present (R122). -/
def adoptScreen (screens : BitVec 3) (n : ScreenNo) (sc : Option Screen) : Option Screen :=
  if screens.getLsbD n.bit then some (sc.getD (Screen.fresh n).markAll) else none

/-- The screens present changed: rows composed, dark conditions tested (R122, R138). -/
def State.adoptScreens (s : State) : State :=
  let v := s.params.screens
  State.compose { s with bdc := { s.bdc with
    one := adoptScreen v .one s.bdc.one
    two := adoptScreen v .two s.bdc.two
    three := adoptScreen v .three s.bdc.three } }

/-- A lowered deferral limit already reached makes the day switch (R62, R67). -/
def State.deferLowered (s : State) : State :=
  if s.htb.deferral = true ∧ s.deferEnd ≤ s.htb.secs then s.countDefer.daySwitch s.htb.secs else s

/-- What a stored parameter of number 1..22 makes its owner do (R67, R102, R120, R138, R149, R151). A1,
A2 and the parameters of the BDC are acted on also when the load leaves them as they were (log
entry 45). On C the SRU tests its cutoffs before the FQU does: the model's choice (log entry 10). -/
def State.configEffect (s : State) (n : Nat) : State :=
  match n with
  | 1 => s.rederiveDelay
  | 2 | 3 => s.rederiveConfidence
  | 4 => s.rederiveDisplay
  | 5 => s.testCutoffs
  | 6 => s.testCutoffs.cutoffQuotes
  | 7 => (s.darkTest .none).linkStart
  | 8 => s.deferLowered
  | 16 => allSlots.foldl State.expireSlot s
  | 18 | 19 | 20 => s.chooseEnergy
  | 22 => s.adoptScreens
  | _ => s

/-- Port enable stored (R19). -/
def State.enableEffect (s : State) (p : Port) : State :=
  let off := (s.port p).lsu.state == .off
  if (s.params.port p).enabled then (if off then s.enterHunt p else s)
  else (if off then s else s.enterOff p)

/-- Monitor mode stored over a mode (R27). -/
def State.modeEffect (s : State) (p : Port) (old : MonitorMode) : State :=
  let mode := (s.params.port p).mode
  if mode = old ∨ (s.port p).lsu.state ≠ .service then s
  else s.modLsu p fun l =>
    { l with
      bucketRun := 0, intervalMark := false
      interval := if mode = .interval then .running Config.intervalMs else .stopped }

/-- Bucket limit stored (R27). -/
def State.limitEffect (s : State) (p : Port) : State :=
  let t := (s.params.port p).limit
  let l := (s.port p).lsu
  let s' := s.modLsu p fun l => { l with bucket := min t l.bucket }
  if l.state = .service ∧ t ≤ l.bucket then s'.enterOutage p .errorRate else s'

/-- Good-frame credit run stored (R27). -/
def Lsu.creditEffect (l : Lsu) (credit : Nat) : Lsu :=
  if credit ≤ l.bucketRun then { l with bucket := l.bucket - 1, bucketRun := 0 } else l

/-- Alignment error limit stored (R27). -/
def State.alignEffect (s : State) (p : Port) : State :=
  let l := (s.port p).lsu
  if l.state = .proving ∧ l.phase = .period ∧ (s.params.port p).align ≤ l.ca then s.failProving p
  else s

/-- What a stored per-port parameter makes the LSU do (R19, R27). -/
def State.portConfigEffect (s : State) (p : Port) (old : PortParams) (n : Nat) : State :=
  match n with
  | 23 => s.enableEffect p
  | 24 => s.modeEffect p old.mode
  | 25 => s.limitEffect p
  | 26 =>
    if (s.port p).lsu.state = .service ∧ (s.params.port p).mode = .frame then
      s.modLsu p fun l => l.creditEffect (s.params.port p).credit
    else s
  | 27 => s.alignEffect p
  | _ => s

/-- A LOAD CONFIG of good form (R175). -/
def State.loadConfig (s : State) (c : ConfigLoad) : State :=
  if perPort c.number then
    match c.port with
    | some p =>
      let old := s.params.port p
      State.portConfigEffect
        { s with params := s.params.setPort p (old.store c.number c.value) } p old c.number
    | none => s
  else State.configEffect { s with params := s.params.store c.number c.value } c.number

/-- A LOAD CONFIG taken (R175). -/
def State.takeConfig (s : State) (bs : List Byte) : State :=
  match ConfigLoad.ofPayload bs with
  | some c => s.loadConfig c
  | none => { s with mgu := { s.mgu with configForm := tally s.mgu.configForm } }

/-! ## LOAD WINDOW (R39, R40) -/

/-- Sizes of an enabled window (R39). -/
def windowSizes : List Nat := [4, 8, 16, 32, 64, 128, 256, 512, 1024]

/-- Whether two windows share a code (R40). -/
def GroupWindow.overlaps (a b : GroupWindow) : Bool :=
  decide (a.base < b.base + b.size) && decide (b.base < a.base + a.size)

/-- Whether a window overlaps an enabled one other than that of number `i` (R40). -/
def overlapsOther (ws : Vector (Option GroupWindow) 4) (i : Fin 4) (w : GroupWindow) : Bool :=
  allSlots.any fun j => j != i && ws[j].any w.overlaps

/-- The windows after a LOAD WINDOW of the right length, none when it is refused (R40). -/
def loadWindow (ws : Vector (Option GroupWindow) 4) (l : WindowLoad) :
    Option (Vector (Option GroupWindow) 4) :=
  if l.size = 0 then some (ws.set l.number none)
  else if l.size ∈ windowSizes ∧ l.base % l.size = 0
      ∧ overlapsOther ws l.number ⟨l.base, l.size⟩ = false then
    some (ws.set l.number (some ⟨l.base, l.size⟩))
  else none

/-- A LOAD WINDOW taken (R40). -/
def State.takeWindow (s : State) (bs : List Byte) : State :=
  match (WindowLoad.ofPayload bs).bind (loadWindow s.fru.windows) with
  | some ws => { s with fru := { s.fru with windows := ws } }
  | none => { s with fru := { s.fru with refused := tally s.fru.refused } }

/-! ## QUERY (R176) -/

def PortCounters.values (c : PortCounters) : List Nat :=
  [c.goodFrames, c.errShort, c.errOdd, c.errFcs, c.errAbort, c.errLong, c.octetGroups, c.rxOverrun,
   c.hopZero, c.txFrames]

def LsuCounters.values (c : LsuCounters) : List Nat := [c.outages, c.provingFails, c.fillForm]

def FruPortCounters.values (c : FruPortCounters) : List Nat :=
  [c.hopEnd, c.kindUnknown, c.portDownDrop, c.dropUrgent, c.dropRelay, c.dropOwn, c.flushed]

def HtbCounters.values (c : HtbCounters) : List Nat := [c.rejected, c.form, c.deferLimit]

def TtsCounters.values (c : TtsCounters) : List Nat :=
  [c.form, c.state, c.date, c.full, c.noKey, c.runForm, c.runNoMatch, c.runStale]

def SruCounters.values (c : SruCounters) : List Nat :=
  [c.noTarget, c.confForm, c.confUnexpected, c.contactRepeat, c.contactUnmatched, c.contactNoPoint,
   c.stopreqBuilt]

def BdcCounters.values (c : BdcCounters) : List Nat := [c.form, c.full, c.noId, c.darkEntries]

def FquCounters.values (c : FquCounters) : List Nat :=
  [c.form, c.full, c.noPend, c.expired, c.withdrawn]

def SjuCounters.values (c : SjuCounters) : List Nat :=
  [c.authForm, c.authUnknown, c.authLate, c.authTimeouts, c.authLinkLosses, c.reversalLost,
   c.recordLost, c.jackForm, c.ackAhead, c.ackBehind]

def TpiCounters.values (c : TpiCounters) : List Nat := [c.gap, c.check, c.form, c.overrun]

def MguCounters.values (c : MguCounters) : List Nat := [c.configForm, c.queryForm, c.ctrlForm]

/-- Counters of a port's group (R176). -/
def LinePort.counters (lp : LinePort) : List Nat :=
  lp.ctr.values ++ lp.lsu.ctr.values ++ lp.fruCtr.values

/-- The counters of a group, in the order of the chapters' tables (R176). -/
def State.counterGroup (s : State) (g : Nat) : List Nat :=
  match g with
  | 1 => s.up.counters
  | 2 => s.down.counters
  | 3 => [s.fru.filtered, s.fru.refused] ++ s.htb.ctr.values ++ s.tts.ctr.values
  | 4 => s.sru.ctr.values ++ s.bdc.ctr.values ++ s.fqu.ctr.values
  | 5 => s.sju.ctr.values ++ s.tpi.ctr.values ++ s.mgu.values
  | _ => []

/-- A port's group set to 0. -/
def LinePort.clearCounters (lp : LinePort) : LinePort :=
  { lp with ctr := {}, lsu := { lp.lsu with ctr := {} }, fruCtr := {} }

/-- A group set to 0 (R176). -/
def State.clearGroup (s : State) (g : Nat) : State :=
  match g with
  | 1 => { s with up := s.up.clearCounters }
  | 2 => { s with down := s.down.clearCounters }
  | 3 =>
    { s with
      fru := { s.fru with filtered := 0, refused := 0 }
      htb := { s.htb with ctr := {} }
      tts := { s.tts with ctr := {} } }
  | 4 =>
    { s with
      sru := { s.sru with ctr := {} }
      bdc := { s.bdc with ctr := {} }
      fqu := { s.fqu with ctr := {} } }
  | 5 =>
    { s with
      sju := { s.sju with ctr := {} }
      tpi := { s.tpi with ctr := {} }
      mgu := {} }
  | _ => s

/-- Stored value of a per-port parameter (R175, R176, R183). -/
def PortParams.value (pp : PortParams) (n : Nat) : Nat :=
  match n with
  | 23 => pp.enabled.toNat
  | 24 => match pp.mode with
    | .frame => 0
    | .interval => 1
  | 25 => pp.limit
  | 26 => pp.credit
  | 27 => pp.align
  | 28 => pp.period
  | _ => 0

/-- Stored value of a parameter of number 1..22 (R175, R176, R183). -/
def Params.value (ps : Params) (n : Nat) : Nat :=
  match n with
  | 1 => ps.phi
  | 2 => ps.ageOne
  | 3 => ps.ageTwo
  | 4 => ps.late
  | 5 => ps.window
  | 6 => ps.cutoff
  | 7 => ps.darkLead
  | 8 => ps.deferLimit
  | 9 => ps.hour
  | 10 => ps.beaconInterval
  | 11 => ps.beaconMask.toNat
  | 12 => ps.refresh
  | 13 => ps.offlineCount
  | 14 => ps.offlineAmount
  | 15 => ps.authTimeout
  | 16 => ps.quoteExpiry
  | 17 => ps.initialHop
  | 18 => ps.brightness
  | 19 => ps.dimDivisor
  | 20 => ps.night.start * 65536 + ps.night.stop
  | 21 => ps.ownPoint.toNat
  | 22 => ps.screens.toNat
  | _ => 0

/-- Body of the REPLY to QUERY CONFIG (R176): a window, a per-port value, or a value. -/
def State.configBody (s : State) (n : Nat) (p : Option Port) : ReplyBody :=
  if 40 ≤ n then .window ((slotOf (n - 40)).bind fun i => s.fru.windows[i])
  else if perPort n then
    match p with
    | some p => .value ((s.params.port p).value n)
    | none => .empty
  else .value (s.params.value n)

/-- Body of the REPLY to QUERY STATUS (R176). -/
def State.statusBody (s : State) : StatusBody where
  beacon := s.beaconFields
  upPeer := s.up.lsu.peer
  downPeer := s.down.lsu.peer
  configuredHour := s.params.hour
  hourInForce := s.htb.hour
  activePresent := s.fqu.active.isSome
  pendingPresent := s.fqu.pendingTable.isSome
  activations := s.fqu.activations
  messageIds := (s.bdc.messages.toList.filterMap id).map (·.id)
  salesClosed := s.salesClosed
  uptime := s.htb.uptime
  date := s.htb.date
  secs := s.htb.secs
  sinceSync := s.htb.sinceSync

/-- Body of the REPLY to QUERY BANK (R176). -/
def State.bankBody (s : State) : BankBody where
  currentState := s.tts.currentState
  currentDate := s.tts.currentDate
  currentCount := s.tts.current.length
  nextState := s.tts.nextState
  nextDate := s.tts.nextDate
  nextCount := s.tts.next.length
  generation := s.tts.generation

/-- Result and body of the REPLY to QUERY CALL (R176). Of a record in NEXT too it gives E, which is S,
and the record's overdue mark, clear: the model's choice (log entry 44). -/
def State.callAnswer (s : State) (b : Bank) (k : Key) : Result × ReplyBody :=
  match findCall (s.tts.bank b) k with
  | some c => (.found, .call c c.expected)
  | none => (.notFound, .empty)

/-- Result and body of the REPLY to QUERY PRICE: tests 2, 3 and 5 of R147 in that order, so that a
field outside its range is answered only for a sellable destination: the model's choice (R176, log
entry 51). -/
def State.priceAnswer (s : State) (d : HaltCode) (type cls time quantity : Nat) :
    Result × ReplyBody :=
  match s.sellableTo d with
  | .error e => (e, .empty)
  | .ok (t, r) =>
    match t.terms (BitVec.ofNat 8 type) cls quantity with
    | none => (.badMessage, .empty)
    | some (y, k) =>
      let unit := t.priceOf r y k (some (clockMinute s.htb.hour time))
      (.ok, .price unit (unit * quantity) s.fqu.activations)

/-- Result and body of a REPLY to a request (R176). -/
def State.answer (s : State) (r : QueryRequest) : Result × ReplyBody :=
  match r with
  | .status => (.ok, .status s.statusBody)
  | .counters g _ => (.ok, .counters (s.counterGroup g))
  | .call b k => s.callAnswer b k
  | .bank => (.ok, .bank s.bankBody)
  | .price d type cls time quantity => s.priceAnswer d type cls time quantity
  | .config n p => (.ok, s.configBody n p)

/-- The counters that a request clears once its REPLY is built (R176, log entry 39). -/
def State.afterAnswer (s : State) : QueryRequest → State
  | .counters g true => s.clearGroup g
  | .counters _ false | .status | .call .. | .bank | .price .. | .config .. => s

/-- A well-formed QUERY answered (R176). -/
def State.answerQuery (s : State) (q : Query) : State :=
  match q.request with
  | none => s.offerReply { queryNumber := q.number, kind := q.kind, result := .badMessage }
  | some r =>
    let a := s.answer r
    (s.afterAnswer r).offerReply
      { queryNumber := q.number, kind := q.kind, result := a.1, body := a.2 }

/-- A QUERY taken (R176). -/
def State.takeQuery (s : State) (bs : List Byte) : State :=
  match Query.ofPayload bs with
  | some q => s.answerQuery q
  | none => { s with mgu := { s.mgu with queryForm := tally s.mgu.queryForm } }

/-! ## CTRL (R177) -/

/-- The centre sales-close flag set or cleared; a command that finds it so changes nothing (R177). -/
def State.setSalesClosed (s : State) (closed : Bool) : State :=
  if s.salesClosed = closed then s else State.deriveSalesMode { s with salesClosed := closed }

/-- A well-formed CTRL (R177). WARM_RESET latches the levels now at the strap pins (R174).
CLEAR_TABLES goes to the TTS, then the FQU, then the BDC: the model's choice, where R177 allows either
order (log entry 10). -/
def State.control (s : State) (straps : StrapPins) (c : Command) : State :=
  match c with
  | .warmReset => State.warmStart { s with strapPins := straps }
  | .clearTables => s.clearBanks.clearFares.clearMessages
  | .clearJournalLost => { s with sju := { s.sju with journalLost := false } }
  | .forceDaySwitch => s.forceDaySwitch
  | .salesClose => s.setSalesClosed true
  | .salesOpen => s.setSalesClosed false
  | .portRestart p => s.restartPort p

/-- A CTRL taken (R177). -/
def State.takeCtrl (s : State) (straps : StrapPins) (bs : List Byte) : State :=
  match Command.ofPayload bs with
  | some c => s.control straps c
  | none => { s with mgu := { s.mgu with ctrlForm := tally s.mgu.ctrlForm } }

end Sys2Proof.Machine
end

