-- ==== Sys2Proof/Machine/Classify.lean ====
section
/-! DEFINITION. Classification: addressing, taking, relaying, the BEACON filter (3.2 to 3.5):
FRAME_CLASSIFY. -/

namespace Sys2Proof.Machine

/-! ## Addressing (R37 to R39, R42, R43) -/

/-- Whether a frame is taken and whether it is relayed (R36). -/
structure Verdict where
  take : Bool
  relay : Bool
deriving DecidableEq, Repr

/-- Whether a code lies inside a window (R39). -/
def GroupWindow.covers (w : GroupWindow) (c : HaltCode) : Bool :=
  decide (w.base ≤ c.toNat) && decide (c.toNat < w.base + w.size)
    && decide (1 ≤ c.toNat) && decide (c.toNat ≤ 4000)

/-- Whether a code lies inside an enabled window (R39). -/
def Fru.inWindow (f : Fru) (c : HaltCode) : Bool :=
  allSlots.any fun i => f.windows[i].any fun w => w.covers c

/-- The address rule (R38), and that of an unaddressed halt (R43). -/
def State.addressRule (s : State) (destination : HaltCode) : Verdict :=
  if s.fru.unaddressed then ⟨destination == allHalts, true⟩
  else if destination = s.own.haltCode then ⟨true, false⟩
  else if destination = allHalts then ⟨true, true⟩
  else if s.fru.inWindow destination then ⟨true, true⟩
  else ⟨false, true⟩

/-- Whether a RUN is taken (R37, R43). -/
def State.takesRun (s : State) (destination : HaltCode) : Bool :=
  !s.fru.unaddressed || destination == allHalts

/-- Whether a LOAD's subkind is none of those named (R42). -/
def unknownLoad (k : Kind) (payload : List Byte) : Bool :=
  match k with
  | .load => (LoadKind.ofPayload payload).isNone
  | _ => false

/-- Classification of a known kind (R37, R38, R43). -/
def State.verdictOf (s : State) (p : Port) (k : Kind) (destination : HaltCode) : Verdict :=
  match k, p with
  | .fill, _ => ⟨false, false⟩
  | .time, .up | .load, .up | .query, .up | .ctrl, .up | .jack, .up | .authres, .up
  | .stopconf, .up => s.addressRule destination
  | .run, _ => ⟨s.takesRun destination, true⟩
  | .time, .down | .load, .down | .query, .down | .ctrl, .down | .jack, .down | .authres, .down
  | .stopconf, .down | .beacon, _ | .jrnl, _ | .reply, _ | .stopreq, _ | .authreq, _ =>
    ⟨false, true⟩

/-! ## Taking (R37) -/

/-- A LOAD handed to its owner by subkind (R37). -/
def State.takeLoad (s : State) (bs : List Byte) : State :=
  match LoadKind.ofPayload bs with
  | some .callAdd => s.takeCallAdd bs
  | some .callDelete => s.takeCallDelete bs
  | some .bankOpen => s.takeBankOpen bs
  | some .bankClose => s.takeBankClose bs
  | some .fare => s.takeFare bs
  | some .fareActivate => s.takeFareActivate bs
  | some .message => s.takeMessage bs
  | some .messageDelete => s.takeMessageDelete bs
  | some .config => s.takeConfig bs
  | some .window => s.takeWindow bs
  | none => s

/-- A taken frame handed to its owner (R36, R37). -/
def State.takeFrame (s : State) (straps : StrapPins) (k : Kind) (f : RxFrame) : State :=
  match k with
  | .time => s.takeTime f.payload
  | .load => s.takeLoad f.payload
  | .query => s.takeQuery f.payload
  | .ctrl => s.takeCtrl straps f.payload
  | .jack => s.takeJack f.destination f.payload
  | .authres => s.takeAuthres f.payload
  | .stopconf => s.takeStopconf f.payload
  | .run => s.takeRun f.payload
  | .fill | .beacon | .jrnl | .reply | .stopreq | .authreq => s

/-! ## The origin table (R44 to R46) -/

/-- The entry numbers of the origin table. -/
def originNumbers : List (Fin 32) := List.finRange 32

/-- The entry that holds an origin. -/
def Fru.originOf (f : Fru) (o : HaltCode) : Option (Fin 32) :=
  originNumbers.find? fun i => f.origins[i].any fun e => e.origin == o

/-- Whether two lists of field values differ in a field of the mask, from field number `i` on
(R45). -/
def differIn (mask : BitVec 18) : Nat → List Nat → List Nat → Bool
  | i, a :: as, b :: bs => (mask.getLsbD i && a != b) || differIn mask (i + 1) as bs
  | _, _, _ => false

/-- Whether a BEACON's fields pass the filter (R45). -/
def State.passesFilter (s : State) (o : HaltCode) (fields : List Nat) : Bool :=
  match (s.fru.originOf o).bind fun i => s.fru.origins[i] with
  | none => true
  | some e =>
    differIn s.params.beaconMask 0 e.fields fields
      || decide (s.params.refresh ≤ s.htb.uptime - e.uptime)

/-- Uptime of an entry, for the choice of the oldest. -/
def Fru.entryAge (f : Fru) (i : Fin 32) : Nat :=
  match f.origins[i] with
  | some e => e.uptime
  | none => 0

/-- The entry a BEACON's fields go to: the origin's own, the lowest empty, the oldest (R46). -/
def Fru.originSlot (f : Fru) (o : HaltCode) : Fin 32 :=
  match (f.originOf o).orElse fun _ => originNumbers.find? fun i => f.origins[i].isNone with
  | some i => i
  | none =>
    match firstBy (fun i j => decide (f.entryAge i < f.entryAge j)) originNumbers with
    | some i => i
    | none => 0

/-- The origin table after a BEACON was admitted (R46). -/
def State.recordOrigin (s : State) (o : HaltCode) (fields : List Nat) : State :=
  { s with fru := { s.fru with
      origins := s.fru.origins.set (s.fru.originSlot o) (some ⟨o, fields, s.htb.uptime⟩) } }

/-! ## Relaying (R41, R42, R45) -/

/-- The copy that travels on (R41, step 3). -/
def RxFrame.copy (f : RxFrame) : TxFrame where
  kind := f.kind
  destination := f.destination
  origin := f.origin
  hop := f.hop - 1#8
  payload := .octets f.payload

/-- The copy offered to the other port's queue (R41, step 3). -/
def State.forward (s : State) (p : Port) (f : RxFrame) : State :=
  s.offer p.other ⟨relayClass f.kind, f.copy⟩

/-- A BEACON from the Down port filtered, then offered (R45, R46). -/
def State.forwardBeacon (s : State) (p : Port) (f : RxFrame) : State :=
  match beaconOfPayload f.payload with
  | none => s.forward p f
  | some fields =>
    if s.passesFilter f.origin fields then
      let s' := s.forward p f
      if s.up.admits .relay then s'.recordOrigin f.origin fields else s'
    else { s with fru := { s.fru with filtered := tally s.fru.filtered } }

/-- The relay steps (R41). -/
def State.relay (s : State) (p : Port) (f : RxFrame) : State :=
  if (s.port p.other).lsu.state = .off then s
  else if f.hop = 1#8 then s.modFruCtr p fun c => { c with hopEnd := tally c.hopEnd }
  else if p = .down ∧ f.kind = Kind.beacon.code then s.forwardBeacon p f
  else s.forward p f

/-- KIND_UNKNOWN counted (R42). -/
def State.countUnknown (s : State) (p : Port) : State :=
  s.modFruCtr p fun c => { c with kindUnknown := tally c.kindUnknown }

/-! ## Classification (R36) -/

/-- Whether a taken frame makes a warm start, which ends every frame in flight (R178,
log entry 22). -/
def isWarmReset (k : Kind) (payload : List Byte) : Bool :=
  k == .ctrl && Command.ofPayload payload == some .warmReset

/-- A frame of a known kind classified (R36, R37, R42). -/
def State.classifyKnown (s : State) (p : Port) (straps : StrapPins) (k : Kind) (f : RxFrame) :
    State :=
  let v := s.verdictOf p k f.destination
  if unknownLoad k f.payload then
    let s := s.countUnknown p
    if v.relay then s.relay p f else s
  else
    let s' := if v.take then s.takeFrame straps k f else s
    if v.relay && !(v.take && isWarmReset k f.payload) then s'.relay p f else s'

/-- A frame classified, its buffer already freed (R36, R42, log entry 22). -/
def State.classify (s : State) (p : Port) (straps : StrapPins) (f : RxFrame) : State :=
  match Kind.ofCode f.kind with
  | some k => s.classifyKnown p straps k f
  | none => (s.countUnknown p).relay p f

/-- FRAME_CLASSIFY: the oldest buffered frame of a port (R9, R36). -/
def execFrameClassify (p : Port) (straps : StrapPins) (s : State) :
    Host.Outcome State Fault Refusal :=
  whenPowered s fun s =>
    match (s.port p).buffers with
    | [] => s
    | f :: rest => (s.modPort p fun lp => { lp with buffers := rest }).classify p straps f

end Sys2Proof.Machine
end

