-- ==== Sys2Proof/Machine/Platforms.lean ====
section
/-! DEFINITION. The departure contacts and the RUN notices the halt originates (7.6): CONTACT_PULSE,
CONTACT_LOCKOUT_EXPIRY. -/

namespace Sys2Proof.Machine

/-- A signed 16-bit field (11.7). -/
def signed16 (v : Int) : List Byte := be 2 (BitVec.ofInt 16 v).toNat

/-- Payload of the RUN notice of a departure (R119, 11.7). -/
def State.departureOctets (s : State) (c : Call) : List Byte :=
  be 2 c.loaded.train.toNat ++ be 2 c.loaded.runDate.toNat ++ [1#8]
    ++ be 2 s.params.ownPoint.toNat
    ++ signed16 (clampDelay ((s.htb.secs : Int) - c.loaded.sched))
    ++ be 3 s.htb.secs ++ [0#8]

/-- The RUN notice of a departure, on both queues (R119). -/
def State.originateRun (s : State) (c : Call) : State :=
  if s.params.ownPoint = 0#16 then
    s.modSruCtr fun k => { k with contactNoPoint := tally k.contactNoPoint }
  else
    let payload := Payload.octets (s.departureOctets c)
    (s.offerOwn .up .run allHalts payload).offerOwn .down .run allHalts payload

/-- A pulse outside the lockout (R86, R118). -/
def State.matchPulse (s : State) (p : Platform) : State :=
  match s.contactMatch p with
  | some c => (s.setCallState c.key .departed).originateRun c
  | none => s.modSruCtr fun k => { k with contactUnmatched := tally k.contactUnmatched }

/-- CONTACT_PULSE (R118). -/
def execContactPulse (p : Platform) (s : State) : Host.Outcome State Fault Refusal :=
  whenPowered s fun s =>
    if (s.sru.io p).lockout.isRunning then
      s.modSruCtr fun k => { k with contactRepeat := tally k.contactRepeat }
    else (s.modIo p fun io => { io with lockout := .running Config.lockoutMs }).matchPulse p

/-- CONTACT_LOCKOUT_EXPIRY (R118). -/
def execContactLockoutExpiry (p : Platform) (s : State) : Host.Outcome State Fault Refusal :=
  whenPowered s fun s =>
    if (s.sru.io p).lockout.isRunning then s.modIo p fun io => { io with lockout := .stopped } else s

end Sys2Proof.Machine
end

