-- ==== Sys2Proof/Machine/Dispatch.lean ====
section
/-! DEFINITION. One arm for each command. -/

namespace Sys2Proof.Machine

def exec (i : Instr) (s : State) : Host.Outcome State Fault Refusal :=
  match i with
  | .powerUp backupHeld straps lowEnergy => Sys2Proof.Machine.execPowerUp backupHeld straps lowEnergy s
  | .mainPowerLoss => Sys2Proof.Machine.execMainPowerLoss s
  | .flagReceived p => Sys2Proof.Machine.execFlagReceived p s
  | .frameClosed p bits => Sys2Proof.Machine.execFrameClosed p bits s
  | .abort p bits => Sys2Proof.Machine.execAbort p bits s
  | .longFrame p => Sys2Proof.Machine.execLongFrame p s
  | .octetGroup p => Sys2Proof.Machine.execOctetGroup p s
  | .dwellExpiry p => Sys2Proof.Machine.execDwellExpiry p s
  | .txFrameEnd p => Sys2Proof.Machine.execTxFrameEnd p s
  | .txFlagEnd p => Sys2Proof.Machine.execTxFlagEnd p s
  | .fillDueExpiry p => Sys2Proof.Machine.execFillDueExpiry p s
  | .periodExpiry p => Sys2Proof.Machine.execPeriodExpiry p s
  | .pauseExpiry p => Sys2Proof.Machine.execPauseExpiry p s
  | .intervalExpiry p => Sys2Proof.Machine.execIntervalExpiry p s
  | .silenceExpiry p => Sys2Proof.Machine.execSilenceExpiry p s
  | .retryExpiry p => Sys2Proof.Machine.execRetryExpiry p s
  | .frameClassify p straps => Sys2Proof.Machine.execFrameClassify p straps s
  | .beaconTimerExpiry => Sys2Proof.Machine.execBeaconTimerExpiry s
  | .serviceSecond => Sys2Proof.Machine.execServiceSecond s
  | .uptimeSecond => Sys2Proof.Machine.execUptimeSecond s
  | .minuteTick => Sys2Proof.Machine.execMinuteTick s
  | .buttonPress p => Sys2Proof.Machine.execButtonPress p s
  | .buttonRelease p => Sys2Proof.Machine.execButtonRelease p s
  | .noTargetExpiry p => Sys2Proof.Machine.execNoTargetExpiry p s
  | .resendExpiry k => Sys2Proof.Machine.execResendExpiry k s
  | .contactPulse p => Sys2Proof.Machine.execContactPulse p s
  | .contactLockoutExpiry p => Sys2Proof.Machine.execContactLockoutExpiry p s
  | .screenMessageSent => Sys2Proof.Machine.execScreenMessageSent s
  | .lowEnergyChange asserted => Sys2Proof.Machine.execLowEnergyChange asserted s
  | .activityExpiry => Sys2Proof.Machine.execActivityExpiry s
  | .warmUpExpiry => Sys2Proof.Machine.execWarmUpExpiry s
  | .quote r => Sys2Proof.Machine.execQuote r s
  | .cancelQuote slot => Sys2Proof.Machine.execCancelQuote slot s
  | .quoteExpiry slot => Sys2Proof.Machine.execQuoteExpiry slot s
  | .find r => Sys2Proof.Machine.execFind r s
  | .issue r => Sys2Proof.Machine.execIssue r s
  | .authTimerExpiry => Sys2Proof.Machine.execAuthTimerExpiry s
  | .ticket n => Sys2Proof.Machine.execTicket n s
  | .printed n => Sys2Proof.Machine.execPrinted n s
  | .void n => Sys2Proof.Machine.execVoid n s
  | .ticketLimitExpiry n => Sys2Proof.Machine.execTicketLimitExpiry n s
  | .ackTimerExpiry => Sys2Proof.Machine.execAckTimerExpiry s
  | .notices count => Sys2Proof.Machine.execNotices count s
  | .status => Sys2Proof.Machine.execStatus s
  | .tpGap => Sys2Proof.Machine.execTpGap s
  | .terminalReplySent => Sys2Proof.Machine.execTerminalReplySent s
  | .idleLine p => Sys2Proof.Machine.execIdleLine p s
  | .candidateFrameBegin p => Sys2Proof.Machine.execCandidateFrameBegin p s
  | .txAbortEnd p => Sys2Proof.Machine.execTxAbortEnd p s
  | .badMessage code form => Sys2Proof.Machine.execBadMessage code form s

end Sys2Proof.Machine
end

