-- ==== Sys2Proof/Machine/Render.lean ====
section
/-! DEFINITION. What the part puts on its links: the octets of its frames and replies (11.7, R179)
and the bits of the line (R5, R15). No transition reads them. -/

namespace Sys2Proof.Machine

/-! ## Journal records (R166, 11.7) -/

def PaymentKind.code : PaymentKind → Nat
  | .cash => 1 | .cardOnline => 2 | .cardOffline => 3

/-- The head of a record that is no SALE: its kind alone (log entry 15). -/
def plainHead (kind : Nat) : List Byte := be 2 (Config.journalHead kind 0 0 false false 0).toNat

/-- Octets of a SALE record. -/
def Sale.octets (x : Sale) : List Byte :=
  be 2 (Config.journalHead 1 x.payment.code (classCode x.cls) x.offline x.call.isSome
      x.quantity).toNat
    ++ be 2 x.date.toNat ++ be 3 x.secs ++ be 4 x.ticket.toNat ++ be 2 x.destination.toNat ++ [x.type]
    ++ be 2 x.unitPrice ++ be 3 x.total ++ be 2 ((x.call.map fun k => k.train.toNat).getD 0)
    ++ be 2 x.checkCode.toNat ++ x.authCode.getD []

def Tally.octets (t : Tally) : List Byte := be 4 t.count ++ be 4 t.amount

/-- Octets of a journal record. -/
def JournalBody.octets : JournalBody → List Byte
  | .sale x => x.octets
  | .void date secs ticket total =>
    plainHead 2 ++ be 2 date.toNat ++ be 3 secs ++ be 4 ticket.toNat ++ be 3 total
  | .reversal date secs tag total code =>
    plainHead 3 ++ be 2 date.toNat ++ be 3 secs ++ tag.octets ++ be 3 total ++ code
  | .dayTotal closed t =>
    plainHead 4 ++ be 2 closed.toNat ++ t.cash.octets ++ t.cardOnline.octets ++ t.cardOffline.octets
  | .restore date secs auths quotes =>
    plainHead 5 ++ be 2 date.toNat ++ be 3 secs ++ be 1 auths ++ be 1 quotes

/-! ## Codes of reply fields (R183) -/

def ReplyKind.code : ReplyKind → Nat
  | .status => 1 | .counters => 2 | .call => 3 | .bank => 4 | .price => 5 | .config => 6
  | .bankClose => 7

def Result.code : Result → Nat
  | .ok => 1 | .badMessage => 2 | .busy => 3 | .salesClosed => 4 | .noDest => 5
  | .notSellable => 6 | .held => 7 | .noCall => 8 | .callGone => 9 | .typeNotValidNow => 10
  | .quoteUnknown => 11 | .linkDown => 12 | .offlineLimit => 13 | .pending => 14 | .tooLate => 15
  | .journalFull => 16 | .found => 17 | .partialScan => 18 | .ended => 19 | .stale => 20
  | .notFound => 21 | .ready => 22 | .mismatch => 23 | .declined => 24 | .quoteWithdrawn => 25
  | .authTimeout => 26 | .authLink => 27

def directionCode : Direction → Nat
  | .up => 1 | .down => 2

def StopMode.code : StopMode → Nat
  | .always => 1 | .request => 2 | .pass => 3

def CallState.code : CallState → Nat
  | .scheduled => 1 | .running => 2 | .departed => 3 | .cancelled => 4 | .expired => 5

def StopState.code : StopState → Nat
  | .none => 1 | .wanted => 2 | .sent => 3 | .confirmed => 4 | .late => 5

def Confidence.code : Confidence → Nat
  | .planned => 1 | .firm => 2 | .aged => 3 | .lapsed => 4

def DisplayStatus.code : DisplayStatus → Nat
  | .cancelled => 1 | .delayed => 2 | .noInfo => 3 | .onTime => 4 | .expected => 5

/-- In the order in which 9.4 lists the states (log entry 49). -/
def SlotState.code : SlotState → Nat
  | .free => 1 | .opened => 2 | .pendingAuth => 3

/-! ## Fields of reply bodies (11.7, R183) -/

/-- A field of a reply body: a number in the octets that 11.7 or R183 gives it, or a value, absent or
not, whose octets they leave open. -/
inductive BodyField
  | sized (octets value : Nat)
  | unsized (value : Option Int)
deriving DecidableEq, Repr

namespace BodyField

/-- An enumerated field, a flag or a mark: one octet (R183). -/
def code (c : Nat) : BodyField := .sized 1 c
def flag (b : Bool) : BodyField := .sized 1 b.toNat
/-- Dates and halt codes take 2 octets, service seconds and amounts 3 (11.7). -/
def day (d : Date) : BodyField := .sized 2 d.toNat
def halt (c : HaltCode) : BodyField := .sized 2 c.toNat
def clock (s : Nat) : BodyField := .sized 3 s
def amount (a : Nat) : BodyField := .sized 3 a
/-- A number of no stated size. -/
def number (n : Nat) : BodyField := .unsized (some n)
def integer (n : Int) : BodyField := .unsized (some n)

/-- A field that may be absent; how its absence is coded is open. -/
def perhaps {α : Type} (f : α → BodyField) : Option α → BodyField
  | some a => f a
  | none => .unsized none

/-- Octets of the field at a place of the body of the reply with a code. -/
def octets (reply place : Nat) : BodyField → List Byte
  | .sized n v => be n v
  | .unsized v => Config.fieldOctets reply place v

end BodyField

open BodyField in
/-- Octets of a body from its fields in order. -/
def bodyOctets (reply : Nat) (fields : List BodyField) : List Byte :=
  (fields.mapIdx fun place f => f.octets reply place).flatten

/-! ## REPLY bodies (R176, R78) -/

open BodyField in
/-- A peer record; its port state is coded as port states are, not as a FILL codes its sender state: the
model's choice (log entry 49). -/
def PeerRecord.fields : Option PeerRecord → List BodyField
  | some r => [code r.state.code, number r.bucket.toNat, halt r.haltCode, number r.uptime]
  | none => [.unsized none, .unsized none, .unsized none, .unsized none]

open BodyField in
def Report.fields : Option Report → List BodyField
  | some r =>
    [number r.point.toNat, integer r.index, integer r.delay, clock r.time, perhaps number r.taken]
  | none => [.unsized none, .unsized none, .unsized none, .unsized none, .unsized none]

open BodyField in
/-- The loaded fields of a call record (5.2). Each list has its count before it: the model's choice (log
entry 52). -/
def Loaded.fields (l : Loaded) : List BodyField :=
  [number l.train.toNat, day l.runDate, code (directionCode l.direction),
      code (platformCode l.platform), code l.stopMode.code, clock l.sched,
      number l.destinations.length]
    ++ l.destinations.map halt ++ [number l.points.length]
    ++ l.points.flatMap (fun t => [number t.code.toNat, number t.allowance])
    ++ [perhaps (fun c => number c.toNat) l.beyond]

open BodyField in
/-- Every field of a call record (R176, QUERY CALL). The overdue mark of a call that does not run, or
stands in NEXT, is reported clear, not absent (log entry 44). -/
def Call.fields (c : Call) (expected : Nat) : List BodyField :=
  c.loaded.fields ++ [code c.state.code] ++ Report.fields c.report
    ++ [code c.stop.code, perhaps (fun x => code (causeCode (some x))) c.stopCause,
      number c.forecast, clock expected, perhaps (fun x => code x.code) c.confidence, flag c.overdue,
      perhaps (fun x => code x.code) c.display, perhaps number c.shownMinute]

open BodyField in
/-- The body of a QUERY STATUS: the BEACON fields in the octets of the BEACON layout (R176, 11.7). The
message ids have no count before them: the model's choice (log entry 52). -/
def StatusBody.fields (b : StatusBody) : List BodyField :=
  List.zipWith BodyField.sized beaconSizes b.beacon
    ++ PeerRecord.fields b.upPeer ++ PeerRecord.fields b.downPeer
    ++ [number b.configuredHour, number b.hourInForce, flag b.activePresent, flag b.pendingPresent,
      number b.activations.toNat]
    ++ b.messageIds.map (fun i => number i.toNat)
    ++ [flag b.salesClosed, number b.uptime, day b.date, clock b.secs, number b.sinceSync]

open BodyField in
def BankBody.fields (b : BankBody) : List BodyField :=
  [code b.currentState.code, day b.currentDate, number b.currentCount,
    code b.nextState.code, day b.nextDate, number b.nextCount, number b.generation.toNat]

open BodyField in
/-- The fields of a REPLY body in order (R176, R78). -/
def ReplyBody.fields : ReplyBody → List BodyField
  | .empty => []
  | .status b => b.fields
  | .counters vs => vs.map number
  | .call c e => c.fields e
  | .bank b => b.fields
  | .price unit total n => [amount unit, amount total, number n.toNat]
  | .value v => [number v]
  | .window (some w) => [.sized 2 w.base, number w.size]
  | .window none => [.unsized none, .unsized none]
  | .bankClose count st d => [number count, code st.code, day d]

/-- Octets of a REPLY payload; one without a body ends with its result (R176, 11.7). -/
def Reply.octets (r : Reply) : List Byte :=
  [r.queryNumber] ++ be 1 r.kind.code ++ be 1 r.result.code ++ bodyOctets r.kind.code r.body.fields

/-! ## Notices and terminal replies (R180, R181, R183) -/

open BodyField in
/-- The fields of a notice, its kind first (R181, R183). -/
def Notice.fields : Notice → List BodyField
  | .salesMode m => [code 1, code m.code]
  | .quoteWithdrawn i => [code 2, number i.val]
  | .issueDone i r n => [code 3, number i.val, code r.code, perhaps (fun t => number t.toNat) n]
  | .stopState k st => [code 4, number k.train.toNat, day k.runDate, code st.code]
  | .journalNearFull => [code 5]
  | .timeSync st => [code 6, code st.code]

open BodyField in
def Sale.fields (x : Sale) : List BodyField :=
  [day x.date, clock x.secs, number x.ticket.toNat, halt x.destination, number x.type.toNat,
    number (classCode x.cls), number x.quantity, amount x.unitPrice, amount x.total,
    code x.payment.code, perhaps (fun a => number (beVal a)) x.authCode,
    perhaps (fun k => number k.train.toNat) x.call, perhaps (fun k => day k.runDate) x.call,
    flag x.offline, number x.checkCode.toNat]

open BodyField in
def FindResult.fields (r : FindResult) : List BodyField :=
  [number r.key.train.toNat, day r.key.runDate, number r.scheduled,
    perhaps (fun x => code x.code) r.display, perhaps number r.shown,
    code (platformCode r.platform), code r.stopMode.code]

open BodyField in
def TerminalStatus.fields (t : TerminalStatus) : List BodyField :=
  [code t.salesMode.code, code t.upState.code, code t.sync.code, number t.uncertainty,
    code t.energy.code, number t.occupancy, number t.xc, amount t.xa, code t.currentState.code]
    ++ t.slots.map (fun x => code x.code) ++ [number t.notices]

open BodyField in
/-- The fields of a terminal reply's body after its result. The count of a FIND's results and its place, and
the token behind them, are the model's choice (log entry 52); that of NOTICES is R181's. -/
def TerminalBody.fields : TerminalBody → List BodyField
  | .empty => []
  | .quote i unit total n needed =>
    [number i.val, amount unit, amount total, number n.toNat, flag needed]
  | .issue n change => [number n.toNat, perhaps amount change]
  | .ticket x => x.fields
  | .find rs token =>
    [number rs.length] ++ rs.flatMap FindResult.fields
      ++ [perhaps (fun t => number t.generation.toNat) token, perhaps (fun t => number t.position) token]
  | .notices overflow list =>
    [flag overflow, number list.length] ++ list.flatMap Notice.fields
  | .status t => t.fields

/-- Octets of a terminal reply (R179, R180). -/
def TerminalReply.octets (r : TerminalReply) : List Byte :=
  terminalMessage r.code (be 1 r.result.code ++ bodyOctets r.code.toNat r.body.fields)

/-! ## Frames and line bits (R5, R15, 11.7) -/

def Payload.toOctets : Payload → List Byte
  | .octets bs => bs
  | .journal first rs => be 4 first.toNat ++ rs.flatMap fun r => r.body.octets
  | .reply r => r.octets

/-- Header and payload of a frame (1.3). -/
def TxFrame.octets (f : TxFrame) : List Byte :=
  [f.kind] ++ be 2 f.destination.toNat ++ be 2 f.origin.toNat ++ [f.hop] ++ f.payload.toOctets

/-- Content bits of a frame: header and payload, each octet least significant bit first, and the FCS
(R5, R15). -/
def contentBits (octets : List Byte) : List Bool :=
  let bits := octets.flatMap octetBits
  bits ++ fcsBits bits

/-- A flag (1.2). -/
def flagBits : List Bool := [false, true, true, true, true, true, true, false]

/-- The bits of a frame between its flags (R15). -/
def TxFrame.lineBits (f : TxFrame) : List Bool := stuff (contentBits f.octets)

/-- What the transmitter puts on the line: continuous ones, a flag, one frame with its closing flag, or
the ones of an abort. The last flag sent before a frame, idle or closing, is its opening flag
(R15, R16). -/
def TxState.lineBits : TxState → List Bool
  | .silent => [true]
  | .flags => flagBits
  | .sending f => f.lineBits ++ flagBits
  | .aborting => List.replicate 7 true

end Sys2Proof.Machine
end

