-- ==== Sys2Proof/Safety.lean ====
section
/-! DEFINITION. The terms the statements use: what counts as a sound state, what one command leaves
alone, and the conditions and outcomes that several rules share. -/

namespace Sys2Proof.Safety

open Sys2Proof.Machine

/-! ## Sound states -/

/-- A transmit queue holds at most 32 frames, at most 26 of them not URGENT, and none unless its port
is in SERVICE (R50). -/
def QueueFits (lp : LinePort) : Prop :=
  lp.queue.length ≤ 32 ∧ nonUrgent lp.queue ≤ 26 ∧ (lp.lsu.state ≠ .service → lp.queue = [])

/-- Both transmit queues fit (R50). -/
def QueuesFit (s : State) : Prop := QueueFits s.up ∧ QueueFits s.down

/-- A bank holds at most 160 records, in strictly increasing order of S, train number and run date,
and no two share a key (R72). -/
def BankOrdered (calls : List Call) : Prop :=
  calls.length ≤ 160 ∧ calls.Pairwise (fun a b => a.loaded.before b.loaded = true)
    ∧ (calls.map Call.key).Nodup

/-- Both banks are ordered, and an EMPTY bank holds nothing (R70, R72). -/
def BanksOrdered (s : State) : Prop :=
  BankOrdered s.tts.current ∧ BankOrdered s.tts.next
    ∧ (s.tts.currentState = .empty → s.tts.current = [])
    ∧ (s.tts.nextState = .empty → s.tts.next = [])

/-- The journal holds the records A..W − 1 in order, at most 512 of them; N lies between A and W,
at most 64 past A (R165, R167). -/
def JournalRuns (j : Sju) : Prop :=
  j.journal.length = j.occupancy ∧ j.journal.length ≤ 512
    ∧ (∀ i (h : i < j.journal.length), j.journal[i].seq = j.ackSeq + BitVec.ofNat 32 i)
    ∧ j.inFlight ≤ j.journal.length ∧ j.inFlight ≤ 64

/-- The stand remainder is at most 7200 s, and s stands at 0 while it is above 0; both rollover hours
are 2, 3 or 4 (R64, R67). -/
def ClockStands (s : State) : Prop :=
  s.htb.stand ≤ 7200 ∧ (0 < s.htb.stand → s.htb.secs = 0)
    ∧ (2 ≤ s.htb.hour ∧ s.htb.hour ≤ 4) ∧ (2 ≤ s.params.hour ∧ s.params.hour ≤ 4)

/-- Each error bucket lies in 0..T, and each forecast delay in 0..21600 s (R25, R93). -/
def CountsBounded (s : State) : Prop :=
  (∀ p, (s.port p).lsu.bucket ≤ (s.params.port p).limit)
    ∧ ∀ c ∈ s.tts.current ++ s.tts.next, c.forecast ≤ 21600

/-- Receive buffers, reply queue and notice ring keep their sizes (R9, R180, R181). -/
def StoresFit (s : State) : Prop :=
  (∀ p, (s.port p).buffers.length ≤ 8) ∧ s.tpi.replies.length ≤ 4 ∧ s.tpi.ring.length ≤ 32

/-- Enabled group windows never overlap (R39, R40). -/
def WindowsApart (s : State) : Prop :=
  ∀ i j : Fin 4, i ≠ j → ∀ a b, s.fru.windows[i] = some a → s.fru.windows[j] = some b →
    ∀ n, ¬ ((a.base ≤ n ∧ n < a.base + a.size) ∧ (b.base ≤ n ∧ n < b.base + b.size))

/-- With main power, the sales mode is the one its inputs give (R156). -/
def SalesModeTrue (s : State) : Prop := s.powered = true → s.sju.salesMode = s.salesModeOf

/-- With main power, the exposure is that of the journal, and the restart counts are those of the
OPEN slots and of the pending authorisation (R157, R172). -/
def LedgerTrue (s : State) : Prop :=
  s.powered = true →
    s.sju.xc = (s.sju.journal.filterMap (·.offlineTotal)).length
      ∧ s.sju.xa = (s.sju.journal.filterMap (·.offlineTotal)).sum
      ∧ s.sju.quotesHeld = openSlots s.fqu.slots
      ∧ s.sju.authsPending = if s.sju.pendingAuth.isSome then 1 else 0

/-- Every step from a sound state that goes on, goes on to a sound one. -/
def KeptByStep (inv : State → Prop) : Prop := ∀ s t, inv s → step s = .next t → inv t

/-! ## What a command leaves alone -/

/-- Nothing but one port has changed. -/
def OnlyPort (p : Port) (s t : State) : Prop := t = s.setPort p (t.port p)

/-- Nothing has changed but a port and, where that port is the Up port, the stores of the blocks that
act on its leaving SERVICE: stop requests, boards, quotes, sales and the terminal port (R33). -/
def OnlyLink (p : Port) (s t : State) : Prop :=
  match p with
  | .down => t = { s with down := t.down }
  | .up =>
    t = { s with
      up := t.up, tts := t.tts, sru := t.sru, bdc := t.bdc, fqu := t.fqu, sju := t.sju, tpi := t.tpi }

/-- Nothing has changed but the screens, the replies and the notices. -/
def OnlyTerminal (s t : State) : Prop := t = { s with bdc := t.bdc, tpi := t.tpi }

/-- Nothing has changed but the Up queue and what a sale or a quote touches: calls' stop requests,
lamps, boards, quotes, the journal, replies and notices. -/
def OnlyTrade (s t : State) : Prop :=
  t = { s with
    up := t.up, tts := t.tts, sru := t.sru, bdc := t.bdc, fqu := t.fqu, sju := t.sju, tpi := t.tpi }

/-! ## Shared conditions -/

/-- The transmitter of a port chooses when a flag or a frame ends (R15). -/
def Chooses (c : Instr) (s : State) (p : Port) : Prop :=
  (c = .txFlagEnd p ∧ (s.port p).tx = .flags)
    ∨ (c = .txFrameEnd p ∧ ∃ f, (s.port p).tx = .sending f)

/-- Port counters after a choice: a frame that ended is counted (R15). -/
def sentCount (c : Instr) (k : PortCounters) : PortCounters :=
  match c with
  | .txFrameEnd _ => { k with txFrames := tally k.txFrames }
  | _ => k

/-- The class that the arbiter prefers (R52). -/
def Preferred (lp : LinePort) : TxClass → Prop
  | .urgent => True
  | .relay =>
    (∀ y ∈ lp.queue, y.cls ≠ .urgent) ∧ ((∃ y ∈ lp.queue, y.cls = .own) → lp.runOfThree < 3)
  | .own =>
    (∀ y ∈ lp.queue, y.cls ≠ .urgent) ∧ ((∃ y ∈ lp.queue, y.cls = .relay) → 3 ≤ lp.runOfThree)

/-- A queue with room for a frame of a class, in SERVICE (R51). -/
def Room (lp : LinePort) (c : TxClass) : Prop :=
  lp.lsu.state = .service ∧ lp.queue.length < 32 ∧ (c = .urgent ∨ nonUrgent lp.queue < 26)

/-- Own JRNL frames, which an admission to the Up queue may bring behind it (R54). -/
def AllJrnl (js : List Queued) : Prop := ∀ y ∈ js, y.cls = .own ∧ y.frame.kind = 11#8

/-- A call that a press on a platform can choose (R108). -/
def PressEligible (s : State) (p : Platform) (c : Call) : Prop :=
  c.loaded.platform = p ∧ (c.state = .scheduled ∨ c.state = .running)
    ∧ c.loaded.stopMode = .request
    ∧ c.expected ≤ s.htb.secs + 60 * s.params.window
    ∧ s.htb.secs + 60 * s.params.cutoff ≤ c.expected

/-- A call that a pulse on a platform can match (R118). -/
def PulseEligible (s : State) (p : Platform) (c : Call) : Prop :=
  c.loaded.platform = p ∧ (c.state = .scheduled ∨ c.state = .running)
    ∧ c.expected ≤ s.htb.secs + 300 ∧ s.htb.secs ≤ c.expected + 1800

/-- A terminal port that can serve a request (R179, R180). -/
def Listening (s : State) : Prop :=
  s.powered = true ∧ s.tpi.parser = .waiting ∧ s.tpi.replies.length < 4

/-- The commands that are terminal requests, with their code octets (R179, 11.7). -/
def requestCode : Instr → Option Byte
  | .quote _ => some 1#8
  | .cancelQuote _ => some 2#8
  | .issue _ => some 3#8
  | .ticket _ => some 4#8
  | .printed _ => some 5#8
  | .void _ => some 6#8
  | .find _ => some 7#8
  | .notices _ => some 8#8
  | .status => some 9#8
  | _ => none

/-! ## Frames of the centre -/

/-- A frame of a kind addressed to this halt alone is the oldest that the Up port holds (R38). -/
def OwnFrame (s : State) (f : RxFrame) (rest : List RxFrame) (kind : Byte) : Prop :=
  s.powered = true ∧ s.fru.unaddressed = false ∧ s.up.buffers = f :: rest ∧ f.kind = kind
    ∧ f.destination = s.own.haltCode

/-- The state with that frame's buffer freed (R9). -/
def freed (s : State) (rest : List RxFrame) : State := { s with up := { s.up with buffers := rest } }

/-- An own frame queued for transmission, with the header that R49 gives it. -/
def ownQueued (s : State) (cls : TxClass) (kind : Byte) (destination : HaltCode) (payload : Payload) :
    Queued :=
  ⟨cls, ⟨kind, destination, s.own.haltCode, BitVec.ofNat 8 s.params.initialHop, payload⟩⟩

/-- The STOPREQ of a call (R110, 11.7). -/
def stopreqOf (s : State) (c : Call) : Queued :=
  ownQueued s .urgent 13#8 65535#16 (.octets
    (be 2 c.loaded.train.toNat ++ be 2 c.loaded.runDate.toNat
      ++ [match c.loaded.platform with | .one => 1#8 | .two => 2#8,
          match c.stopCause with | none => 0#8 | some .button => 1#8 | some .ticket => 2#8,
          s.sru.serial]))

/-- The RUN that a departure originates (R119, 11.7). -/
def runOf (s : State) (c : Call) : Queued :=
  ownQueued s .urgent 9#8 0#16 (.octets (s.departureOctets c))

/-- A frame offered to the Up queue stands behind the earlier ones, with what the drain adds. -/
def QueuedUp (s t : State) (x : Queued) : Prop :=
  ∃ js, AllJrnl js ∧ t.up.queue = s.up.queue ++ x :: js

/-- A REPLY is offered to the Up queue, and nothing but that queue and the journal's pointers has
changed since `s` (R176). -/
def Replied (s t : State) (r : Reply) : Prop :=
  (Room s.up .own → QueuedUp s t (ownQueued s .own 12#8 65535#16 (.reply r)))
    ∧ t = { s with up := t.up, sju := t.sju }

/-- A call past its cutoff (R107). -/
def PastCutoff (s : State) (c : Call) : Prop := c.expected < s.htb.secs + 60 * s.params.cutoff

/-- The OPEN quotes that name a call are freed, and those in authorisation marked (R150). -/
def QuotesWithdrawn (s t : State) (k : Key) : Prop :=
  ∀ (i : Fin 4) (q : Quote), q.call = some k →
    (s.fqu.slots[i] = .opened q → t.fqu.slots[i] = .free)
      ∧ ∀ w, s.fqu.slots[i] = .pendingAuth q w → t.fqu.slots[i] = .pendingAuth q true

/-- Every slot is invalidated: none is OPEN, and those in authorisation are marked (R150). -/
def AllWithdrawn (s t : State) : Prop :=
  (∀ (i : Fin 4) (q : Quote), t.fqu.slots[i] ≠ .opened q)
    ∧ ∀ (i : Fin 4) (q : Quote) (w : Bool),
      s.fqu.slots[i] = .pendingAuth q w → t.fqu.slots[i] = .pendingAuth q true

/-- The banks switched to a new date: a READY NEXT of that date is CURRENT; otherwise CURRENT is EMPTY,
and a NEXT of no later date is emptied (R89). -/
def BanksSwitched (s t : State) (newDate : Date) : Prop :=
  t.tts.currentDate = newDate ∧ t.tts.generation = s.tts.generation + 1#16
    ∧ (s.tts.nextState = .ready ∧ s.tts.nextDate = newDate →
      t.tts.currentState = .active
        ∧ t.tts.current.map (·.loaded) = s.tts.next.map (·.loaded)
        ∧ t.tts.current.map (·.state) = s.tts.next.map (·.state)
        ∧ t.tts.next = [] ∧ t.tts.nextState = .empty ∧ t.tts.nextDate = s.tts.currentDate)
    ∧ (s.tts.nextState ≠ .ready ∨ s.tts.nextDate ≠ newDate →
      t.tts.currentState = .empty ∧ t.tts.current = [] ∧ t.tts.nextDate = s.tts.nextDate
        ∧ (0 < (s.tts.nextDate - newDate).toInt →
          t.tts.next = s.tts.next ∧ t.tts.nextState = s.tts.nextState)
        ∧ ((s.tts.nextDate - newDate).toInt ≤ 0 → t.tts.next = [] ∧ t.tts.nextState = .empty))

/-- What a warm start makes of a call (R91, R121, R178). -/
def RestartedCall (s : State) (c d : Call) : Prop :=
  d.loaded = c.loaded ∧ d.stopCause = c.stopCause
    ∧ d.report = c.report.map (fun r => { r with taken := none })
    ∧ (c.isRunning = true → d.expected + 1800 < s.htb.secs → d.state = .expired)
    ∧ (c.isRunning = true → s.htb.secs ≤ d.expected + 1800 → d.state = c.state)
    ∧ (c.isRunning = false → d.state = c.state ∧ d.forecast = c.forecast)
    ∧ (d.isRunning = false ∨ c.stop = .none ∨ c.stop = .confirmed →
      d.stop = if c.stop = .sent then .wanted else c.stop)
    ∧ (d.isRunning = true → c.stop ≠ .none → c.stop ≠ .confirmed →
      (PastCutoff s d → d.stop = .late) ∧ (¬ PastCutoff s d → d.stop = .wanted))

/-- The PENDING table is in force (R143). -/
def TableActivated (s t : State) : Prop :=
  t.fqu.active = s.fqu.pendingTable ∧ t.fqu.pendingTable = none ∧ t.fqu.schedule = none
    ∧ t.fqu.activations = s.fqu.activations + 1#16

/-- The fare tables stand as they were. -/
def TablesKept (s t : State) : Prop :=
  t.fqu.active = s.fqu.active ∧ t.fqu.pendingTable = s.fqu.pendingTable
    ∧ t.fqu.schedule = s.fqu.schedule ∧ t.fqu.activations = s.fqu.activations

/-- A row has room in a table (R141). -/
def RowFits (t : FareTable) : FareRow → Prop
  | .dest r => (t.destinations.filter fun x => x.code ≠ r.code).length < 96
  | .type y => (t.types.filter fun x => x.id ≠ y.id).length < 8
  | _ => True

/-- A table `u` is a table `t` after a row (R141). -/
def RowApplied (t u : FareTable) : FareRow → Prop
  | .start => u = {}
  | .header unit dayKey => u = { t with unit := unit, dayKey := dayKey }
  | .dest r => u = { t with destinations := u.destinations }
      ∧ ∀ c, u.destination c = if c = r.code then some r else t.destination c
  | .destRemove code => u = { t with destinations := u.destinations }
      ∧ ∀ c, u.destination c = if c = code then none else t.destination c
  | .base band fare => u = { t with base := t.base.set band fare }
  | .type y => u = { t with types := u.types }
      ∧ ∀ n, u.typeOf n = if n = y.id then some y else t.typeOf n
  | .band slot b => u = { t with bands := t.bands.set slot (some b) }
  | .bandRemove slot => u = { t with bands := t.bands.set slot none }
  | .cls i c => u = { t with classes := t.classes.set i (some c) }
  | .clsRemove i => u = { t with classes := t.classes.set i none }

/-- What a CALL_ADD leaves of the call `c` that held its key, with the new fields `l` (R75). -/
def ReplacedCall (c d : Call) (l : Loaded) : Prop :=
  (l.sched = c.loaded.sched →
      d.report = c.report.map (fun r => { r with index := pointIndex l.points r.point })
        ∧ d.state = c.state ∧ (l.stopMode ≠ .request → d.stop = .none)
        ∧ (l.stopMode = .request → c.stop = .none ∨ c.stop = .confirmed → d.stop = c.stop))
    ∧ (l.sched ≠ c.loaded.sched →
      d.report = none ∧ d.forecast = 0 ∧ d.stop = .none
        ∧ d.state = if c.isRunning = true then .scheduled else c.state)

/-- The range of a numbered parameter that is one number (11.2). -/
def paramRange : Nat → Nat × Nat
  | 1 => (0, 100) | 2 => (60, 1800) | 4 => (1, 10) | 5 => (10, 120) | 6 => (1, 15) | 7 => (5, 60)
  | 8 => (0, 90) | 9 => (2, 4) | 10 => (10, 600) | 12 => (60, 3600) | 13 => (0, 500)
  | 14 => (0, 999999) | 15 => (5, 60) | 16 => (30, 600) | 17 => (1, 63) | 18 => (1, 8)
  | 21 => (0, 65535) | 23 => (0, 1) | 24 => (0, 1) | 25 => (4, 255) | 26 => (16, 1024) | 27 => (1, 15)
  | 28 => (1, 10) | _ => (0, 4294967295)

/-- What a LOAD CONFIG stores of a value, as QUERY CONFIG reports it (R175, R183). -/
def paramStored (ps : Params) (n v : Nat) : Nat :=
  match n with
  | 3 => max ps.ageOne (min 7200 v)
  | 11 => v % 262144
  | 19 => if v < 2 then 1 else if v < 4 then 2 else if v < 8 then 4 else 8
  | 20 => min 1439 (v / 65536) * 65536 + min 1439 (v % 65536)
  | 22 => v % 8
  | _ => max (paramRange n).1 (min (paramRange n).2 v)

/-- A screen with no mark. -/
def Unmarked (sc : Screen) : Prop :=
  sc.brightnessPending = false ∧ ∀ r ∈ sc.rows, r.pending = false

/-- The five conditions of R136, but for the warm-up timer. -/
def DarkConditions (s : State) : Prop :=
  (∀ n, (s.bdc.screen n).isSome → ∀ c ∈ s.shownCalls n, c.isRunning = true →
      s.htb.secs + 60 * s.params.darkLead < c.expected)
    ∧ (∀ m ∈ s.bdc.valid, m.priority < 2) ∧ s.bdc.activity = .expired ∧ s.tpi.ring = []
    ∧ s.htb.sync ≠ .unset

/-! ## Shared outcomes -/

/-- A port in OUTAGE as its entry leaves it (R29). -/
def InOutage (l m : Lsu) (cause : OutageCause) : Prop :=
  m.state = .outage ∧ m.cause = cause ∧ m.period = .stopped ∧ m.pause = .stopped
    ∧ m.silence = .stopped ∧ m.interval = .stopped ∧ m.fillDue = .stopped
    ∧ m.ca = 0 ∧ m.attempts = 0 ∧ m.bucketRun = 0 ∧ m.retry = .running 30000
    ∧ m.ctr.outages = tally l.ctr.outages

/-- How one error report weighs on a port in each port state (2.8). -/
def ErrorWeighed (s t : State) (p : Port) : Prop :=
  let l := (s.port p).lsu
  let m := (t.port p).lsu
  let k := s.params.port p
  match l.state with
  | .off | .outage => m = l
  | .hunt => m = l ∧ (t.port p).goodRun = 0
  | .proving =>
    match l.phase with
    | .pause => m.ca = l.ca ∧ m.ctr = l.ctr
    | .period =>
      (l.ca + 1 < k.align → m.ca = l.ca + 1 ∧ m.ctr = l.ctr)
        ∧ (k.align ≤ l.ca + 1 → m.ctr.provingFails = tally l.ctr.provingFails)
  | .service =>
    match k.mode with
    | .interval => m.intervalMark = true ∧ m.bucket = l.bucket
    | .frame => m.bucket = min k.limit (l.bucket + 1) ∧ (m.state = .service ↔ m.bucket < k.limit)

/-- One command's outcome on an errored candidate frame: the receiver's state after it, the one
counter, the report weighed, and nothing else of the port's buffers or of the other port (R3, R4). -/
def Errored (c : Instr) (s : State) (p : Port) (rx : RxState) (k : PortCounters) : Prop :=
  ∃ t, exec c s = .next t ∧ (t.port p).rx = rx ∧ (t.port p).ctr = k
    ∧ (t.port p).buffers = (s.port p).buffers ∧ ErrorWeighed s t p ∧ OnlyLink p s t

/-- How one good frame weighs on a port in each port state (R11, R13, R21, R25; 2.8). -/
def GoodWeighed (s t : State) (p : Port) : Prop :=
  let l := (s.port p).lsu
  let m := (t.port p).lsu
  let k := s.params.port p
  match l.state with
  | .off | .proving | .outage =>
    m.state = l.state ∧ m.bucket = l.bucket ∧ m.bucketRun = l.bucketRun ∧ m.ca = l.ca
  | .hunt =>
    ((s.port p).goodRun < 3 → m.state = .hunt ∧ (t.port p).goodRun = (s.port p).goodRun + 1
        ∧ ((s.port p).rateMode = .auto → (t.port p).dwell = .running 2000))
      ∧ (3 ≤ (s.port p).goodRun → m.state = .proving ∧ m.phase = .period
        ∧ m.period = .running (1000 * k.period) ∧ m.silence = .running 2000 ∧ m.ca = 0
        ∧ m.attempts = 0 ∧ (t.port p).dwell = .stopped ∧ (t.port p).goodRun = 0)
  | .service =>
    m.state = .service ∧
      match k.mode with
      | .interval => m.bucket = l.bucket ∧ m.bucketRun = l.bucketRun
      | .frame =>
        (l.bucketRun + 1 < k.credit → m.bucket = l.bucket ∧ m.bucketRun = l.bucketRun + 1)
          ∧ (k.credit ≤ l.bucketRun + 1 → m.bucket = l.bucket - 1 ∧ m.bucketRun = 0)

/-- What the content of a FILL leaves in the LSU (R32, 11.7). -/
def FillRecorded (s t : State) (p : Port) (payload : List Byte) : Prop :=
  let l := (s.port p).lsu
  let m := (t.port p).lsu
  let good := payload.length = 4 ∧ 1 ≤ field payload 0 1 ∧ field payload 0 1 ≤ 3
  (¬ good → m.peer = l.peer ∧ m.ctr = { l.ctr with fillForm := tally l.ctr.fillForm })
  ∧ (good → m.ctr = l.ctr
    ∧ ∀ st : PortState,
      (field payload 0 1, st) ∈ [(1, PortState.hunt), (2, .proving), (3, .service)] →
      m.peer = some ⟨st, BitVec.ofNat 8 (field payload 1 1), word payload 2, s.htb.uptime⟩
        ∧ (m.state = .proving → m.phase = .period → st ≠ .hunt → m.peerSeen = true)
        ∧ (l.state ≠ .hunt → st = .hunt ∨ l.state ≠ .proving ∨ l.phase = .pause →
          m.peerSeen = l.peerSeen))

/-- A frame from a port relayed by the steps of R41 from a state `v`, in a class (R51). -/
def Forwarded (v t : State) (p : Port) (f : RxFrame) (cls : TxClass) : Prop :=
  let other := v.port p.other
  let copy : Queued :=
    ⟨cls, ⟨f.kind, f.destination, f.origin, f.hop - 1#8, .octets f.payload⟩⟩
  (other.lsu.state = .off → t = v)
  ∧ (other.lsu.state ≠ .off → f.hop = 1#8 →
    t = v.modFruCtr p fun k => { k with hopEnd := tally k.hopEnd })
  ∧ (other.lsu.state ≠ .off → other.lsu.state ≠ .service → f.hop ≠ 1#8 →
    t = v.modFruCtr p.other fun k => { k with portDownDrop := tally k.portDownDrop })
  ∧ (other.lsu.state = .service → ¬ Room other cls → f.hop ≠ 1#8 →
    t = v.modFruCtr p.other fun k =>
      match cls with
      | .urgent => { k with dropUrgent := tally k.dropUrgent }
      | .relay => { k with dropRelay := tally k.dropRelay }
      | .own => { k with dropOwn := tally k.dropOwn })
  ∧ (Room other cls → f.hop ≠ 1#8 → ∃ js, AllJrnl js
    ∧ (t.port p.other).queue = other.queue ++ copy :: js ∧ (p = .up → js = [])
    ∧ t.port p = v.port p ∧ t = { v with up := t.up, down := t.down, sju := t.sju })

/-- A request is answered with a refusal, and nothing else has changed (R147, R158). -/
def RefusedWith (c : Instr) (s : State) (code : Byte) (result : Result) : Prop :=
  ∃ t, exec c s = .next t
    ∧ t.tpi.replies = s.tpi.replies ++ [⟨code, result, .empty⟩] ∧ OnlyTerminal s t

/-- The confidence of a running call (R96). -/
def confidenceBy (s : State) (c : Call) : Confidence :=
  match c.report with
  | none => .planned
  | some r =>
    match r.taken with
    | none => .lapsed
    | some u =>
      if s.htb.uptime - u ≤ s.params.ageOne then
        (if s.htb.sync = .holdover ∧ 30 < s.htb.uncertainty then .aged else .firm)
      else if s.htb.uptime - u ≤ s.params.ageTwo then .aged
      else .lapsed

/-- The display status and shown minute of a call of CURRENT, row by row (R99). -/
def DisplayedBy (late : Nat) (c : Call) : Prop :=
  let m := c.forecast / 60
  let m5 := (m + 4) / 5 * 5
  let runs := c.state = .scheduled ∨ c.state = .running
  let told := fun (n : Nat) =>
    (n < late → c.display = some .onTime ∧ c.shownMinute = none)
      ∧ (late ≤ n → c.display = some .expected ∧ c.shownMinute = some (c.loaded.sched / 60 + n))
  (c.state = .departed ∨ c.state = .expired → c.display = none ∧ c.shownMinute = none)
  ∧ (c.state = .cancelled → c.display = some .cancelled ∧ c.shownMinute = none)
  ∧ (runs → c.overdue = true → c.display = some .delayed ∧ c.shownMinute = none)
  ∧ (runs → c.overdue = false →
    (c.confidence = some .lapsed → c.display = some .noInfo ∧ c.shownMinute = none)
    ∧ (c.confidence = some .planned → c.display = some .onTime ∧ c.shownMinute = none)
    ∧ (c.confidence = some .firm → told m) ∧ (c.confidence = some .aged → told m5))

/-- The night window contains the clock minute of s (R65, R135). -/
def Night (s : State) : Prop :=
  s.htb.sync ≠ .unset ∧ s.params.night.contains (clockMinute s.htb.hour s.htb.secs) = true

/-- A port restarted or enabled: the LSU's items as an entry into HUNT leaves them (R20). -/
def InHunt (l m : Lsu) : Prop :=
  m = { l with
    state := .hunt, phase := .period, period := .stopped, pause := .stopped
    interval := .stopped, silence := .stopped, retry := .stopped, fillDue := .expired
    ca := 0, attempts := 0, bucketRun := 0, peerSeen := false, intervalMark := false }

/-! ## What the frames of the centre do -/

/-- A LOAD CALL_ADD: the tests of R74 in order, then the record in its bank (R73 to R75, R79). -/
def CallAddActs (s : State) (rest : List RxFrame) (pins : StrapPins) (bs : List Byte) : Prop :=
  let c : Instr := .frameClassify .up pins
  let u := freed s rest
  let tts := fun (k : TtsCounters) => exec c s = .next { u with tts := { s.tts with ctr := k } }
  (callAddOfPayload bs = none → tts { s.tts.ctr with form := tally s.tts.ctr.form })
  ∧ ∀ (b : Bank) (l : Loaded), callAddOfPayload bs = some (b, l) →
    let loadable := (b = .current ∧ s.tts.currentState = .active)
      ∨ (b = .next ∧ s.tts.nextState ≠ .empty)
    let date := s.tts.date b
    let bank := s.tts.bank b
    let absent := ∀ x ∈ bank, x.key ≠ l.key
    (¬ loadable → tts { s.tts.ctr with state := tally s.tts.ctr.state })
    ∧ (loadable → l.runDate ≠ date → tts { s.tts.ctr with date := tally s.tts.ctr.date })
    ∧ (loadable → l.runDate = date → absent → 160 ≤ bank.length →
      tts { s.tts.ctr with full := tally s.tts.ctr.full })
    ∧ (loadable → l.runDate = date → ¬ absent ∨ bank.length < 160 → BankOrdered bank →
      ∃ t d, exec c s = .next t ∧ d.loaded = l
        ∧ (absent → d.state = .scheduled ∧ d.report = none ∧ d.forecast = 0 ∧ d.stop = .none)
        ∧ (∀ x ∈ bank, x.key = l.key → ReplacedCall x d l)
        ∧ (b = .next → t = { u with tts := { s.tts with next := t.tts.next } }
          ∧ ∀ x, x ∈ t.tts.next ↔ x = d ∨ (x ∈ s.tts.next ∧ x.key ≠ l.key))
        ∧ (b = .current → OnlyTrade u t ∧ t.call l.key = some d
          ∧ t.tts = { s.tts with
              current := t.tts.current, generation := s.tts.generation + 1#16 }
          ∧ (∀ x, x ∈ t.tts.current.map (·.loaded) ↔
            x = l ∨ (x ∈ s.tts.current.map (·.loaded) ∧ x.key ≠ l.key))
          ∧ (¬ absent → QuotesWithdrawn s t l.key)))

/-- A LOAD CALL_DELETE (R76). -/
def CallDeleteActs (s : State) (rest : List RxFrame) (pins : StrapPins) (bs : List Byte) : Prop :=
  let c : Instr := .frameClassify .up pins
  let u := freed s rest
  let tts := fun (k : TtsCounters) => exec c s = .next { u with tts := { s.tts with ctr := k } }
  (callDeleteOfPayload bs = none → tts { s.tts.ctr with form := tally s.tts.ctr.form })
  ∧ ∀ (b : Bank) (k : Key), callDeleteOfPayload bs = some (b, k) →
    let bank := s.tts.bank b
    ((∀ x ∈ bank, x.key ≠ k) → tts { s.tts.ctr with noKey := tally s.tts.ctr.noKey })
    ∧ ((∃ x ∈ bank, x.key = k) → ∃ t, exec c s = .next t
      ∧ (b = .next → t = { u with tts := { s.tts with
          next := s.tts.next.filter fun x => x.key ≠ k } })
      ∧ (b = .current → OnlyTrade u t ∧ QuotesWithdrawn s t k
        ∧ t.tts = { s.tts with
            current := s.tts.current.filter fun x => x.key ≠ k
            generation := s.tts.generation + 1#16 }))

/-- A LOAD BANK_OPEN (R77). -/
def BankOpenActs (s : State) (rest : List RxFrame) (pins : StrapPins) (bs : List Byte) : Prop :=
  let c : Instr := .frameClassify .up pins
  let u := freed s rest
  let tts := fun (k : TtsCounters) => exec c s = .next { u with tts := { s.tts with ctr := k } }
  (bankOpenOfPayload bs = none → tts { s.tts.ctr with form := tally s.tts.ctr.form })
  ∧ ∀ (b : Bank) (d : Date), bankOpenOfPayload bs = some (b, d) →
    (b = .current → tts { s.tts.ctr with state := tally s.tts.ctr.state })
    ∧ (b = .next → exec c s = .next { u with tts := { s.tts with
        next := [], nextDate := d, nextState := .loading } })

/-- A LOAD BANK_CLOSE, with its REPLY (R78). -/
def BankCloseActs (s : State) (rest : List RxFrame) (pins : StrapPins) (bs : List Byte) : Prop :=
  let c : Instr := .frameClassify .up pins
  let u := freed s rest
  let tts := fun (k : TtsCounters) => exec c s = .next { u with tts := { s.tts with ctr := k } }
  (bankCloseOfPayload bs = none → tts { s.tts.ctr with form := tally s.tts.ctr.form })
  ∧ (∀ n : Nat, bankCloseOfPayload bs = some (.next, n) →
    let agrees := n = s.tts.next.length
    ∃ t st result, exec c s = .next t
      ∧ (s.tts.nextState = .loading → agrees → st = NextState.ready)
      ∧ (s.tts.nextState ≠ .loading ∨ ¬ agrees → st = s.tts.nextState)
      ∧ (st = .ready → agrees → result = Result.ready)
      ∧ (st ≠ .ready ∨ ¬ agrees → result = .mismatch)
      ∧ Replied { u with tts := { s.tts with nextState := st } } t
          ⟨0#8, .bankClose, result, .bankClose s.tts.next.length st s.tts.nextDate⟩)
  ∧ ∀ n : Nat, bankCloseOfPayload bs = some (.current, n) → ∃ t result, exec c s = .next t
    ∧ (s.tts.nextState = .ready → n = s.tts.next.length → result = Result.ready)
    ∧ (s.tts.nextState ≠ .ready ∨ n ≠ s.tts.next.length → result = .mismatch)
    ∧ Replied { u with tts := { s.tts with
          ctr := { s.tts.ctr with state := tally s.tts.ctr.state } } } t
        ⟨0#8, .bankClose, result, .bankClose s.tts.next.length s.tts.nextState s.tts.nextDate⟩

/-- A LOAD FARE (R141). -/
def FareActs (s : State) (rest : List RxFrame) (pins : StrapPins) (bs : List Byte) : Prop :=
  let c : Instr := .frameClassify .up pins
  let u := freed s rest
  let fqu := fun (k : FquCounters) => exec c s = .next { u with fqu := { s.fqu with ctr := k } }
  let table := s.fqu.pendingTable.getD {}
  (FareRow.ofPayload bs = none → fqu { s.fqu.ctr with form := tally s.fqu.ctr.form })
  ∧ ∀ row, FareRow.ofPayload bs = some row →
    (¬ RowFits table row → fqu { s.fqu.ctr with full := tally s.fqu.ctr.full })
    ∧ (RowFits table row → ∃ v, RowApplied table v row
      ∧ exec c s = .next { u with fqu := { s.fqu with pendingTable := some v } })

/-- A LOAD FARE_ACTIVATE (R142, R143). -/
def FareActivateActs (s : State) (rest : List RxFrame) (pins : StrapPins) (bs : List Byte) : Prop :=
  let c : Instr := .frameClassify .up pins
  let u := freed s rest
  let fqu := fun (k : FquCounters) => exec c s = .next { u with fqu := { s.fqu with ctr := k } }
  (fareActivateOfPayload bs = none → fqu { s.fqu.ctr with form := tally s.fqu.ctr.form })
  ∧ ∀ at? : Option Instant, fareActivateOfPayload bs = some at? →
    let due := ∀ i, at? = some i →
      s.htb.sync ≠ .unset ∧ s.htb.target i.date i.secs ≤ s.htb.held
    (s.fqu.pendingTable = none → fqu { s.fqu.ctr with noPend := tally s.fqu.ctr.noPend })
    ∧ (s.fqu.pendingTable ≠ none → due → ∃ t, exec c s = .next t
      ∧ TableActivated s t ∧ AllWithdrawn s t ∧ t.tts = s.tts ∧ OnlyTrade u t)
    ∧ (s.fqu.pendingTable ≠ none → ¬ due →
      exec c s = .next { u with fqu := { s.fqu with schedule := at? } })

/-- A LOAD MESSAGE (R130, R132). -/
def MessageActs (s : State) (rest : List RxFrame) (pins : StrapPins) (bs : List Byte) : Prop :=
  let c : Instr := .frameClassify .up pins
  let u := freed s rest
  (messageOfPayload bs = none → exec c s = .next { u with bdc := { s.bdc with
    ctr := { s.bdc.ctr with form := tally s.bdc.ctr.form } } })
  ∧ ∀ m : Message, messageOfPayload bs = some m →
    let absent := ∀ (j : Fin 8) (x : Message), s.bdc.messages[j] = some x → x.id ≠ m.id
    (∀ i : Fin 8,
      ((∃ x, s.bdc.messages[i] = some x ∧ x.id = m.id)
          ∧ (∀ j : Fin 8, j < i → ∀ x, s.bdc.messages[j] = some x → x.id ≠ m.id)
        ∨ absent ∧ s.bdc.messages[i] = none
          ∧ ∀ j : Fin 8, j < i → s.bdc.messages[j] ≠ none) →
      ∃ t, exec c s = .next t ∧ t.bdc.messages = s.bdc.messages.set i (some m)
        ∧ t.bdc.valid = (t.bdc.messages.toList.filterMap id).filter s.messageValid
        ∧ OnlyTrade u t)
    ∧ (absent → (∀ j : Fin 8, s.bdc.messages[j] ≠ none) → ∃ t, exec c s = .next t
      ∧ t.bdc.messages = s.bdc.messages ∧ t.bdc.ctr.full = tally s.bdc.ctr.full
      ∧ OnlyTrade u t)

/-- A LOAD MESSAGE_DELETE (R131, R132). -/
def MessageDeleteActs (s : State) (rest : List RxFrame) (pins : StrapPins) (bs : List Byte) : Prop :=
  let c : Instr := .frameClassify .up pins
  let u := freed s rest
  (messageDeleteOfPayload bs = none → exec c s = .next { u with bdc := { s.bdc with
    ctr := { s.bdc.ctr with form := tally s.bdc.ctr.form } } })
  ∧ ∀ n : Byte, messageDeleteOfPayload bs = some n →
    ((∀ (j : Fin 8) (x : Message), s.bdc.messages[j] = some x → x.id ≠ n) →
      exec c s = .next { u with bdc := { s.bdc with
        ctr := { s.bdc.ctr with noId := tally s.bdc.ctr.noId } } })
    ∧ ∀ (i : Fin 8) (x : Message), s.bdc.messages[i] = some x → x.id = n →
      (∀ j : Fin 8, j < i → ∀ y, s.bdc.messages[j] = some y → y.id ≠ n) →
      ∃ t, exec c s = .next t ∧ t.bdc.messages = s.bdc.messages.set i none
        ∧ t.bdc.valid = (t.bdc.messages.toList.filterMap id).filter s.messageValid
        ∧ OnlyTrade u t

/-- A LOAD CONFIG, read back as QUERY CONFIG reads it (R175). -/
def ConfigActs (s : State) (rest : List RxFrame) (pins : StrapPins) (bs : List Byte) : Prop :=
  let c : Instr := .frameClassify .up pins
  let u := freed s rest
  (ConfigLoad.ofPayload bs = none → exec c s = .next { u with
    mgu := { s.mgu with configForm := tally s.mgu.configForm } })
  ∧ ∀ l : ConfigLoad, ConfigLoad.ofPayload bs = some l → ∃ t, exec c s = .next t
    ∧ t = { u with
        params := t.params, up := t.up, down := t.down, htb := t.htb, tts := t.tts, sru := t.sru
        bdc := t.bdc, fqu := t.fqu, sju := t.sju, tpi := t.tpi }
    ∧ (l.number ≤ 22 → t.down = s.down
      ∧ t.params.value l.number = paramStored s.params l.number l.value
      ∧ (∀ m, m ≠ l.number → (l.number = 2 → m ≠ 3) →
        t.params.value m = s.params.value m)
      ∧ (l.number = 2 → t.params.ageTwo = max t.params.ageOne s.params.ageTwo)
      ∧ t.params.up = s.params.up ∧ t.params.down = s.params.down)
    ∧ (∀ p, 22 < l.number → l.port = some p →
      (t.params.port p).value l.number = paramStored s.params l.number l.value
      ∧ (∀ m, m ≠ l.number → (t.params.port p).value m = (s.params.port p).value m)
      ∧ t.params.port p.other = s.params.port p.other
      ∧ ∀ m, t.params.value m = s.params.value m)

/-- What a value that a LOAD CONFIG of number 1..22 stores does to what depends on it (R62, R67, R102,
R120, R122, R135, R138, R149, R151). -/
def ConfigEffects (s : State) (rest : List RxFrame) (pins : StrapPins) (bs : List Byte) : Prop :=
  let c : Instr := .frameClassify .up pins
  let u := freed s rest
  ∀ l : ConfigLoad, ConfigLoad.ofPayload bs = some l → ∃ t, exec c s = .next t
    ∧ (l.number ∈ [9, 10, 11, 12, 13, 14, 15, 17, 21] → t = { u with params := t.params })
    ∧ (l.number = 1 → BankOrdered s.tts.current → List.Forall₂ (fun x y =>
        y.loaded = x.loaded ∧ y.state = x.state ∧ y.report = x.report
          ∧ (x.isRunning = false ∨ x.report = none → y.forecast = x.forecast)
          ∧ ∀ r, x.isRunning = true → x.report = some r →
            y.forecast = delayAfter t.params.phi r.delay
              (remainingAllowance x.loaded.points r.index)) s.tts.current t.tts.current)
    ∧ (l.number = 2 ∨ l.number = 3 → BankOrdered s.tts.current → List.Forall₂ (fun x y =>
        y.loaded = x.loaded ∧ y.state = x.state ∧ y.forecast = x.forecast
          ∧ (x.isRunning = true → y.confidence = some (confidenceBy t y)))
        s.tts.current t.tts.current)
    ∧ (l.number = 4 → BankOrdered s.tts.current → List.Forall₂ (fun x y =>
        y.loaded = x.loaded ∧ y.state = x.state ∧ y.forecast = x.forecast
          ∧ y.confidence = x.confidence ∧ DisplayedBy t.params.late y)
        s.tts.current t.tts.current)
    ∧ (l.number = 5 ∨ l.number = 6 → BankOrdered s.tts.current →
      (∀ y ∈ t.tts.current, y.isRunning = true →
        (y.stop = .wanted ∨ y.stop = .sent → ¬ PastCutoff t y)
          ∧ (y.stop = .late → PastCutoff t y))
      ∧ ∀ p, (t.sru.io p).lamp = t.lampOf p)
    ∧ (l.number = 6 → ∀ (i : Fin 4) (q : Quote) (k : Key) (x : Call),
      t.fqu.slots[i] = .opened q → q.call = some k → t.call k = some x → ¬ PastCutoff t x)
    ∧ (l.number = 7 → s.bdc.warmUp.isRunning = false →
      (s.bdc.energy ≠ .dark → (t.bdc.energy = .dark ↔ DarkConditions t))
      ∧ (s.bdc.energy = .dark → DarkConditions t → t.bdc.energy = .dark)
      ∧ (s.bdc.energy = .dark →
        (∃ n, (s.bdc.screen n).isSome ∧ ∃ x ∈ s.shownCalls n, x.isRunning = true
          ∧ x.expected ≤ s.htb.secs + 60 * t.params.darkLead) →
        t.bdc.energy ≠ .dark ∧ t.bdc.wakeCause = .dueTrain ∧ t.bdc.supply = true
          ∧ t.bdc.warmUp = .running 2000))
    ∧ (l.number = 8 →
      let past := s.htb.deferral = true ∧ 86400 + 60 * t.params.deferLimit ≤ s.htb.secs
      (¬ past → t = { u with params := t.params })
      ∧ (past → s.params.hour = s.htb.hour →
        t.htb = { s.htb with
            date := s.htb.date + BitVec.ofNat 16 (s.htb.secs / 86400)
            secs := s.htb.secs % 86400, stand := 0, deferral := false
            ctr := { s.htb.ctr with deferLimit := tally s.htb.ctr.deferLimit } }
          ∧ BanksSwitched s t (s.htb.date + BitVec.ofNat 16 (s.htb.secs / 86400))))
    ∧ (l.number = 16 → ∀ (i : Fin 4) (q : Quote), s.fqu.slots[i] = .opened q →
      (q.created + t.params.quoteExpiry ≤ s.htb.uptime → t.fqu.slots[i] = .free)
        ∧ (s.htb.uptime < q.created + t.params.quoteExpiry → t.fqu.slots[i] = .opened q))
    ∧ (l.number = 18 ∨ l.number = 19 ∨ l.number = 20 →
      (s.bdc.energy = .dark → t.bdc = s.bdc)
      ∧ (s.bdc.energy ≠ .dark →
        (s.lowEnergy = true ∨ Night t → t.bdc.energy = .dim
          ∧ t.bdc.brightness = max 1 (t.params.brightness / t.params.dimDivisor))
        ∧ (s.lowEnergy = false → ¬ Night t → t.bdc.energy = .lit
          ∧ t.bdc.brightness = t.params.brightness)
        ∧ (t.bdc.brightness ≠ s.bdc.brightness → ∀ (n : ScreenNo) (sc : Screen),
          t.bdc.screen n = some sc → sc.brightnessPending = true
            ∨ t.bdc.link = some (.brightness n t.bdc.brightness))))
    ∧ (l.number = 22 → ∀ n : ScreenNo,
      ((t.bdc.screen n).isSome = t.params.screens.getLsbD n.bit)
      ∧ ∀ sc, t.bdc.screen n = some sc → s.bdc.screen n = none →
        sc.rows.map (·.image) = t.rowsOf n
          ∧ (s.bdc.link.isSome → t.bdc.energy ≠ .dark →
            sc.brightnessPending = true ∧ ∀ r ∈ sc.rows, r.pending = true))

/-- What a value that a LOAD CONFIG of number 23..28 stores does to its port (R19, R20, R27). -/
def PortConfigEffects (s : State) (rest : List RxFrame) (pins : StrapPins) (bs : List Byte) : Prop :=
  let c : Instr := .frameClassify .up pins
  let u := freed s rest
  ∀ (l : ConfigLoad) (p : Port), ConfigLoad.ofPayload bs = some l → 22 < l.number →
    l.port = some p → ∃ t, exec c s = .next t ∧
    let a := (s.port p).lsu
    let b := (t.port p).lsu
    let k := t.params.port p
    let stored := t = { u with params := t.params }
    (l.number = 28 → stored)
    ∧ (l.number = 23 → k.enabled = false →
      (a.state = .off → stored)
      ∧ (a.state ≠ .off → (t.port p).rx = .off ∧ (t.port p).buffers = []
        ∧ b = { a with
            state := .off, period := .stopped, pause := .stopped, interval := .stopped
            silence := .stopped, retry := .stopped, fillDue := .stopped
            ca := 0, attempts := 0, bucketRun := 0, peer := none }
        ∧ (a.state = .service → (t.port p).queue = [])))
    ∧ (l.number = 23 → k.enabled = true →
      (a.state ≠ .off → stored)
      ∧ (a.state = .off → InHunt a b ∧ (t.port p).rx = .seek ∧ (t.port p).goodRun = 0
        ∧ ((s.port p).rateMode = .auto →
          (t.port p).rxRate = .r19200 ∧ (t.port p).dwell = .running 2000)))
    ∧ (l.number = 24 →
      (a.state ≠ .service ∨ k.mode = (s.params.port p).mode → stored)
      ∧ (a.state = .service → k.mode ≠ (s.params.port p).mode →
        t = State.setPort { u with params := t.params } p { u.port p with lsu := { a with
          bucketRun := 0, intervalMark := false
          interval := if k.mode = .interval then .running 100 else .stopped } }))
    ∧ (l.number = 25 →
      (a.bucket < k.limit → stored)
      ∧ (k.limit ≤ a.bucket → a.state ≠ .service →
        t = State.setPort { u with params := t.params } p
          { u.port p with lsu := { a with bucket := k.limit } })
      ∧ (k.limit ≤ a.bucket → a.state = .service →
        InOutage a b .errorRate ∧ b.bucket = k.limit))
    ∧ (l.number = 26 →
      let due := a.state = .service ∧ k.mode = .frame ∧ k.credit ≤ a.bucketRun
      (¬ due → stored)
      ∧ (due → t = State.setPort { u with params := t.params } p
          { u.port p with lsu := { a with bucket := a.bucket - 1, bucketRun := 0 } }))
    ∧ (l.number = 27 →
      let fails := a.state = .proving ∧ a.phase = .period ∧ k.align ≤ a.ca
      (¬ fails → stored)
      ∧ (fails → b.ctr.provingFails = tally a.ctr.provingFails
        ∧ (a.attempts + 1 < 5 → b.state = .proving ∧ b.phase = .pause
          ∧ b.attempts = a.attempts + 1 ∧ b.pause = .running 1000 ∧ b.period = .stopped)
        ∧ (5 ≤ a.attempts + 1 → InOutage a b .provingFailed)))

/-- A LOAD WINDOW (R39, R40). -/
def WindowActs (s : State) (rest : List RxFrame) (pins : StrapPins) (bs : List Byte) : Prop :=
  let c : Instr := .frameClassify .up pins
  let u := freed s rest
  let refused := exec c s = .next { u with
    fru := { s.fru with refused := tally s.fru.refused } }
  (WindowLoad.ofPayload bs = none → refused)
  ∧ ∀ l : WindowLoad, WindowLoad.ofPayload bs = some l →
    let fits := l.size ∈ [4, 8, 16, 32, 64, 128, 256, 512, 1024] ∧ l.base % l.size = 0
      ∧ ∀ (j : Fin 4) (w : GroupWindow), j ≠ l.number → s.fru.windows[j] = some w →
        l.base + l.size ≤ w.base ∨ w.base + w.size ≤ l.base
    (l.size = 0 → exec c s = .next { u with
      fru := { s.fru with windows := s.fru.windows.set l.number none } })
    ∧ (l.size ≠ 0 → fits → exec c s = .next { u with fru := { s.fru with
      windows := s.fru.windows.set l.number (some ⟨l.base, l.size⟩) } })
    ∧ (l.size ≠ 0 → ¬ fits → refused)

/-- A CTRL but for WARM_RESET, FORCE_DAY_SWITCH and PORT_RESTART (R90, R131, R154, R177). -/
def CtrlActs (s : State) (rest : List RxFrame) (pins : StrapPins) (bs : List Byte) (x : Byte) : Prop :=
  let c : Instr := .frameClassify .up pins
  let u := freed s rest
  (Command.ofPayload bs = none →
    exec c s = .next { u with mgu := { s.mgu with ctrlForm := tally s.mgu.ctrlForm } })
  ∧ (bs = [5#8, x] →
    (s.salesClosed = true → exec c s = .next u)
    ∧ (s.salesClosed = false → ∃ t, exec c s = .next t ∧ t.salesClosed = true
      ∧ t.sju = { s.sju with salesMode := .closed, quotesHeld := t.sju.quotesHeld }
      ∧ (s.sju.salesMode ≠ .closed → AllWithdrawn s t)
      ∧ OnlyTrade { u with salesClosed := true } t))
  ∧ (bs = [6#8, x] →
    (s.salesClosed = false → exec c s = .next u)
    ∧ (s.salesClosed = true → ∃ t, exec c s = .next t ∧ t.salesClosed = false
      ∧ t.sju.salesMode = t.salesModeOf ∧ t.sju.journal = s.sju.journal
      ∧ OnlyTrade { u with salesClosed := false } t))
  ∧ (bs = [3#8, x] → exec c s = .next { u with sju := { s.sju with journalLost := false } })
  ∧ (bs = [2#8, x] → ∃ t, exec c s = .next t
    ∧ t.tts = { s.tts with
        current := [], currentState := .empty, next := [], nextState := .empty
        generation := s.tts.generation + 1#16 }
    ∧ t.fqu.active = none ∧ t.fqu.pendingTable = none ∧ t.fqu.schedule = none
    ∧ t.fqu.activations = s.fqu.activations ∧ AllWithdrawn s t
    ∧ (∀ i : Fin 8, t.bdc.messages[i] = none) ∧ t.bdc.valid = []
    ∧ t.sju = { s.sju with salesMode := .closed, quotesHeld := t.sju.quotesHeld }
    ∧ OnlyTrade u t)

/-- CTRL PORT_RESTART of a port (R17, R34). -/
def RestartActs (s : State) (rest : List RxFrame) (pins : StrapPins) (p : Port) : Prop :=
  let c : Instr := .frameClassify .up pins
  let u := freed s rest
  ((s.port p).lsu.state = .off → exec c s = .next u)
  ∧ ((s.port p).lsu.state ≠ .off → ∃ t, exec c s = .next t
    ∧ (t.port p).buffers = [] ∧ (t.port p).rx = .seek ∧ (t.port p).octetCount = 0
    ∧ (t.port p).ctr = (s.port p).ctr
    ∧ (t.port p).lsu = { (s.port p).lsu with
        state := .hunt, phase := .period, period := .stopped, pause := .stopped
        interval := .stopped, silence := .stopped, retry := .stopped, fillDue := .expired
        ca := 0, attempts := 0, bucketRun := 0, peerSeen := false, intervalMark := false }
    ∧ ((s.port p).lsu.state = .service → (t.port p).queue = []
      ∧ (t.port p).fruCtr.flushed
          = satAdd (s.port p).fruCtr.flushed (s.port p).queue.length)
    ∧ t = { u with
        up := t.up, down := t.down, tts := t.tts, sru := t.sru, bdc := t.bdc, fqu := t.fqu
        sju := t.sju, tpi := t.tpi })

/-- A QUERY with the REPLY it is answered with (R176). -/
def QueryActs (s : State) (rest : List RxFrame) (pins : StrapPins) (bs : List Byte) : Prop :=
  let c : Instr := .frameClassify .up pins
  let u := freed s rest
  (Query.ofPayload bs = none →
    exec c s = .next { u with mgu := { s.mgu with queryForm := tally s.mgu.queryForm } })
  ∧ (∀ n k, Query.ofPayload bs = some ⟨n, k, none⟩ →
    ∃ t, exec c s = .next t ∧ Replied u t ⟨n, k, .badMessage, .empty⟩)
  ∧ ∀ n k r, Query.ofPayload bs = some ⟨n, k, some r⟩ → ∃ t, exec c s = .next t
    ∧ (∀ b key, r = .call b key →
      let bank := s.tts.bank b
      ((∀ x ∈ bank, x.key ≠ key) → Replied u t ⟨n, .call, .notFound, .empty⟩)
      ∧ ∀ before after x, bank = before ++ x :: after → x.key = key →
        (∀ y ∈ before, y.key ≠ key) → Replied u t ⟨n, .call, .found, .call x x.expected⟩)
    ∧ (r = .bank → Replied u t ⟨n, .bank, .ok, .bank {
        currentState := s.tts.currentState, currentDate := s.tts.currentDate
        currentCount := s.tts.current.length, nextState := s.tts.nextState
        nextDate := s.tts.nextDate, nextCount := s.tts.next.length
        generation := s.tts.generation }⟩)
    ∧ (∀ m p, r = .config m p →
      (m ≤ 22 → Replied u t ⟨n, .config, .ok, .value (s.params.value m)⟩)
      ∧ (∀ q, 22 < m → m ≤ 28 → p = some q →
        Replied u t ⟨n, .config, .ok, .value ((s.params.port q).value m)⟩)
      ∧ ∀ i : Fin 4, m = 40 + i.val →
        Replied u t ⟨n, .config, .ok, .window s.fru.windows[i]⟩)
    ∧ (∀ d type cls time quantity, r = .price d type cls time quantity →
      Replied u t ⟨n, .price, (s.priceAnswer d type cls time quantity).1,
        (s.priceAnswer d type cls time quantity).2⟩)
    ∧ (r = .status → Replied u t ⟨n, .status, .ok, .status {
        beacon := s.beaconFields, upPeer := s.up.lsu.peer, downPeer := s.down.lsu.peer
        configuredHour := s.params.hour, hourInForce := s.htb.hour
        activePresent := s.fqu.active.isSome, pendingPresent := s.fqu.pendingTable.isSome
        activations := s.fqu.activations
        messageIds := (s.bdc.messages.toList.filterMap id).map (·.id)
        salesClosed := s.salesClosed, uptime := s.htb.uptime, date := s.htb.date
        secs := s.htb.secs, sinceSync := s.htb.sinceSync }⟩)
    ∧ ∀ g clear, r = .counters g clear →
      (clear = false → Replied u t ⟨n, .counters, .ok, .counters (s.counterGroup g)⟩)
      ∧ (clear = true → Room s.up .own → s.up.queue.length < 24 →
        (∃ js, AllJrnl js ∧ t.up.queue = s.up.queue
          ++ ownQueued s .own 12#8 65535#16
            (.reply ⟨n, .counters, .ok, .counters (s.counterGroup g)⟩) :: js)
        ∧ (∀ v ∈ t.counterGroup g, v = 0)
        ∧ ∀ h, h ≠ g → t.counterGroup h = s.counterGroup h)

/-- The journal with a REVERSAL for an approval behind its records (R163). -/
def withReversal (s : State) (r : AuthResult) (total : Nat) : List JournalRecord :=
  s.sju.journal ++ [⟨s.sju.writeSeq,
    .reversal s.htb.date s.htb.secs r.tag total r.authCode⟩]

/-- An AUTHRES for the pending authorisation (R163). -/
def PendingAnswered (s : State) (rest : List RxFrame) (pins : StrapPins) (r : AuthResult) : Prop :=
  let c : Instr := .frameClassify .up pins
  let u := freed s rest
  ∀ (a : PendingAuth) (q : Quote) (w : Bool), s.sju.pendingAuth = some a → a.tag = r.tag →
    s.fqu.slots[a.slot] = .pendingAuth q w →
    ∃ t, exec c s = .next t ∧ t.sju.pendingAuth = none ∧ t.sju.authsPending = 0
      ∧ t.fqu.slots[a.slot] = .free ∧ OnlyTrade u t
      ∧ (r.approved = true → w = false → s.htb.sync ≠ .unset → s.sju.occupancy ≤ 503 →
        (∃ x, t.sju.journal = s.sju.journal ++ [⟨s.sju.writeSeq, .sale x⟩]
          ∧ x.ticket = s.sju.ticketCounter ∧ x.payment = .cardOnline
          ∧ x.authCode = some r.authCode ∧ x.total = q.total ∧ x.destination = q.destination
          ∧ x.date = s.htb.date ∧ x.secs = s.htb.secs)
        ∧ t.sju.ticketCounter = s.sju.ticketCounter + 1#32
        ∧ t.sju.totals = { s.sju.totals with cardOnline :=
            ⟨tally s.sju.totals.cardOnline.count,
              satAdd s.sju.totals.cardOnline.amount q.total⟩ }
        ∧ (s.tpi.ring.length ≤ 20 →
          .issueDone a.slot .ok (some s.sju.ticketCounter) ∈ t.tpi.ring))
      ∧ (r.approved = true → w = true → s.htb.sync ≠ .unset → s.sju.occupancy < 512 →
        t.sju.journal = withReversal s r a.total
          ∧ (s.tpi.ring.length ≤ 20 →
            .issueDone a.slot .quoteWithdrawn none ∈ t.tpi.ring))
      ∧ (r.approved = true → w = true → s.htb.sync ≠ .unset → 512 ≤ s.sju.occupancy →
        t.sju.journal = s.sju.journal
          ∧ t.sju.ctr.reversalLost = tally s.sju.ctr.reversalLost)
      ∧ (r.approved = false → t.sju.journal = s.sju.journal
        ∧ t.sju.ticketCounter = s.sju.ticketCounter ∧ t.up = u.up ∧ t.tts = s.tts
        ∧ (s.tpi.ring.length < 32 → t.tpi.ring = s.tpi.ring
          ++ [.issueDone a.slot (if w = true then .quoteWithdrawn else .declined) none]))

/-- An AUTHRES for no pending authorisation (R163, R164). -/
def OtherAnswered (s : State) (rest : List RxFrame) (pins : StrapPins) (r : AuthResult) : Prop :=
  let c : Instr := .frameClassify .up pins
  let u := freed s rest
  (∀ a, s.sju.pendingAuth = some a → a.tag ≠ r.tag) →
    (∀ (before after : List LateTag) (x : LateTag),
      s.sju.lateTags = before ++ x :: after → x.tag = r.tag →
      (∀ y ∈ before ++ after, y.tag ≠ r.tag) →
      (r.approved = false → exec c s = .next { u with sju := { s.sju with
        lateTags := before ++ after
        ctr := { s.sju.ctr with authLate := tally s.sju.ctr.authLate } } })
      ∧ (r.approved = true → s.htb.sync ≠ .unset → ∃ t, exec c s = .next t
        ∧ t.sju.lateTags = before ++ after ∧ OnlyTrade u t
        ∧ (s.sju.occupancy < 512 → t.sju.journal = withReversal s r x.total)
        ∧ (512 ≤ s.sju.occupancy → t.sju.journal = s.sju.journal
          ∧ t.sju.ctr.reversalLost = tally s.sju.ctr.reversalLost)))
    ∧ ((∀ y ∈ s.sju.lateTags, y.tag ≠ r.tag) →
      exec c s = .next { u with sju := { s.sju with
        ctr := { s.sju.ctr with authUnknown := tally s.sju.ctr.authUnknown } } })

end Sys2Proof.Safety
end

