-- ==== Sys2Proof/WellFormed.lean ====
section
/-! DEFINITION. Which commands the surroundings can give: what the operands' types alone do not say.
`exec` gives every command a meaning, well-formed or not. -/

namespace Sys2Proof

/-- Whether six ones in a row stand among the bits, `n` ones having gone before. Between two flags
they never do: six ones make a flag and seven an abort (R1). -/
def sixOnes (n : Nat) : List Bool → Bool
  | [] => false
  | true :: bs => n + 1 == 6 || sixOnes (n + 1) bs
  | false :: bs => sixOnes 0 bs

/-- A command the surroundings can give. -/
def Instr.wellFormed : Instr → Bool
  | .frameClosed _ bits => !bits.isEmpty && !sixOnes 0 bits
  | .abort _ bits => !sixOnes 0 bits
  | .issue r => r.token.length == 16
  | .badMessage code form =>
    match form with
    | .unknownCode => code == 0 || decide (9 < code.toNat)
    | .bodyLength => code != 0 && decide (code.toNat ≤ 9)
    | .lengthAbove120 | .checkFails => true
  | .powerUp .. | .mainPowerLoss | .flagReceived .. | .longFrame .. | .octetGroup ..
  | .dwellExpiry .. | .txFrameEnd .. | .txFlagEnd .. | .fillDueExpiry .. | .periodExpiry ..
  | .pauseExpiry .. | .intervalExpiry .. | .silenceExpiry .. | .retryExpiry ..
  | .frameClassify .. | .beaconTimerExpiry | .serviceSecond | .uptimeSecond | .minuteTick
  | .buttonPress .. | .buttonRelease .. | .noTargetExpiry .. | .resendExpiry ..
  | .contactPulse .. | .contactLockoutExpiry .. | .screenMessageSent | .lowEnergyChange ..
  | .activityExpiry | .warmUpExpiry | .quote .. | .cancelQuote .. | .quoteExpiry .. | .find ..
  | .authTimerExpiry | .ticket .. | .printed .. | .void .. | .ticketLimitExpiry ..
  | .ackTimerExpiry | .notices .. | .status | .tpGap | .terminalReplySent | .idleLine ..
  | .candidateFrameBegin .. | .txAbortEnd .. => true

end Sys2Proof
end

