-- ==== Sys2Proof/Certificates/Slice0/Obligations.lean ====
section
/-! DEFINITION. The statements for the provers. -/

open Sys2Proof Sys2Proof.Machine Sys2Proof.Safety

/-! ## The queue of commands, starts and power -/

/-- A step runs the command at the front on the state with the queue's rest. On an empty queue the
part idles, which is the model's choice (log entry 3). -/
def Obligations.StepTakesTheFrontCommand : Prop :=
  (∀ (c : Instr) (rest : List Instr) (s : State),
    step { s with pending := c :: rest } = exec c { s with pending := rest })
  ∧ ∀ s : State, s.pending = [] → step s = .next s

/-- Every command goes on and leaves the queue alone. Without main power only POWER_UP and
SERVICE_SECOND act, which is the model's reading (log entry 7). -/
def Obligations.EveryCommandGoesOn : Prop :=
  ∀ (c : Instr) (s : State), ∃ t, exec c s = .next t ∧ t.pending = s.pending
    ∧ (s.powered = false → (∀ b pins low, c ≠ .powerUp b pins low) → c ≠ .serviceSecond → t = s)

/-- The values the spec gives the part after a cold start (R18, R35, R55, R69, R92, R121, R139, R155,
R173, R181), and the soundness of that state. That the Up port too starts at 19200 with its dwell
running is so for its strap pins at AUTO, which is the model's choice of pins (log entry 5). -/
def Obligations.ResetState : Prop :=
  let s := State.reset
  (∀ p, (s.port p).buffers = [] ∧ (s.port p).rx = .seek ∧ (s.port p).octetCount = 0
    ∧ (s.port p).rxRate = .r19200 ∧ (s.port p).dwell = .running 2000 ∧ (s.port p).goodRun = 0
    ∧ (s.port p).ctr = {} ∧ (s.port p).lsu.state = .hunt ∧ (s.port p).lsu.bucket = 0
    ∧ (s.port p).lsu.ca = 0 ∧ (s.port p).lsu.attempts = 0 ∧ (s.port p).lsu.fillDue = .expired
    ∧ (s.port p).lsu.cause = .none ∧ (s.port p).lsu.peer = none ∧ (s.port p).lsu.ctr = {}
    ∧ (s.port p).queue = [] ∧ (s.port p).runOfThree = 0 ∧ (s.port p).fruCtr = {})
  ∧ (∀ i : Fin 4, s.fru.windows[i] = none) ∧ (∀ i : Fin 32, s.fru.origins[i] = none)
  ∧ s.fru.beaconTimer = .running 60000
  ∧ s.htb.sync = .unset ∧ s.htb.date = 0#16 ∧ s.htb.secs = 0 ∧ s.htb.sinceSync = 0
  ∧ s.htb.stand = 0 ∧ s.htb.deferral = false ∧ s.htb.uptime = 0 ∧ s.htb.hour = 3
  ∧ s.params.hour = 3 ∧ s.params.deferLimit = 60
  ∧ s.tts.currentState = .empty ∧ s.tts.current = [] ∧ s.tts.currentDate = 0#16
  ∧ s.tts.nextState = .empty ∧ s.tts.next = [] ∧ s.tts.nextDate = 0#16 ∧ s.tts.generation = 0#16
  ∧ (∀ p, (s.sru.io p).button = .released ∧ (s.sru.io p).lamp = .off) ∧ s.sru.serial = 0#8
  ∧ (∀ i : Fin 8, s.bdc.messages[i] = none) ∧ s.bdc.valid = [] ∧ s.bdc.held = []
  ∧ s.bdc.energy = .lit ∧ s.bdc.supply = true ∧ s.bdc.warmUp = .running 2000
  ∧ s.bdc.activity = .running 60000 ∧ s.bdc.wakeCause = .none
  ∧ s.fqu.active = none ∧ s.fqu.pendingTable = none ∧ s.fqu.schedule = none
  ∧ s.fqu.activations = 0#16 ∧ (∀ i : Fin 4, s.fqu.slots[i] = .free)
  ∧ s.sju.journal = [] ∧ s.sju.ackSeq = 1#32 ∧ s.sju.nextSeq = 1#32 ∧ s.sju.writeSeq = 1#32
  ∧ s.sju.ticketCounter = 1#32 ∧ s.sju.totals = {} ∧ s.sju.journalLost = true
  ∧ s.sju.salesMode = .closed ∧ s.sju.xc = 0 ∧ s.sju.xa = 0 ∧ s.sju.authSerial = 0#8
  ∧ s.salesClosed = false ∧ s.tpi.ring = [] ∧ s.tpi.overflow = false ∧ s.tpi.replies = []
  ∧ s.tpi.parser = .waiting
  ∧ QueuesFit s ∧ BanksOrdered s ∧ JournalRuns s.sju ∧ ClockStands s ∧ CountsBounded s
  ∧ StoresFit s ∧ WindowsApart s ∧ SalesModeTrue s ∧ LedgerTrue s

/-- A power-up that finds the integrity mark damaged, or the backup supply lost, gives the state of
reset but for what the pins say: the latched straps, the unaddressed flag, and the ports' rates. -/
def Obligations.ColdStartIsReset : Prop :=
  ∀ (s : State) (backupHeld : Bool) (pins : StrapPins) (low : Bool),
    (s.mark = false ∨ backupHeld = false) →
    exec (.powerUp backupHeld pins low) s = .next { State.reset with
      pending := s.pending
      strapPins := pins
      lowEnergy := low
      own := latch pins
      fru := { State.reset.fru with unaddressed := isUnaddressed (latch pins).haltCode }
      up := match (latch pins).upMode with
        | .auto => State.reset.up
        | .fixed r => { State.reset.up with
            rateMode := .fixed r, rxRate := r, dwell := .stopped, txRate := some r, tx := .flags }
      down := match (latch pins).upMode with
        | .auto => State.reset.down
        | .fixed r => { State.reset.down with txRate := some r, tx := .flags } }

/-- A warm start before the rollover keeps the retained items, returns the volatile ones to their
start values, examines the calls it keeps, sets N to A and appends RESTORE with the restart counts when
it may. Every call in SENT returns to WANTED, whatever its call state (R121, log entry 29). CTRL WARM_RESET
makes the same start with the levels now at the pins. -/
def Obligations.WarmStartKeepsRetained : Prop :=
  (∀ (s : State) (pins : StrapPins) (low : Bool), s.mark = true → s.htb.secs < 86400 →
    ∃ t, exec (.powerUp true pins low) s = .next t
      ∧ t.powered = true ∧ t.mark = true ∧ t.own = latch pins ∧ t.params = s.params
      ∧ t.salesClosed = s.salesClosed ∧ t.fru.windows = s.fru.windows
      ∧ t.htb.date = s.htb.date ∧ t.htb.secs = s.htb.secs ∧ t.htb.hour = s.htb.hour
      ∧ t.htb.sync = s.htb.sync ∧ t.htb.sinceSync = s.htb.sinceSync ∧ t.htb.stand = s.htb.stand
      ∧ t.htb.uptime = 0
      ∧ t.tts.current.map (·.loaded) = s.tts.current.map (·.loaded) ∧ t.tts.next = s.tts.next
      ∧ t.tts.currentState = s.tts.currentState ∧ t.tts.currentDate = s.tts.currentDate
      ∧ t.tts.nextState = s.tts.nextState ∧ t.tts.nextDate = s.tts.nextDate
      ∧ t.tts.generation = s.tts.generation ∧ t.tts.ctr = {}
      ∧ (BankOrdered s.tts.current →
        List.Forall₂ (RestartedCall s) s.tts.current t.tts.current)
      ∧ t.bdc.messages = s.bdc.messages
      ∧ t.bdc.energy = .lit ∧ t.bdc.supply = true ∧ t.bdc.wakeCause = .none
      ∧ (∀ i : Fin 4, t.fqu.slots[i] = .free)
      ∧ ((∀ i, s.fqu.schedule = some i → s.fqu.pendingTable = none ∨ s.reached i = false) →
        TablesKept s t)
      ∧ (∀ i, s.fqu.schedule = some i → s.fqu.pendingTable ≠ none → s.reached i = true →
        TableActivated s t)
      ∧ t.sju.ackSeq = s.sju.ackSeq ∧ t.sju.nextSeq = s.sju.ackSeq
      ∧ t.sju.ticketCounter = s.sju.ticketCounter ∧ t.sju.totals = s.sju.totals
      ∧ t.sju.journalLost = s.sju.journalLost ∧ t.sju.quotesHeld = 0 ∧ t.sju.authsPending = 0
      ∧ t.sju.pendingAuth = none ∧ t.sju.lateTags = [] ∧ t.sju.window = []
      ∧ t.sju.authSerial = s.sju.ticketCounter.setWidth 8
      ∧ t.sju.journal = s.sju.journal ++
          (if s.htb.sync = .unset ∨ 512 ≤ s.sju.occupancy then []
           else [⟨s.sju.writeSeq,
            .restore s.htb.date s.htb.secs s.sju.authsPending s.sju.quotesHeld⟩])
      ∧ t.sju.writeSeq = (if s.htb.sync = .unset ∨ 512 ≤ s.sju.occupancy then s.sju.writeSeq
          else s.sju.writeSeq + 1#32)
      ∧ t.tpi.replies = [] ∧ t.tpi.parser = .waiting
      ∧ ∀ p, (t.port p).buffers = [] ∧ (t.port p).queue = [] ∧ (t.port p).ctr = {}
        ∧ (t.port p).lsu.state = if (s.params.port p).enabled then .hunt else .off)
  ∧ ∀ (s : State) (f : RxFrame) (rest : List RxFrame) (pins : StrapPins) (x : Byte),
    OwnFrame s f rest 5#8 → f.payload = [1#8, x] → s.mark = true →
    exec (.frameClassify .up pins) s = exec (.powerUp true pins s.lowEnergy) s

/-- The loss of main power keeps every retained item; the frames and requests in flight are gone.
That the volatile items then stand at their start values is the model's reading (log entry 7). -/
def Obligations.PowerLossKeepsRetained : Prop :=
  ∀ s : State, s.powered = true → ∃ t, exec .mainPowerLoss s = .next t
    ∧ t.powered = false ∧ t.mark = s.mark ∧ t.params = s.params ∧ t.own = s.own
    ∧ t.salesClosed = s.salesClosed ∧ t.fru.windows = s.fru.windows
    ∧ t.htb = { s.htb with uptime := 0, minuteDue := false, ctr := {} }
    ∧ t.tts.current = s.tts.current.map Call.retained
    ∧ t.tts = { s.tts with current := t.tts.current, ctr := {} }
    ∧ t.bdc.messages = s.bdc.messages ∧ t.bdc.supply = false
    ∧ t.fqu.active = s.fqu.active ∧ t.fqu.pendingTable = s.fqu.pendingTable
    ∧ t.fqu.schedule = s.fqu.schedule ∧ t.fqu.activations = s.fqu.activations
    ∧ t.sju.journal = s.sju.journal ∧ t.sju.ackSeq = s.sju.ackSeq
    ∧ t.sju.writeSeq = s.sju.writeSeq ∧ t.sju.ticketCounter = s.sju.ticketCounter
    ∧ t.sju.totals = s.sju.totals ∧ t.sju.journalLost = s.sju.journalLost
    ∧ t.sju.quotesHeld = s.sju.quotesHeld ∧ t.sju.authsPending = s.sju.authsPending
    ∧ t.tpi = {} ∧ ∀ p, (t.port p).queue = [] ∧ (t.port p).buffers = [] ∧ (t.port p).rx = .off

/-! ## The line ports (01) -/

/-- A flag takes the receiver from SEEK or IDLE to IDLE and restarts the silence watch in PROVING and
SERVICE; idle line takes it from IDLE to SEEK; a first content bit takes it from IDLE to FRAME. A flag
with no content in FRAME or COUNTING restarts the watch alone, which is the model's reading of a
command the spec gives no such occasion (log entry 8). -/
def Obligations.ReceiverMarks : Prop :=
  ∀ (s : State) (p : Port), s.powered = true →
    let lp := s.port p
    let heard : Lsu := { lp.lsu with
      silence := if lp.lsu.state = .proving ∨ lp.lsu.state = .service then .running 2000
        else lp.lsu.silence }
    (lp.rx = .seek ∨ lp.rx = .idle →
      exec (.flagReceived p) s = .next (s.setPort p { lp with rx := .idle, lsu := heard }))
    ∧ (lp.rx = .frame ∨ lp.rx = .counting →
      exec (.flagReceived p) s = .next (s.setPort p { lp with lsu := heard }))
    ∧ (lp.rx = .off → exec (.flagReceived p) s = .next s)
    ∧ (lp.rx = .idle →
      exec (.idleLine p) s = .next (s.setPort p { lp with rx := .seek })
        ∧ exec (.candidateFrameBegin p) s = .next (s.setPort p { lp with rx := .frame }))
    ∧ (lp.rx ≠ .idle →
      exec (.idleLine p) s = .next s ∧ exec (.candidateFrameBegin p) s = .next s)

/-- What one transmitter puts on the line, the other receiver delivers: a frame of any kind but FILL,
with any addresses, any hop count but 0 and any payload of at most 120 octets, arrives in a receive
buffer unchanged, is counted good and ends COUNTING. Its line bits are bits a line can carry between
two flags. A FILL goes to the LSU instead, which records its content or counts its bad form; a frame
with hop count 0 is counted and discarded; one that finds the eight buffers full is counted and
dropped. -/
def Obligations.SentFrameIsDelivered : Prop :=
  (∀ (s : State) (p : Port) (f : TxFrame) (payload : List Byte),
    s.powered = true → f.payload = .octets payload → payload.length ≤ 120 →
    f.hop ≠ 0#8 → f.kind ≠ 1#8 → (s.port p).buffers.length < 8 →
    ((s.port p).rx = .frame ∨ (s.port p).rx = .counting ∧ (s.port p).seqCounted ≤ 128) →
    (Instr.frameClosed p f.lineBits).wellFormed = true
    ∧ ∃ t, exec (.frameClosed p f.lineBits) s = .next t
      ∧ (t.port p).buffers
          = (s.port p).buffers ++ [⟨f.kind, f.destination, f.origin, f.hop, payload⟩]
      ∧ (t.port p).ctr = { (s.port p).ctr with goodFrames := tally (s.port p).ctr.goodFrames }
      ∧ (t.port p).rx = .idle
      ∧ ((s.port p).rx = .counting → (t.port p).octetCount = 0))
  ∧ ∀ (s : State) (p : Port) (f : TxFrame) (payload : List Byte),
    s.powered = true → f.payload = .octets payload → payload.length ≤ 120 →
    ((s.port p).rx = .frame ∨ (s.port p).rx = .counting ∧ (s.port p).seqCounted ≤ 128) →
    let k := { (s.port p).ctr with goodFrames := tally (s.port p).ctr.goodFrames }
    ∃ t, exec (.frameClosed p f.lineBits) s = .next t ∧ (t.port p).rx = .idle
      ∧ t = { s with up := t.up, down := t.down }
      ∧ (f.hop = 0#8 ∨ f.kind = 1#8 ∨ 8 ≤ (s.port p).buffers.length →
        (t.port p).buffers = (s.port p).buffers)
      ∧ (f.hop = 0#8 → (t.port p).ctr = { k with hopZero := tally k.hopZero })
      ∧ (f.hop ≠ 0#8 → f.kind = 1#8 → (t.port p).ctr = k ∧ FillRecorded s t p payload)
      ∧ (f.hop ≠ 0#8 → f.kind ≠ 1#8 → 8 ≤ (s.port p).buffers.length →
        (t.port p).ctr = { k with rxOverrun := tally k.rxOverrun })

/-- A candidate frame closed by a flag is judged for whole octets, for 8 octets and by its FCS, in
that order, and counted once under the first failed test; an abort is counted as such. -/
def Obligations.ErroredFrameIsCountedOnce : Prop :=
  ∀ (s : State) (p : Port) (bits : List Bool),
    s.powered = true → (s.port p).rx = .frame → (destuff bits).length < 1032 →
    let content := destuff bits
    let k := (s.port p).ctr
    (content.length % 8 ≠ 0 →
      Errored (.frameClosed p bits) s p .idle { k with errOdd := tally k.errOdd })
    ∧ (content.length % 8 = 0 → content.length < 64 →
      Errored (.frameClosed p bits) s p .idle { k with errShort := tally k.errShort })
    ∧ (content.length % 8 = 0 → 64 ≤ content.length → fcsGood content = false →
      Errored (.frameClosed p bits) s p .idle { k with errFcs := tally k.errFcs })
    ∧ Errored (.abort p bits) s p .seek { k with errAbort := tally k.errAbort }

/-- The 129th octet makes a long frame and starts COUNTING with that octet counted; in COUNTING each
16 octets make one group. How the octets of a sequence are shared among the commands (LONG_FRAME adds
129 at once in COUNTING, OCTET_GROUP fills a group, a closing flag adds the rest) is the model's reading
(log entry 9). -/
def Obligations.LongFramesAreCountedInGroups : Prop :=
  ∀ (s : State) (p : Port), s.powered = true → (s.port p).ctr.octetGroups ≤ 4294967295 →
    let lp := s.port p
    let k := lp.ctr
    (lp.rx = .frame → ∃ t, exec (.longFrame p) s = .next t
      ∧ (t.port p).rx = .counting ∧ (t.port p).octetCount = 1
      ∧ (t.port p).ctr = { k with errLong := tally k.errLong }
      ∧ (t.port p).buffers = lp.buffers ∧ ErrorWeighed s t p ∧ OnlyLink p s t)
    ∧ (lp.rx = .counting → lp.seqCounted ≤ 128 → ∃ t, exec (.longFrame p) s = .next t
      ∧ (t.port p).rx = .counting ∧ (t.port p).octetCount = (lp.octetCount + 129) % 16
      ∧ (t.port p).ctr = { k with octetGroups := satAdd k.octetGroups ((lp.octetCount + 129) / 16) }
      ∧ (t.port p).buffers = lp.buffers ∧ OnlyLink p s t)
    ∧ (lp.rx = .counting → 128 < lp.seqCounted → ∃ t, exec (.octetGroup p) s = .next t
      ∧ (t.port p).rx = .counting ∧ (t.port p).octetCount = 0
      ∧ (t.port p).ctr = { k with octetGroups := tally k.octetGroups }
      ∧ (t.port p).buffers = lp.buffers ∧ ErrorWeighed s t p ∧ OnlyLink p s t)
    ∧ ∀ bits : List Bool, lp.rx = .counting → lp.seqCounted = 0 →
      ((destuff bits).length % 8 ≠ 0 ∨ (destuff bits).length < 64 ∨ fcsGood (destuff bits) = false) →
      let n := lp.octetCount + (destuff bits).length / 8
      ∃ t, exec (.frameClosed p bits) s = .next t
        ∧ (t.port p).rx = .counting ∧ (t.port p).octetCount = n % 16
        ∧ (t.port p).ctr = { k with octetGroups := satAdd k.octetGroups (n / 16) }
        ∧ (t.port p).buffers = lp.buffers ∧ OnlyLink p s t

/-- A dwell expiry in HUNT moves the receive rate down the list 19200, 9600, 4800, 2400, 1200 and back
to 19200, restarts the dwell, sets the run to 0 and returns the receiver to SEEK. -/
def Obligations.DwellMovesTheRate : Prop :=
  ∀ (s : State) (p : Port), s.powered = true →
    let lp := s.port p
    (lp.lsu.state = .hunt → lp.dwell.isRunning = true →
      ∀ old new : Rate,
        (old, new) ∈ [(Rate.r19200, Rate.r9600), (.r9600, .r4800), (.r4800, .r2400),
          (.r2400, .r1200), (.r1200, .r19200)] →
        lp.rxRate = old →
        exec (.dwellExpiry p) s = .next (s.setPort p { lp with
          rx := .seek, octetCount := 0, seqCounted := 0, rxRate := new, dwell := .running 2000
          goodRun := 0 }))
    ∧ (lp.lsu.state ≠ .hunt ∨ lp.dwell.isRunning = false → exec (.dwellExpiry p) s = .next s)

/-- In HUNT a good frame adds one to the run and restarts an AUTO port's dwell; the fourth in a row
locks the rate and moves the port to PROVING with its first attempt begun. Every good frame weighs so, a
FILL, one of hop count 0 and one dropped by overrun too; in SERVICE, FRAME mode, it adds one to the
bucket run, and at D the run returns to 0 and B falls by 1; elsewhere it changes no count. -/
def Obligations.FourthGoodFrameLocks : Prop :=
  (∀ (s : State) (p : Port) (bits : List Bool) (f : RxFrame),
    s.powered = true → (s.port p).rx = .frame → (destuff bits).length < 1032 →
    judge (destuff bits) = .ok f → f.kind ≠ 1#8 → (s.port p).lsu.state = .hunt →
    ∃ t, exec (.frameClosed p bits) s = .next t ∧ (t.port p).rxRate = (s.port p).rxRate
      ∧ ((s.port p).goodRun < 3 →
        (t.port p).lsu = (s.port p).lsu ∧ (t.port p).goodRun = (s.port p).goodRun + 1
          ∧ ((s.port p).rateMode = .auto → (t.port p).dwell = .running 2000)
          ∧ OnlyPort p s t)
      ∧ (3 ≤ (s.port p).goodRun →
        (t.port p).lsu = { (s.port p).lsu with
            state := .proving, phase := .period
            period := .running (1000 * (s.params.port p).period)
            pause := .stopped, ca := 0, attempts := 0, peerSeen := false
            silence := .running 2000, fillDue := .expired }
          ∧ (t.port p).dwell = .stopped ∧ (t.port p).goodRun = 0
          ∧ t = { s with up := t.up, down := t.down }))
  ∧ ∀ (s : State) (p : Port) (bits : List Bool) (f : RxFrame),
    s.powered = true → (destuff bits).length < 1032 → judge (destuff bits) = .ok f →
    ((s.port p).rx = .frame ∨ (s.port p).rx = .counting ∧ (s.port p).seqCounted ≤ 128) →
    ∃ t, exec (.frameClosed p bits) s = .next t ∧ GoodWeighed s t p
      ∧ (t.port p).rxRate = (s.port p).rxRate ∧ t = { s with up := t.up, down := t.down }

/-- At a choice in SERVICE the arbiter hands over the oldest frame of the class it prefers: URGENT
first; RELAY before OWN, but after three RELAY frames in a row the waiting OWN frame. -/
def Obligations.ArbiterHandsOver : Prop :=
  ∀ (s : State) (p : Port) (c : Instr) (x : Queued) (before after : List Queued),
    s.powered = true → Chooses c s p → (s.port p).lsu.state = .service →
    (s.port p).queue = before ++ x :: after → (∀ y ∈ before, y.cls ≠ x.cls) →
    Preferred (s.port p) x.cls →
    ∃ t js, exec c s = .next t ∧ (t.port p).tx = .sending x.frame
      ∧ (t.port p).queue = before ++ after ++ js ∧ AllJrnl js ∧ (p = .down → js = [])
      ∧ (t.port p).lsu = { (s.port p).lsu with fillDue := .running 500 }
      ∧ (t.port p).ctr = sentCount c (s.port p).ctr
      ∧ (t.port p).runOfThree =
          (match x.cls with
           | .urgent => (s.port p).runOfThree
           | .relay =>
             if ∃ y ∈ (s.port p).queue, y.cls = .own then (s.port p).runOfThree + 1
             else (s.port p).runOfThree
           | .own => 0)
      ∧ t.port p.other = s.port p.other
      ∧ t = { s with up := t.up, down := t.down, sju := t.sju }

/-- At a choice with nothing handed over, a due FILL begins, with the fields R31 gives it; when none
is due, a flag. -/
def Obligations.FillWhenDue : Prop :=
  ∀ (s : State) (p : Port) (c : Instr), s.powered = true → Chooses c s p →
    ∀ code : Nat,
      ((s.port p).lsu.state = .hunt ∧ (s.txRateOf p).isSome ∧ code = 1
        ∨ (s.port p).lsu.state = .proving ∧ code = 2
        ∨ (s.port p).lsu.state = .service ∧ (s.port p).queue = [] ∧ code = 3) →
      let lp := s.port p
      let b := if lp.lsu.state = .service then lp.lsu.bucket else 0
      let fill : TxFrame := {
        kind := 1#8, destination := 0#16, origin := s.own.haltCode, hop := 1#8
        payload := .octets (be 1 code ++ be 1 b ++ be 2 s.own.haltCode.toNat) }
      let counted : LinePort := { lp with txRate := s.txRateOf p, ctr := sentCount c lp.ctr }
      (lp.lsu.fillDue = .expired → exec c s = .next (s.setPort p { counted with
        tx := .sending fill, lsu := { lp.lsu with fillDue := .running 500 } }))
      ∧ (lp.lsu.fillDue ≠ .expired → exec c s = .next (s.setPort p { counted with tx := .flags }))

/-- The ones of an abort over, the transmitter takes the state its port state and its rate give: SILENT
in OFF, in OUTAGE and without a rate, otherwise FLAGS. The aborted frame is not counted. -/
def Obligations.AbortEndsAtRest : Prop :=
  ∀ (s : State) (p : Port), s.powered = true → (s.port p).tx = .aborting →
    let lp := s.port p
    exec (.txAbortEnd p) s = .next (s.setPort p { lp with
      txRate := s.txRateOf p
      tx := if lp.lsu.state = .off ∨ lp.lsu.state = .outage ∨ s.txRateOf p = none then .silent
        else .flags })

/-! ## Link supervision (02) -/

/-- The FILL-due timer makes a FILL due; the pause timer begins the next attempt with Ca and peer FILL
seen afresh and the attempt count kept. A timer that does not run has no expiry. -/
def Obligations.SupervisionTimers : Prop :=
  ∀ (s : State) (p : Port), s.powered = true →
    let lp := s.port p
    (lp.lsu.fillDue.isRunning = true →
      exec (.fillDueExpiry p) s = .next (s.setPort p { lp with
        lsu := { lp.lsu with fillDue := .expired } }))
    ∧ (lp.lsu.pause.isRunning = true →
      exec (.pauseExpiry p) s = .next (s.setPort p { lp with lsu := { lp.lsu with
        phase := .period, period := .running (1000 * (s.params.port p).period), pause := .stopped
        ca := 0, peerSeen := false } }))
    ∧ (lp.lsu.fillDue.isRunning = false → exec (.fillDueExpiry p) s = .next s)
    ∧ (lp.lsu.pause.isRunning = false → exec (.pauseExpiry p) s = .next s)
    ∧ (lp.lsu.period.isRunning = false → exec (.periodExpiry p) s = .next s)
    ∧ (lp.lsu.interval.isRunning = false → exec (.intervalExpiry p) s = .next s)
    ∧ (lp.lsu.silence.isRunning = false → exec (.silenceExpiry p) s = .next s)
    ∧ (lp.lsu.retry.isRunning = false → exec (.retryExpiry p) s = .next s)

/-- A proving period that ends with Ca below M and the peer seen puts the port in SERVICE, and an Up
port with an empty queue then sends its BEACON first; a period that ends otherwise fails the attempt,
which pauses the port or, the fifth time, takes it to OUTAGE. That the BEACON stands before what the
other receivers of the announcement send is the model's choice (log entry 10). -/
def Obligations.ProvingPeriodEnds : Prop :=
  ∀ (s : State) (p : Port), s.powered = true → (s.port p).lsu.state = .proving →
    (s.port p).lsu.period.isRunning = true →
    let l := (s.port p).lsu
    let k := s.params.port p
    (l.ca < k.align → l.peerSeen = true → ∃ t, exec (.periodExpiry p) s = .next t
      ∧ (t.port p).lsu = { l with
          state := .service, period := .stopped, bucket := 0, bucketRun := 0, attempts := 0
          intervalMark := false
          interval := if k.mode = .interval then .running 100 else .stopped }
      ∧ (p = .down → OnlyPort p s t)
      ∧ (p = .up → s.fru.unaddressed = false → s.up.queue = [] →
        ∃ x rest, t.up.queue = x :: rest ∧ x.cls = .own ∧ x.frame.kind = 10#8
          ∧ x.frame.destination = 65535#16 ∧ x.frame.origin = s.own.haltCode))
    ∧ (k.align ≤ l.ca ∨ l.peerSeen = false →
      (l.attempts + 1 < 5 →
        exec (.periodExpiry p) s = .next (s.setPort p { s.port p with lsu := { l with
          attempts := l.attempts + 1
          ctr := { l.ctr with provingFails := tally l.ctr.provingFails }
          phase := .pause, period := .stopped, pause := .running 1000 } }))
      ∧ (5 ≤ l.attempts + 1 → ∃ t, exec (.periodExpiry p) s = .next t
        ∧ InOutage l (t.port p).lsu .provingFailed
        ∧ (t.port p).lsu.ctr.provingFails = tally l.ctr.provingFails ∧ OnlyPort p s t))

/-- An interval of INTERVAL mode is judged: B rises by 4 if it was marked, and otherwise falls by 1;
at T the port goes to OUTAGE with cause ERROR_RATE. -/
def Obligations.IntervalIsJudged : Prop :=
  ∀ (s : State) (p : Port), s.powered = true → (s.port p).lsu.state = .service →
    (s.port p).lsu.interval.isRunning = true →
    let l := (s.port p).lsu
    let limit := (s.params.port p).limit
    let b := if l.intervalMark then min limit (l.bucket + 4) else l.bucket - 1
    (b < limit → exec (.intervalExpiry p) s = .next (s.setPort p { s.port p with
      lsu := { l with bucket := b, intervalMark := false, interval := .running 100 } }))
    ∧ (limit ≤ b → ∃ t, exec (.intervalExpiry p) s = .next t
      ∧ InOutage l (t.port p).lsu .errorRate ∧ (t.port p).lsu.bucket = b ∧ OnlyLink p s t)

/-- Two seconds without a flag take a port to OUTAGE with cause SILENCE. A port that was in SERVICE has
its queue flushed and counted, a frame being sent is aborted, and on the Up port the sales journal
goes back to A, the pending authorisation ends and no call stays SENT (R114, log entry 29). -/
def Obligations.SilenceEndsService : Prop :=
  ∀ (s : State) (p : Port), s.powered = true → (s.port p).lsu.silence.isRunning = true →
    let l := (s.port p).lsu
    ∃ t, exec (.silenceExpiry p) s = .next t
      ∧ InOutage l (t.port p).lsu .silence ∧ (t.port p).lsu.bucket = l.bucket
      ∧ (t.port p).buffers = (s.port p).buffers ∧ OnlyLink p s t
      ∧ (∀ f, (s.port p).tx = .sending f → (t.port p).tx = .aborting)
      ∧ ((s.port p).tx = .flags → (t.port p).tx = .silent)
      ∧ (l.state ≠ .service → OnlyPort p s t ∧ (t.port p).queue = (s.port p).queue)
      ∧ (l.state = .service →
        (t.port p).queue = [] ∧ (t.port p).runOfThree = 0
          ∧ (t.port p).fruCtr.flushed = satAdd (s.port p).fruCtr.flushed (s.port p).queue.length
          ∧ (p = .up → t.sju.nextSeq = s.sju.ackSeq ∧ t.sju.ackSeq = s.sju.ackSeq
            ∧ t.sju.ackTimer = .stopped ∧ t.sju.journal = s.sju.journal
            ∧ t.sju.pendingAuth = none
            ∧ ∀ c ∈ t.tts.current, c.stop ≠ .sent))

/-- When the wait in OUTAGE ends the port enters HUNT: its timers stop, its counts return to 0, a FILL
is due, the receiver seeks, and the rate search begins again. B, the last cause and the peer record
are kept, and so are the received frames. -/
def Obligations.RetryEntersHunt : Prop :=
  ∀ (s : State) (p : Port), s.powered = true → (s.port p).lsu.state = .outage →
    (s.port p).lsu.retry.isRunning = true →
    ∃ t, exec (.retryExpiry p) s = .next t
      ∧ (t.port p).lsu = { (s.port p).lsu with
          state := .hunt, phase := .period, period := .stopped, pause := .stopped
          interval := .stopped, silence := .stopped, retry := .stopped, fillDue := .expired
          ca := 0, attempts := 0, bucketRun := 0, peerSeen := false, intervalMark := false }
      ∧ (t.port p).rx = .seek ∧ (t.port p).octetCount = 0 ∧ (t.port p).goodRun = 0
      ∧ (t.port p).buffers = (s.port p).buffers ∧ (t.port p).queue = (s.port p).queue
      ∧ ((s.port p).rateMode = .auto →
        (t.port p).rxRate = .r19200 ∧ (t.port p).dwell = .running 2000)
      ∧ (∀ r, (s.port p).rateMode = .fixed r → (t.port p).rxRate = r)
      ∧ t = { s with up := t.up, down := t.down }

/-! ## Relay, addressing and queues (03) -/

/-- The address rule at an addressed halt. -/
def Obligations.AddressRule : Prop :=
  ∀ (s : State) (k : Kind) (d : HaltCode), s.fru.unaddressed = false →
    k ∈ [Kind.time, .load, .query, .ctrl, .jack, .authres, .stopconf] →
    s.verdictOf .up k d =
      if d = s.own.haltCode then ⟨true, false⟩
      else if d = 0#16 then ⟨true, true⟩
      else if (∃ (i : Fin 4) (w : GroupWindow), s.fru.windows[i] = some w
          ∧ w.base ≤ d.toNat ∧ d.toNat ≤ w.base + w.size - 1 ∧ d.toNat < w.base + w.size
          ∧ 1 ≤ d.toNat ∧ d.toNat ≤ 4000) then ⟨true, true⟩
      else ⟨false, true⟩

/-- A frame that is only relayed leaves its buffer and is offered to the other port's queue with its
hop count one less and everything else unchanged; it is not relayed into an OFF port nor past its last
hop, and a full queue drops it. A frame of unknown kind is counted as well and travels in class RELAY.
So does an address-ruled frame for another halt, one from the Down port whatever its destination, and a
LOAD of unknown subkind, which is counted (from the Down port also when it names this halt, log entry
19). A broadcast or group frame acts as one for this halt alone does and is then relayed, as the model
orders the two (log entry 22). A RUN is taken and relayed; an unaddressed halt takes only what is sent
to 0. That a RELAY copy which finds all 32 slots taken, with fewer than 26 non-urgent, is dropped and
counted DROP_RELAY is the model's choice (log entry 42). -/
def Obligations.RelayedCopy : Prop :=
  (∀ (s : State) (p : Port) (pins : StrapPins) (f : RxFrame) (rest : List RxFrame),
    s.powered = true → (s.port p).buffers = f :: rest → f.hop ≠ 0#8 →
    ∀ (cls : TxClass) (unknown : Nat),
      (f.kind ∈ [11#8, 12#8] ∧ cls = .relay ∧ unknown = 0
        ∨ f.kind = 10#8 ∧ p = .up ∧ cls = .relay ∧ unknown = 0
        ∨ f.kind ∈ [13#8, 14#8] ∧ cls = .urgent ∧ unknown = 0
        ∨ (f.kind = 0#8 ∨ 14#8 < f.kind) ∧ cls = .relay ∧ unknown = 1) →
      let lp := s.port p
      let other := s.port p.other
      let k := if unknown = 1 then { lp.fruCtr with kindUnknown := tally lp.fruCtr.kindUnknown }
        else lp.fruCtr
      let copy : Queued :=
        ⟨cls, ⟨f.kind, f.destination, f.origin, f.hop - 1#8, .octets f.payload⟩⟩
      let freed := s.setPort p { lp with buffers := rest, fruCtr := k }
      (other.lsu.state = .off → exec (.frameClassify p pins) s = .next freed)
      ∧ (other.lsu.state ≠ .off → f.hop = 1#8 →
        exec (.frameClassify p pins) s = .next (freed.setPort p { lp with
          buffers := rest, fruCtr := { k with hopEnd := tally k.hopEnd } }))
      ∧ (other.lsu.state ≠ .off → other.lsu.state ≠ .service → f.hop ≠ 1#8 →
        exec (.frameClassify p pins) s = .next (freed.setPort p.other { other with
          fruCtr := { other.fruCtr with portDownDrop := tally other.fruCtr.portDownDrop } }))
      ∧ (other.lsu.state = .service → ¬ Room other cls → f.hop ≠ 1#8 →
        exec (.frameClassify p pins) s = .next (freed.modFruCtr p.other fun k =>
          if cls = .urgent then { k with dropUrgent := tally k.dropUrgent }
          else { k with dropRelay := tally k.dropRelay }))
      ∧ (Room other cls → f.hop ≠ 1#8 → ∃ t js, exec (.frameClassify p pins) s = .next t
        ∧ (t.port p.other).queue = other.queue ++ copy :: js ∧ AllJrnl js
        ∧ (p = .up → js = []) ∧ t.port p = freed.port p
        ∧ t = { s with up := t.up, down := t.down, sju := t.sju }))
  ∧ ∀ (s : State) (p : Port) (pins : StrapPins) (f : RxFrame) (rest : List RxFrame)
    (cls : TxClass),
    s.powered = true → (s.port p).buffers = f :: rest → f.hop ≠ 0#8 →
    let c : Instr := .frameClassify p pins
    let freed := s.setPort p { s.port p with buffers := rest }
    let grouped := ∃ (i : Fin 4) (w : GroupWindow), s.fru.windows[i] = some w
      ∧ w.base ≤ f.destination.toNat ∧ f.destination.toNat < w.base + w.size
      ∧ 1 ≤ f.destination.toNat ∧ f.destination.toNat ≤ 4000
    let strange := f.kind = 3#8 ∧ LoadKind.ofPayload f.payload = none
    let ruled := (f.kind ∈ [2#8, 7#8, 8#8] ∧ cls = .urgent)
      ∨ (f.kind ∈ [3#8, 4#8, 5#8, 6#8] ∧ cls = .relay)
    let elsewhere := p = .down
      ∨ (s.fru.unaddressed = true ∧ f.destination ≠ 0#16)
      ∨ (s.fru.unaddressed = false ∧ f.destination ≠ s.own.haltCode ∧ f.destination ≠ 0#16
        ∧ ¬ grouped)
    (ruled → ¬ strange → elsewhere → ∃ t, exec c s = .next t ∧ Forwarded freed t p f cls)
    ∧ (f.kind = 9#8 → cls = .urgent → s.fru.unaddressed = true → f.destination ≠ 0#16 →
      ∃ t, exec c s = .next t ∧ Forwarded freed t p f cls)
    ∧ (strange → cls = .relay →
      let counted := freed.modFruCtr p fun k => { k with kindUnknown := tally k.kindUnknown }
      (p = .up → s.fru.unaddressed = false → f.destination = s.own.haltCode →
        exec c s = .next counted)
      ∧ (p = .down ∨ s.fru.unaddressed = true ∨ f.destination ≠ s.own.haltCode →
        ∃ t, exec c s = .next t ∧ Forwarded counted t p f cls))
    ∧ (p = .up → ruled → ¬ strange → f.kind ≠ 6#8 → s.fru.unaddressed = false →
      f.destination ≠ s.own.haltCode → f.destination = 0#16 ∨ grouped →
      ∀ v, exec c { s with up := { s.up with
          buffers := { f with destination := s.own.haltCode } :: rest } } = .next v →
        ∃ t, exec c s = .next t
          ∧ ((∃ x, f.kind = 5#8 ∧ f.payload = [1#8, x]) → t = v)
          ∧ ((∀ x, f.kind = 5#8 → f.payload ≠ [1#8, x]) → Forwarded v t p f cls))
    ∧ (p = .up → f.kind = 6#8 → cls = .relay → s.fru.unaddressed = false →
      f.destination ≠ s.own.haltCode → f.destination = 0#16 ∨ grouped → ∃ t, exec c s = .next t
        ∧ Forwarded { freed with sju := { s.sju with
            ctr := { s.sju.ctr with jackForm := tally s.sju.ctr.jackForm } } } t p f cls)
    ∧ ∀ k : Kind, Kind.ofCode f.kind = some k → (∀ x, f.kind = 5#8 → f.payload ≠ [1#8, x]) →
      ((k = .run ∧ cls = .urgent ∧ (s.fru.unaddressed = false ∨ f.destination = 0#16))
        ∨ (p = .up ∧ ruled ∧ ¬ strange ∧ s.fru.unaddressed = true ∧ f.destination = 0#16)) →
      ∃ t, exec c s = .next t ∧ Forwarded (freed.takeFrame pins k f) t p f cls

/-- A BEACON from the Down port that differs from the stored one in no field of the mask, and comes
before the refresh interval is over, is dropped and counted. Any other is offered to the Up queue; its
fields and the uptime are stored only if it is admitted: in the origin's own entry, else in the lowest
empty one, else in the oldest, the lowest of equals. -/
def Obligations.BeaconIsFiltered : Prop :=
  (∀ (s : State) (pins : StrapPins) (f : RxFrame) (rest : List RxFrame) (i : Fin 32)
    (e : OriginEntry) (fields : List Nat),
    s.powered = true → s.down.buffers = f :: rest → f.kind = 10#8 → f.hop ≠ 0#8 → f.hop ≠ 1#8 →
    s.up.lsu.state ≠ .off → beaconOfPayload f.payload = some fields →
    s.fru.origins[i] = some e → e.origin = f.origin →
    (∀ (j : Fin 32) (x : OriginEntry), s.fru.origins[j] = some x → x.origin = f.origin → j = i) →
    (∀ n, n < 18 → s.params.beaconMask.getLsbD n = true → e.fields[n]? = fields[n]?) →
    e.fields.length = 18 → s.htb.uptime - e.uptime < s.params.refresh →
    exec (.frameClassify .down pins) s = .next { s with
      down := { s.down with buffers := rest }
      fru := { s.fru with filtered := tally s.fru.filtered } })
  ∧ ∀ (s : State) (pins : StrapPins) (f : RxFrame) (rest : List RxFrame) (i : Fin 32)
    (fields : List Nat),
    s.powered = true → s.down.buffers = f :: rest → f.kind = 10#8 → f.hop ≠ 0#8 → f.hop ≠ 1#8 →
    s.up.lsu.state ≠ .off → beaconOfPayload f.payload = some fields →
    let unknown := ∀ (j : Fin 32) (x : OriginEntry), s.fru.origins[j] = some x → x.origin ≠ f.origin
    ((∃ e, s.fru.origins[i] = some e ∧ e.origin = f.origin ∧ e.fields.length = 18
        ∧ (∀ (j : Fin 32) (x : OriginEntry),
          s.fru.origins[j] = some x → x.origin = f.origin → j = i)
        ∧ ((∃ n, n < 18 ∧ s.params.beaconMask.getLsbD n = true ∧ e.fields[n]? ≠ fields[n]?)
          ∨ s.params.refresh ≤ s.htb.uptime - e.uptime))
      ∨ (unknown ∧ s.fru.origins[i] = none ∧ ∀ j : Fin 32, j < i → s.fru.origins[j] ≠ none)
      ∨ (unknown ∧ (∀ j : Fin 32, s.fru.origins[j] ≠ none) ∧ ∃ e, s.fru.origins[i] = some e
        ∧ ∀ (j : Fin 32) (x : OriginEntry), s.fru.origins[j] = some x →
          e.uptime ≤ x.uptime ∧ (j < i → e.uptime < x.uptime))) →
    let copy : Queued :=
      ⟨.relay, ⟨10#8, f.destination, f.origin, f.hop - 1#8, .octets f.payload⟩⟩
    ∃ t, exec (.frameClassify .down pins) s = .next t
      ∧ (Room s.up .relay → QueuedUp s t copy
        ∧ t.fru = { s.fru with
            origins := s.fru.origins.set i (some ⟨f.origin, fields, s.htb.uptime⟩) })
      ∧ (¬ Room s.up .relay → t.up.queue = s.up.queue ∧ t.fru = s.fru)
      ∧ t = { s with
          up := t.up, down := { s.down with buffers := rest }, fru := t.fru, sju := t.sju }

/-- The beacon timer's expiry restarts it and originates one BEACON: queued when the Up port has room,
counted PORT_DOWN_DROP outside SERVICE, and not built at an unaddressed halt. -/
def Obligations.BeaconIsOriginated : Prop :=
  ∀ s : State, s.powered = true → s.fru.beaconTimer.isRunning = true →
    let fru := { s.fru with beaconTimer := .running (1000 * s.params.beaconInterval) }
    let beacon : Queued := ⟨.own, ⟨10#8, 65535#16, s.own.haltCode,
      BitVec.ofNat 8 s.params.initialHop, .octets (beaconOctets s.beaconFields)⟩⟩
    (s.fru.unaddressed = true → exec .beaconTimerExpiry s = .next { s with fru := fru })
    ∧ (s.fru.unaddressed = false → s.up.lsu.state ≠ .service →
      exec .beaconTimerExpiry s = .next { s with
        fru := fru
        up := { s.up with
          fruCtr := { s.up.fruCtr with portDownDrop := tally s.up.fruCtr.portDownDrop } } })
    ∧ (s.fru.unaddressed = false → Room s.up .own → ∃ t js, exec .beaconTimerExpiry s = .next t
      ∧ t.up.queue = s.up.queue ++ beacon :: js ∧ AllJrnl js
      ∧ t = { s with up := t.up, fru := fru, sju := t.sju })

/-- The admission tests in their order: not in SERVICE, no slot for an URGENT frame, no non-urgent
slot. That a non-urgent frame also needs one of the 32 slots is R50's bound; that one refused for want of
it alone is counted DROP_RELAY or DROP_OWN is the model's choice (log entry 42). -/
def Obligations.AdmissionTests : Prop :=
  ∀ (lp : LinePort) (c : TxClass) (f : TxFrame),
    let k := lp.fruCtr
    (lp.lsu.state ≠ .service →
      lp.enqueue ⟨c, f⟩ = { lp with fruCtr := { k with portDownDrop := tally k.portDownDrop } })
    ∧ (Room lp c → lp.enqueue ⟨c, f⟩ = { lp with queue := lp.queue ++ [⟨c, f⟩] })
    ∧ (lp.lsu.state = .service → ¬ Room lp c →
      lp.enqueue ⟨c, f⟩ = { lp with fruCtr :=
        match c with
        | .urgent => { k with dropUrgent := tally k.dropUrgent }
        | .relay => { k with dropRelay := tally k.dropRelay }
        | .own => { k with dropOwn := tally k.dropOwn } })

/-! ## Halt time (04) -/

/-- One second of the retained oscillator: nothing while UNSET; otherwise L advances and either the
stand remainder falls or s rises; without main power the counts alone change, as the model reads it (log
entry 7). A second that leaves s below 86400, with no deferral, ends with no OPEN quote past its sales
cutoff. While the day switch is deferred, each second makes it when the limit is reached, which is
counted, or when no call is live. -/
def Obligations.SecondIsCounted : Prop :=
  ∀ s : State,
    let l := tally s.htb.sinceSync
    let sync := if l ≤ 3600 then SyncState.locked else .holdover
    (s.htb.sync = .unset → exec .serviceSecond s = .next s)
    ∧ (s.powered = false → s.htb.sync ≠ .unset → s.htb.stand = 0 →
      exec .serviceSecond s = .next { s with
        htb := { s.htb with sinceSync := l, sync := sync, secs := tally s.htb.secs } })
    ∧ (s.powered = true → s.htb.sync ≠ .unset → 0 < s.htb.stand →
      ∃ t, exec .serviceSecond s = .next t
        ∧ t.htb = { s.htb with sinceSync := l, sync := sync, stand := s.htb.stand - 1 }
        ∧ t = { s with up := t.up, htb := t.htb, tts := t.tts, sru := t.sru, bdc := t.bdc
                       fqu := t.fqu, sju := t.sju, tpi := t.tpi })
    ∧ (s.powered = true → s.htb.sync ≠ .unset → s.htb.stand = 0 → s.htb.deferral = false →
      s.htb.secs + 1 < 86400 →
      ∃ t, exec .serviceSecond s = .next t
        ∧ t.htb = { s.htb with sinceSync := l, sync := sync, secs := s.htb.secs + 1 }
        ∧ (∀ (i : Fin 4) (q : Quote), t.fqu.slots[i] = .opened q → t.quotePastCutoff q = false)
        ∧ t = { s with up := t.up, htb := t.htb, tts := t.tts, sru := t.sru, bdc := t.bdc
                       fqu := t.fqu, sju := t.sju, tpi := t.tpi })
    ∧ (s.powered = false → s.htb.sync ≠ .unset → 0 < s.htb.stand →
      exec .serviceSecond s = .next { s with
        htb := { s.htb with sinceSync := l, sync := sync, stand := s.htb.stand - 1 } })
    ∧ (s.powered = true → s.htb.sync ≠ .unset → s.htb.stand = 0 → s.htb.deferral = true →
      86400 ≤ s.htb.secs → s.htb.secs < 4294967295 →
      let x := s.htb.secs + 1
      let live := ∃ c ∈ s.tts.current, (c.state = .scheduled ∨ c.state = .running)
        ∧ x ≤ c.expected + 60
      let limit := 86400 + 60 * s.params.deferLimit
      let date := s.htb.date + BitVec.ofNat 16 (x / 86400)
      ∃ t, exec .serviceSecond s = .next t
        ∧ (x < limit → live → t.htb = { s.htb with sinceSync := l, sync := sync, secs := x }
          ∧ t.tts.generation = s.tts.generation)
        ∧ (limit ≤ x ∨ ¬ live → s.params.hour = s.htb.hour →
          t.htb = { s.htb with
            sinceSync := l, sync := sync, date := date, secs := x % 86400, stand := 0
            deferral := false
            ctr := if limit ≤ x then { s.htb.ctr with deferLimit := tally s.htb.ctr.deferLimit }
              else s.htb.ctr }
          ∧ BanksSwitched s t date ∧ ∀ (i : Fin 4) (q : Quote), t.fqu.slots[i] ≠ .opened q))

/-- The second that brings s to 86400 defers the day switch while a call is live and a deferral is
allowed; otherwise it makes the switch: the next date, s back at 0, or moved by the change of the
rollover hour, the banks switched to the date, every quote gone, the day's totals written in a DAY_TOTAL
and cleared. CTRL FORCE_DAY_SWITCH makes it at once with s at or above 86400, and below it, or UNSET,
does nothing. -/
def Obligations.RolloverSwitchesOrDefers : Prop :=
  (∀ s : State, s.powered = true → s.htb.sync ≠ .unset → s.htb.stand = 0 → s.htb.secs = 86399 →
    s.htb.deferral = false →
    let live := ∃ c ∈ s.tts.current, (c.state = .scheduled ∨ c.state = .running)
      ∧ 86400 ≤ c.expected + 60
    (live → 0 < s.params.deferLimit → ∃ t, exec .serviceSecond s = .next t
      ∧ t.htb.deferral = true ∧ t.htb.secs = 86400 ∧ t.htb.date = s.htb.date
      ∧ t.tts.generation = s.tts.generation
      ∧ t.tts.current.map (·.loaded) = s.tts.current.map (·.loaded) ∧ t.tts.next = s.tts.next)
    ∧ ((¬ live ∨ s.params.deferLimit = 0) → s.params.hour = s.htb.hour → s.sju.occupancy < 512 →
      ∃ t, exec .serviceSecond s = .next t
        ∧ t.htb.deferral = false ∧ t.htb.secs = 0 ∧ t.htb.stand = 0
        ∧ t.htb.date = s.htb.date + 1#16 ∧ t.tts.currentDate = s.htb.date + 1#16
        ∧ t.tts.generation = s.tts.generation + 1#16
        ∧ BanksSwitched s t (s.htb.date + 1#16)
        ∧ (∀ (i : Fin 4) (q : Quote), t.fqu.slots[i] ≠ .opened q)
        ∧ t.sju.totals = {}
        ∧ t.sju.journal
            = s.sju.journal ++ [⟨s.sju.writeSeq, .dayTotal s.htb.date s.sju.totals⟩])
    ∧ ((¬ live ∨ s.params.deferLimit = 0) → ClockStands s → ∃ t, exec .serviceSecond s = .next t
        ∧ t.htb.date = s.htb.date + 1#16 ∧ t.htb.hour = s.params.hour ∧ t.htb.deferral = false
        ∧ (t.htb.secs : Int) - t.htb.stand = 3600 * ((s.htb.hour : Int) - s.params.hour)
        ∧ (t.htb.secs = 0 ∨ t.htb.stand = 0) ∧ BanksSwitched s t (s.htb.date + 1#16)
        ∧ t.sju.totals = {}))
  ∧ ∀ (s : State) (f : RxFrame) (rest : List RxFrame) (pins : StrapPins) (x : Byte),
    OwnFrame s f rest 5#8 → f.payload = [4#8, x] →
    (s.htb.sync = .unset ∨ s.htb.secs < 86400 →
      exec (.frameClassify .up pins) s = .next (freed s rest))
    ∧ (s.htb.sync ≠ .unset → 86400 ≤ s.htb.secs → s.params.hour = s.htb.hour →
      let date := s.htb.date + BitVec.ofNat 16 (s.htb.secs / 86400)
      ∃ t, exec (.frameClassify .up pins) s = .next t
        ∧ t.htb = { s.htb with
            date := date, secs := s.htb.secs % 86400, stand := 0, deferral := false }
        ∧ BanksSwitched s t date ∧ (∀ (i : Fin 4) (q : Quote), t.fqu.slots[i] ≠ .opened q)
        ∧ t.sju.totals = {} ∧ OnlyTrade { freed s rest with htb := t.htb } t)

/-- Each second of uptime advances the count and composes the rows of every present screen; each
multiple of 60 calls for a minute tick, at which every running call more than 1800 s past its expected
departure becomes EXPIRED and no other call changes its state. That a due tick is held until MINUTE_TICK
comes, and that a MINUTE_TICK that nothing called for does nothing, is the model's reading (log
entry 23). -/
def Obligations.UptimeAndMinuteTick : Prop :=
  ∀ s : State, s.powered = true →
    (∃ t, exec .uptimeSecond s = .next t
      ∧ t.htb = { s.htb with
          uptime := min (s.htb.uptime + 1) 4294967295
          minuteDue := s.htb.minuteDue || min (s.htb.uptime + 1) 4294967295 % 60 == 0 }
      ∧ (∀ (n : ScreenNo) (sc sc' : Screen), s.bdc.screen n = some sc →
        sc.rows.length = n.departureRows + 1 → t.bdc.screen n = some sc' →
        sc'.rows.map (·.image) = s.rowsOf n)
      ∧ t = { s with htb := t.htb, bdc := t.bdc })
    ∧ (s.htb.minuteDue = false → exec .minuteTick s = .next s)
    ∧ (s.htb.minuteDue = true → BankOrdered s.tts.current → ∃ t, exec .minuteTick s = .next t
      ∧ t.htb = { s.htb with minuteDue := false }
      ∧ t.tts.current.map (·.loaded) = s.tts.current.map (·.loaded)
      ∧ t.tts.current.map (·.state) = s.tts.current.map (fun c =>
          if c.isRunning = true ∧ c.expected + 1800 < s.htb.secs then .expired else c.state)
      ∧ t = { s with up := t.up, htb := t.htb, tts := t.tts, sru := t.sru, bdc := t.bdc
                     fqu := t.fqu, sju := t.sju, tpi := t.tpi })

/-- A TIME for this halt: of bad form, counted; the first, always applied; later ones applied within
300 s of the held time or under FORCE, and otherwise counted and refused. An applied one is placed by its
target: inside the day it sets s; up to 7200 s before the day the halt stands until it begins; further
before it, FORCE puts the earlier date in force and any other stands 7200 s; at or past 86400 the
rollover check follows, or the deferral tests; a whole day past it the day switch is made. -/
def Obligations.TimeIsJudged : Prop :=
  ∀ (s : State) (pins : StrapPins) (f : RxFrame) (rest : List RxFrame),
    s.powered = true → s.fru.unaddressed = false → s.up.buffers = f :: rest → f.kind = 2#8 →
    f.destination = s.own.haltCode →
    let taken : State := { s with up := { s.up with buffers := rest } }
    (f.payload.length ≠ 6 ∨ 86400 ≤ field f.payload 2 3 →
      exec (.frameClassify .up pins) s = .next { taken with
        htb := { s.htb with ctr := { s.htb.ctr with form := tally s.htb.ctr.form } } })
    ∧ (f.payload.length = 6 → field f.payload 2 3 < 86400 →
      let date := word f.payload 0
      let secs := field f.payload 2 3
      let force := flagSet (field f.payload 5 1)
      let held : Int := if s.htb.stand = 0 then s.htb.secs else -(s.htb.stand : Int)
      let target : Int := secs + 86400 * (date - s.htb.date).toInt
      (s.htb.sync = .unset → ∃ t, exec (.frameClassify .up pins) s = .next t
        ∧ t.htb = { s.htb with
            date := date, secs := secs, stand := 0, deferral := false, sinceSync := 0
            sync := .locked, hour := s.params.hour }
        ∧ t.tts.currentDate = date)
      ∧ (s.htb.sync ≠ .unset → force = false → target - held < -300 ∨ 300 < target - held →
        exec (.frameClassify .up pins) s = .next { taken with
          htb := { s.htb with ctr := { s.htb.ctr with rejected := tally s.htb.ctr.rejected } } })
      ∧ (s.htb.sync ≠ .unset → force = true ∨ (-300 ≤ target - held ∧ target - held ≤ 300) →
        0 ≤ target → target < 86400 → ∃ t, exec (.frameClassify .up pins) s = .next t
          ∧ t.htb = { s.htb with
              secs := target.toNat, stand := 0, deferral := false, sinceSync := 0
              sync := .locked })
      ∧ (s.htb.sync ≠ .unset → force = true ∨ (-300 ≤ target - held ∧ target - held ≤ 300) →
        let live := ∃ c ∈ s.tts.current, (c.state = .scheduled ∨ c.state = .running)
          ∧ target ≤ c.expected + 60
        let limit : Int := 86400 + 60 * s.params.deferLimit
        ∃ t, exec (.frameClassify .up pins) s = .next t
          ∧ t = { s with
              up := t.up, htb := t.htb, tts := t.tts, sru := t.sru, bdc := t.bdc, fqu := t.fqu
              sju := t.sju, tpi := t.tpi }
          ∧ (-7200 ≤ target → target < 0 → t.htb = { s.htb with
              secs := 0, stand := (-target).toNat, deferral := false, sinceSync := 0
              sync := .locked })
          ∧ (target < -7200 → force = false → t.htb = { s.htb with
              secs := 0, stand := 7200, deferral := false, sinceSync := 0, sync := .locked })
          ∧ (target < -7200 → force = true →
            t.htb = { s.htb with
              date := date, secs := secs, stand := 0, deferral := false, sinceSync := 0
              sync := .locked }
            ∧ BanksSwitched s t date ∧ ∀ (i : Fin 4) (q : Quote), t.fqu.slots[i] ≠ .opened q)
          ∧ (86400 ≤ target → target < 172800 → live → target < limit →
            t.htb = { s.htb with
              secs := target.toNat, stand := 0, deferral := true, sinceSync := 0, sync := .locked }
            ∧ t.tts.generation = s.tts.generation)
          ∧ (86400 ≤ target → 172800 ≤ target ∨ ¬ live ∨ limit ≤ target →
            s.params.hour = s.htb.hour →
            t.htb = { s.htb with
              date := date, secs := secs, stand := 0, deferral := false, sinceSync := 0
              sync := .locked, ctr := t.htb.ctr }
            ∧ BanksSwitched s t date
            ∧ (∀ (i : Fin 4) (q : Quote), t.fqu.slots[i] ≠ .opened q) ∧ t.sju.totals = {})))

/-! ## Timetable and forecast (05, 06) -/

/-- What the four RUN events do to a matched call at an addressed halt. CANCEL moves SCHEDULED, RUNNING
and EXPIRED to CANCELLED. POINT departs a running call at a point past the halt, and otherwise gives it
the report if that supersedes the held one. REINSTATE makes a CANCELLED call SCHEDULED without a report,
its kept request tested again and, as the model reads R115 (log entry 29), sent at most once. PLATFORM
moves a running call. An event for a call in any other state is counted RUN_STALE alone. -/
def Obligations.RunCancel : Prop :=
  (∀ (s : State) (p : Port) (pins : StrapPins) (f : RxFrame) (rest : List RxFrame) (k : Key)
    (c : Call),
    s.powered = true → s.fru.unaddressed = false → (s.port p).buffers = f :: rest →
    f.kind = 9#8 → RunNotice.ofPayload f.payload = some ⟨k, .cancel⟩ → s.call k = some c →
    ∃ t, exec (.frameClassify p pins) s = .next t
      ∧ (c.state = .scheduled ∨ c.state = .running ∨ c.state = .expired →
        (∃ c', t.call k = some c' ∧ c'.state = .cancelled ∧ c'.loaded = c.loaded
          ∧ c'.report = c.report ∧ c'.forecast = c.forecast ∧ c'.stop = c.stop
          ∧ c'.stopCause = c.stopCause ∧ c'.resend = .stopped)
        ∧ ∀ (i : Fin 4) (q : Quote), q.call = some k →
          (s.fqu.slots[i] = .opened q → t.fqu.slots[i] = .free)
            ∧ ∀ w, s.fqu.slots[i] = .pendingAuth q w → t.fqu.slots[i] = .pendingAuth q true)
      ∧ (c.state = .cancelled → t.tts = s.tts)
      ∧ (c.state = .departed →
        t.tts = { s.tts with ctr := { s.tts.ctr with runStale := tally s.tts.ctr.runStale } }))
  ∧ ∀ (s : State) (p : Port) (pins : StrapPins) (f : RxFrame) (rest : List RxFrame) (n : RunNotice)
    (c : Call),
    s.powered = true → s.fru.unaddressed = false → (s.port p).buffers = f :: rest →
    f.kind = 9#8 → RunNotice.ofPayload f.payload = some n → s.call n.key = some c →
    BankOrdered s.tts.current →
    let stale : Tts :=
      { s.tts with ctr := { s.tts.ctr with runStale := tally s.tts.ctr.runStale } }
    let running := c.state = .scheduled ∨ c.state = .running
    ∃ t, exec (.frameClassify p pins) s = .next t
      ∧ (∀ code delay time, n.event = .point code delay time →
        let past := c.loaded.beyond = some code
          ∨ (code = s.params.ownPoint ∧ s.params.ownPoint ≠ 0#16)
        let i := pointIndex c.loaded.points code
        let newer := ∀ r, c.report = some r → r.index < i ∨ (r.index = i ∧ r.time < time)
        (¬ running → t.tts = stale)
        ∧ (running → past → (∃ c', t.call n.key = some c' ∧ c'.state = .departed
            ∧ c'.loaded = c.loaded ∧ c'.report = c.report ∧ c'.forecast = c.forecast
            ∧ c'.stop = c.stop ∧ c'.resend = .stopped) ∧ QuotesWithdrawn s t n.key)
        ∧ (running → ¬ past → newer → ∃ c', t.call n.key = some c' ∧ c'.state = .running
            ∧ c'.loaded = c.loaded ∧ c'.report = some ⟨code, i, delay, time, some s.htb.uptime⟩
            ∧ c'.forecast
                = delayAfter s.params.phi delay (remainingAllowance c.loaded.points i))
        ∧ (running → ¬ past → ¬ newer → t.tts = stale))
      ∧ (n.event = .reinstate →
        (c.state ≠ .cancelled → t.tts = stale)
        ∧ (c.state = .cancelled → ∃ c', t.call n.key = some c' ∧ c'.state = .scheduled
            ∧ c'.loaded = c.loaded ∧ c'.report = none ∧ c'.forecast = 0
            ∧ c'.stopCause = c.stopCause
            ∧ (c.stop = .none ∨ c.stop = .confirmed → c'.stop = c.stop)
            ∧ (c.stop = .wanted ∨ c.stop = .sent ∨ c.stop = .late →
              (PastCutoff s c' → c'.stop = .late)
                ∧ (¬ PastCutoff s c' → s.up.lsu.state = .service →
                  c'.stop = .sent ∧ c'.resend = .running 30000)
                ∧ (¬ PastCutoff s c' → s.up.lsu.state ≠ .service → c'.stop = .wanted))
            ∧ t.sru.serial = s.sru.serial + (if c'.stop = .sent then 1#8 else 0#8)))
      ∧ (∀ pl, n.event = .platform pl →
        (¬ running → t.tts = stale)
        ∧ (running → c.loaded.platform = pl → t.tts = s.tts)
        ∧ (running → c.loaded.platform ≠ pl → ∃ c', t.call n.key = some c'
            ∧ c'.loaded = { c.loaded with platform := pl } ∧ c'.state = c.state
            ∧ c'.report = c.report ∧ c'.forecast = c.forecast ∧ c'.stopCause = c.stopCause))

/-- What a live call is, and that the answer is yes when CURRENT holds one and no otherwise. -/
def Obligations.LiveCall : Prop :=
  ∀ s : State, BanksOrdered s →
    (s.hasLiveCall = true ↔ ∃ c ∈ s.tts.current, (c.state = .scheduled ∨ c.state = .running)
      ∧ (s.htb.secs : Int) - 60 ≤ c.expected)
    ∧ (s.tts.currentState = .empty ∨ s.tts.current = [] → s.hasLiveCall = false)

/-- The remaining allowance of a point index, and the forecast delay of a running call in the four
stages of its computation. -/
def Obligations.ForecastDelay : Prop :=
  (∀ (points : List TimingPoint) (k : Nat), points.length ≤ 6 → k ≤ 5 →
    remainingAllowance points k
      = min 3600 (∑ i ∈ Finset.Ico k points.length, ((points.map (·.allowance)).getD i 0)))
  ∧ (∀ points : List TimingPoint, remainingAllowance points (-1) = 0)
  ∧ ∀ (s : State) (c : Call), (c.state = .scheduled ∨ c.state = .running) →
    (c.report = none → (s.deriveCall c).forecast = 0)
    ∧ ∀ r, c.report = some r →
      let late : Int := max 0 r.delay
      let recoverable : Int := min late (remainingAllowance c.loaded.points r.index)
      let recovered : Int := recoverable * s.params.phi / 100
      ((s.deriveCall c).forecast : Int) = max 0 (min 21600 (late - recovered))

/-! ## Request stops and platform inputs (07) -/

/-- The buttons and the departure contacts. A press on a RELEASED button is announced as activity and
chooses the call inside its window with the smallest E, the first in bank order among equals; with none,
the lamp flashes fast for 5 s; a chosen call with no request becomes WANTED and, with the Up port in
SERVICE, is SENT in a STOPREQ offered to the Up queue. A button that is PRESSED makes no press. A pulse
inside the lockout is only counted. Any other starts the lockout; with no call in its span it is counted;
otherwise the call nearest to s, the first in bank order among equals, has DEPARTED, and a halt with a
timing point of its own offers a RUN to both queues. -/
def Obligations.PlatformInputsAct : Prop :=
  (∀ (s : State) (p : Platform), s.powered = true → (s.sru.io p).button = .pressed →
    exec (.buttonPress p) s = .next s)
  ∧ (∀ (s : State) (p : Platform), s.powered = true → (s.sru.io p).button = .released →
    ((∀ c ∈ s.tts.current, ¬ PressEligible s p c) → ∃ t, exec (.buttonPress p) s = .next t
      ∧ (t.sru.io p).button = .pressed ∧ (t.sru.io p).noTarget = .running 5000
      ∧ (t.sru.io p).lamp = .fastFlash
      ∧ t.sru.ctr = { s.sru.ctr with noTarget := tally s.sru.ctr.noTarget }
      ∧ t.bdc.activity = .running 60000 ∧ t = { s with sru := t.sru, bdc := t.bdc })
    ∧ ∀ (before after : List Call) (c : Call), BankOrdered s.tts.current →
      s.tts.current = before ++ c :: after → PressEligible s p c →
      (∀ x ∈ before, PressEligible s p x → c.expected < x.expected) →
      (∀ x ∈ after, PressEligible s p x → c.expected ≤ x.expected) →
      ∃ t, exec (.buttonPress p) s = .next t ∧ (t.sru.io p).button = .pressed
        ∧ (t.sru.io p).noTarget = .stopped ∧ t.bdc.activity = .running 60000
        ∧ (c.stop ≠ .none → t.tts = s.tts ∧ t.up = s.up ∧ t.sru.serial = s.sru.serial)
        ∧ (c.stop = .none → s.up.lsu.state ≠ .service →
          t.tts.current = before ++ { c with stop := .wanted, stopCause := some .button } :: after
          ∧ t.up = s.up ∧ t.sru.serial = s.sru.serial)
        ∧ (c.stop = .none → s.up.lsu.state = .service →
          t.tts.current = before ++ { c with
            stop := .sent, stopCause := some .button, resend := .running 30000 } :: after
          ∧ t.sru.serial = s.sru.serial + 1#8
          ∧ t.sru.ctr.stopreqBuilt = tally s.sru.ctr.stopreqBuilt
          ∧ (s.fru.unaddressed = false → Room s.up .urgent →
            QueuedUp s t (stopreqOf s { c with stopCause := some .button })))
        ∧ OnlyTrade s t)
  ∧ ∀ (s : State) (p : Platform), s.powered = true →
    ((s.sru.io p).lockout.isRunning = true →
      exec (.contactPulse p) s = .next { s with sru := { s.sru with
        ctr := { s.sru.ctr with contactRepeat := tally s.sru.ctr.contactRepeat } } })
    ∧ ((s.sru.io p).lockout.isRunning = false → (∀ c ∈ s.tts.current, ¬ PulseEligible s p c) →
      exec (.contactPulse p) s = .next ((s.modIo p fun io => { io with
        lockout := .running 10000 }).modSruCtr fun k => { k with
          contactUnmatched := tally k.contactUnmatched }))
    ∧ ((s.sru.io p).lockout.isRunning = false → BankOrdered s.tts.current →
      ∀ (before after : List Call) (c : Call),
      s.tts.current = before ++ c :: after → PulseEligible s p c →
      (∀ x ∈ before, PulseEligible s p x →
        ((s.htb.secs : Int) - c.expected).natAbs < ((s.htb.secs : Int) - x.expected).natAbs) →
      (∀ x ∈ after, PulseEligible s p x →
        ((s.htb.secs : Int) - c.expected).natAbs ≤ ((s.htb.secs : Int) - x.expected).natAbs) →
      ∃ t, exec (.contactPulse p) s = .next t
        ∧ (t.sru.io p).lockout = .running 10000
        ∧ (∃ c', t.call c.key = some c' ∧ c'.loaded = c.loaded ∧ c'.state = .departed
          ∧ c'.forecast = c.forecast ∧ c'.report = c.report ∧ c'.stop = c.stop
          ∧ c'.resend = .stopped)
        ∧ QuotesWithdrawn s t c.key
        ∧ (∀ x ∈ s.tts.current, x ≠ c → ∃ x' ∈ t.tts.current,
          x'.key = x.key ∧ x'.state = x.state)
        ∧ (s.params.ownPoint = 0#16 →
          t.sru.ctr.contactNoPoint = tally s.sru.ctr.contactNoPoint
            ∧ t.up = s.up ∧ t.down = s.down)
        ∧ (s.params.ownPoint ≠ 0#16 → s.fru.unaddressed = false → Room s.up .urgent →
          QueuedUp s t (runOf s c))
        ∧ (s.params.ownPoint ≠ 0#16 → s.fru.unaddressed = false → Room s.down .urgent →
          t.down.queue = s.down.queue ++ [runOf s c])
        ∧ t = { s with
            up := t.up, down := t.down, tts := t.tts, sru := t.sru, bdc := t.bdc, fqu := t.fqu
            sju := t.sju, tpi := t.tpi })

/-- A release makes the button RELEASED; the lockout's end stops its timer; the end of the no-target
indication stops its timer and gives the lamp back to the lamp call. -/
def Obligations.PlatformTimers : Prop :=
  ∀ (s : State) (p : Platform), s.powered = true →
    exec (.buttonRelease p) s = .next (s.modIo p fun io => { io with button := .released })
    ∧ ((s.sru.io p).lockout.isRunning = true →
      exec (.contactLockoutExpiry p) s = .next (s.modIo p fun io => { io with lockout := .stopped }))
    ∧ ((s.sru.io p).noTarget.isRunning = true → ∃ t, exec (.noTargetExpiry p) s = .next t
      ∧ (t.sru.io p).noTarget = .stopped
      ∧ (t.sru.io p).lamp = (match s.lampCall p with
        | none => .off
        | some c => match c.stop with
          | .none => .off
          | .wanted | .sent => .slowFlash
          | .confirmed => .steady
          | .late => .fastFlash)
      ∧ t = { s with sru := t.sru })

/-- An expired resend timer of a SENT call builds a new STOPREQ with the next serial, offered to the Up
queue in class URGENT, and starts again; any other expiry does nothing. A STOPCONF for a running call
that is WANTED, SENT or LATE makes it CONFIRMED with its resend timer stopped; one for a CONFIRMED call
changes nothing; any other is counted. -/
def Obligations.ResendBuildsStopreq : Prop :=
  (∀ (s : State) (k : Key), s.powered = true →
    (∀ c, s.call k = some c → c.stop = .sent → c.resend.isRunning = true →
      ∃ t, exec (.resendExpiry k) s = .next t
        ∧ t.tts.current = s.tts.current.map (fun x =>
            if x.key = k then { x with stop := .sent, resend := .running 30000 } else x)
        ∧ t.sru.serial = s.sru.serial + 1#8
        ∧ t.sru.ctr.stopreqBuilt = tally s.sru.ctr.stopreqBuilt
        ∧ (s.fru.unaddressed = false → Room s.up .urgent → ∃ js, AllJrnl js
          ∧ t.up.queue = s.up.queue ++ (⟨.urgent, ⟨13#8, 65535#16, s.own.haltCode,
              BitVec.ofNat 8 s.params.initialHop,
              .octets (be 2 c.loaded.train.toNat ++ be 2 c.loaded.runDate.toNat
                ++ [match c.loaded.platform with | .one => 1#8 | .two => 2#8,
                    match c.stopCause with | none => 0#8 | some .button => 1#8 | some .ticket => 2#8,
                    s.sru.serial])⟩⟩ : Queued) :: js)
        ∧ t = { s with up := t.up, tts := t.tts, sru := t.sru, sju := t.sju })
    ∧ ((∀ c, s.call k = some c → ¬ (c.stop = .sent ∧ c.resend.isRunning = true)) →
      exec (.resendExpiry k) s = .next s))
  ∧ ∀ (s : State) (f : RxFrame) (rest : List RxFrame) (pins : StrapPins),
    OwnFrame s f rest 8#8 →
    let k : Key := ⟨word f.payload 0, word f.payload 2⟩
    let counted := fun (n : SruCounters) =>
      exec (.frameClassify .up pins) s = .next { freed s rest with sru := { s.sru with ctr := n } }
    (f.payload.length ≠ 4 → counted { s.sru.ctr with confForm := tally s.sru.ctr.confForm })
    ∧ (f.payload.length = 4 →
      (∀ c, s.call k = some c → c.isRunning = false ∨ c.stop = .none) →
      counted { s.sru.ctr with confUnexpected := tally s.sru.ctr.confUnexpected })
    ∧ (f.payload.length = 4 → ∀ c, s.call k = some c → c.isRunning = true →
      (c.stop = .confirmed → exec (.frameClassify .up pins) s = .next (freed s rest))
      ∧ (c.stop = .wanted ∨ c.stop = .sent ∨ c.stop = .late →
        ∃ t, exec (.frameClassify .up pins) s = .next t
          ∧ t.tts = { s.tts with current := s.tts.current.map (fun x =>
              if x.key = k then { x with stop := .confirmed, resend := .stopped } else x) }
          ∧ (s.tpi.ring.length < 32 → t.tpi.ring = s.tpi.ring ++ [.stopState k .confirmed])
          ∧ t = { freed s rest with tts := t.tts, sru := t.sru, bdc := t.bdc, tpi := t.tpi }))

/-! ## Loads of the centre (03, 05, 08, 09, 11) -/

/-- What a LOAD sent to this halt does, by subkind. One of bad form, or that finds no room, no record, a
bank in another state or another date, is counted alone. CALL_ADD puts its record into the bank, replaces
the one of its key, and in CURRENT moves the generation and invalidates quotes that name a replaced call;
CALL_DELETE takes a record out. BANK_OPEN empties NEXT and sets it LOADING for a date; BANK_CLOSE makes it
READY if the count agrees, and is answered. A FARE row is stored in the PENDING table; FARE_ACTIVATE puts
that table in force at once, or at an instant, and every quote goes. MESSAGE stores a record in the slot
of its id or the lowest free one; MESSAGE_DELETE removes it. CONFIG stores a value within its range and
no other (A2 follows A1 up), and the value acts at once on what depends on it: forecasts, confidence,
displays, stop requests, the dark test, a deferral, quotes, brightness, screens, and the port it names;
WINDOW stores, clears or refuses a group window. That a bank octet which names no bank is bad form is the
model's reading (log entry 18), and so is how a MESSAGE's presence octet and window ends and a FARE row's
marks are read (log entry 21), that a load of the present value is acted on (log entry 45) and that one
of brightness, dim divisor or night window acts during the warm-up of a start (log entry 24). -/
def Obligations.LoadsAct : Prop :=
  ∀ (s : State) (f : RxFrame) (rest : List RxFrame) (pins : StrapPins) (kind : LoadKind),
    OwnFrame s f rest 3#8 → LoadKind.ofPayload f.payload = some kind →
    (kind = .callAdd → CallAddActs s rest pins f.payload)
    ∧ (kind = .callDelete → CallDeleteActs s rest pins f.payload)
    ∧ (kind = .bankOpen → BankOpenActs s rest pins f.payload)
    ∧ (kind = .bankClose → BankCloseActs s rest pins f.payload)
    ∧ (kind = .fare → FareActs s rest pins f.payload)
    ∧ (kind = .fareActivate → FareActivateActs s rest pins f.payload)
    ∧ (kind = .message → MessageActs s rest pins f.payload)
    ∧ (kind = .messageDelete → MessageDeleteActs s rest pins f.payload)
    ∧ (kind = .config → ConfigActs s rest pins f.payload ∧ ConfigEffects s rest pins f.payload
      ∧ PortConfigEffects s rest pins f.payload)
    ∧ (kind = .window → WindowActs s rest pins f.payload)

/-! ## Boards and screen power (08) -/

/-- A message sent, the link takes the next pending item: it stays free only in DARK, in a warm-up, or
with no mark left. The first screen in number with a mark sends its brightness if that is marked, else
its first marked row from the top; that mark alone is cleared. No image changes. -/
def Obligations.LinkTakesTheNextItem : Prop :=
  ∀ s : State, s.powered = true → ∃ t, exec .screenMessageSent s = .next t
    ∧ t = { s with bdc := t.bdc }
    ∧ (s.bdc.energy = .dark ∨ s.bdc.warmUp.isRunning = true →
      t.bdc = { s.bdc with link := none })
    ∧ (s.bdc.energy ≠ .dark → s.bdc.warmUp.isRunning = false → t.bdc.link = none →
      ∀ (n : ScreenNo) (sc : Screen), t.bdc.screen n = some sc →
        sc.brightnessPending = false ∧ ∀ r ∈ sc.rows, r.pending = false)
    ∧ (s.bdc.energy ≠ .dark → s.bdc.warmUp.isRunning = false →
      ∀ sc, s.bdc.one = some sc → sc.brightnessPending = true →
        t.bdc.link = some (.brightness .one s.bdc.brightness)
          ∧ t.bdc.one = some { sc with brightnessPending := false })
    ∧ (s.bdc.energy ≠ .dark → s.bdc.warmUp.isRunning = false →
      ((∀ (n : ScreenNo) (sc : Screen), s.bdc.screen n = some sc → Unmarked sc) →
        t.bdc = { s.bdc with link := none })
      ∧ ∀ (n : ScreenNo) (sc : Screen), s.bdc.screen n = some sc →
        (∀ (m : ScreenNo) (x : Screen), m.bit < n.bit → s.bdc.screen m = some x → Unmarked x) →
        (sc.brightnessPending = true →
          t.bdc = { s.bdc.setScreen n (some { sc with brightnessPending := false }) with
            link := some (.brightness n s.bdc.brightness) })
        ∧ (sc.brightnessPending = false → ∀ (before after : List RowCell) (r : RowCell),
          sc.rows = before ++ r :: after → (∀ x ∈ before, x.pending = false) →
          r.pending = true →
          t.bdc = { s.bdc.setScreen n (some { sc with
              rows := before ++ { r with pending := false } :: after }) with
            link := some (.row n (before.length + 1) r.image) }))
    ∧ ∀ (n : ScreenNo), (t.bdc.screen n).map (fun sc => sc.rows.map (·.image))
        = (s.bdc.screen n).map (fun sc => sc.rows.map (·.image))

/-- The LOW_ENERGY level, or the night window, makes the mode DIM and otherwise LIT, with the brightness
of that mode; DARK stays DARK. That it does so during the warm-up of a start too is the model's choice
(log entry 24). -/
def Obligations.LowEnergyDims : Prop :=
  ∀ (s : State) (asserted : Bool), s.powered = true →
    ∃ t, exec (.lowEnergyChange asserted) s = .next t ∧ t.lowEnergy = asserted
      ∧ t = { s with lowEnergy := asserted, bdc := t.bdc }
      ∧ (s.bdc.energy = .dark → t.bdc = s.bdc)
      ∧ (s.bdc.energy ≠ .dark →
        let night := s.htb.sync ≠ .unset
          ∧ s.params.night.contains (clockMinute s.htb.hour s.htb.secs) = true
        (asserted = true ∨ night → t.bdc.energy = .dim
          ∧ t.bdc.brightness = max 1 (s.params.brightness / s.params.dimDivisor))
        ∧ (asserted = false → ¬ night → t.bdc.energy = .lit
          ∧ t.bdc.brightness = s.params.brightness))

/-- The activity timer's expiry makes the screens DARK when no shown call is due, no valid message has
priority 2 or 3, the notice ring is empty and the time is set: supply off, the link cut off, every
mark cleared, the entry counted. -/
def Obligations.ActivityEndsInDark : Prop :=
  ∀ s : State, s.powered = true → s.bdc.activity.isRunning = true →
    s.bdc.warmUp.isRunning = false → s.bdc.energy ≠ .dark →
    (∀ n, (s.bdc.screen n).isSome → ∀ c ∈ s.shownCalls n, c.isRunning = true →
      s.htb.secs + 60 * s.params.darkLead < c.expected) →
    (∀ m ∈ s.bdc.valid, m.priority < 2) → s.tpi.ring = [] → s.htb.sync ≠ .unset →
    ∃ t, exec .activityExpiry s = .next t
      ∧ t.bdc.energy = .dark ∧ t.bdc.supply = false ∧ t.bdc.link = none
      ∧ t.bdc.activity = .expired
      ∧ t.bdc.ctr = { s.bdc.ctr with darkEntries := tally s.bdc.ctr.darkEntries }
      ∧ (∀ (n : ScreenNo) (sc : Screen), t.bdc.screen n = some sc →
        sc.brightnessPending = false ∧ ∀ r ∈ sc.rows, r.pending = false)
      ∧ t = { s with bdc := t.bdc }

/-- The end of a warm-up marks every row and brightness, and the link begins the refresh with the
brightness of the first present screen; the warm-up of a start chooses LIT or DIM, that of a wake keeps
the mode chosen at the wake. When the dark conditions hold, the screens go DARK at once instead. That a
start's warm-up chooses is R139's (8.7); that it is told by its wake cause NONE is the model's choice (log
entry 24). -/
def Obligations.WarmUpRefreshes : Prop :=
  (∀ (s : State) (sc : Screen), s.powered = true → s.bdc.warmUp.isRunning = true →
    s.htb.sync = .unset → s.bdc.energy ≠ .dark → s.bdc.link = none → s.bdc.one = some sc →
    ∃ t, exec .warmUpExpiry s = .next t
      ∧ t.bdc.warmUp = .stopped ∧ t.bdc.energy ≠ .dark
      ∧ t.bdc.link = some (.brightness .one t.bdc.brightness)
      ∧ (∀ (n : ScreenNo) (x : Screen), t.bdc.screen n = some x →
        (n ≠ .one → x.brightnessPending = true) ∧ ∀ r ∈ x.rows, r.pending = true)
      ∧ t = { s with bdc := t.bdc })
  ∧ (∀ s : State, s.powered = true → s.bdc.warmUp.isRunning = false →
    exec .warmUpExpiry s = .next s)
  ∧ ∀ s : State, s.powered = true → s.bdc.warmUp.isRunning = true → s.bdc.energy ≠ .dark →
    ∃ t, exec .warmUpExpiry s = .next t ∧ t = { s with bdc := t.bdc }
      ∧ t.bdc.warmUp = .stopped ∧ t.bdc.wakeCause = s.bdc.wakeCause
      ∧ (DarkConditions s → t.bdc.energy = .dark ∧ t.bdc.supply = false ∧ t.bdc.link = none
        ∧ (∀ (n : ScreenNo) (x : Screen), t.bdc.screen n = some x → Unmarked x)
        ∧ t.bdc.ctr = { s.bdc.ctr with darkEntries := tally s.bdc.ctr.darkEntries })
      ∧ (¬ DarkConditions s →
        let night := s.htb.sync ≠ .unset
          ∧ s.params.night.contains (clockMinute s.htb.hour s.htb.secs) = true
        (s.bdc.wakeCause ≠ .none →
          t.bdc.energy = s.bdc.energy ∧ t.bdc.brightness = s.bdc.brightness)
        ∧ (s.bdc.wakeCause = .none → s.lowEnergy = true ∨ night → t.bdc.energy = .dim
          ∧ t.bdc.brightness = max 1 (s.params.brightness / s.params.dimDivisor))
        ∧ (s.bdc.wakeCause = .none → s.lowEnergy = false → ¬ night → t.bdc.energy = .lit
          ∧ t.bdc.brightness = s.params.brightness)
        ∧ (∀ (n : ScreenNo) (x : Screen), t.bdc.screen n = some x →
          ∀ r ∈ x.rows, r.pending = true)
        ∧ ∀ n : ScreenNo, s.bdc.link = none → (s.bdc.screen n).isSome →
          (∀ m : ScreenNo, m.bit < n.bit → s.bdc.screen m = none) →
          t.bdc.link = some (.brightness n t.bdc.brightness)
            ∧ ∀ (m : ScreenNo) (x : Screen), t.bdc.screen m = some x →
              x.brightnessPending = decide (m ≠ n))

/-! ## Fares, quotes and search (09) -/

/-- A price is rounded to the nearest multiple of the rounding unit, halves up, and saturates; a total
is the unit price times a quantity of 1..9; QUERY PRICE answers by the same computation. -/
def Obligations.RoundedPrice : Prop :=
  (∀ unit p : Nat, 0 < unit → p ≤ 65535 →
    roundFare unit p = min 65535 (unit * ((2 * p + unit) / (2 * unit))))
  ∧ (∀ (t : FareTable) (d : DestinationRecord) (y : TicketType) (k : Option Concession)
      (m : Option Nat),
    t.unitPrice d y k m = roundFare t.unit (concede
      (min 65535 (t.base[min 15 ((d.distance - 1) / 4)]! * y.multiplier / 100)
        * t.factorAt m / 100) k))
  ∧ (∀ (s : State) (r : QuoteRequest) (i : Fin 4) (q : Quote) (c : Option Call),
    s.judgeQuote r = .ok (i, q, c) →
      q.total = q.unitPrice * q.quantity ∧ 1 ≤ q.quantity ∧ q.quantity ≤ 9)
  ∧ ∀ (s : State) (t : FareTable) (d : DestinationRecord) (y : TicketType)
      (type cls time quantity : Nat) (k : Option (Fin 4)),
    s.sellableTo d.code = .ok (t, d) → t.terms (BitVec.ofNat 8 type) cls quantity = some (y, k) →
    s.priceAnswer d.code type cls time quantity =
      (let unit := t.unitPrice d y (k.bind fun i => t.classes[i])
        (some (clockMinute s.htb.hour time))
       (.ok, .price unit (unit * quantity) s.fqu.activations))

/-- An accepted QUOTE for an open ticket opens the lowest-numbered FREE slot with the request, the price
and the uptime, and is answered with them; a CLOSED halt answers SALES_CLOSED and changes no slot. One
that names a call is judged on that call too and priced at its scheduled time, and its answer tells
whether the ticket will ask the train to stop. The first of the tests of R147 that fails gives the
refusal, which changes no slot; that a class octet of 0 means none is the model's reading (log
entry 31). -/
def Obligations.QuoteOpensASlot : Prop :=
  ∀ (s : State) (r : QuoteRequest), Listening s →
    (s.sju.salesMode = .closed → ∃ t, exec (.quote r) s = .next t
      ∧ t.tpi.replies = s.tpi.replies ++ [⟨129#8, .salesClosed, .empty⟩] ∧ OnlyTerminal s t)
    ∧ (∀ (table : FareTable) (d : DestinationRecord) (y : TicketType) (k : Option (Fin 4))
        (i : Fin 4),
      s.sju.salesMode ≠ .closed → s.fqu.active = some table →
      table.destination r.destination = some d → d.sellable = true →
      r.destination ∉ s.bdc.held → table.typeOf r.type = some y →
      table.classNamed r.cls.toNat = some k → 1 ≤ r.quantity.toNat → r.quantity.toNat ≤ 9 →
      r.callPresent = 0#8 → y.rule ≠ .specifiedCall →
      (y.rule = .offPeakOnly → table.cheapAt s.minute = true) →
      s.fqu.slots[i] = .free → (∀ j : Fin 4, j < i → s.fqu.slots[j] ≠ .free) →
      let unit := table.unitPrice d y (k.bind fun i => table.classes[i]) s.minute
      let total := unit * r.quantity.toNat
      ∃ t, exec (.quote r) s = .next t
        ∧ t.fqu = { s.fqu with slots := s.fqu.slots.set i (.opened {
            destination := r.destination, type := r.type, cls := k, call := none
            unitPrice := unit, quantity := r.quantity.toNat, total := total
            created := s.htb.uptime }) }
        ∧ t.tpi.replies = s.tpi.replies
            ++ [⟨129#8, .ok, .quote i unit total s.fqu.activations false⟩]
        ∧ t.sju = { s.sju with quotesHeld := openSlots t.fqu.slots }
        ∧ t = { s with bdc := t.bdc, fqu := t.fqu, sju := t.sju, tpi := t.tpi })
    ∧ (s.sju.salesMode ≠ .closed →
      let refused := RefusedWith (.quote r) s 129#8
      let full := ∀ i : Fin 4, s.fqu.slots[i] ≠ .free
      ((∀ table, s.fqu.active = some table → table.destination r.destination = none) →
        refused .noDest)
      ∧ ∀ (table : FareTable) (d : DestinationRecord), s.fqu.active = some table →
        table.destination r.destination = some d →
        (d.sellable = false → refused .notSellable)
        ∧ (d.sellable = true → r.destination ∈ s.bdc.held → refused .held)
        ∧ (d.sellable = true → r.destination ∉ s.bdc.held →
          (table.typeOf r.type = none ∨ table.classNamed r.cls.toNat = none
              ∨ r.quantity.toNat = 0 ∨ 9 < r.quantity.toNat → refused .badMessage)
          ∧ ∀ (y : TicketType) (k : Option (Fin 4)), table.typeOf r.type = some y →
            table.classNamed r.cls.toNat = some k → 1 ≤ r.quantity.toNat → r.quantity.toNat ≤ 9 →
            let cheap := fun (m : Option Nat) => y.rule = .offPeakOnly → table.cheapAt m = true
            (r.callPresent = 0#8 → y.rule = .specifiedCall → refused .noCall)
            ∧ (r.callPresent = 0#8 → y.rule ≠ .specifiedCall →
              (¬ cheap s.minute → refused .typeNotValidNow)
              ∧ (cheap s.minute → full → refused .busy))
            ∧ (r.callPresent = 1#8 →
              (s.call ⟨r.train, r.runDate⟩ = none → refused .noCall)
              ∧ ∀ c : Call, s.call ⟨r.train, r.runDate⟩ = some c →
                let m := some (clockMinute s.htb.hour c.loaded.sched)
                let gone := c.isRunning = false ∨ PastCutoff s c
                (c.loaded.stopMode = .pass → refused .noCall)
                ∧ (c.loaded.stopMode ≠ .pass → gone → refused .callGone)
                ∧ (c.loaded.stopMode ≠ .pass → ¬ gone → r.destination ∉ c.loaded.destinations →
                  refused .noCall)
                ∧ (c.loaded.stopMode ≠ .pass → ¬ gone → r.destination ∈ c.loaded.destinations →
                  (¬ cheap m → refused .typeNotValidNow)
                  ∧ (cheap m → full → refused .busy)
                  ∧ (cheap m → ∀ i : Fin 4, s.fqu.slots[i] = .free →
                    (∀ j : Fin 4, j < i → s.fqu.slots[j] ≠ .free) →
                    let unit := table.unitPrice d y (k.bind fun i => table.classes[i]) m
                    let total := unit * r.quantity.toNat
                    let asks := c.loaded.stopMode == .request && c.stop == .none
                    ∃ t, exec (.quote r) s = .next t
                      ∧ t.fqu = { s.fqu with slots := s.fqu.slots.set i (.opened {
                          destination := r.destination, type := r.type, cls := k
                          call := some c.key, unitPrice := unit
                          quantity := r.quantity.toNat, total := total
                          created := s.htb.uptime }) }
                      ∧ t.tpi.replies = s.tpi.replies
                          ++ [⟨129#8, .ok, .quote i unit total s.fqu.activations asks⟩]
                      ∧ t = { s with bdc := t.bdc, fqu := t.fqu, sju := t.sju
                                     tpi := t.tpi })))))

/-- A cancel frees an OPEN slot without a notice, and is answered BUSY for a slot in authorisation and
QUOTE_UNKNOWN otherwise; an expiry frees an OPEN slot whose time has run, counts it and posts a
notice, and touches no other slot. -/
def Obligations.QuoteSlotEnds : Prop :=
  ∀ (s : State) (i : Fin 4),
    (Listening s →
      (∀ q, s.fqu.slots[i] = .opened q →
        ∃ t, exec (.cancelQuote (BitVec.ofNat 8 i.val)) s = .next t
          ∧ t.fqu = { s.fqu with slots := s.fqu.slots.set i .free } ∧ t.tpi.ring = s.tpi.ring
          ∧ t.tpi.replies = s.tpi.replies ++ [⟨130#8, .ok, .empty⟩]
          ∧ t = { s with bdc := t.bdc, fqu := t.fqu, sju := t.sju, tpi := t.tpi })
      ∧ (∀ q w, s.fqu.slots[i] = .pendingAuth q w →
        ∃ t, exec (.cancelQuote (BitVec.ofNat 8 i.val)) s = .next t
          ∧ t.tpi.replies = s.tpi.replies ++ [⟨130#8, .busy, .empty⟩] ∧ OnlyTerminal s t)
      ∧ ∀ n : Byte, 3 < n.toNat ∨ (n = BitVec.ofNat 8 i.val ∧ s.fqu.slots[i] = .free) →
        ∃ t, exec (.cancelQuote n) s = .next t
          ∧ t.tpi.replies = s.tpi.replies ++ [⟨130#8, .quoteUnknown, .empty⟩] ∧ OnlyTerminal s t)
    ∧ (s.powered = true →
      (∀ q, s.fqu.slots[i] = .opened q → q.created + s.params.quoteExpiry ≤ s.htb.uptime →
        ∃ t, exec (.quoteExpiry i) s = .next t
          ∧ t.fqu = { s.fqu with
              slots := s.fqu.slots.set i .free
              ctr := { s.fqu.ctr with expired := tally s.fqu.ctr.expired } }
          ∧ (s.tpi.ring.length < 32 → t.tpi.ring = s.tpi.ring ++ [.quoteWithdrawn i])
          ∧ t = { s with bdc := t.bdc, fqu := t.fqu, sju := t.sju, tpi := t.tpi })
      ∧ ((∀ q, s.fqu.slots[i] = .opened q → s.htb.uptime < q.created + s.params.quoteExpiry) →
        exec (.quoteExpiry i) s = .next s))

/-- A FIND is answered with calls of CURRENT alone that run, stop, serve the destination and are not
past their sales cutoff, at most as many as it asks for; an END answer without a token has missed none
at or after its start. A token of another generation is STALE, an EMPTY CURRENT is END, and a start
above 91799 or a count outside 1..4 is BAD_MESSAGE. From its start position, the token's or that of the
first call at or after the start, the scan examines records in bank order: FOUND as the count is
reached, END at the last record, PARTIAL at the 32nd; FOUND and PARTIAL give the next position. -/
def Obligations.FindAnswers : Prop :=
  ∀ (s : State) (r : FindRequest), Listening s →
    let sold := fun (c : Call) => (c.state = .scheduled ∨ c.state = .running)
      ∧ c.loaded.stopMode ≠ .pass ∧ r.destination ∈ c.loaded.destinations
      ∧ s.htb.secs + 60 * s.params.cutoff ≤ c.expected
    (∀ start : Nat,
      (r.start = 0xFFFFFF#24 ∧ start = s.htb.secs
        ∨ r.start ≠ 0xFFFFFF#24 ∧ r.start.toNat ≤ 91799 ∧ start = r.start.toNat) →
      1 ≤ r.count.toNat → r.count.toNat ≤ 4 → ∃ t code results token,
        exec (.find r) s = .next t ∧ OnlyTerminal s t
          ∧ t.tpi.replies = s.tpi.replies ++ [⟨135#8, code, .find results token⟩]
          ∧ results.length ≤ r.count.toNat
          ∧ (∀ x ∈ results, ∃ c ∈ s.tts.current, x.key = c.key ∧ sold c)
          ∧ (s.tts.currentState = .empty → code = .ended ∧ results = [])
          ∧ (s.tts.currentState = .active → r.tokenPresent = 1#8 →
            r.generation ≠ s.tts.generation → code = .stale ∧ results = [])
          ∧ (s.tts.currentState = .active → r.tokenPresent = 0#8 → code = .ended →
            ∀ c ∈ s.tts.current, start ≤ c.loaded.sched → sold c → ∃ x ∈ results, x.key = c.key)
          ∧ (s.tts.currentState = .active → ∀ pos : Nat,
            (r.tokenPresent = 1#8 ∧ r.generation = s.tts.generation ∧ pos = r.position.toNat
              ∨ r.tokenPresent = 0#8 ∧ pos ≤ s.tts.current.length
                ∧ (∀ c ∈ s.tts.current.take pos, c.loaded.sched < start)
                ∧ ∀ c ∈ (s.tts.current.drop pos).head?, start ≤ c.loaded.sched) →
            ∃ seen left, s.tts.current.drop pos = seen ++ left ∧ seen.length ≤ 32
              ∧ List.Forall₂ (fun c x => x = ({
                  key := c.key, scheduled := clockMinute s.htb.hour c.loaded.sched
                  display := c.display
                  shown := c.shownMinute.map fun m => (60 * s.htb.hour + m) % 1440
                  platform := c.loaded.platform, stopMode := c.loaded.stopMode } : FindResult))
                (seen.filter fun c => decide (sold c)) results
              ∧ (code = .found ∧ results.length = r.count.toNat
                  ∧ (∃ c before, seen = before ++ [c] ∧ sold c)
                  ∧ token = some ⟨s.tts.generation, pos + seen.length⟩
                ∨ code = .ended ∧ results.length < r.count.toNat ∧ left = [] ∧ token = none
                ∨ code = .partialScan ∧ results.length < r.count.toNat ∧ left ≠ []
                  ∧ seen.length = 32 ∧ token = some ⟨s.tts.generation, pos + 32⟩)))
    ∧ (r.count.toNat = 0 ∨ 4 < r.count.toNat
        ∨ r.start ≠ 0xFFFFFF#24 ∧ 91799 < r.start.toNat →
      ∃ t, exec (.find r) s = .next t ∧ OnlyTerminal s t
        ∧ t.tpi.replies = s.tpi.replies ++ [⟨135#8, .badMessage, .empty⟩])

/-! ## Sales and the journal (10) -/

/-- An ISSUE in cash on an OPEN slot, with the total tendered, appends the SALE, moves the ticket counter
and the day total, enters the ticket in the window, frees the slot and answers with the number and the
change. While an authorisation is pending every ISSUE is answered BUSY. A CARD_OFFLINE ISSUE does the
same, gives no change, and leaves the exposure within its limits. The first of the tests of R158 that
fails gives the refusal, which changes no slot. -/
def Obligations.CashSaleCompletes : Prop :=
  ∀ (s : State) (r : IssueRequest), Listening s →
    (s.sju.pendingAuth ≠ none → ∃ t, exec (.issue r) s = .next t
      ∧ t.tpi.replies = s.tpi.replies ++ [⟨131#8, .busy, .empty⟩] ∧ OnlyTerminal s t)
    ∧ (∀ (i : Fin 4) (q : Quote),
      s.sju.pendingAuth = none → r.slot.toNat = i.val → s.fqu.slots[i] = .opened q →
      s.sju.salesMode ≠ .closed → r.payment = 1#8 → q.total ≤ r.tendered.toNat →
      s.htb.sync ≠ .unset → s.sju.occupancy ≤ 503 →
      ∃ t x, exec (.issue r) s = .next t
        ∧ t.sju.journal = s.sju.journal ++ [⟨s.sju.writeSeq, .sale x⟩]
        ∧ t.sju.writeSeq = s.sju.writeSeq + 1#32 ∧ t.sju.ackSeq = s.sju.ackSeq
        ∧ x.date = s.htb.date ∧ x.secs = s.htb.secs ∧ x.ticket = s.sju.ticketCounter
        ∧ x.destination = q.destination ∧ x.type = q.type ∧ x.cls = q.cls
        ∧ x.quantity = q.quantity ∧ x.unitPrice = q.unitPrice ∧ x.total = q.total
        ∧ x.payment = .cash ∧ x.authCode = none ∧ x.call = q.call
        ∧ x.offline = (s.sju.salesMode == .offline)
        ∧ t.sju.ticketCounter = s.sju.ticketCounter + 1#32
        ∧ t.sju.totals = { s.sju.totals with cash :=
            ⟨tally s.sju.totals.cash.count, satAdd s.sju.totals.cash.amount q.total⟩ }
        ∧ t.sju.window = (if 4 ≤ s.sju.window.length then s.sju.window.drop 1 else s.sju.window)
            ++ [⟨s.sju.writeSeq, x, .running 60000⟩]
        ∧ t.fqu.slots[i] = .free
        ∧ t.tpi.replies = s.tpi.replies ++ [⟨131#8, .ok,
            .issue s.sju.ticketCounter (some (r.tendered.toNat - q.total))⟩]
        ∧ OnlyTrade s t)
    ∧ (s.sju.pendingAuth = none →
      let refused := RefusedWith (.issue r) s 131#8
      (3 < r.slot.toNat → refused .quoteUnknown)
      ∧ ∀ i : Fin 4, r.slot.toNat = i.val →
        ((∀ q, s.fqu.slots[i] ≠ .opened q) → refused .quoteUnknown)
        ∧ ∀ q, s.fqu.slots[i] = .opened q →
          (s.sju.salesMode = .closed → refused .salesClosed)
          ∧ (s.sju.salesMode ≠ .closed →
            (r.tendered.toNat < q.total ∨ r.payment.toNat = 0 ∨ 3 < r.payment.toNat →
              refused .badMessage)
            ∧ (q.total ≤ r.tendered.toNat → r.payment = 2#8 → s.sju.salesMode = .offline →
              refused .linkDown)
            ∧ (q.total ≤ r.tendered.toNat → r.payment = 3#8 →
              let beyond := s.params.offlineCount < s.sju.xc + 1
                ∨ s.params.offlineAmount < s.sju.xa + q.total
              (beyond → refused .offlineLimit)
              ∧ (¬ beyond → s.htb.sync ≠ .unset → s.sju.occupancy ≤ 503 →
                ∃ t x, exec (.issue r) s = .next t
                  ∧ t.sju.journal = s.sju.journal ++ [⟨s.sju.writeSeq, .sale x⟩]
                  ∧ t.sju.writeSeq = s.sju.writeSeq + 1#32
                  ∧ x.ticket = s.sju.ticketCounter ∧ x.date = s.htb.date
                  ∧ x.secs = s.htb.secs ∧ x.destination = q.destination ∧ x.type = q.type
                  ∧ x.cls = q.cls ∧ x.quantity = q.quantity ∧ x.unitPrice = q.unitPrice
                  ∧ x.total = q.total ∧ x.payment = .cardOffline ∧ x.authCode = none
                  ∧ x.call = q.call ∧ x.offline = (s.sju.salesMode == .offline)
                  ∧ t.sju.ticketCounter = s.sju.ticketCounter + 1#32
                  ∧ t.sju.totals = { s.sju.totals with cardOffline :=
                      ⟨tally s.sju.totals.cardOffline.count,
                        satAdd s.sju.totals.cardOffline.amount q.total⟩ }
                  ∧ (LedgerTrue s → t.sju.xc = s.sju.xc + 1 ∧ t.sju.xa = s.sju.xa + q.total)
                  ∧ t.sju.window
                      = (if 4 ≤ s.sju.window.length then s.sju.window.drop 1 else s.sju.window)
                        ++ [⟨s.sju.writeSeq, x, .running 60000⟩]
                  ∧ t.fqu.slots[i] = .free
                  ∧ t.tpi.replies
                      = s.tpi.replies ++ [⟨131#8, .ok, .issue s.sju.ticketCounter none⟩]
                  ∧ OnlyTrade s t))))

/-- A CARD_ONLINE ISSUE in OPEN mode starts one authorisation and offers one AUTHREQ with its tag, the
total and the card token; its timer's expiry ends it: the slot is
freed, the tag joins the timed-out list, the timeout is counted and told to the terminal, and no
record is appended. An AUTHRES for it ends it in a sale, or declined; where the quote was withdrawn, an
approval becomes a REVERSAL. One for a tag of the timed-out list takes the tag out: an approval becomes a
REVERSAL, a refusal is counted. One for any other tag, or of bad form, is counted. -/
def Obligations.AuthorisationBeginsAndTimesOut : Prop :=
  (∀ (s : State) (r : IssueRequest) (i : Fin 4) (q : Quote), Listening s →
    s.sju.pendingAuth = none → r.slot.toNat = i.val → s.fqu.slots[i] = .opened q →
    s.sju.salesMode = .opened → r.payment = 2#8 → q.total ≤ r.tendered.toNat →
    ∃ t, exec (.issue r) s = .next t
      ∧ t.fqu.slots = s.fqu.slots.set i (.pendingAuth q false)
      ∧ t.sju.pendingAuth = some ⟨⟨s.own.haltCode, BitVec.ofNat 8 i.val, s.sju.authSerial⟩, i,
          q.total, .running (1000 * s.params.authTimeout)⟩
      ∧ t.sju.authSerial = s.sju.authSerial + 1#8 ∧ t.sju.journal = s.sju.journal
      ∧ t.tpi.replies = s.tpi.replies ++ [⟨131#8, .pending, .empty⟩] ∧ OnlyTrade s t
      ∧ (s.fru.unaddressed = false → Room s.up .urgent →
        QueuedUp s t (ownQueued s .urgent 14#8 65535#16 (.octets
          (be 2 s.own.haltCode.toNat ++ [BitVec.ofNat 8 i.val, s.sju.authSerial]
            ++ be 3 q.total ++ r.token)))))
  ∧ (∀ (s : State) (a : PendingAuth), s.powered = true → s.sju.pendingAuth = some a →
    a.timer.isRunning = true →
    ∃ t, exec .authTimerExpiry s = .next t
      ∧ t.sju.pendingAuth = none ∧ t.sju.authsPending = 0 ∧ t.sju.journal = s.sju.journal
      ∧ t.fqu.slots = s.fqu.slots.set a.slot .free
      ∧ t.sju.lateTags = (if 4 ≤ s.sju.lateTags.length then s.sju.lateTags.drop 1
          else s.sju.lateTags) ++ [⟨a.tag, a.total⟩]
      ∧ t.sju.ctr = { s.sju.ctr with authTimeouts := tally s.sju.ctr.authTimeouts }
      ∧ (s.tpi.ring.length < 32 →
        t.tpi.ring = s.tpi.ring ++ [.issueDone a.slot .authTimeout none])
      ∧ t = { s with bdc := t.bdc, fqu := t.fqu, sju := t.sju, tpi := t.tpi })
  ∧ ∀ (s : State) (f : RxFrame) (rest : List RxFrame) (pins : StrapPins),
    OwnFrame s f rest 7#8 →
    (AuthResult.ofPayload f.payload = none →
      exec (.frameClassify .up pins) s = .next { freed s rest with sju := { s.sju with
        ctr := { s.sju.ctr with authForm := tally s.sju.ctr.authForm } } })
    ∧ ∀ r : AuthResult, AuthResult.ofPayload f.payload = some r →
      PendingAnswered s rest pins r ∧ OtherAnswered s rest pins r

/-- A ticket in the window is served from its entry and stays; PRINTED and its time limit take it out.
VOID appends a VOID record, takes the ticket out and lowers the day total; with the journal full it is
answered JOURNAL_FULL. A ticket not in the window is TOO_LATE. -/
def Obligations.IssuedTicketIsServed : Prop :=
  ∀ (s : State) (n : TicketNo),
    let gone := s.sju.window.filter fun e => e.sale.ticket != n
    (Listening s → (∀ e ∈ s.sju.window, e.sale.ticket ≠ n) →
      ∀ c ∈ [Instr.ticket n, .printed n, .void n], ∃ t code, exec c s = .next t
        ∧ requestCode c = some code
        ∧ t.tpi.replies = s.tpi.replies ++ [⟨code + 128#8, .tooLate, .empty⟩]
        ∧ OnlyTerminal s t)
    ∧ (∀ (before after : List IssuedTicket) (e : IssuedTicket),
      s.sju.window = before ++ e :: after → e.sale.ticket = n →
      (∀ x ∈ before, x.sale.ticket ≠ n) →
      (Listening s →
        (∃ t, exec (.ticket n) s = .next t
          ∧ t.tpi.replies = s.tpi.replies ++ [⟨132#8, .ok, .ticket e.sale⟩] ∧ OnlyTerminal s t)
        ∧ (∃ t, exec (.printed n) s = .next t
          ∧ t.sju = { s.sju with window := gone }
          ∧ t.tpi.replies = s.tpi.replies ++ [⟨133#8, .ok, .empty⟩]
          ∧ t = { s with bdc := t.bdc, sju := t.sju, tpi := t.tpi })
        ∧ (s.htb.sync ≠ .unset → s.sju.occupancy < 512 → ∃ t, exec (.void n) s = .next t
          ∧ t.sju.journal = s.sju.journal ++ [⟨s.sju.writeSeq,
              .void s.htb.date s.htb.secs n e.sale.total⟩]
          ∧ t.sju.window = gone
          ∧ t.sju.totals = s.sju.totals.modify e.sale.payment (fun x =>
              ⟨x.count - 1, x.amount - e.sale.total⟩)
          ∧ t.tpi.replies = s.tpi.replies ++ [⟨134#8, .ok, .empty⟩] ∧ OnlyTrade s t)
        ∧ (512 ≤ s.sju.occupancy → ∃ t, exec (.void n) s = .next t
          ∧ t.tpi.replies = s.tpi.replies ++ [⟨134#8, .journalFull, .empty⟩]
          ∧ OnlyTerminal s t))
      ∧ (s.powered = true → e.limit.isRunning = true →
        exec (.ticketLimitExpiry n) s = .next { s with sju := { s.sju with window := gone } }))

/-! ## Management (11) -/

/-- What a CTRL and a QUERY sent to this halt do, but for WARM_RESET and FORCE_DAY_SWITCH. One of bad
form is counted alone. SALES_CLOSE and SALES_OPEN set and clear the centre's flag, and the sales mode
follows; CLEAR_JOURNAL_LOST clears that mark; CLEAR_TABLES empties the banks, the fare tables and the
messages; PORT_RESTART takes a port that is not OFF to HUNT with its buffers empty and its counters kept.
Each QUERY is answered in one REPLY with its number: BAD_MESSAGE without a body when a field is outside
its range; CALL, BANK, CONFIG, PRICE and STATUS with what the part holds; COUNTERS with a group, which
then reads 0 if so asked. The lengths of the QUERY payloads, and
that a PRICE time above 91799 and a clear option above 1 are out of range, are the model's (log entry
20), and so are E = S
for a NEXT record in CALL (log entry 44) and the order of the tests of PRICE (log entry 51). -/
def Obligations.ControlsAndQueriesAct : Prop :=
  ∀ (s : State) (f : RxFrame) (rest : List RxFrame) (pins : StrapPins),
    (OwnFrame s f rest 5#8 → (∀ x, CtrlActs s rest pins f.payload x)
      ∧ (f.payload = [7#8, 1#8] → RestartActs s rest pins .up)
      ∧ (f.payload = [7#8, 2#8] → RestartActs s rest pins .down))
    ∧ (OwnFrame s f rest 4#8 → QueryActs s rest pins f.payload)

/-! ## Acknowledgement (10) -/

/-- The acknowledgement timer's expiry sets N back to A, so that every record from A onward is sent
again when the trigger allows: at once, in a JRNL of the first records from A, with the Up port in SERVICE,
its queue idle enough and a record in the journal. A JACK for this halt acts by the distance of K from
A. -/
def Obligations.JackAcknowledges : Prop :=
  (∀ s : State, s.powered = true →
    (s.sju.ackTimer.isRunning = false → exec .ackTimerExpiry s = .next s)
    ∧ (s.sju.ackTimer.isRunning = true →
      let back : State :=
        { s with sju := { s.sju with nextSeq := s.sju.ackSeq, ackTimer := .stopped } }
      (s.up.lsu.state ≠ .service ∨ 8 ≤ nonUrgent s.up.queue ∨ s.fru.unaddressed = true
          ∨ s.sju.ackSeq = s.sju.writeSeq → exec .ackTimerExpiry s = .next back)
      ∧ (s.up.lsu.state = .service → s.up.queue.length < 32 → nonUrgent s.up.queue < 8 →
        s.fru.unaddressed = false → s.sju.ackSeq ≠ s.sju.writeSeq →
        ∃ t js, exec .ackTimerExpiry s = .next t
          ∧ t.up.queue = s.up.queue ++ ownQueued s .own 11#8 65535#16
              (.journal s.sju.ackSeq (s.sju.journal.take (min 4 s.sju.occupancy))) :: js
          ∧ AllJrnl js ∧ t.sju.ackTimer = .running 30000)
      ∧ ∃ t, exec .ackTimerExpiry s = .next t
        ∧ t.sju = { s.sju with nextSeq := t.sju.nextSeq, ackTimer := t.sju.ackTimer }
        ∧ t = { s with up := t.up, sju := t.sju }))
  ∧ ∀ (s : State) (pins : StrapPins) (f : RxFrame) (rest : List RxFrame),
    s.powered = true → s.fru.unaddressed = false → s.own.haltCode ≠ 0#16 →
    s.up.buffers = f :: rest → f.kind = 6#8 → JournalRuns s.sju →
    let taken : State := { s with up := { s.up with buffers := rest } }
    (f.destination = s.own.haltCode → f.payload.length ≠ 4 →
      exec (.frameClassify .up pins) s = .next { taken with
        sju := { s.sju with ctr := { s.sju.ctr with jackForm := tally s.sju.ctr.jackForm } } })
    ∧ (f.destination = 0#16 → ∃ t, exec (.frameClassify .up pins) s = .next t
      ∧ t.sju = { s.sju with ctr := { s.sju.ctr with jackForm := tally s.sju.ctr.jackForm } })
    ∧ (f.destination = s.own.haltCode → f.payload.length = 4 →
      let k := BitVec.ofNat 32 (field f.payload 0 4)
      let distance := (k - s.sju.ackSeq).toNat
      let sent := (s.sju.nextSeq - s.sju.ackSeq).toNat
      (2 ^ 31 ≤ distance → exec (.frameClassify .up pins) s = .next { taken with
        sju := { s.sju with ctr := { s.sju.ctr with ackBehind := tally s.sju.ctr.ackBehind } } })
      ∧ ∀ n : Nat, distance < 2 ^ 31 →
        (distance < sent ∧ n = distance + 1 ∨ sent ≤ distance ∧ n = sent) →
        ∃ t, exec (.frameClassify .up pins) s = .next t
          ∧ t.sju.ackSeq = s.sju.ackSeq + BitVec.ofNat 32 n
          ∧ t.sju.journal = s.sju.journal.drop n ∧ t.sju.writeSeq = s.sju.writeSeq
          ∧ t.sju.ctr.ackAhead
              = (if distance < sent then s.sju.ctr.ackAhead else tally s.sju.ctr.ackAhead)
          ∧ (0 < n →
            t.sju.xc = (t.sju.journal.filterMap (·.offlineTotal)).length
              ∧ t.sju.xa = (t.sju.journal.filterMap (·.offlineTotal)).sum
              ∧ t.sju.salesMode = t.salesModeOf)
          ∧ (s.up.lsu.state ≠ .service → 0 < n → t.sju.nextSeq = s.sju.nextSeq
            ∧ t.sju.ackTimer = (if t.sju.ackSeq = s.sju.nextSeq then .stopped else .running 30000))
          ∧ OnlyTrade s t)

/-! ## The terminal port (11) -/

/-- NOTICES hands over up to its count of the oldest notices with the overflow flag and clears the
flag; STATUS reports what the blocks hold; any request that completes while 4 replies wait is
discarded and counted. That STATUS reports the energy mode after the wake that its own activity makes
rests on the model's reading (log entry 12). -/
def Obligations.NoticesAndStatusServed : Prop :=
  ∀ s : State,
    (Listening s →
      (∀ n : Byte, 1 ≤ n.toNat → n.toNat ≤ 8 → ∃ t, exec (.notices n) s = .next t
        ∧ t.tpi.ring = s.tpi.ring.drop n.toNat ∧ t.tpi.overflow = false
        ∧ t.tpi.replies = s.tpi.replies
            ++ [⟨136#8, .ok, .notices s.tpi.overflow (s.tpi.ring.take n.toNat)⟩]
        ∧ OnlyTerminal s t)
      ∧ (∀ n : Byte, n.toNat = 0 ∨ 8 < n.toNat → ∃ t, exec (.notices n) s = .next t
        ∧ t.tpi = { s.tpi with replies := s.tpi.replies ++ [⟨136#8, .badMessage, .empty⟩] }
        ∧ OnlyTerminal s t)
      ∧ ∃ t, exec .status s = .next t ∧ OnlyTerminal s t
        ∧ t.tpi = { s.tpi with replies := s.tpi.replies ++ [⟨137#8, .ok, .status {
            salesMode := s.sju.salesMode, upState := s.up.lsu.state, sync := s.htb.sync
            uncertainty := s.htb.uncertainty, energy := t.bdc.energy
            occupancy := (s.sju.writeSeq - s.sju.ackSeq).toNat, xc := s.sju.xc, xa := s.sju.xa
            currentState := s.tts.currentState
            slots := s.fqu.slots.toList.map Slot.shown
            notices := s.tpi.ring.length }⟩] })
    ∧ (s.powered = true → s.tpi.parser = .waiting → 4 ≤ s.tpi.replies.length →
      ∀ c code, requestCode c = some code → exec c s = .next { s with
        tpi := { s.tpi with ctr := { s.tpi.ctr with overrun := tally s.tpi.ctr.overrun } } })

/-- The request parser: a gap discards a partial message and is counted, or ends the ignoring of octets;
a message of bad form is answered BAD_MESSAGE and counted by its fault, and one too long makes the
parser ignore octets; a reply sent leaves the queue. That the gap which ends the ignoring counts nothing
is the model's reading (log entry 26). While 4 replies wait a complete message counts TP_OVERRUN alone, a
failed check or not, and one too long counts TP_FORM alone: the model's choice (log entry 53). -/
def Obligations.RequestParser : Prop :=
  ∀ s : State, s.powered = true →
    (s.tpi.parser = .waiting → exec .tpGap s = .next { s with
      tpi := { s.tpi with ctr := { s.tpi.ctr with gap := tally s.tpi.ctr.gap } } })
    ∧ (s.tpi.parser = .ignoring → exec .tpGap s = .next { s with
      tpi := { s.tpi with parser := .waiting } })
    ∧ exec .terminalReplySent s = .next { s with
        tpi := { s.tpi with replies := s.tpi.replies.drop 1 } }
    ∧ (Listening s → ∀ code : Byte, code.toNat < 128 →
      let bad : TerminalReply := ⟨code + 128#8, .badMessage, .empty⟩
      (∃ t, exec (.badMessage code .lengthAbove120) s = .next t ∧ OnlyTerminal s t
        ∧ t.tpi = { s.tpi with
            parser := .ignoring, replies := s.tpi.replies ++ [bad]
            ctr := { s.tpi.ctr with form := tally s.tpi.ctr.form } })
      ∧ (∃ t, exec (.badMessage code .checkFails) s = .next t ∧ OnlyTerminal s t
        ∧ t.tpi = { s.tpi with
            replies := s.tpi.replies ++ [bad]
            ctr := { s.tpi.ctr with check := tally s.tpi.ctr.check } })
      ∧ ∀ form ∈ [BadForm.unknownCode, .bodyLength],
        ∃ t, exec (.badMessage code form) s = .next t ∧ OnlyTerminal s t
          ∧ t.tpi = { s.tpi with replies := s.tpi.replies ++ [bad] })
    ∧ (s.tpi.parser = .waiting → 4 ≤ s.tpi.replies.length → ∀ code : Byte,
      exec (.badMessage code .lengthAbove120) s = .next { s with tpi := { s.tpi with
        parser := .ignoring, ctr := { s.tpi.ctr with form := tally s.tpi.ctr.form } } }
      ∧ ∀ form ∈ [BadForm.checkFails, .unknownCode, .bodyLength],
        exec (.badMessage code form) s = .next { s with
          tpi := { s.tpi with ctr := { s.tpi.ctr with overrun := tally s.tpi.ctr.overrun } } })

/-! ## Invariants that every step keeps -/

/-- Every step keeps both transmit queues within their slots, and empty outside SERVICE. -/
def Obligations.QueuesFitAlways : Prop := KeptByStep QueuesFit

/-- Every step keeps both banks in order, within 160 records, without a key twice, and an EMPTY bank
without records. -/
def Obligations.BanksOrderedAlways : Prop := KeptByStep BanksOrdered

/-- Every step keeps the journal contiguous from A to W − 1, with N between A and W and at most 64 past
A. -/
def Obligations.JournalRunsAlways : Prop := KeptByStep fun s => JournalRuns s.sju

/-- Every step keeps s at 0 while the clock stands, for at most 7200 s. -/
def Obligations.ClockStandsAlways : Prop := KeptByStep ClockStands

/-- Every step keeps each error bucket in 0..T and each forecast delay in 0..21600. -/
def Obligations.CountsBoundedAlways : Prop := KeptByStep CountsBounded

/-- Every step keeps receive buffers, reply queue and notice ring within their sizes. -/
def Obligations.StoresFitAlways : Prop := KeptByStep StoresFit

/-- Every step keeps the enabled group windows apart. -/
def Obligations.WindowsApartAlways : Prop := KeptByStep WindowsApart

/-- Every step of a powered part leaves the sales mode the one its inputs give. -/
def Obligations.SalesModeTrueAlways : Prop := KeptByStep SalesModeTrue

/-- Every step of a powered part leaves the exposure that of the journal and the restart counts those
of the quote slots and the pending authorisation. -/
def Obligations.LedgerTrueAlways : Prop := KeptByStep LedgerTrue
end

