-- ==== Sys2Proof/Laws/State.lean ====
section
/-! SUPPORT. What each named update of the state leaves and sets, field by field. -/

namespace Sys2Proof.Machine

/-! ## Ports -/

@[simp] theorem State.port_up (s : State) : s.port .up = s.up := rfl
@[simp] theorem State.port_down (s : State) : s.port .down = s.down := rfl
@[simp] theorem Params.port_up (ps : Params) : ps.port .up = ps.up := rfl
@[simp] theorem Params.port_down (ps : Params) : ps.port .down = ps.down := rfl
@[simp] theorem State.setPort_up (s : State) (lp : LinePort) :
    s.setPort .up lp = { s with up := lp } := rfl
@[simp] theorem State.setPort_down (s : State) (lp : LinePort) :
    s.setPort .down lp = { s with down := lp } := rfl
@[simp] theorem State.port_setPort_self (s : State) (p : Port) (lp : LinePort) :
    (s.setPort p lp).port p = lp := by cases p <;> rfl
@[simp] theorem State.port_setPort_other (s : State) (p : Port) (lp : LinePort) :
    (s.setPort p lp).port p.other = s.port p.other := by cases p <;> rfl
@[simp] theorem State.port_setPort_of_other (s : State) (p : Port) (lp : LinePort) :
    (s.setPort p.other lp).port p = s.port p := by cases p <;> rfl
@[simp] theorem State.setPort_setPort (s : State) (p : Port) (a b : LinePort) :
    (s.setPort p a).setPort p b = s.setPort p b := by cases p <;> rfl
@[simp] theorem State.setPort_port (s : State) (p : Port) : s.setPort p (s.port p) = s := by
  cases p <;> rfl
@[simp] theorem Port.other_other (p : Port) : p.other.other = p := by cases p <;> rfl
@[simp] theorem State.setPort_pending (s : State) (p : Port) (lp : LinePort) :
    (s.setPort p lp).pending = s.pending := by cases p <;> rfl
@[simp] theorem State.setPort_powered (s : State) (p : Port) (lp : LinePort) :
    (s.setPort p lp).powered = s.powered := by cases p <;> rfl
@[simp] theorem State.setPort_starting (s : State) (p : Port) (lp : LinePort) :
    (s.setPort p lp).starting = s.starting := by cases p <;> rfl
@[simp] theorem State.setPort_strapPins (s : State) (p : Port) (lp : LinePort) :
    (s.setPort p lp).strapPins = s.strapPins := by cases p <;> rfl
@[simp] theorem State.setPort_lowEnergy (s : State) (p : Port) (lp : LinePort) :
    (s.setPort p lp).lowEnergy = s.lowEnergy := by cases p <;> rfl
@[simp] theorem State.setPort_mark (s : State) (p : Port) (lp : LinePort) :
    (s.setPort p lp).mark = s.mark := by cases p <;> rfl
@[simp] theorem State.setPort_params (s : State) (p : Port) (lp : LinePort) :
    (s.setPort p lp).params = s.params := by cases p <;> rfl
@[simp] theorem State.setPort_own (s : State) (p : Port) (lp : LinePort) :
    (s.setPort p lp).own = s.own := by cases p <;> rfl
@[simp] theorem State.setPort_salesClosed (s : State) (p : Port) (lp : LinePort) :
    (s.setPort p lp).salesClosed = s.salesClosed := by cases p <;> rfl
@[simp] theorem State.setPort_mgu (s : State) (p : Port) (lp : LinePort) :
    (s.setPort p lp).mgu = s.mgu := by cases p <;> rfl
@[simp] theorem State.setPort_fru (s : State) (p : Port) (lp : LinePort) :
    (s.setPort p lp).fru = s.fru := by cases p <;> rfl
@[simp] theorem State.setPort_htb (s : State) (p : Port) (lp : LinePort) :
    (s.setPort p lp).htb = s.htb := by cases p <;> rfl
@[simp] theorem State.setPort_tts (s : State) (p : Port) (lp : LinePort) :
    (s.setPort p lp).tts = s.tts := by cases p <;> rfl
@[simp] theorem State.setPort_sru (s : State) (p : Port) (lp : LinePort) :
    (s.setPort p lp).sru = s.sru := by cases p <;> rfl
@[simp] theorem State.setPort_bdc (s : State) (p : Port) (lp : LinePort) :
    (s.setPort p lp).bdc = s.bdc := by cases p <;> rfl
@[simp] theorem State.setPort_fqu (s : State) (p : Port) (lp : LinePort) :
    (s.setPort p lp).fqu = s.fqu := by cases p <;> rfl
@[simp] theorem State.setPort_sju (s : State) (p : Port) (lp : LinePort) :
    (s.setPort p lp).sju = s.sju := by cases p <;> rfl
@[simp] theorem State.setPort_tpi (s : State) (p : Port) (lp : LinePort) :
    (s.setPort p lp).tpi = s.tpi := by cases p <;> rfl

theorem State.modPort_eq (s : State) (p : Port) (f : LinePort → LinePort) :
    s.modPort p f = s.setPort p (f (s.port p)) := rfl
theorem State.modLsu_eq (s : State) (p : Port) (f : Lsu → Lsu) :
    s.modLsu p f = s.setPort p { s.port p with lsu := f (s.port p).lsu } := rfl
theorem State.modCtr_eq (s : State) (p : Port) (f : PortCounters → PortCounters) :
    s.modCtr p f = s.setPort p { s.port p with ctr := f (s.port p).ctr } := rfl
theorem State.modFruCtr_eq (s : State) (p : Port) (f : FruPortCounters → FruPortCounters) :
    s.modFruCtr p f = s.setPort p { s.port p with fruCtr := f (s.port p).fruCtr } := rfl

/-! ## Platforms and screens -/

@[simp] theorem Sru.io_one (r : Sru) : r.io .one = r.one := rfl
@[simp] theorem Sru.io_two (r : Sru) : r.io .two = r.two := rfl
theorem State.modIo_eq (s : State) (p : Platform) (f : PlatformIo → PlatformIo) :
    s.modIo p f = { s with sru := (s.modIo p f).sru } := by cases p <;> rfl
@[simp] theorem State.modIo_io_self (s : State) (p : Platform) (f : PlatformIo → PlatformIo) :
    (s.modIo p f).sru.io p = f (s.sru.io p) := by cases p <;> rfl
@[simp] theorem State.modIo_pending (s : State) (p : Platform) (f : PlatformIo → PlatformIo) :
    (s.modIo p f).pending = s.pending := by cases p <;> rfl
@[simp] theorem State.modIo_powered (s : State) (p : Platform) (f : PlatformIo → PlatformIo) :
    (s.modIo p f).powered = s.powered := by cases p <;> rfl
@[simp] theorem State.modIo_starting (s : State) (p : Platform) (f : PlatformIo → PlatformIo) :
    (s.modIo p f).starting = s.starting := by cases p <;> rfl
@[simp] theorem State.modIo_strapPins (s : State) (p : Platform) (f : PlatformIo → PlatformIo) :
    (s.modIo p f).strapPins = s.strapPins := by cases p <;> rfl
@[simp] theorem State.modIo_lowEnergy (s : State) (p : Platform) (f : PlatformIo → PlatformIo) :
    (s.modIo p f).lowEnergy = s.lowEnergy := by cases p <;> rfl
@[simp] theorem State.modIo_mark (s : State) (p : Platform) (f : PlatformIo → PlatformIo) :
    (s.modIo p f).mark = s.mark := by cases p <;> rfl
@[simp] theorem State.modIo_params (s : State) (p : Platform) (f : PlatformIo → PlatformIo) :
    (s.modIo p f).params = s.params := by cases p <;> rfl
@[simp] theorem State.modIo_own (s : State) (p : Platform) (f : PlatformIo → PlatformIo) :
    (s.modIo p f).own = s.own := by cases p <;> rfl
@[simp] theorem State.modIo_salesClosed (s : State) (p : Platform) (f : PlatformIo → PlatformIo) :
    (s.modIo p f).salesClosed = s.salesClosed := by cases p <;> rfl
@[simp] theorem State.modIo_mgu (s : State) (p : Platform) (f : PlatformIo → PlatformIo) :
    (s.modIo p f).mgu = s.mgu := by cases p <;> rfl
@[simp] theorem State.modIo_up (s : State) (p : Platform) (f : PlatformIo → PlatformIo) :
    (s.modIo p f).up = s.up := by cases p <;> rfl
@[simp] theorem State.modIo_down (s : State) (p : Platform) (f : PlatformIo → PlatformIo) :
    (s.modIo p f).down = s.down := by cases p <;> rfl
@[simp] theorem State.modIo_fru (s : State) (p : Platform) (f : PlatformIo → PlatformIo) :
    (s.modIo p f).fru = s.fru := by cases p <;> rfl
@[simp] theorem State.modIo_htb (s : State) (p : Platform) (f : PlatformIo → PlatformIo) :
    (s.modIo p f).htb = s.htb := by cases p <;> rfl
@[simp] theorem State.modIo_tts (s : State) (p : Platform) (f : PlatformIo → PlatformIo) :
    (s.modIo p f).tts = s.tts := by cases p <;> rfl
@[simp] theorem State.modIo_bdc (s : State) (p : Platform) (f : PlatformIo → PlatformIo) :
    (s.modIo p f).bdc = s.bdc := by cases p <;> rfl
@[simp] theorem State.modIo_fqu (s : State) (p : Platform) (f : PlatformIo → PlatformIo) :
    (s.modIo p f).fqu = s.fqu := by cases p <;> rfl
@[simp] theorem State.modIo_sju (s : State) (p : Platform) (f : PlatformIo → PlatformIo) :
    (s.modIo p f).sju = s.sju := by cases p <;> rfl
@[simp] theorem State.modIo_tpi (s : State) (p : Platform) (f : PlatformIo → PlatformIo) :
    (s.modIo p f).tpi = s.tpi := by cases p <;> rfl

@[simp] theorem Bdc.screen_setScreen_self (b : Bdc) (n : ScreenNo) (sc : Option Screen) :
    (b.setScreen n sc).screen n = sc := by cases n <;> rfl
@[simp] theorem Bdc.screen_mapScreens (b : Bdc) (n : ScreenNo) (f : ScreenNo → Screen → Screen) :
    (b.mapScreens f).screen n = (b.screen n).map (f n) := by cases n <;> rfl

/-! ## Counters -/
@[simp] theorem State.modTtsCtr_pending (s : State) (f : TtsCounters → TtsCounters) :
    (s.modTtsCtr f).pending = s.pending := rfl
@[simp] theorem State.modTtsCtr_powered (s : State) (f : TtsCounters → TtsCounters) :
    (s.modTtsCtr f).powered = s.powered := rfl
@[simp] theorem State.modTtsCtr_starting (s : State) (f : TtsCounters → TtsCounters) :
    (s.modTtsCtr f).starting = s.starting := rfl
@[simp] theorem State.modTtsCtr_strapPins (s : State) (f : TtsCounters → TtsCounters) :
    (s.modTtsCtr f).strapPins = s.strapPins := rfl
@[simp] theorem State.modTtsCtr_lowEnergy (s : State) (f : TtsCounters → TtsCounters) :
    (s.modTtsCtr f).lowEnergy = s.lowEnergy := rfl
@[simp] theorem State.modTtsCtr_mark (s : State) (f : TtsCounters → TtsCounters) :
    (s.modTtsCtr f).mark = s.mark := rfl
@[simp] theorem State.modTtsCtr_params (s : State) (f : TtsCounters → TtsCounters) :
    (s.modTtsCtr f).params = s.params := rfl
@[simp] theorem State.modTtsCtr_own (s : State) (f : TtsCounters → TtsCounters) :
    (s.modTtsCtr f).own = s.own := rfl
@[simp] theorem State.modTtsCtr_salesClosed (s : State) (f : TtsCounters → TtsCounters) :
    (s.modTtsCtr f).salesClosed = s.salesClosed := rfl
@[simp] theorem State.modTtsCtr_mgu (s : State) (f : TtsCounters → TtsCounters) :
    (s.modTtsCtr f).mgu = s.mgu := rfl
@[simp] theorem State.modTtsCtr_up (s : State) (f : TtsCounters → TtsCounters) :
    (s.modTtsCtr f).up = s.up := rfl
@[simp] theorem State.modTtsCtr_down (s : State) (f : TtsCounters → TtsCounters) :
    (s.modTtsCtr f).down = s.down := rfl
@[simp] theorem State.modTtsCtr_fru (s : State) (f : TtsCounters → TtsCounters) :
    (s.modTtsCtr f).fru = s.fru := rfl
@[simp] theorem State.modTtsCtr_htb (s : State) (f : TtsCounters → TtsCounters) :
    (s.modTtsCtr f).htb = s.htb := rfl
@[simp] theorem State.modTtsCtr_tts (s : State) (f : TtsCounters → TtsCounters) :
    (s.modTtsCtr f).tts = { s.tts with ctr := f s.tts.ctr } := rfl
@[simp] theorem State.modTtsCtr_sru (s : State) (f : TtsCounters → TtsCounters) :
    (s.modTtsCtr f).sru = s.sru := rfl
@[simp] theorem State.modTtsCtr_bdc (s : State) (f : TtsCounters → TtsCounters) :
    (s.modTtsCtr f).bdc = s.bdc := rfl
@[simp] theorem State.modTtsCtr_fqu (s : State) (f : TtsCounters → TtsCounters) :
    (s.modTtsCtr f).fqu = s.fqu := rfl
@[simp] theorem State.modTtsCtr_sju (s : State) (f : TtsCounters → TtsCounters) :
    (s.modTtsCtr f).sju = s.sju := rfl
@[simp] theorem State.modTtsCtr_tpi (s : State) (f : TtsCounters → TtsCounters) :
    (s.modTtsCtr f).tpi = s.tpi := rfl
@[simp] theorem State.modHtbCtr_pending (s : State) (f : HtbCounters → HtbCounters) :
    (s.modHtbCtr f).pending = s.pending := rfl
@[simp] theorem State.modHtbCtr_powered (s : State) (f : HtbCounters → HtbCounters) :
    (s.modHtbCtr f).powered = s.powered := rfl
@[simp] theorem State.modHtbCtr_starting (s : State) (f : HtbCounters → HtbCounters) :
    (s.modHtbCtr f).starting = s.starting := rfl
@[simp] theorem State.modHtbCtr_strapPins (s : State) (f : HtbCounters → HtbCounters) :
    (s.modHtbCtr f).strapPins = s.strapPins := rfl
@[simp] theorem State.modHtbCtr_lowEnergy (s : State) (f : HtbCounters → HtbCounters) :
    (s.modHtbCtr f).lowEnergy = s.lowEnergy := rfl
@[simp] theorem State.modHtbCtr_mark (s : State) (f : HtbCounters → HtbCounters) :
    (s.modHtbCtr f).mark = s.mark := rfl
@[simp] theorem State.modHtbCtr_params (s : State) (f : HtbCounters → HtbCounters) :
    (s.modHtbCtr f).params = s.params := rfl
@[simp] theorem State.modHtbCtr_own (s : State) (f : HtbCounters → HtbCounters) :
    (s.modHtbCtr f).own = s.own := rfl
@[simp] theorem State.modHtbCtr_salesClosed (s : State) (f : HtbCounters → HtbCounters) :
    (s.modHtbCtr f).salesClosed = s.salesClosed := rfl
@[simp] theorem State.modHtbCtr_mgu (s : State) (f : HtbCounters → HtbCounters) :
    (s.modHtbCtr f).mgu = s.mgu := rfl
@[simp] theorem State.modHtbCtr_up (s : State) (f : HtbCounters → HtbCounters) :
    (s.modHtbCtr f).up = s.up := rfl
@[simp] theorem State.modHtbCtr_down (s : State) (f : HtbCounters → HtbCounters) :
    (s.modHtbCtr f).down = s.down := rfl
@[simp] theorem State.modHtbCtr_fru (s : State) (f : HtbCounters → HtbCounters) :
    (s.modHtbCtr f).fru = s.fru := rfl
@[simp] theorem State.modHtbCtr_htb (s : State) (f : HtbCounters → HtbCounters) :
    (s.modHtbCtr f).htb = { s.htb with ctr := f s.htb.ctr } := rfl
@[simp] theorem State.modHtbCtr_tts (s : State) (f : HtbCounters → HtbCounters) :
    (s.modHtbCtr f).tts = s.tts := rfl
@[simp] theorem State.modHtbCtr_sru (s : State) (f : HtbCounters → HtbCounters) :
    (s.modHtbCtr f).sru = s.sru := rfl
@[simp] theorem State.modHtbCtr_bdc (s : State) (f : HtbCounters → HtbCounters) :
    (s.modHtbCtr f).bdc = s.bdc := rfl
@[simp] theorem State.modHtbCtr_fqu (s : State) (f : HtbCounters → HtbCounters) :
    (s.modHtbCtr f).fqu = s.fqu := rfl
@[simp] theorem State.modHtbCtr_sju (s : State) (f : HtbCounters → HtbCounters) :
    (s.modHtbCtr f).sju = s.sju := rfl
@[simp] theorem State.modHtbCtr_tpi (s : State) (f : HtbCounters → HtbCounters) :
    (s.modHtbCtr f).tpi = s.tpi := rfl
@[simp] theorem State.modSruCtr_pending (s : State) (f : SruCounters → SruCounters) :
    (s.modSruCtr f).pending = s.pending := rfl
@[simp] theorem State.modSruCtr_powered (s : State) (f : SruCounters → SruCounters) :
    (s.modSruCtr f).powered = s.powered := rfl
@[simp] theorem State.modSruCtr_starting (s : State) (f : SruCounters → SruCounters) :
    (s.modSruCtr f).starting = s.starting := rfl
@[simp] theorem State.modSruCtr_strapPins (s : State) (f : SruCounters → SruCounters) :
    (s.modSruCtr f).strapPins = s.strapPins := rfl
@[simp] theorem State.modSruCtr_lowEnergy (s : State) (f : SruCounters → SruCounters) :
    (s.modSruCtr f).lowEnergy = s.lowEnergy := rfl
@[simp] theorem State.modSruCtr_mark (s : State) (f : SruCounters → SruCounters) :
    (s.modSruCtr f).mark = s.mark := rfl
@[simp] theorem State.modSruCtr_params (s : State) (f : SruCounters → SruCounters) :
    (s.modSruCtr f).params = s.params := rfl
@[simp] theorem State.modSruCtr_own (s : State) (f : SruCounters → SruCounters) :
    (s.modSruCtr f).own = s.own := rfl
@[simp] theorem State.modSruCtr_salesClosed (s : State) (f : SruCounters → SruCounters) :
    (s.modSruCtr f).salesClosed = s.salesClosed := rfl
@[simp] theorem State.modSruCtr_mgu (s : State) (f : SruCounters → SruCounters) :
    (s.modSruCtr f).mgu = s.mgu := rfl
@[simp] theorem State.modSruCtr_up (s : State) (f : SruCounters → SruCounters) :
    (s.modSruCtr f).up = s.up := rfl
@[simp] theorem State.modSruCtr_down (s : State) (f : SruCounters → SruCounters) :
    (s.modSruCtr f).down = s.down := rfl
@[simp] theorem State.modSruCtr_fru (s : State) (f : SruCounters → SruCounters) :
    (s.modSruCtr f).fru = s.fru := rfl
@[simp] theorem State.modSruCtr_htb (s : State) (f : SruCounters → SruCounters) :
    (s.modSruCtr f).htb = s.htb := rfl
@[simp] theorem State.modSruCtr_tts (s : State) (f : SruCounters → SruCounters) :
    (s.modSruCtr f).tts = s.tts := rfl
@[simp] theorem State.modSruCtr_sru (s : State) (f : SruCounters → SruCounters) :
    (s.modSruCtr f).sru = { s.sru with ctr := f s.sru.ctr } := rfl
@[simp] theorem State.modSruCtr_bdc (s : State) (f : SruCounters → SruCounters) :
    (s.modSruCtr f).bdc = s.bdc := rfl
@[simp] theorem State.modSruCtr_fqu (s : State) (f : SruCounters → SruCounters) :
    (s.modSruCtr f).fqu = s.fqu := rfl
@[simp] theorem State.modSruCtr_sju (s : State) (f : SruCounters → SruCounters) :
    (s.modSruCtr f).sju = s.sju := rfl
@[simp] theorem State.modSruCtr_tpi (s : State) (f : SruCounters → SruCounters) :
    (s.modSruCtr f).tpi = s.tpi := rfl
@[simp] theorem State.modBdcCtr_pending (s : State) (f : BdcCounters → BdcCounters) :
    (s.modBdcCtr f).pending = s.pending := rfl
@[simp] theorem State.modBdcCtr_powered (s : State) (f : BdcCounters → BdcCounters) :
    (s.modBdcCtr f).powered = s.powered := rfl
@[simp] theorem State.modBdcCtr_starting (s : State) (f : BdcCounters → BdcCounters) :
    (s.modBdcCtr f).starting = s.starting := rfl
@[simp] theorem State.modBdcCtr_strapPins (s : State) (f : BdcCounters → BdcCounters) :
    (s.modBdcCtr f).strapPins = s.strapPins := rfl
@[simp] theorem State.modBdcCtr_lowEnergy (s : State) (f : BdcCounters → BdcCounters) :
    (s.modBdcCtr f).lowEnergy = s.lowEnergy := rfl
@[simp] theorem State.modBdcCtr_mark (s : State) (f : BdcCounters → BdcCounters) :
    (s.modBdcCtr f).mark = s.mark := rfl
@[simp] theorem State.modBdcCtr_params (s : State) (f : BdcCounters → BdcCounters) :
    (s.modBdcCtr f).params = s.params := rfl
@[simp] theorem State.modBdcCtr_own (s : State) (f : BdcCounters → BdcCounters) :
    (s.modBdcCtr f).own = s.own := rfl
@[simp] theorem State.modBdcCtr_salesClosed (s : State) (f : BdcCounters → BdcCounters) :
    (s.modBdcCtr f).salesClosed = s.salesClosed := rfl
@[simp] theorem State.modBdcCtr_mgu (s : State) (f : BdcCounters → BdcCounters) :
    (s.modBdcCtr f).mgu = s.mgu := rfl
@[simp] theorem State.modBdcCtr_up (s : State) (f : BdcCounters → BdcCounters) :
    (s.modBdcCtr f).up = s.up := rfl
@[simp] theorem State.modBdcCtr_down (s : State) (f : BdcCounters → BdcCounters) :
    (s.modBdcCtr f).down = s.down := rfl
@[simp] theorem State.modBdcCtr_fru (s : State) (f : BdcCounters → BdcCounters) :
    (s.modBdcCtr f).fru = s.fru := rfl
@[simp] theorem State.modBdcCtr_htb (s : State) (f : BdcCounters → BdcCounters) :
    (s.modBdcCtr f).htb = s.htb := rfl
@[simp] theorem State.modBdcCtr_tts (s : State) (f : BdcCounters → BdcCounters) :
    (s.modBdcCtr f).tts = s.tts := rfl
@[simp] theorem State.modBdcCtr_sru (s : State) (f : BdcCounters → BdcCounters) :
    (s.modBdcCtr f).sru = s.sru := rfl
@[simp] theorem State.modBdcCtr_bdc (s : State) (f : BdcCounters → BdcCounters) :
    (s.modBdcCtr f).bdc = { s.bdc with ctr := f s.bdc.ctr } := rfl
@[simp] theorem State.modBdcCtr_fqu (s : State) (f : BdcCounters → BdcCounters) :
    (s.modBdcCtr f).fqu = s.fqu := rfl
@[simp] theorem State.modBdcCtr_sju (s : State) (f : BdcCounters → BdcCounters) :
    (s.modBdcCtr f).sju = s.sju := rfl
@[simp] theorem State.modBdcCtr_tpi (s : State) (f : BdcCounters → BdcCounters) :
    (s.modBdcCtr f).tpi = s.tpi := rfl
@[simp] theorem State.modFquCtr_pending (s : State) (f : FquCounters → FquCounters) :
    (s.modFquCtr f).pending = s.pending := rfl
@[simp] theorem State.modFquCtr_powered (s : State) (f : FquCounters → FquCounters) :
    (s.modFquCtr f).powered = s.powered := rfl
@[simp] theorem State.modFquCtr_starting (s : State) (f : FquCounters → FquCounters) :
    (s.modFquCtr f).starting = s.starting := rfl
@[simp] theorem State.modFquCtr_strapPins (s : State) (f : FquCounters → FquCounters) :
    (s.modFquCtr f).strapPins = s.strapPins := rfl
@[simp] theorem State.modFquCtr_lowEnergy (s : State) (f : FquCounters → FquCounters) :
    (s.modFquCtr f).lowEnergy = s.lowEnergy := rfl
@[simp] theorem State.modFquCtr_mark (s : State) (f : FquCounters → FquCounters) :
    (s.modFquCtr f).mark = s.mark := rfl
@[simp] theorem State.modFquCtr_params (s : State) (f : FquCounters → FquCounters) :
    (s.modFquCtr f).params = s.params := rfl
@[simp] theorem State.modFquCtr_own (s : State) (f : FquCounters → FquCounters) :
    (s.modFquCtr f).own = s.own := rfl
@[simp] theorem State.modFquCtr_salesClosed (s : State) (f : FquCounters → FquCounters) :
    (s.modFquCtr f).salesClosed = s.salesClosed := rfl
@[simp] theorem State.modFquCtr_mgu (s : State) (f : FquCounters → FquCounters) :
    (s.modFquCtr f).mgu = s.mgu := rfl
@[simp] theorem State.modFquCtr_up (s : State) (f : FquCounters → FquCounters) :
    (s.modFquCtr f).up = s.up := rfl
@[simp] theorem State.modFquCtr_down (s : State) (f : FquCounters → FquCounters) :
    (s.modFquCtr f).down = s.down := rfl
@[simp] theorem State.modFquCtr_fru (s : State) (f : FquCounters → FquCounters) :
    (s.modFquCtr f).fru = s.fru := rfl
@[simp] theorem State.modFquCtr_htb (s : State) (f : FquCounters → FquCounters) :
    (s.modFquCtr f).htb = s.htb := rfl
@[simp] theorem State.modFquCtr_tts (s : State) (f : FquCounters → FquCounters) :
    (s.modFquCtr f).tts = s.tts := rfl
@[simp] theorem State.modFquCtr_sru (s : State) (f : FquCounters → FquCounters) :
    (s.modFquCtr f).sru = s.sru := rfl
@[simp] theorem State.modFquCtr_bdc (s : State) (f : FquCounters → FquCounters) :
    (s.modFquCtr f).bdc = s.bdc := rfl
@[simp] theorem State.modFquCtr_fqu (s : State) (f : FquCounters → FquCounters) :
    (s.modFquCtr f).fqu = { s.fqu with ctr := f s.fqu.ctr } := rfl
@[simp] theorem State.modFquCtr_sju (s : State) (f : FquCounters → FquCounters) :
    (s.modFquCtr f).sju = s.sju := rfl
@[simp] theorem State.modFquCtr_tpi (s : State) (f : FquCounters → FquCounters) :
    (s.modFquCtr f).tpi = s.tpi := rfl
@[simp] theorem State.modSjuCtr_pending (s : State) (f : SjuCounters → SjuCounters) :
    (s.modSjuCtr f).pending = s.pending := rfl
@[simp] theorem State.modSjuCtr_powered (s : State) (f : SjuCounters → SjuCounters) :
    (s.modSjuCtr f).powered = s.powered := rfl
@[simp] theorem State.modSjuCtr_starting (s : State) (f : SjuCounters → SjuCounters) :
    (s.modSjuCtr f).starting = s.starting := rfl
@[simp] theorem State.modSjuCtr_strapPins (s : State) (f : SjuCounters → SjuCounters) :
    (s.modSjuCtr f).strapPins = s.strapPins := rfl
@[simp] theorem State.modSjuCtr_lowEnergy (s : State) (f : SjuCounters → SjuCounters) :
    (s.modSjuCtr f).lowEnergy = s.lowEnergy := rfl
@[simp] theorem State.modSjuCtr_mark (s : State) (f : SjuCounters → SjuCounters) :
    (s.modSjuCtr f).mark = s.mark := rfl
@[simp] theorem State.modSjuCtr_params (s : State) (f : SjuCounters → SjuCounters) :
    (s.modSjuCtr f).params = s.params := rfl
@[simp] theorem State.modSjuCtr_own (s : State) (f : SjuCounters → SjuCounters) :
    (s.modSjuCtr f).own = s.own := rfl
@[simp] theorem State.modSjuCtr_salesClosed (s : State) (f : SjuCounters → SjuCounters) :
    (s.modSjuCtr f).salesClosed = s.salesClosed := rfl
@[simp] theorem State.modSjuCtr_mgu (s : State) (f : SjuCounters → SjuCounters) :
    (s.modSjuCtr f).mgu = s.mgu := rfl
@[simp] theorem State.modSjuCtr_up (s : State) (f : SjuCounters → SjuCounters) :
    (s.modSjuCtr f).up = s.up := rfl
@[simp] theorem State.modSjuCtr_down (s : State) (f : SjuCounters → SjuCounters) :
    (s.modSjuCtr f).down = s.down := rfl
@[simp] theorem State.modSjuCtr_fru (s : State) (f : SjuCounters → SjuCounters) :
    (s.modSjuCtr f).fru = s.fru := rfl
@[simp] theorem State.modSjuCtr_htb (s : State) (f : SjuCounters → SjuCounters) :
    (s.modSjuCtr f).htb = s.htb := rfl
@[simp] theorem State.modSjuCtr_tts (s : State) (f : SjuCounters → SjuCounters) :
    (s.modSjuCtr f).tts = s.tts := rfl
@[simp] theorem State.modSjuCtr_sru (s : State) (f : SjuCounters → SjuCounters) :
    (s.modSjuCtr f).sru = s.sru := rfl
@[simp] theorem State.modSjuCtr_bdc (s : State) (f : SjuCounters → SjuCounters) :
    (s.modSjuCtr f).bdc = s.bdc := rfl
@[simp] theorem State.modSjuCtr_fqu (s : State) (f : SjuCounters → SjuCounters) :
    (s.modSjuCtr f).fqu = s.fqu := rfl
@[simp] theorem State.modSjuCtr_sju (s : State) (f : SjuCounters → SjuCounters) :
    (s.modSjuCtr f).sju = { s.sju with ctr := f s.sju.ctr } := rfl
@[simp] theorem State.modSjuCtr_tpi (s : State) (f : SjuCounters → SjuCounters) :
    (s.modSjuCtr f).tpi = s.tpi := rfl
@[simp] theorem State.modTpiCtr_pending (s : State) (f : TpiCounters → TpiCounters) :
    (s.modTpiCtr f).pending = s.pending := rfl
@[simp] theorem State.modTpiCtr_powered (s : State) (f : TpiCounters → TpiCounters) :
    (s.modTpiCtr f).powered = s.powered := rfl
@[simp] theorem State.modTpiCtr_starting (s : State) (f : TpiCounters → TpiCounters) :
    (s.modTpiCtr f).starting = s.starting := rfl
@[simp] theorem State.modTpiCtr_strapPins (s : State) (f : TpiCounters → TpiCounters) :
    (s.modTpiCtr f).strapPins = s.strapPins := rfl
@[simp] theorem State.modTpiCtr_lowEnergy (s : State) (f : TpiCounters → TpiCounters) :
    (s.modTpiCtr f).lowEnergy = s.lowEnergy := rfl
@[simp] theorem State.modTpiCtr_mark (s : State) (f : TpiCounters → TpiCounters) :
    (s.modTpiCtr f).mark = s.mark := rfl
@[simp] theorem State.modTpiCtr_params (s : State) (f : TpiCounters → TpiCounters) :
    (s.modTpiCtr f).params = s.params := rfl
@[simp] theorem State.modTpiCtr_own (s : State) (f : TpiCounters → TpiCounters) :
    (s.modTpiCtr f).own = s.own := rfl
@[simp] theorem State.modTpiCtr_salesClosed (s : State) (f : TpiCounters → TpiCounters) :
    (s.modTpiCtr f).salesClosed = s.salesClosed := rfl
@[simp] theorem State.modTpiCtr_mgu (s : State) (f : TpiCounters → TpiCounters) :
    (s.modTpiCtr f).mgu = s.mgu := rfl
@[simp] theorem State.modTpiCtr_up (s : State) (f : TpiCounters → TpiCounters) :
    (s.modTpiCtr f).up = s.up := rfl
@[simp] theorem State.modTpiCtr_down (s : State) (f : TpiCounters → TpiCounters) :
    (s.modTpiCtr f).down = s.down := rfl
@[simp] theorem State.modTpiCtr_fru (s : State) (f : TpiCounters → TpiCounters) :
    (s.modTpiCtr f).fru = s.fru := rfl
@[simp] theorem State.modTpiCtr_htb (s : State) (f : TpiCounters → TpiCounters) :
    (s.modTpiCtr f).htb = s.htb := rfl
@[simp] theorem State.modTpiCtr_tts (s : State) (f : TpiCounters → TpiCounters) :
    (s.modTpiCtr f).tts = s.tts := rfl
@[simp] theorem State.modTpiCtr_sru (s : State) (f : TpiCounters → TpiCounters) :
    (s.modTpiCtr f).sru = s.sru := rfl
@[simp] theorem State.modTpiCtr_bdc (s : State) (f : TpiCounters → TpiCounters) :
    (s.modTpiCtr f).bdc = s.bdc := rfl
@[simp] theorem State.modTpiCtr_fqu (s : State) (f : TpiCounters → TpiCounters) :
    (s.modTpiCtr f).fqu = s.fqu := rfl
@[simp] theorem State.modTpiCtr_sju (s : State) (f : TpiCounters → TpiCounters) :
    (s.modTpiCtr f).sju = s.sju := rfl
@[simp] theorem State.modTpiCtr_tpi (s : State) (f : TpiCounters → TpiCounters) :
    (s.modTpiCtr f).tpi = { s.tpi with ctr := f s.tpi.ctr } := rfl

/-! ## Calls, slots and replies -/
@[simp] theorem State.mapCalls_pending (s : State) (f : Call → Call) : (s.mapCalls f).pending = s.pending := rfl
@[simp] theorem State.mapCalls_powered (s : State) (f : Call → Call) : (s.mapCalls f).powered = s.powered := rfl
@[simp] theorem State.mapCalls_starting (s : State) (f : Call → Call) : (s.mapCalls f).starting = s.starting := rfl
@[simp] theorem State.mapCalls_strapPins (s : State) (f : Call → Call) : (s.mapCalls f).strapPins = s.strapPins := rfl
@[simp] theorem State.mapCalls_lowEnergy (s : State) (f : Call → Call) : (s.mapCalls f).lowEnergy = s.lowEnergy := rfl
@[simp] theorem State.mapCalls_mark (s : State) (f : Call → Call) : (s.mapCalls f).mark = s.mark := rfl
@[simp] theorem State.mapCalls_params (s : State) (f : Call → Call) : (s.mapCalls f).params = s.params := rfl
@[simp] theorem State.mapCalls_own (s : State) (f : Call → Call) : (s.mapCalls f).own = s.own := rfl
@[simp] theorem State.mapCalls_salesClosed (s : State) (f : Call → Call) : (s.mapCalls f).salesClosed = s.salesClosed := rfl
@[simp] theorem State.mapCalls_mgu (s : State) (f : Call → Call) : (s.mapCalls f).mgu = s.mgu := rfl
@[simp] theorem State.mapCalls_up (s : State) (f : Call → Call) : (s.mapCalls f).up = s.up := rfl
@[simp] theorem State.mapCalls_down (s : State) (f : Call → Call) : (s.mapCalls f).down = s.down := rfl
@[simp] theorem State.mapCalls_fru (s : State) (f : Call → Call) : (s.mapCalls f).fru = s.fru := rfl
@[simp] theorem State.mapCalls_htb (s : State) (f : Call → Call) : (s.mapCalls f).htb = s.htb := rfl
@[simp] theorem State.mapCalls_tts (s : State) (f : Call → Call) :
    (s.mapCalls f).tts = { s.tts with current := s.tts.current.map f } := rfl
@[simp] theorem State.mapCalls_sru (s : State) (f : Call → Call) : (s.mapCalls f).sru = s.sru := rfl
@[simp] theorem State.mapCalls_bdc (s : State) (f : Call → Call) : (s.mapCalls f).bdc = s.bdc := rfl
@[simp] theorem State.mapCalls_fqu (s : State) (f : Call → Call) : (s.mapCalls f).fqu = s.fqu := rfl
@[simp] theorem State.mapCalls_sju (s : State) (f : Call → Call) : (s.mapCalls f).sju = s.sju := rfl
@[simp] theorem State.mapCalls_tpi (s : State) (f : Call → Call) : (s.mapCalls f).tpi = s.tpi := rfl
@[simp] theorem State.setSlot_pending (s : State) (i : Fin 4) (x : Slot) :
    (s.setSlot i x).pending = s.pending := rfl
@[simp] theorem State.setSlot_powered (s : State) (i : Fin 4) (x : Slot) :
    (s.setSlot i x).powered = s.powered := rfl
@[simp] theorem State.setSlot_starting (s : State) (i : Fin 4) (x : Slot) :
    (s.setSlot i x).starting = s.starting := rfl
@[simp] theorem State.setSlot_strapPins (s : State) (i : Fin 4) (x : Slot) :
    (s.setSlot i x).strapPins = s.strapPins := rfl
@[simp] theorem State.setSlot_lowEnergy (s : State) (i : Fin 4) (x : Slot) :
    (s.setSlot i x).lowEnergy = s.lowEnergy := rfl
@[simp] theorem State.setSlot_mark (s : State) (i : Fin 4) (x : Slot) :
    (s.setSlot i x).mark = s.mark := rfl
@[simp] theorem State.setSlot_params (s : State) (i : Fin 4) (x : Slot) :
    (s.setSlot i x).params = s.params := rfl
@[simp] theorem State.setSlot_own (s : State) (i : Fin 4) (x : Slot) :
    (s.setSlot i x).own = s.own := rfl
@[simp] theorem State.setSlot_salesClosed (s : State) (i : Fin 4) (x : Slot) :
    (s.setSlot i x).salesClosed = s.salesClosed := rfl
@[simp] theorem State.setSlot_mgu (s : State) (i : Fin 4) (x : Slot) :
    (s.setSlot i x).mgu = s.mgu := rfl
@[simp] theorem State.setSlot_up (s : State) (i : Fin 4) (x : Slot) :
    (s.setSlot i x).up = s.up := rfl
@[simp] theorem State.setSlot_down (s : State) (i : Fin 4) (x : Slot) :
    (s.setSlot i x).down = s.down := rfl
@[simp] theorem State.setSlot_fru (s : State) (i : Fin 4) (x : Slot) :
    (s.setSlot i x).fru = s.fru := rfl
@[simp] theorem State.setSlot_htb (s : State) (i : Fin 4) (x : Slot) :
    (s.setSlot i x).htb = s.htb := rfl
@[simp] theorem State.setSlot_tts (s : State) (i : Fin 4) (x : Slot) :
    (s.setSlot i x).tts = s.tts := rfl
@[simp] theorem State.setSlot_sru (s : State) (i : Fin 4) (x : Slot) :
    (s.setSlot i x).sru = s.sru := rfl
@[simp] theorem State.setSlot_bdc (s : State) (i : Fin 4) (x : Slot) :
    (s.setSlot i x).bdc = s.bdc := rfl
@[simp] theorem State.setSlot_fqu (s : State) (i : Fin 4) (x : Slot) :
    (s.setSlot i x).fqu = { s.fqu with slots := s.fqu.slots.set i x } := rfl
@[simp] theorem State.setSlot_sju (s : State) (i : Fin 4) (x : Slot) :
    (s.setSlot i x).sju = { s.sju with quotesHeld := openSlots (s.fqu.slots.set i x) } := rfl
@[simp] theorem State.setSlot_tpi (s : State) (i : Fin 4) (x : Slot) :
    (s.setSlot i x).tpi = s.tpi := rfl
@[simp] theorem State.pushReply_pending (s : State) (r : TerminalReply) :
    (s.pushReply r).pending = s.pending := rfl
@[simp] theorem State.pushReply_powered (s : State) (r : TerminalReply) :
    (s.pushReply r).powered = s.powered := rfl
@[simp] theorem State.pushReply_starting (s : State) (r : TerminalReply) :
    (s.pushReply r).starting = s.starting := rfl
@[simp] theorem State.pushReply_strapPins (s : State) (r : TerminalReply) :
    (s.pushReply r).strapPins = s.strapPins := rfl
@[simp] theorem State.pushReply_lowEnergy (s : State) (r : TerminalReply) :
    (s.pushReply r).lowEnergy = s.lowEnergy := rfl
@[simp] theorem State.pushReply_mark (s : State) (r : TerminalReply) :
    (s.pushReply r).mark = s.mark := rfl
@[simp] theorem State.pushReply_params (s : State) (r : TerminalReply) :
    (s.pushReply r).params = s.params := rfl
@[simp] theorem State.pushReply_own (s : State) (r : TerminalReply) :
    (s.pushReply r).own = s.own := rfl
@[simp] theorem State.pushReply_salesClosed (s : State) (r : TerminalReply) :
    (s.pushReply r).salesClosed = s.salesClosed := rfl
@[simp] theorem State.pushReply_mgu (s : State) (r : TerminalReply) :
    (s.pushReply r).mgu = s.mgu := rfl
@[simp] theorem State.pushReply_up (s : State) (r : TerminalReply) :
    (s.pushReply r).up = s.up := rfl
@[simp] theorem State.pushReply_down (s : State) (r : TerminalReply) :
    (s.pushReply r).down = s.down := rfl
@[simp] theorem State.pushReply_fru (s : State) (r : TerminalReply) :
    (s.pushReply r).fru = s.fru := rfl
@[simp] theorem State.pushReply_htb (s : State) (r : TerminalReply) :
    (s.pushReply r).htb = s.htb := rfl
@[simp] theorem State.pushReply_tts (s : State) (r : TerminalReply) :
    (s.pushReply r).tts = s.tts := rfl
@[simp] theorem State.pushReply_sru (s : State) (r : TerminalReply) :
    (s.pushReply r).sru = s.sru := rfl
@[simp] theorem State.pushReply_bdc (s : State) (r : TerminalReply) :
    (s.pushReply r).bdc = s.bdc := rfl
@[simp] theorem State.pushReply_fqu (s : State) (r : TerminalReply) :
    (s.pushReply r).fqu = s.fqu := rfl
@[simp] theorem State.pushReply_sju (s : State) (r : TerminalReply) :
    (s.pushReply r).sju = s.sju := rfl
@[simp] theorem State.pushReply_tpi (s : State) (r : TerminalReply) :
    (s.pushReply r).tpi = { s.tpi with replies := s.tpi.replies ++ [r] } := rfl

end Sys2Proof.Machine
end

