-- ==== Sys2Proof/Laws/Keeps.lean ====
section
/-! SUPPORT. What an operation keeps: the relation between a state and the one an operation makes of it
that carries every bound and order of Safety.lean across, and the ways to show it. -/

namespace Sys2Proof.Laws

open Sys2Proof.Machine Sys2Proof.Safety

/-- The second state has the first's queue of commands, and every soundness the first had. -/
structure Keeps (s t : State) : Prop where
  pending : t.pending = s.pending
  queues : QueuesFit s → QueuesFit t
  banks : BanksOrdered s → BanksOrdered t
  journal : JournalRuns s.sju → JournalRuns t.sju
  clock : ClockStands s → ClockStands t
  counts : CountsBounded s → CountsBounded t
  stores : StoresFit s → StoresFit t
  windows : WindowsApart s → WindowsApart t

theorem Keeps.refl (s : State) : Keeps s s :=
  ⟨rfl, id, id, id, id, id, id, id⟩

theorem Keeps.trans {s t u : State} (h : Keeps s t) (k : Keeps t u) : Keeps s u :=
  ⟨k.pending.trans h.pending, k.queues ∘ h.queues, k.banks ∘ h.banks, k.journal ∘ h.journal,
    k.clock ∘ h.clock, k.counts ∘ h.counts, k.stores ∘ h.stores, k.windows ∘ h.windows⟩

theorem Keeps.ite {c : Prop} [Decidable c] {s t u : State} (h : Keeps s t) (k : Keeps s u) :
    Keeps s (if c then t else u) := by
  split
  · exact h
  · exact k

/-- A fold of operations that keep. -/
theorem Keeps.foldl {α : Type} (f : State → α → State) (h : ∀ s a, Keeps s (f s a)) (as : List α)
    (s : State) : Keeps s (as.foldl f s) := by
  induction as generalizing s with
  | nil => exact .refl s
  | cons a as ih => exact (h s a).trans (ih (f s a))

/-- What the soundness of a state reads. -/
def sound (s : State) :=
  (s.pending, (s.up, s.down, s.params), (s.tts.current, s.tts.currentState),
    (s.tts.next, s.tts.nextState),
    (s.sju.journal, s.sju.ackSeq, s.sju.nextSeq, s.sju.writeSeq),
    (s.htb.stand, s.htb.secs, s.htb.hour), (s.tpi.replies, s.tpi.ring), s.fru.windows)

/-- A change of none of those keeps. -/
theorem Keeps.of_sound {s t : State} (h : sound t = sound s) : Keeps s t := by
  simp only [sound, Prod.mk.injEq] at h
  obtain ⟨hp, ⟨hu, hd, hps⟩, ⟨hc, hcs⟩, ⟨hn, hns⟩, ⟨hj, ha, hN, hw⟩, ⟨hst, hse, hh⟩, ⟨hr, hg⟩, hwin⟩ := h
  have port : ∀ p, t.port p = s.port p := fun p => by cases p <;> simp [hu, hd]
  refine ⟨hp, ?_, ?_, ?_, ?_, ?_, ?_, ?_⟩
  · simp [QueuesFit, hu, hd]
  · simp [BanksOrdered, hc, hcs, hn, hns]
  · intro k
    obtain ⟨k1, k2, k3, k4, k5⟩ := k
    refine ⟨?_, ?_, ?_, ?_, ?_⟩
    · simpa [Sju.occupancy, hj, ha, hw] using k1
    · simpa [hj] using k2
    · intro i hi
      have := k3 i (by simpa [hj] using hi)
      simp only [hj, ha]; exact this
    · simpa [Sju.inFlight, hj, ha, hN] using k4
    · simpa [Sju.inFlight, ha, hN] using k5
  · simp [ClockStands, hst, hse, hh, hps]
  · simp [CountsBounded, port, hps, hc, hn]
  · simp [StoresFit, port, hr, hg]
  · simp [WindowsApart, hwin]

/-! ## Ports -/

/-- A port's record replaced by one as sound, under a bucket limit. -/
structure PortKeeps (limit : Nat) (a b : LinePort) : Prop where
  queue : QueueFits a → QueueFits b
  bucket : a.lsu.bucket ≤ limit → b.lsu.bucket ≤ limit
  buffers : a.buffers.length ≤ 8 → b.buffers.length ≤ 8

theorem PortKeeps.refl (limit : Nat) (a : LinePort) : PortKeeps limit a a := ⟨id, id, id⟩

theorem PortKeeps.trans {limit : Nat} {a b c : LinePort} (h : PortKeeps limit a b)
    (k : PortKeeps limit b c) : PortKeeps limit a c :=
  ⟨k.queue ∘ h.queue, k.bucket ∘ h.bucket, k.buffers ∘ h.buffers⟩

theorem Keeps.setPort {s : State} {p : Port} {lp : LinePort}
    (h : PortKeeps (s.params.port p).limit (s.port p) lp) : Keeps s (s.setPort p lp) := by
  obtain ⟨hq, hb, hbuf⟩ := h
  cases p
  all_goals
    refine ⟨rfl, ?_, id, id, id, ?_, ?_, id⟩
    · intro k
      first
      | exact ⟨hq k.1, k.2⟩
      | exact ⟨k.1, hq k.2⟩
    · intro k
      refine ⟨?_, k.2⟩
      intro p
      cases p
      all_goals first
        | exact hb (k.1 .up)
        | exact hb (k.1 .down)
        | exact k.1 .up
        | exact k.1 .down
    · intro k
      refine ⟨?_, k.2⟩
      intro p
      cases p
      all_goals first
        | exact hbuf (k.1 .up)
        | exact hbuf (k.1 .down)
        | exact k.1 .up
        | exact k.1 .down

theorem Keeps.modPort {s : State} {p : Port} {f : LinePort → LinePort}
    (h : PortKeeps (s.params.port p).limit (s.port p) (f (s.port p))) : Keeps s (s.modPort p f) :=
  .setPort h

/-- A change of a port's record that leaves its queue, its state, its bucket and its buffers. -/
theorem PortKeeps.of_eq {limit : Nat} {a b : LinePort} (hq : b.queue = a.queue)
    (hs : b.lsu.state = a.lsu.state) (hb : b.lsu.bucket = a.lsu.bucket)
    (hf : b.buffers = a.buffers) : PortKeeps limit a b := by
  refine ⟨?_, ?_, ?_⟩
  · simp [QueueFits, hq, hs]
  · simp [hb]
  · simp [hf]

/-! ## Calls, journal, clock, terminal -/

/-- A change of a call that leaves its place and its key, and its forecast in range. -/
structure CallKeeps (c d : Call) : Prop where
  sched : d.loaded.sched = c.loaded.sched
  key : d.key = c.key
  forecast : c.forecast ≤ 21600 → d.forecast ≤ 21600

theorem CallKeeps.refl (c : Call) : CallKeeps c c := ⟨rfl, rfl, id⟩

theorem CallKeeps.of_eq {c d : Call} (hl : d.loaded = c.loaded) (hf : d.forecast = c.forecast) :
    CallKeeps c d :=
  ⟨by rw [hl], by simp [Call.key, hl], by rw [hf]; exact id⟩

theorem before_iff_of_eq {a b c d : Call} (ha : c.loaded.sched = a.loaded.sched) (ka : c.key = a.key)
    (hb : d.loaded.sched = b.loaded.sched) (kb : d.key = b.key) :
    c.loaded.before d.loaded = a.loaded.before b.loaded := by
  simp only [Call.key, Loaded.key, Key.mk.injEq] at ka kb
  simp only [Loaded.before, ha, hb, ka.1, ka.2, kb.1, kb.2]

theorem bankOrdered_map {calls : List Call} {f : Call → Call} (hf : ∀ c, CallKeeps c (f c))
    (h : BankOrdered calls) : BankOrdered (calls.map f) := by
  obtain ⟨h1, h2, h3⟩ := h
  refine ⟨by simpa using h1, ?_, ?_⟩
  · rw [List.pairwise_map]
    refine h2.imp ?_
    intro a b hab
    rw [before_iff_of_eq (hf a).sched (hf a).key (hf b).sched (hf b).key]
    exact hab
  · rw [List.map_map]
    rwa [show Call.key ∘ f = Call.key from funext fun c => (hf c).key]

theorem Keeps.mapCalls {s : State} {f : Call → Call} (hf : ∀ c, CallKeeps c (f c)) :
    Keeps s (s.mapCalls f) := by
  refine ⟨rfl, id, ?_, id, id, ?_, id, id⟩
  · intro h
    refine ⟨bankOrdered_map hf h.1, h.2.1, ?_, h.2.2.2⟩
    intro he
    simp [h.2.2.1 he]
  · intro h
    refine ⟨h.1, ?_⟩
    intro c hc
    simp only [State.mapCalls_tts, List.mem_append, List.mem_map] at hc
    rcases hc with ⟨d, hd, rfl⟩ | hc
    · exact (hf d).forecast (h.2 d (by simp [hd]))
    · exact h.2 c (by simp [hc])

theorem Keeps.modCall {s : State} {k : Key} {f : Call → Call} (hf : ∀ c, CallKeeps c (f c)) :
    Keeps s (s.modCall k f) := by
  refine .mapCalls fun c => ?_
  split
  · exact hf c
  · exact .refl c

/-- A change of the SJU that leaves the journal running. -/
theorem Keeps.setSju {s : State} {j : Sju} (h : JournalRuns s.sju → JournalRuns j) :
    Keeps s { s with sju := j } :=
  ⟨rfl, id, id, h, id, id, id, id⟩

/-- A change of the SJU that leaves the journal and its pointers. -/
theorem Keeps.sameJournal {s : State} {j : Sju}
    (h : (j.journal, j.ackSeq, j.nextSeq, j.writeSeq)
      = (s.sju.journal, s.sju.ackSeq, s.sju.nextSeq, s.sju.writeSeq)) :
    Keeps s { s with sju := j } := by
  simp only [Prod.mk.injEq] at h
  exact .of_sound (by simp only [sound, h.1, h.2.1, h.2.2.1, h.2.2.2])

theorem Keeps.setHtb {s : State} {h' : Htb}
    (h : ClockStands s → ClockStands { s with htb := h' }) : Keeps s { s with htb := h' } :=
  ⟨rfl, id, id, id, h, id, id, id⟩

end Sys2Proof.Laws
end

