-- ==== Sys2Proof/Laws/Boards.lean ====
section
/-! SUPPORT. The Board Compositor and the terminal port: what their shared operations change, and that
they keep every soundness. -/

namespace Sys2Proof.Laws

open Sys2Proof.Machine Sys2Proof.Safety

/-! ## The digits of a destination code -/

theorem digitChar_toNat (d : Nat) (h : d < 10) : (digitChar d).toNat = 48 + d := by
  rw [digitChar, BitVec.toNat_ofNat]
  omega

theorem foldl_dropWhile_zero (l : List Nat) :
    (l.dropWhile (· == 0)).foldl (fun a d => 10 * a + d) 0 = l.foldl (fun a d => 10 * a + d) 0 := by
  induction l with
  | nil => rfl
  | cons d l ih =>
    by_cases h : d = 0
    · subst h
      simpa using ih
    · simp [h]

/-- The digits of a number below 100000 read back as it (R125). -/
theorem decimalDigits_value (n : Nat) (h : n < 100000) :
    ((decimalDigits n).map fun d => d.toNat - 48).foldl (fun a d => 10 * a + d) 0 = n := by
  have back (l : List Nat) (hl : ∀ d ∈ l, d < 10) :
      (l.map digitChar).map (fun d => d.toNat - 48) = l := by
    rw [List.map_map]
    conv => rhs; rw [← List.map_id l]
    exact List.map_congr_left fun d hd => by
      simp [digitChar_toNat d (hl d hd)]
  rw [decimalDigits, back, List.foldl_append, foldl_dropWhile_zero]
  · simp only [List.map_cons, List.map_nil, List.foldl_cons, List.foldl_nil]
    omega
  · intro d hd
    rcases List.mem_append.1 hd with hd | hd
    · have := (List.dropWhile_sublist _).subset hd
      simp only [List.mem_map, List.mem_cons, List.not_mem_nil, or_false] at this
      obtain ⟨_, _, rfl⟩ := this
      omega
    · rw [List.mem_singleton.1 hd]
      omega

/-- A number is written in one to five digits (R125). -/
theorem decimalDigits_length (n : Nat) :
    1 ≤ (decimalDigits n).length ∧ (decimalDigits n).length ≤ 5 := by
  have h := (List.dropWhile_sublist (fun d : Nat => d == 0)
    (l := [10000, 1000, 100, 10].map fun d => n / d % 10)).length_le
  simp only [decimalDigits, List.length_map, List.length_append, List.length_cons,
    List.length_nil] at h ⊢
  omega

/-! ## The boards change nothing but the boards -/

theorem linkStart_frame (s : State) : ∃ b, s.linkStart = { s with bdc := b } := ⟨_, rfl⟩

theorem darkTest_frame (s : State) (r : WakeCause) : ∃ b, s.darkTest r = { s with bdc := b } := by
  unfold State.darkTest State.wake State.enterDark
  split
  · exact ⟨s.bdc, rfl⟩
  · split
    all_goals exact ⟨_, rfl⟩

theorem noteActivity_frame (s : State) (r : WakeCause) :
    ∃ b, s.noteActivity r = { s with bdc := b } := by
  obtain ⟨b, hb⟩ := darkTest_frame
    { s with bdc := { s.bdc with activity := .running Config.activityMs } } r
  exact ⟨b, hb⟩

theorem compose_frame (s : State) : ∃ b, s.compose = { s with bdc := b } := by
  obtain ⟨b, hb⟩ := darkTest_frame s.composeRows .none
  refine ⟨b.linkStart, ?_⟩
  rw [State.compose, hb]
  rfl

theorem chooseEnergy_frame (s : State) : ∃ b, s.chooseEnergy = { s with bdc := b } := by
  unfold State.chooseEnergy
  split
  · exact ⟨s.bdc, rfl⟩
  · exact ⟨_, rfl⟩

/-- What follows a change of the boards: the dark test and the link. -/
theorem settle_frame {s t : State} (h : ∃ b, t = { s with bdc := b }) (r : WakeCause) :
    ∃ b, (t.darkTest r).linkStart = { s with bdc := b } := by
  obtain ⟨b, rfl⟩ := h
  obtain ⟨b', hb⟩ := darkTest_frame { s with bdc := b } r
  exact ⟨b'.linkStart, by rw [hb]; rfl⟩

theorem endWarmUp_frame (s : State) : ∃ b, s.endWarmUp = { s with bdc := b } := by
  refine settle_frame ?_ _
  dsimp only
  split
  all_goals exact ⟨_, rfl⟩

theorem minuteRefresh_frame (s : State) : ∃ b, s.minuteRefresh = { s with bdc := b } := by
  unfold State.minuteRefresh
  split
  · exact ⟨s.bdc, rfl⟩
  · exact ⟨_, rfl⟩

theorem Keeps.of_bdc {s t : State} (h : ∃ b, t = { s with bdc := b }) : Keeps s t := by
  obtain ⟨b, rfl⟩ := h
  exact .of_sound rfl

theorem linkStart_keeps (s : State) : Keeps s s.linkStart := .of_bdc (linkStart_frame s)
theorem darkTest_keeps (s : State) (r : WakeCause) : Keeps s (s.darkTest r) :=
  .of_bdc (darkTest_frame s r)
theorem noteActivity_keeps (s : State) (r : WakeCause) : Keeps s (s.noteActivity r) :=
  .of_bdc (noteActivity_frame s r)
theorem compose_keeps (s : State) : Keeps s s.compose := .of_bdc (compose_frame s)
theorem chooseEnergy_keeps (s : State) : Keeps s s.chooseEnergy := .of_bdc (chooseEnergy_frame s)
theorem endWarmUp_keeps (s : State) : Keeps s s.endWarmUp := .of_bdc (endWarmUp_frame s)
theorem minuteRefresh_keeps (s : State) : Keeps s s.minuteRefresh :=
  .of_bdc (minuteRefresh_frame s)

/-! ## The notice ring -/

theorem setRing_frame (s : State) (ring : List Notice) :
    ∃ b, s.setRing ring = { s with bdc := b, tpi := { s.tpi with ring := ring } } := by
  unfold State.setRing
  dsimp only
  split
  · exact ⟨s.bdc, rfl⟩
  · exact settle_frame (s := { s with tpi := { s.tpi with ring := ring } }) ⟨s.bdc, rfl⟩ .none

/-- A notice posted joins a ring with room, and otherwise sets the overflow flag (R181). -/
theorem postNotice_frame (s : State) (n : Notice) :
    ∃ b, s.postNotice n = { s with
      bdc := b
      tpi := if s.tpi.ring.length < 32 then { s.tpi with ring := s.tpi.ring ++ [n] }
        else { s.tpi with overflow := true } } := by
  unfold State.postNotice Config.ringSlots
  split
  · exact setRing_frame s _
  · exact ⟨s.bdc, rfl⟩

theorem Keeps.of_ring {s t : State} {b : Bdc} {ring : List Notice} {v : Bool}
    (h : t = { s with bdc := b, tpi := { s.tpi with ring := ring, overflow := v } })
    (hr : s.tpi.ring.length ≤ 32 → ring.length ≤ 32) : Keeps s t := by
  subst h
  exact ⟨rfl, id, id, id, id, id, fun k => ⟨k.1, k.2.1, hr k.2.2⟩, id⟩

theorem setRing_keeps (s : State) (ring : List Notice)
    (hr : s.tpi.ring.length ≤ 32 → ring.length ≤ 32) : Keeps s (s.setRing ring) := by
  obtain ⟨b, hb⟩ := setRing_frame s ring
  exact .of_ring hb hr

theorem postNotice_keeps (s : State) (n : Notice) : Keeps s (s.postNotice n) := by
  obtain ⟨b, hb⟩ := postNotice_frame s n
  by_cases h : s.tpi.ring.length < 32
  · rw [if_pos h] at hb
    refine .of_ring hb fun _ => ?_
    simp only [List.length_append, List.length_cons, List.length_nil]
    omega
  · rw [if_neg h] at hb
    exact .of_ring hb id

/-! ## Replies -/

theorem pushReply_keeps (s : State) (r : TerminalReply) (h : s.tpi.replies.length < 4) :
    Keeps s (s.pushReply r) := by
  refine ⟨rfl, id, id, id, id, id, fun k => ⟨k.1, ?_, k.2.2⟩, id⟩
  simp only [State.pushReply_tpi, List.length_append, List.length_cons, List.length_nil]
  omega

/-- What serving keeps, when its owner keeps and leaves the replies alone. -/
theorem serve_keeps (s : State) (code : Byte) (f : State → Served)
    (hf : ∀ u, Keeps u (f u).state) (hr : ∀ u, (f u).state.tpi.replies = u.tpi.replies) :
    Keeps s (s.serve code f) := by
  unfold State.serve Config.replySlots
  split
  · exact .refl s
  · split
    · exact .of_sound rfl
    · refine (noteActivity_keeps s .terminal).trans ((hf _).trans (pushReply_keeps _ _ ?_))
      obtain ⟨b, hb⟩ := noteActivity_frame s .terminal
      rw [hr, hb]
      simp only
      omega

end Sys2Proof.Laws
end

