-- ==== Sys2Proof/Laws/Queues.lean ====
section
/-! SUPPORT. The transmit queues and the drain of the journal: what the shared operations change, and
that they keep every soundness. -/

namespace Sys2Proof.Laws

open Sys2Proof.Machine Sys2Proof.Safety

/-! ## Admission -/

theorem admits_iff (lp : LinePort) (c : TxClass) :
    lp.admits c = true ↔ Room lp c := by
  simp only [LinePort.admits, Room, Bool.and_eq_true, Bool.or_eq_true, beq_iff_eq,
    decide_eq_true_eq, and_assoc]
  exact Iff.rfl

theorem nonUrgent_append (q : List Queued) (x : Queued) :
    nonUrgent (q ++ [x]) = nonUrgent q + if x.cls = .urgent then 0 else 1 := by
  simp only [nonUrgent, List.filter_append, List.length_append]
  split <;> simp [*]

/-- A frame offered is queued when there is room, and otherwise counted (R51). -/
theorem enqueue_cases (lp : LinePort) (q : Queued) :
    (Room lp q.cls ∧ lp.enqueue q = { lp with queue := lp.queue ++ [q] })
      ∨ (¬ Room lp q.cls ∧ lp.enqueue q = { lp with fruCtr := lp.countDrop q.cls }) := by
  unfold LinePort.enqueue
  by_cases h : Room lp q.cls
  · exact .inl ⟨h, by rw [if_pos ((admits_iff lp q.cls).2 h)]⟩
  · exact .inr ⟨h, by rw [if_neg (fun k => h ((admits_iff lp q.cls).1 k))]⟩

theorem enqueue_portKeeps (limit : Nat) (lp : LinePort) (q : Queued) :
    PortKeeps limit lp (lp.enqueue q) := by
  rcases enqueue_cases lp q with ⟨⟨h1, h2, h3⟩, e⟩ | ⟨-, e⟩
  · rw [e]
    refine ⟨?_, id, id⟩
    intro ⟨k1, k2, k3⟩
    refine ⟨?_, ?_, fun n => absurd h1 n⟩
    · simp only [List.length_append, List.length_cons, List.length_nil]
      omega
    · rw [nonUrgent_append]
      rcases h3 with h3 | h3
      · rw [if_pos h3]
        exact k2
      · split <;> omega
  · rw [e]
    exact .of_eq rfl rfl rfl rfl

theorem flush_portKeeps (limit : Nat) (lp : LinePort) : PortKeeps limit lp lp.flush :=
  ⟨fun _ => ⟨by simp [LinePort.flush], by simp [LinePort.flush, nonUrgent], fun _ => rfl⟩, id, id⟩

/-! ## The drain -/

/-- N moved on by what one JRNL carries leaves the journal running (R167). -/
theorem journalRuns_advance {j : Sju} {timer : Timer} (h : JournalRuns j) :
    JournalRuns { j with
      nextSeq := j.nextSeq + BitVec.ofNat 32 j.jrnlCount, ackTimer := timer } := by
  obtain ⟨h1, h2, h3, h4, h5⟩ := h
  refine ⟨h1, h2, h3, ?_, ?_⟩
  all_goals
    simp only [Sju.inFlight, Sju.occupancy, Sju.jrnlCount, Config.sendWindow] at *
    bv_omega

theorem buildJrnl_keeps (s : State) : Keeps s s.buildJrnl := by
  refine Keeps.trans (t := s.setPort .up (s.up.enqueue ⟨.own, s.jrnlFrame⟩))
    (.setPort (enqueue_portKeeps _ _ _)) ?_
  exact Keeps.setSju fun h => journalRuns_advance h

/-- The drain changes the Up port and N with its timer alone. -/
theorem drainUpTo_frame (n : Nat) (s : State) :
    ∃ up sju, s.drainUpTo n = { s with up := up, sju := sju } := by
  induction n generalizing s with
  | zero => exact ⟨_, _, rfl⟩
  | succ n ih =>
    unfold State.drainUpTo
    split
    · split
      · obtain ⟨up, sju, h⟩ := ih s.buildJrnl
        exact ⟨up, sju, by rw [h]; rfl⟩
      · exact ⟨_, _, rfl⟩
    · exact ⟨_, _, rfl⟩

theorem drain_frame (s : State) : ∃ up sju, s.drain = { s with up := up, sju := sju } :=
  drainUpTo_frame _ s

theorem drainUpTo_keeps (n : Nat) (s : State) : Keeps s (s.drainUpTo n) := by
  induction n generalizing s with
  | zero => exact .refl s
  | succ n ih =>
    unfold State.drainUpTo
    split
    · split
      · exact (buildJrnl_keeps s).trans (ih _)
      · exact buildJrnl_keeps s
    · exact .refl s

theorem drain_keeps (s : State) : Keeps s s.drain := drainUpTo_keeps _ s

/-- Outside SERVICE the drain does nothing (R54). -/
theorem drain_eq_of_not_service (s : State) (h : s.up.lsu.state ≠ .service) : s.drain = s := by
  simp [State.drain, Config.drainBelow, State.drainUpTo, State.drainCondition, h]

/-! ## Offers -/

theorem offer_keeps (s : State) (p : Port) (q : Queued) : Keeps s (s.offer p q) := by
  have h : Keeps s (s.modPort p fun lp => lp.enqueue q) := .modPort (enqueue_portKeeps _ _ _)
  unfold State.offer
  dsimp only
  split
  · exact h.trans (drain_keeps _)
  · exact h

theorem offerOwn_keeps (s : State) (p : Port) (k : Kind) (d : HaltCode) (x : Payload) :
    Keeps s (s.offerOwn p k d x) := by
  unfold State.offerOwn
  split
  · exact .refl s
  · exact offer_keeps _ _ _

theorem originateBeacon_keeps (s : State) : Keeps s s.originateBeacon :=
  Keeps.trans (t := { s with fru := { s.fru with
    beaconTimer := .running (1000 * s.params.beaconInterval) } }) (.of_sound rfl)
    (offerOwn_keeps _ _ _ _ _)

theorem offerReply_keeps (s : State) (r : Reply) : Keeps s (s.offerReply r) :=
  offerOwn_keeps _ _ _ _ _

/-- An offer changes the ports and N with its timer alone. -/
theorem offer_frame (s : State) (p : Port) (q : Queued) :
    ∃ up down sju, s.offer p q = { s with up := up, down := down, sju := sju } := by
  unfold State.offer
  dsimp only
  split
  · obtain ⟨up, sju, h⟩ := drain_frame (s.modPort p fun lp => lp.enqueue q)
    rw [h]
    cases p <;> exact ⟨_, _, _, rfl⟩
  · cases p <;> exact ⟨_, _, _, rfl⟩

theorem offerOwn_frame (s : State) (p : Port) (k : Kind) (d : HaltCode) (x : Payload) :
    ∃ up down sju, s.offerOwn p k d x = { s with up := up, down := down, sju := sju } := by
  unfold State.offerOwn
  split
  · exact ⟨_, _, _, rfl⟩
  · exact offer_frame _ _ _

/-! ## The arbiter -/

theorem handOver_portKeeps (limit : Nat) {lp b : LinePort} {f : TxFrame}
    (h : lp.handOver = some (f, b)) : PortKeeps limit lp b := by
  simp only [LinePort.handOver, Option.bind_eq_bind, Option.bind_eq_some_iff, Option.some.injEq,
    Prod.mk.injEq] at h
  obtain ⟨c, -, x, -, -, rfl⟩ := h
  refine ⟨?_, id, id⟩
  intro ⟨k1, k2, k3⟩
  have sub := List.eraseP_sublist (p := fun x => x.cls == c) (l := lp.queue)
  refine ⟨sub.length_le.trans k1, ?_, fun n => ?_⟩
  · exact (sub.filter _).length_le.trans k2
  · have := k3 n
    simp [this]

end Sys2Proof.Laws
end

