-- ==== Sys2Proof/Laws/Trade.lean ====
section
/-! SUPPORT. Quotes, journal and sales mode: that their shared operations keep every soundness, and
what the sales mode and the restart counts are after them. -/

namespace Sys2Proof.Laws

open Sys2Proof.Machine Sys2Proof.Safety

/-! ## Quote slots -/

theorem setSlot_keeps (s : State) (i : Fin 4) (x : Slot) : Keeps s (s.setSlot i x) := .of_sound rfl

theorem withdrawSlot_keeps (s : State) (i : Fin 4) : Keeps s (s.withdrawSlot i) :=
  Keeps.trans (t := (s.setSlot i .free).modFquCtr fun c => { c with withdrawn := tally c.withdrawn })
    (.of_sound rfl) (postNotice_keeps _ _)

theorem invalidateSlot_keeps (hit : Quote → Bool) (s : State) (i : Fin 4) :
    Keeps s (s.invalidateSlot hit i) := by
  unfold State.invalidateSlot
  split
  · exact .refl s
  · exact .refl s
  · split
    · exact withdrawSlot_keeps s i
    · exact .refl s
  · split
    · exact setSlot_keeps s i _
    · exact .refl s

theorem invalidate_keeps (s : State) (hit : Quote → Bool) : Keeps s (s.invalidate hit) :=
  Keeps.foldl _ (invalidateSlot_keeps hit) allSlots s

theorem invalidateAll_keeps (s : State) : Keeps s s.invalidateAll := invalidate_keeps s _

theorem invalidateNaming_keeps (s : State) (k : Key) : Keeps s (s.invalidateNaming k) :=
  invalidate_keeps s _

theorem cutoffSlot_keeps (s : State) (i : Fin 4) : Keeps s (s.cutoffSlot i) := by
  unfold State.cutoffSlot
  split
  · split
    · exact withdrawSlot_keeps s i
    · exact .refl s
  all_goals exact .refl s

theorem cutoffQuotes_keeps (s : State) : Keeps s s.cutoffQuotes :=
  Keeps.foldl _ cutoffSlot_keeps allSlots s

theorem expireSlot_keeps (s : State) (i : Fin 4) : Keeps s (s.expireSlot i) := by
  unfold State.expireSlot
  split
  · split
    · exact Keeps.trans (t := (s.setSlot i .free).modFquCtr fun c =>
        { c with expired := tally c.expired }) (.of_sound rfl) (postNotice_keeps _ _)
    · exact .refl s
  all_goals exact .refl s

/-! ## Sales mode -/

theorem setSalesMode_keeps (s : State) (m : SalesMode) : Keeps s (s.setSalesMode m) := by
  have h : Keeps s { s with sju := { s.sju with salesMode := m } } := .of_sound rfl
  unfold State.setSalesMode
  split
  · exact .refl s
  · refine Keeps.trans (t := if s.starting then { s with sju := { s.sju with salesMode := m } }
      else State.postNotice { s with sju := { s.sju with salesMode := m } } (.salesMode m)) ?_ ?_
    · exact .ite h (h.trans (postNotice_keeps _ _))
    · exact .ite (invalidateAll_keeps _) (.refl _)

theorem deriveSalesMode_keeps (s : State) : Keeps s s.deriveSalesMode := setSalesMode_keeps s _

/-! ## The journal -/

/-- A record appended to a journal with a place free leaves it running (R165). -/
theorem journalRuns_push {j : Sju} (b : JournalBody) (h : JournalRuns j) (free : 1 ≤ j.freePlaces) :
    JournalRuns (j.push b) := by
  obtain ⟨h1, h2, h3, h4, h5⟩ := h
  have occ : j.occupancy ≤ 511 := by
    simp only [Sju.freePlaces, Config.journalRecords] at free
    omega
  refine ⟨?_, ?_, ?_, ?_, h5⟩
  · simp only [Sju.push, List.length_append, List.length_cons, List.length_nil, h1]
    simp only [Sju.occupancy] at *
    bv_omega
  · simp only [Sju.push, List.length_append, List.length_cons, List.length_nil]
    omega
  · intro i hi
    simp only [Sju.push, List.length_append, List.length_cons, List.length_nil] at hi ⊢
    by_cases e : i < j.journal.length
    · rw [List.getElem_append_left e]
      exact h3 i e
    · have : i = j.journal.length := by omega
      subst this
      rw [List.getElem_append_right (Nat.le_refl _)]
      simp only [Nat.sub_self, List.getElem_cons_zero, h1, Sju.occupancy]
      bv_omega
  · have e : (j.push b).inFlight = j.inFlight := rfl
    rw [e]
    simp only [Sju.push, List.length_append, List.length_cons, List.length_nil]
    omega

theorem freePlaces_of_mayAppend {s : State} {b : JournalBody} (h : s.mayAppend b = true) :
    1 ≤ s.sju.freePlaces := by
  simp only [State.mayAppend, Bool.and_eq_true, decide_eq_true_eq] at h
  refine le_trans ?_ h.2
  cases b <;> simp [JournalBody.needs, Config.saleNeeds]

theorem appendRecord_keeps (s : State) (b : JournalBody) : Keeps s (s.appendRecord b) := by
  unfold State.appendRecord
  split
  · rename_i h
    have k : Keeps s { s with sju := s.sju.push b } :=
      .setSju fun r => journalRuns_push b r (freePlaces_of_mayAppend h)
    dsimp only
    split
    · exact k.trans (postNotice_keeps _ _)
    · exact k
  · exact .refl s

theorem afterAppend_keeps (s : State) : Keeps s s.afterAppend :=
  (deriveSalesMode_keeps s).trans (drain_keeps _)

theorem appendOrLose_keeps (s : State) (b : JournalBody) (f : SjuCounters → SjuCounters) :
    Keeps s (s.appendOrLose b f) := by
  unfold State.appendOrLose
  split
  · exact (appendRecord_keeps s b).trans (afterAppend_keeps _)
  · split
    · exact .refl s
    · exact .of_sound rfl

theorem appendReversal_keeps (s : State) (t : Tag) (total : Nat) (code : List Byte) :
    Keeps s (s.appendReversal t total code) := appendOrLose_keeps s _ _

theorem appendOther_keeps (s : State) (b : JournalBody) : Keeps s (s.appendOther b) :=
  appendOrLose_keeps s _ _

theorem closeDay_keeps (s : State) (d : Date) : Keeps s (s.closeDay d) :=
  (appendOther_keeps s _).trans (.of_sound rfl)

/-- N set to A leaves the journal running (R168). -/
theorem journalRuns_goBack {j : Sju} (h : JournalRuns j) : JournalRuns j.goBack := by
  obtain ⟨h1, h2, h3, -, -⟩ := h
  refine ⟨h1, h2, h3, ?_, ?_⟩ <;> simp [Sju.goBack, Sju.inFlight]

theorem goBack_keeps (s : State) : Keeps s { s with sju := s.sju.goBack } :=
  .setSju journalRuns_goBack

/-- Records sent and acknowledged leave the journal, which runs on (R169). -/
theorem journalRuns_acknowledge {j : Sju} {n : Nat} (hn : n ≤ j.inFlight) (h : JournalRuns j) :
    JournalRuns (j.acknowledge n) := by
  obtain ⟨h1, h2, h3, h4, h5⟩ := h
  have e : (BitVec.ofNat 32 n).toNat = n := by
    rw [BitVec.toNat_ofNat]
    omega
  refine ⟨?_, ?_, ?_, ?_, ?_⟩
  · show (j.journal.drop n).length = (j.writeSeq - (j.ackSeq + BitVec.ofNat 32 n)).toNat
    rw [List.length_drop, h1]
    simp only [Sju.occupancy, Sju.inFlight] at *
    bv_omega
  · show (j.journal.drop n).length ≤ 512
    rw [List.length_drop]
    omega
  · intro i hi
    change i < (j.journal.drop n).length at hi
    show (j.journal.drop n)[i].seq = j.ackSeq + BitVec.ofNat 32 n + BitVec.ofNat 32 i
    rw [List.getElem_drop, h3, BitVec.ofNat_add]
    ac_rfl
  · show (j.nextSeq - (j.ackSeq + BitVec.ofNat 32 n)).toNat ≤ (j.journal.drop n).length
    rw [List.length_drop]
    simp only [Sju.inFlight] at *
    bv_omega
  · show (j.nextSeq - (j.ackSeq + BitVec.ofNat 32 n)).toNat ≤ 64
    simp only [Sju.inFlight] at *
    bv_omega

theorem advanceAck_keeps (s : State) {n : Nat} (hn : n ≤ s.sju.inFlight) :
    Keeps s (s.advanceAck n) := by
  unfold State.advanceAck
  split
  · exact .refl s
  · exact Keeps.trans (.setSju (journalRuns_acknowledge hn)) (afterAppend_keeps _)

theorem ackThrough_keeps (s : State) (k : Seq) : Keeps s (s.ackThrough k) := by
  unfold State.ackThrough
  dsimp only
  split
  · exact .of_sound rfl
  · split
    · exact advanceAck_keeps s (by omega)
    · exact Keeps.trans (t := s.modSjuCtr fun c => { c with ackAhead := tally c.ackAhead })
        (.of_sound rfl) (advanceAck_keeps _ (Nat.le_refl _))

theorem takeJack_keeps (s : State) (d : HaltCode) (bs : List Byte) : Keeps s (s.takeJack d bs) := by
  unfold State.takeJack
  split
  · split
    · exact ackThrough_keeps s _
    · exact .of_sound rfl
  · exact .of_sound rfl

end Sys2Proof.Laws
end

