-- ==== Sys2Proof/Laws/Stops.lean ====
section
/-! SUPPORT. Stop requests and forecasts: that their shared operations keep every soundness. -/

namespace Sys2Proof.Laws

open Sys2Proof.Machine Sys2Proof.Safety

/-! ## Stop requests -/

theorem modIo_keeps (s : State) (p : Platform) (f : PlatformIo → PlatformIo) :
    Keeps s (s.modIo p f) := by
  cases p <;> exact .of_sound rfl

theorem modSruCtr_keeps (s : State) (f : SruCounters → SruCounters) : Keeps s (s.modSruCtr f) :=
  .of_sound rfl

theorem deriveLamps_keeps (s : State) : Keeps s s.deriveLamps := .of_sound rfl

theorem announceStop_keeps (s : State) (k : Key) (a b : StopState) :
    Keeps s (s.announceStop k a b) := by
  refine Keeps.trans (t := if a = b then s.deriveLamps else s.deriveLamps.compose) ?_ ?_
  · exact .ite (deriveLamps_keeps s) ((deriveLamps_keeps s).trans (compose_keeps _))
  · exact .ite (postNotice_keeps _ _) (.refl _)

theorem changeStop_keeps (s : State) (c : Call) (f : Call → Call) (hf : ∀ c, CallKeeps c (f c)) :
    Keeps s (s.changeStop c f) :=
  (Keeps.modCall hf).trans (announceStop_keeps _ _ _ _)

theorem sendStopreq_keeps (s : State) (c : Call) : Keeps s (s.sendStopreq c) := by
  refine Keeps.trans (t := State.modSruCtr { s with sru := { s.sru with
    serial := s.sru.serial + 1#8 } } fun k => { k with stopreqBuilt := tally k.stopreqBuilt })
    (.of_sound rfl) ((offerOwn_keeps _ _ _ _ _).trans (changeStop_keeps _ _ _ ?_))
  exact fun c => .of_eq rfl rfl

theorem trySend_keeps (s : State) (k : Key) : Keeps s (s.trySend k) := by
  unfold State.trySend
  split
  · exact .ite (sendStopreq_keeps s _) (.refl s)
  · exact .refl s

theorem testCutoff_keeps (s : State) (k : Key) : Keeps s (s.testCutoff k) := by
  unfold State.testCutoff
  split
  · exact .refl s
  · refine .ite (.refl s) (.ite ?_ (.ite ?_ (.refl s)))
    · exact changeStop_keeps s _ _ fun c => .of_eq rfl rfl
    · refine Keeps.trans (changeStop_keeps s _ _ ?_) (trySend_keeps _ _)
      exact fun c => .of_eq rfl rfl

theorem testCutoffs_keeps (s : State) : Keeps s s.testCutoffs :=
  (Keeps.foldl _ testCutoff_keeps s.keys s).trans (deriveLamps_keeps _)

theorem wantStop_keeps (s : State) (c : Call) (x : StopCause) : Keeps s (s.wantStop c x) := by
  refine Keeps.trans (Keeps.trans (changeStop_keeps s _ _ ?_) (trySend_keeps _ _))
    (testCutoff_keeps _ _)
  exact fun c => .of_eq rfl rfl

theorem ticketRequest_keeps (s : State) (k : Key) : Keeps s (s.ticketRequest k) := by
  unfold State.ticketRequest
  split
  · exact .ite (wantStop_keeps s _ _) (.refl s)
  · exact .refl s

theorem press_keeps (s : State) (p : Platform) : Keeps s (s.press p) := by
  unfold State.press
  split
  · exact ((modSruCtr_keeps s _).trans (modIo_keeps _ _ _)).trans (deriveLamps_keeps _)
  · exact ((modIo_keeps s _ _).trans (.ite (wantStop_keeps _ _ _) (.refl _))).trans
      (deriveLamps_keeps _)

theorem confirm_keeps (s : State) (k : Key) : Keeps s (s.confirm k) := by
  unfold State.confirm
  dsimp only
  split
  · exact modSruCtr_keeps s _
  · refine .ite (modSruCtr_keeps s _) ?_
    split
    · exact modSruCtr_keeps s _
    · exact .refl s
    all_goals exact changeStop_keeps s _ _ fun c => .of_eq rfl rfl

theorem takeStopconf_keeps (s : State) (bs : List Byte) : Keeps s (s.takeStopconf bs) := by
  unfold State.takeStopconf
  split
  · exact confirm_keeps s _
  · exact modSruCtr_keeps s _

theorem unsend_callKeeps (c : Call) : CallKeeps c c.unsend := by
  unfold Call.unsend
  split
  · exact .of_eq rfl rfl
  · exact .refl c

/-- The stop state of a call returned to WANTED: never SENT (R114, R121). -/
theorem unsend_stop (c : Call) : c.unsend.stop = if c.stop = .sent then .wanted else c.stop := by
  unfold Call.unsend
  split <;> rfl

theorem stopsLoseLink_keeps (s : State) : Keeps s s.stopsLoseLink := by
  have h : Keeps s (s.mapCalls Call.unsend).deriveLamps :=
    (Keeps.mapCalls unsend_callKeeps).trans (deriveLamps_keeps _)
  exact .ite h (h.trans (compose_keeps _))

theorem stopsGainLink_keeps (s : State) : Keeps s s.stopsGainLink :=
  Keeps.foldl _ trySend_keeps s.keys s

theorem stopsOnCall_keeps (s : State) (k : Key) : Keeps s (s.stopsOnCall k) := by
  unfold State.stopsOnCall
  refine Keeps.trans ?_ (deriveLamps_keeps _)
  split
  · exact .refl s
  · exact .ite (testCutoff_keeps s k) (.modCall fun c => .of_eq rfl rfl)

theorem sendWanted_keeps (s : State) (k : Key) : Keeps s (s.sendWanted k) :=
  (trySend_keeps s k).trans (deriveLamps_keeps _)

/-! ## Forecasts -/

theorem delayAfter_le (phi : Nat) (d : Int) (a : Nat) : delayAfter phi d a ≤ 21600 :=
  Nat.min_le_left _ _

theorem delayNow_le (phi : Nat) (c : Call) : c.delayNow phi ≤ 21600 := by
  unfold Call.delayNow
  split
  · exact Nat.zero_le _
  · exact delayAfter_le _ _ _

theorem showCall_callKeeps (s : State) (c : Call) : CallKeeps c (s.showCall c) := .of_eq rfl rfl

theorem markCall_callKeeps (s : State) (c : Call) : CallKeeps c (s.markCall c) := .of_eq rfl rfl

theorem deriveCall_callKeeps (s : State) (c : Call) : CallKeeps c (s.deriveCall c) := by
  unfold State.deriveCall
  dsimp only
  split
  · exact ⟨rfl, rfl, fun _ => delayNow_le _ _⟩
  · exact .of_eq rfl rfl

theorem announceForecast_keeps (s : State) (k : Key) : Keeps s (s.announceForecast k) :=
  (((testCutoff_keeps s k).trans (deriveLamps_keeps _)).trans (cutoffQuotes_keeps _)).trans
    (compose_keeps _)

theorem rederive_keeps (s : State) (f : Call → Call) (hf : ∀ c, CallKeeps c (f c)) :
    Keeps s (s.rederive f) :=
  (Keeps.mapCalls hf).trans (Keeps.foldl _ announceForecast_keeps _ _)

theorem rederiveCall_keeps (s : State) (k : Key) : Keeps s (s.rederiveCall k) := by
  refine rederive_keeps s _ fun c => ?_
  split
  · exact deriveCall_callKeeps s c
  · exact .refl c

theorem rederiveAll_keeps (s : State) : Keeps s s.rederiveAll :=
  rederive_keeps s _ (deriveCall_callKeeps s)

theorem rederiveConfidence_keeps (s : State) : Keeps s s.rederiveConfidence :=
  rederive_keeps s _ fun _ => .of_eq rfl rfl

theorem testOverdue_keeps (s : State) : Keeps s s.testOverdue :=
  rederive_keeps s _ (markCall_callKeeps s)

theorem rederiveDisplay_keeps (s : State) : Keeps s s.rederiveDisplay :=
  rederive_keeps s _ (showCall_callKeeps s)

theorem deriveQuietly_keeps (s : State) : Keeps s s.deriveQuietly :=
  .mapCalls (deriveCall_callKeeps s)

end Sys2Proof.Laws
end

