-- ==== Sys2Proof/Laws/Timetable.lean ====
section
/-! SUPPORT. The timetable banks: insertion and removal keep bank order, and the Timetable Store's
shared operations keep every soundness. -/

namespace Sys2Proof.Laws

open Sys2Proof.Machine Sys2Proof.Safety

/-! ## Bank order -/

theorem before_iff (a b : Loaded) : a.before b = true ↔
    a.sched < b.sched ∨ a.sched = b.sched ∧
      (a.train < b.train ∨ a.train = b.train ∧ a.runDate < b.runDate) := by
  simp [Loaded.before]

theorem before_trans {a b c : Loaded} (h : a.before b = true) (k : b.before c = true) :
    a.before c = true := by
  rw [before_iff] at *
  bv_omega

theorem before_of_not {a b : Loaded} (h : ¬ a.before b = true) (k : a.key ≠ b.key) :
    b.before a = true := by
  rw [before_iff] at *
  have : a.train ≠ b.train ∨ a.runDate ≠ b.runDate := by
    by_contra e
    push Not at e
    exact k (by simp [Loaded.key, e.1, e.2])
  bv_omega

theorem insertCall_perm (c : Call) (calls : List Call) : (insertCall c calls).Perm (c :: calls) := by
  induction calls with
  | nil => exact .refl _
  | cons x xs ih =>
    unfold insertCall
    split
    · exact .refl _
    · exact (ih.cons x).trans (.swap c x xs)

theorem insertCall_pairwise {c : Call} {calls : List Call}
    (h : calls.Pairwise fun a b => a.loaded.before b.loaded = true)
    (new : ∀ x ∈ calls, x.key ≠ c.key) :
    (insertCall c calls).Pairwise fun a b => a.loaded.before b.loaded = true := by
  induction calls with
  | nil => simp [insertCall]
  | cons x xs ih =>
    rw [List.pairwise_cons] at h
    unfold insertCall
    split
    · rename_i e
      refine .cons ?_ (.cons h.1 h.2)
      intro y hy
      rcases List.mem_cons.1 hy with rfl | hy
      · exact e
      · exact before_trans e (h.1 y hy)
    · rename_i e
      refine .cons ?_ (ih h.2 fun y hy => new y (List.mem_cons_of_mem _ hy))
      intro y hy
      rcases List.mem_cons.1 ((insertCall_perm c xs).mem_iff.1 hy) with rfl | hy
      · exact before_of_not e (Ne.symm (new x List.mem_cons_self))
      · exact h.1 y hy

/-- A new key inserted in a bank with room (R72). -/
theorem bankOrdered_insert {c : Call} {calls : List Call} (h : BankOrdered calls)
    (room : calls.length < 160) (new : ∀ x ∈ calls, x.key ≠ c.key) :
    BankOrdered (insertCall c calls) := by
  have p := insertCall_perm c calls
  refine ⟨?_, insertCall_pairwise h.2.1 new, ?_⟩
  · rw [p.length_eq, List.length_cons]
    omega
  · rw [(p.map Call.key).nodup_iff, List.map_cons, List.nodup_cons]
    refine ⟨?_, h.2.2⟩
    intro k
    obtain ⟨x, hx, e⟩ := List.mem_map.1 k
    exact new x hx e

theorem bankOrdered_remove {calls : List Call} (k : Key) (h : BankOrdered calls) :
    BankOrdered (removeCall k calls) := by
  have s : (removeCall k calls).Sublist calls := List.filter_sublist
  exact ⟨s.length_le.trans h.1, h.2.1.sublist s, h.2.2.sublist (s.map _)⟩

theorem bankOrdered_nil : BankOrdered [] := ⟨Nat.zero_le _, .nil, .nil⟩

theorem key_of_findCall {calls : List Call} {k : Key} {c : Call} (h : findCall calls k = some c) :
    c ∈ calls ∧ c.key = k :=
  ⟨List.mem_of_find?_eq_some h, by simpa using List.find?_some h⟩

theorem not_key_of_findCall {calls : List Call} {k : Key} (h : findCall calls k = none) :
    ∀ x ∈ calls, x.key ≠ k := by
  simpa [findCall] using h

theorem key_ne_of_removed {calls : List Call} {k : Key} : ∀ x ∈ removeCall k calls, x.key ≠ k := by
  simp [removeCall]

theorem clearStop_frame (c : Call) :
    c.clearStop = { c with stop := .none, stopCause := none, resend := .stopped } := rfl

theorem replacedBy_loaded (c : Call) (l : Loaded) : (c.replacedBy l).loaded = l := by
  unfold Call.replacedBy
  dsimp only
  split
  · split <;> rfl
  · rfl

theorem replacedBy_forecast (c : Call) (l : Loaded) (h : c.forecast ≤ 21600) :
    (c.replacedBy l).forecast ≤ 21600 := by
  unfold Call.replacedBy
  dsimp only
  split
  · split <;> exact h
  · exact Nat.zero_le _

/-- An applied CALL_ADD keeps the bank in order (R72, R74, R75). -/
theorem bankOrdered_addTo {calls : List Call} {l : Loaded} (h : BankOrdered calls)
    (room : hasRoom calls l.key = true) : BankOrdered (addTo calls l) := by
  unfold addTo
  split
  · rename_i c e
    have m := key_of_findCall e
    refine bankOrdered_insert (bankOrdered_remove _ h) ?_ ?_
    · have : (removeCall l.key calls).length < calls.length :=
        List.length_filter_lt_length_iff_exists.2 ⟨c, m.1, by simp [m.2]⟩
      exact lt_of_lt_of_le this h.1
    · rw [Call.key, replacedBy_loaded]
      exact key_ne_of_removed
  · rename_i e
    refine bankOrdered_insert h ?_ (not_key_of_findCall e)
    have := room
    simp only [hasRoom, e, Option.isSome_none, Bool.false_or, decide_eq_true_eq] at this
    exact this

theorem addTo_forecast {calls : List Call} {l : Loaded} (h : ∀ c ∈ calls, c.forecast ≤ 21600) :
    ∀ c ∈ addTo calls l, c.forecast ≤ 21600 := by
  intro c hc
  unfold addTo at hc
  split at hc
  · rename_i d e
    rcases List.mem_cons.1 ((insertCall_perm _ _).mem_iff.1 hc) with rfl | hc
    · exact replacedBy_forecast d l (h d (key_of_findCall e).1)
    · exact h c (List.mem_of_mem_filter hc)
  · rcases List.mem_cons.1 ((insertCall_perm _ _).mem_iff.1 hc) with rfl | hc
    · exact Nat.zero_le _
    · exact h c hc

/-! ## Changes of the banks -/

/-- A change of the banks that leaves them in order and their forecasts in range. -/
theorem Keeps.setTts {s : State} {t : Tts}
    (h : BanksOrdered s → BanksOrdered { s with tts := t })
    (f : (∀ c ∈ s.tts.current ++ s.tts.next, c.forecast ≤ 21600) →
      ∀ c ∈ t.current ++ t.next, c.forecast ≤ 21600) :
    Keeps s { s with tts := t } :=
  ⟨rfl, id, h, id, id, fun k => ⟨k.1, f k.2⟩, id, id⟩

theorem modTtsCtr_keeps (s : State) (f : TtsCounters → TtsCounters) : Keeps s (s.modTtsCtr f) :=
  .of_sound rfl

theorem addNext_keeps {s : State} {l : Loaded} (load : s.tts.loadable .next = true)
    (room : hasRoom s.tts.next l.key = true) :
    Keeps s { s with tts := { s.tts with next := addTo s.tts.next l } } := by
  refine .setTts ?_ ?_
  · intro ⟨h1, h2, h3, h4⟩
    refine ⟨h1, bankOrdered_addTo h2 room, h3, fun e => ?_⟩
    change s.tts.nextState = .empty at e
    simp [Tts.loadable, e] at load
  · intro h c hc
    rcases List.mem_append.1 hc with hc | hc
    · exact h c (List.mem_append_left _ hc)
    · exact addTo_forecast (fun d hd => h d (List.mem_append_right _ hd)) c hc

theorem addCurrent_keeps {s : State} {l : Loaded} (load : s.tts.loadable .current = true)
    (room : hasRoom s.tts.current l.key = true) :
    Keeps s { s with tts := Tts.bump { s.tts with current := addTo s.tts.current l } } := by
  refine .setTts ?_ ?_
  · intro ⟨h1, h2, h3, h4⟩
    refine ⟨bankOrdered_addTo h1 room, h2, fun e => ?_, h4⟩
    change s.tts.currentState = .empty at e
    simp [Tts.loadable, e] at load
  · intro h c hc
    rcases List.mem_append.1 hc with hc | hc
    · exact addTo_forecast (fun d hd => h d (List.mem_append_left _ hd)) c hc
    · exact h c (List.mem_append_right _ hc)

/-! ## Announcements -/

theorem announceAdded_keeps (s : State) (k : Key) : Keeps s (s.announceAdded k) :=
  ((rederiveCall_keeps s k).trans (stopsOnCall_keeps _ _)).trans (compose_keeps _)

theorem announceState_keeps (s : State) (k : Key) : Keeps s (s.announceState k) := by
  refine Keeps.trans ((rederiveCall_keeps s k).trans (stopsOnCall_keeps _ k)) ?_
  refine Keeps.trans (.ite (.refl _) (invalidateNaming_keeps _ k)) (compose_keeps _)

theorem announceReplaced_keeps (s : State) (k : Key) (before after : StopState) :
    Keeps s (s.announceReplaced k before after) :=
  (((((rederiveCall_keeps s k).trans (announceStop_keeps _ _ _ _)).trans
    (stopsOnCall_keeps _ k)).trans (invalidateNaming_keeps _ k)).trans (compose_keeps _))

theorem announceDeleted_keeps (s : State) (k : Key) : Keeps s (s.announceDeleted k) :=
  ((stopsOnCall_keeps s k).trans (invalidateNaming_keeps _ k)).trans (compose_keeps _)

theorem announceSwitch_keeps (s : State) : Keeps s s.announceSwitch :=
  (((rederiveAll_keeps s).trans (testCutoffs_keeps _)).trans (invalidate_keeps _ _)).trans
    (compose_keeps _)

/-! ## Loads -/

theorem addCall_keeps {s : State} {b : Bank} {l : Loaded} (load : s.tts.loadable b = true)
    (room : hasRoom (s.tts.bank b) l.key = true) : Keeps s (s.addCall b l) := by
  cases b with
  | next => exact addNext_keeps load room
  | current =>
    refine Keeps.trans (addCurrent_keeps load room) ?_
    unfold State.addCall
    dsimp only
    split
    · exact announceReplaced_keeps _ _ _ _
    · exact announceAdded_keeps _ _

theorem takeCallAdd_keeps (s : State) (bs : List Byte) : Keeps s (s.takeCallAdd bs) := by
  unfold State.takeCallAdd
  split
  · exact modTtsCtr_keeps s _
  · split
    · exact modTtsCtr_keeps s _
    · split
      · exact modTtsCtr_keeps s _
      · split
        · exact modTtsCtr_keeps s _
        · rename_i load _ room
          exact addCall_keeps (by simpa using load) (by simpa using room)

theorem deleteCall_keeps (s : State) (b : Bank) (k : Key) : Keeps s (s.deleteCall b k) := by
  have mem {calls : List Call} : ∀ c ∈ removeCall k calls, c ∈ calls :=
    fun _ hc => List.mem_of_mem_filter hc
  cases b with
  | next =>
    refine .setTts ?_ ?_
    · intro ⟨h1, h2, h3, h4⟩
      exact ⟨h1, bankOrdered_remove k h2, h3, fun e => by simp [removeCall, h4 e]⟩
    · intro h c hc
      rcases List.mem_append.1 hc with hc | hc
      · exact h c (List.mem_append_left _ hc)
      · exact h c (List.mem_append_right _ (mem c hc))
  | current =>
    refine Keeps.trans (.setTts ?_ ?_) (announceDeleted_keeps _ k)
    · intro ⟨h1, h2, h3, h4⟩
      exact ⟨bankOrdered_remove k h1, h2, fun e => by simp [Tts.bump, removeCall, h3 e], h4⟩
    · intro h c hc
      rcases List.mem_append.1 hc with hc | hc
      · exact h c (List.mem_append_left _ (mem c hc))
      · exact h c (List.mem_append_right _ hc)

theorem takeCallDelete_keeps (s : State) (bs : List Byte) : Keeps s (s.takeCallDelete bs) := by
  unfold State.takeCallDelete
  split
  · exact modTtsCtr_keeps s _
  · exact .ite (deleteCall_keeps s _ _) (modTtsCtr_keeps s _)

theorem takeBankOpen_keeps (s : State) (bs : List Byte) : Keeps s (s.takeBankOpen bs) := by
  unfold State.takeBankOpen
  split
  · exact modTtsCtr_keeps s _
  · exact modTtsCtr_keeps s _
  · refine .setTts ?_ ?_
    · intro ⟨h1, h2, h3, h4⟩
      exact ⟨h1, bankOrdered_nil, h3, fun _ => rfl⟩
    · intro h c hc
      exact h c (by simpa using Or.inl (by simpa using hc))

theorem closed_empty {t : Tts} {count : Nat} (h : t.closed count = .empty) :
    t.nextState = .empty := by
  unfold Tts.closed at h
  split at h
  · cases h
  · exact h

theorem takeBankClose_keeps (s : State) (bs : List Byte) : Keeps s (s.takeBankClose bs) := by
  unfold State.takeBankClose
  split
  · exact modTtsCtr_keeps s _
  · refine Keeps.trans ?_ (offerReply_keeps _ _)
    split
    · exact modTtsCtr_keeps s _
    · refine .setTts ?_ id
      intro ⟨h1, h2, h3, h4⟩
      exact ⟨h1, h2, h3, fun e => h4 (closed_empty e)⟩

/-! ## Calls -/

theorem setCallState_keeps (s : State) (k : Key) (st : CallState) : Keeps s (s.setCallState k st) := by
  refine Keeps.trans (t := s.modCall k fun c => { c with state := st }) (.modCall ?_)
    (announceState_keeps _ k)
  exact fun c => .of_eq rfl rfl

theorem acceptReport_keeps (s : State) (c : Call) (r : Report) : Keeps s (s.acceptReport c r) := by
  unfold State.acceptReport
  refine Keeps.trans (t := s.modCall c.key fun c => { c with report := some r, state := .running })
    (.modCall fun c => .of_eq rfl rfl) ?_
  dsimp only
  split
  · exact rederiveCall_keeps _ _
  · exact announceState_keeps _ _

theorem runPoint_keeps (s : State) (c : Call) (x : PointCode) (d : Int) (t : Nat) :
    Keeps s (s.runPoint c x d t) :=
  .ite (modTtsCtr_keeps s _) (.ite (setCallState_keeps s _ _)
    (.ite (acceptReport_keeps s _ _) (modTtsCtr_keeps s _)))

theorem runCancel_keeps (s : State) (c : Call) : Keeps s (s.runCancel c) := by
  unfold State.runCancel
  split
  · exact setCallState_keeps s _ _
  · exact setCallState_keeps s _ _
  · exact setCallState_keeps s _ _
  · exact .refl s
  · exact modTtsCtr_keeps s _

theorem reinstated_callKeeps (c : Call) : CallKeeps c c.reinstated :=
  let kept := unsend_callKeeps { c with state := .scheduled, report := none }
  ⟨kept.1, kept.2, kept.3⟩

theorem runReinstate_keeps (s : State) (c : Call) : Keeps s (s.runReinstate c) := by
  unfold State.runReinstate
  split
  · refine Keeps.trans (t := s.modCall c.key Call.reinstated) (.modCall reinstated_callKeeps) ?_
    exact (((rederiveCall_keeps _ _).trans (stopsOnCall_keeps _ _)).trans
      (sendWanted_keeps _ _)).trans (compose_keeps _)
  all_goals exact modTtsCtr_keeps s _

theorem runPlatform_keeps (s : State) (c : Call) (p : Platform) : Keeps s (s.runPlatform c p) := by
  refine .ite (modTtsCtr_keeps s _) (.ite (.refl s) ?_)
  refine Keeps.trans (t := s.modCall c.key fun c =>
    { c with loaded := { c.loaded with platform := p } }) (.modCall fun c => ⟨rfl, rfl, id⟩) ?_
  exact (stopsOnCall_keeps _ _).trans (compose_keeps _)

theorem takeRun_keeps (s : State) (bs : List Byte) : Keeps s (s.takeRun bs) := by
  unfold State.takeRun
  split
  · exact modTtsCtr_keeps s _
  · split
    · exact modTtsCtr_keeps s _
    · split
      · exact runPoint_keeps s _ _ _ _
      · exact runCancel_keeps s _
      · exact runReinstate_keeps s _
      · exact runPlatform_keeps s _ _

theorem expireCall_keeps (s : State) (k : Key) : Keeps s (s.expireCall k) := by
  unfold State.expireCall
  split
  · exact .ite (setCallState_keeps s _ _) (.refl s)
  · exact .refl s

theorem expireCalls_keeps (s : State) : Keeps s s.expireCalls :=
  Keeps.foldl _ expireCall_keeps s.keys s

/-! ## Bank switch and clearing -/

theorem switchTo_ordered {s : State} (d : Date) (h : BanksOrdered s) :
    BanksOrdered { s with tts := s.tts.switchTo d } := by
  obtain ⟨h1, h2, h3, h4⟩ := h
  unfold Tts.switchTo Tts.bump
  dsimp only
  split
  · exact ⟨h2, bankOrdered_nil, fun e => (CurrentState.noConfusion e), fun _ => rfl⟩
  · split
    · exact ⟨bankOrdered_nil, h2, fun _ => rfl, h4⟩
    · exact ⟨bankOrdered_nil, bankOrdered_nil, fun _ => rfl, fun _ => rfl⟩

theorem switchTo_mem (t : Tts) (d : Date) :
    ∀ c ∈ (t.switchTo d).current ++ (t.switchTo d).next, c ∈ t.current ++ t.next := by
  intro c hc
  unfold Tts.switchTo Tts.bump at hc
  dsimp only at hc
  split at hc
  · simp_all
  · split at hc <;> simp_all

theorem switchBanks_keeps (s : State) : Keeps s s.switchBanks :=
  Keeps.trans (.setTts (switchTo_ordered _) fun h c hc => h c (switchTo_mem _ _ c hc))
    (announceSwitch_keeps _)

theorem clearBanks_keeps (s : State) : Keeps s s.clearBanks :=
  Keeps.trans (.setTts (fun _ => ⟨bankOrdered_nil, bankOrdered_nil, fun _ => rfl, fun _ => rfl⟩)
    (fun _ c hc => by simp [Tts.clear, Tts.bump] at hc)) (announceSwitch_keeps _)

theorem forgetTakes_keeps (s : State) : Keeps s s.forgetTakes := .mapCalls fun _ => .of_eq rfl rfl

end Sys2Proof.Laws
end

