-- ==== Sys2Proof/Laws/Day.lean ====
section
/-! SUPPORT. Messages, fare tables, the clock, the day switch and sales: that their shared operations
keep every soundness. -/

namespace Sys2Proof.Laws

open Sys2Proof.Machine Sys2Proof.Safety

/-! ## Messages -/

theorem evaluateMessages_keeps (s : State) : Keeps s s.evaluateMessages := by
  unfold State.evaluateMessages
  refine .ite (.refl s) ?_
  refine Keeps.trans (t := { s with bdc := { s.bdc with
    valid := s.validMessages, held := heldCodes s.validMessages } }) (.of_sound rfl) ?_
  exact (((invalidate_keeps _ _).trans (compose_keeps _)).trans (darkTest_keeps _ _)).trans
    (linkStart_keeps _)

theorem setMessages_keeps (s : State) (ms : Vector (Option Message) 8) : Keeps s (s.setMessages ms) :=
  Keeps.trans (t := { s with bdc := { s.bdc with messages := ms } }) (.of_sound rfl)
    ((evaluateMessages_keeps _).trans (compose_keeps _))

theorem modBdcCtr_keeps (s : State) (f : BdcCounters → BdcCounters) : Keeps s (s.modBdcCtr f) :=
  .of_sound rfl

theorem takeMessage_keeps (s : State) (bs : List Byte) : Keeps s (s.takeMessage bs) := by
  unfold State.takeMessage
  split
  · exact modBdcCtr_keeps s _
  · split
    · exact setMessages_keeps s _
    · exact (modBdcCtr_keeps s _).trans (evaluateMessages_keeps _)

theorem takeMessageDelete_keeps (s : State) (bs : List Byte) : Keeps s (s.takeMessageDelete bs) := by
  unfold State.takeMessageDelete
  split
  · exact modBdcCtr_keeps s _
  · split
    · exact setMessages_keeps s _
    · exact modBdcCtr_keeps s _

theorem boardsOnSwitch_keeps (s : State) : Keeps s s.boardsOnSwitch :=
  (setMessages_keeps s _).trans (chooseEnergy_keeps _)

theorem clearMessages_keeps (s : State) : Keeps s s.clearMessages := setMessages_keeps s _

/-! ## Fare tables -/

theorem setFqu_keeps (s : State) (f : Fqu) : Keeps s { s with fqu := f } := .of_sound rfl

theorem activate_keeps (s : State) : Keeps s s.activate :=
  ((setFqu_keeps s _).trans (invalidateAll_keeps _)).trans (deriveSalesMode_keeps _)

theorem testActivation_keeps (s : State) : Keeps s s.testActivation := by
  unfold State.testActivation
  split
  · exact .ite (activate_keeps s) (.refl s)
  · exact .refl s

theorem takeFare_keeps (s : State) (bs : List Byte) : Keeps s (s.takeFare bs) := by
  unfold State.takeFare
  split
  · exact setFqu_keeps s _
  · split <;> exact setFqu_keeps s _

theorem takeFareActivate_keeps (s : State) (bs : List Byte) : Keeps s (s.takeFareActivate bs) := by
  unfold State.takeFareActivate
  split
  · exact setFqu_keeps s _
  · refine .ite (setFqu_keeps s _) ?_
    split
    · exact activate_keeps s
    · exact (setFqu_keeps s _).trans (testActivation_keeps _)

theorem clearFares_keeps (s : State) : Keeps s s.clearFares :=
  ((setFqu_keeps s _).trans (invalidateAll_keeps _)).trans (deriveSalesMode_keeps _)

/-! ## The clock -/

theorem announceSync_keeps (s : State) (h : Htb) : Keeps s (s.announceSync h) := by
  unfold State.announceSync
  refine .ite (.ite (.refl s) (rederiveConfidence_keeps s)) ?_
  exact ((((((rederiveConfidence_keeps s).trans (deriveSalesMode_keeps _)).trans
    (evaluateMessages_keeps _)).trans (chooseEnergy_keeps _)).trans (compose_keeps _))).trans
    (postNotice_keeps _ _)

theorem announceDaySwitch_keeps (s : State) (d : Option Date) : Keeps s (s.announceDaySwitch d) := by
  unfold State.announceDaySwitch
  refine Keeps.trans (((switchBanks_keeps s).trans (invalidateAll_keeps _)).trans
    (testActivation_keeps _)) ?_
  refine Keeps.trans ?_ (boardsOnSwitch_keeps _)
  split
  · exact closeDay_keeps _ _
  · exact .refl _

theorem announceTime_keeps (s : State) : Keeps s s.announceTime :=
  ((((((testOverdue_keeps s).trans (testCutoffs_keeps _)).trans (testActivation_keeps _)).trans
    (cutoffQuotes_keeps _)).trans (evaluateMessages_keeps _)).trans (chooseEnergy_keeps _)).trans
    (compose_keeps _)

/-- The clock after a day switch stands soundly (R63, R64). -/
theorem clockStands_switchedAt {s : State} (x : Nat) (h : ClockStands s) :
    ClockStands { s with htb := s.htb.switchedAt s.params.hour x } := by
  obtain ⟨h1, h2, h3, h4⟩ := h
  refine ⟨?_, ?_, h4, h4⟩
  all_goals
    simp only [Htb.switchedAt, Config.daySeconds]
    omega

theorem daySwitchOnce_keeps (s : State) (x : Nat) : Keeps s (s.daySwitchOnce x) :=
  Keeps.trans (.setHtb (clockStands_switchedAt x)) (announceDaySwitch_keeps _ _)

theorem modHtbCtr_keeps (s : State) (f : HtbCounters → HtbCounters) : Keeps s (s.modHtbCtr f) :=
  .of_sound rfl

theorem countDefer_keeps (s : State) : Keeps s s.countDefer := modHtbCtr_keeps s _

theorem rolloverWith_keeps {f : State → Nat → State} (hf : ∀ s x, Keeps s (f s x)) (s : State) :
    Keeps s (s.rolloverWith f) :=
  .ite (hf s _) (.ite ((countDefer_keeps s).trans (hf _ _)) (.of_sound rfl))

theorem daySwitch_keeps (s : State) (x : Nat) : Keeps s (s.daySwitch x) :=
  (daySwitchOnce_keeps s x).trans (.ite (rolloverWith_keeps daySwitchOnce_keeps _) (.refl _))

theorem rolloverCheck_keeps (s : State) : Keeps s s.rolloverCheck :=
  rolloverWith_keeps daySwitch_keeps s

theorem deferralTests_keeps (s : State) : Keeps s s.deferralTests :=
  .ite ((countDefer_keeps s).trans (daySwitch_keeps _ _)) (.ite (.refl s) (daySwitch_keeps _ _))

theorem forceDaySwitch_keeps (s : State) : Keeps s s.forceDaySwitch :=
  .ite (daySwitch_keeps _ _) (.refl s)

/-- The clock placed (R60): s with no stand, or a stand with s at 0. -/
theorem placed_keeps (s : State) (secs stand : Nat) (h : stand ≤ 7200) (z : 0 < stand → secs = 0) :
    Keeps s { s with htb := s.htb.placed secs stand } :=
  .setHtb fun ⟨_, _, k⟩ => ⟨h, z, k⟩

theorem placePast_keeps (s : State) (t : Nat) : Keeps s (s.placePast t) := by
  refine Keeps.trans (t := { s with htb := { s.htb with secs := t, stand := 0 } })
    (.setHtb fun ⟨_, _, k⟩ => ⟨Nat.zero_le _, fun e => absurd e (Nat.lt_irrefl 0), k⟩) ?_
  exact .ite (deferralTests_keeps _) (rolloverCheck_keeps _)

theorem place_keeps (s : State) (t : Int) (f : TimeFrame) : Keeps s (s.place t f) := by
  unfold State.place
  split
  · exact daySwitch_keeps s _
  · split
    · exact placePast_keeps s _
    · split
      · exact placed_keeps s _ 0 (by omega) (by omega)
      · split
        · exact placed_keeps s 0 _ (by omega) (fun _ => rfl)
        · split
          · refine Keeps.trans (t := { s with htb := { s.htb.placed f.secs 0 with date := f.date } })
              ?_ (announceDaySwitch_keeps _ _)
            exact .setHtb fun ⟨_, _, k⟩ => ⟨Nat.zero_le _, fun e => absurd e (Nat.lt_irrefl 0), k⟩
          · exact placed_keeps s 0 7200 (by omega) (fun _ => rfl)

theorem locked_keeps (s : State) : Keeps s { s with htb := s.htb.locked } := .of_sound rfl

theorem firstTime_keeps (s : State) (f : TimeFrame) : Keeps s (s.firstTime f) := by
  unfold State.firstTime
  refine Keeps.trans (.setHtb fun ⟨_, _, _, k⟩ => ?_)
    (((announceSync_keeps _ _).trans (announceDaySwitch_keeps _ _)).trans (announceTime_keeps _))
  exact ⟨Nat.zero_le _, fun e => absurd e (Nat.lt_irrefl 0), k, k⟩

theorem applyTime_keeps (s : State) (f : TimeFrame) : Keeps s (s.applyTime f) :=
  (((place_keeps s _ f).trans (locked_keeps _)).trans (announceSync_keeps _ _)).trans
    (announceTime_keeps _)

theorem takeTime_keeps (s : State) (bs : List Byte) : Keeps s (s.takeTime bs) := by
  unfold State.takeTime
  split
  · exact modHtbCtr_keeps s _
  · exact .ite (firstTime_keeps s _) (.ite (applyTime_keeps s _) (modHtbCtr_keeps s _))

/-- L and the sync state alone advance with L (R56, R58). -/
theorem advanceSync_frame (h : Htb) : ∃ l y, h.advanceSync = { h with sinceSync := l, sync := y } := by
  unfold Htb.advanceSync
  split
  · exact ⟨_, _, rfl⟩
  all_goals exact ⟨_, _, rfl⟩

/-- A second takes one from the stand, or adds one to s, or stands still while UNSET (R56, R64). -/
theorem advanceSecs_cases (h : Htb) : h.advanceSecs = h
    ∨ 0 < h.stand ∧ h.advanceSecs = { h with stand := h.stand - 1 }
    ∨ h.stand = 0 ∧ h.advanceSecs = { h with secs := tally h.secs } := by
  unfold Htb.advanceSecs
  split
  · exact .inl rfl
  all_goals
    split
    · rename_i e
      exact .inr (.inl ⟨e, rfl⟩)
    · rename_i e
      exact .inr (.inr ⟨by omega, rfl⟩)

theorem clockStands_advanceSecs {s : State} (h : ClockStands s) :
    ClockStands { s with htb := s.htb.advanceSecs } := by
  obtain ⟨h1, h2, h3⟩ := h
  rcases advanceSecs_cases s.htb with e | ⟨p, e⟩ | ⟨z, e⟩
  all_goals rw [e]
  · exact ⟨h1, h2, h3⟩
  · exact ⟨by simp only; omega, fun _ => h2 p, h3⟩
  · exact ⟨h1, fun k => absurd (show 0 < s.htb.stand from k) (by omega), h3⟩

theorem advanceSync_keeps (s : State) : Keeps s { s with htb := s.htb.advanceSync } := by
  obtain ⟨l, y, e⟩ := advanceSync_frame s.htb
  rw [e]
  exact .of_sound rfl

theorem advanceSecs_keeps (s : State) : Keeps s { s with htb := s.htb.advanceSecs } :=
  .setHtb clockStands_advanceSecs

theorem checkDay_keeps (s : State) : Keeps s s.checkDay :=
  .ite (deferralTests_keeps s) (.ite (rolloverCheck_keeps s) (.refl s))

theorem testSecond_keeps (s : State) : Keeps s s.testSecond :=
  (((testOverdue_keeps s).trans (testCutoffs_keeps _)).trans (testActivation_keeps _)).trans
    (cutoffQuotes_keeps _)

theorem serviceSecond_keeps (s : State) : Keeps s s.serviceSecond := by
  unfold State.serviceSecond
  refine Keeps.trans ((advanceSync_keeps s).trans (announceSync_keeps _ s.htb)) ?_
  exact .ite (advanceSecs_keeps _)
    (((advanceSecs_keeps _).trans (checkDay_keeps _)).trans (testSecond_keeps _))

theorem minuteTick_keeps (s : State) : Keeps s s.minuteTick :=
  ((((expireCalls_keeps s).trans (rederiveConfidence_keeps _)).trans (evaluateMessages_keeps _)).trans
    (chooseEnergy_keeps _)).trans (minuteRefresh_keeps _)

/-! ## Sales -/

theorem completeSale_keeps (s : State) (i : Fin 4) (q : Quote) (x : Sale) :
    Keeps s (s.completeSale i q x) := by
  have tail (u : State) : Keeps u (State.afterAppend { u.setSlot i .free with
      sju := (u.setSlot i .free).sju.withExposure }) := by
    refine Keeps.trans (Keeps.trans (setSlot_keeps u i .free) (.sameJournal ?_))
      (afterAppend_keeps _)
    rfl
  have head : Keeps s { s.appendRecord (.sale x) with
      sju := (s.appendRecord (.sale x)).sju.sold s.sju.writeSeq x } := by
    refine Keeps.trans (appendRecord_keeps s (.sale x)) (.sameJournal ?_)
    rfl
  unfold State.completeSale
  cases q.call with
  | none => exact head.trans (tail _)
  | some k => exact (head.trans (ticketRequest_keeps _ k)).trans (tail _)

theorem startAuth_keeps (s : State) (i : Fin 4) (q : Quote) (token : List Byte) :
    Keeps s (s.startAuth i q token) := by
  refine Keeps.trans (Keeps.trans (setSlot_keeps s i (.pendingAuth q false)) (.sameJournal ?_))
    (offerOwn_keeps _ _ _ _ _)
  rfl

theorem endAuth_keeps (s : State) (p : PendingAuth) : Keeps s (s.endAuth p) := .of_sound rfl

theorem abandonAuth_keeps (s : State) (r : Result) (f : SjuCounters → SjuCounters) :
    Keeps s (s.abandonAuth r f) := by
  unfold State.abandonAuth
  split
  · exact .refl s
  · rename_i p _
    refine Keeps.trans (Keeps.trans (Keeps.trans (endAuth_keeps s p) (.sameJournal ?_))
      (.sameJournal ?_)) (postNotice_keeps _ _)
    all_goals rfl

theorem approve_keeps (s : State) (p : PendingAuth) (code : List Byte) :
    Keeps s (s.approve p code) := by
  unfold State.approve
  split
  · exact ((endAuth_keeps s p).trans (completeSale_keeps _ _ _ _)).trans (postNotice_keeps _ _)
  all_goals
    exact ((appendReversal_keeps s _ _ _).trans (endAuth_keeps _ p)).trans (postNotice_keeps _ _)

theorem answerAuth_keeps (s : State) (a : AuthResult) : Keeps s (s.answerAuth a) := by
  unfold State.answerAuth
  split
  · exact .ite (approve_keeps s _ _) ((endAuth_keeps s _).trans (postNotice_keeps _ _))
  · split
    · refine Keeps.trans (.sameJournal ?_)
        (.ite (appendReversal_keeps _ _ _ _) (.sameJournal ?_))
      all_goals rfl
    · exact .of_sound rfl

theorem takeAuthres_keeps (s : State) (bs : List Byte) : Keeps s (s.takeAuthres bs) := by
  unfold State.takeAuthres
  split
  · exact answerAuth_keeps s _
  · exact .of_sound rfl

theorem salesLoseLink_keeps (s : State) : Keeps s s.salesLoseLink :=
  ((abandonAuth_keeps s _ _).trans (goBack_keeps _)).trans (deriveSalesMode_keeps _)

theorem salesGainLink_keeps (s : State) : Keeps s s.salesGainLink :=
  (deriveSalesMode_keeps s).trans (drain_keeps _)

theorem dropTicket_keeps (s : State) (n : TicketNo) : Keeps s (s.dropTicket n) := .of_sound rfl

theorem voidTicket_keeps (s : State) (t : IssuedTicket) : Keeps s (s.voidTicket t) := by
  refine Keeps.trans (Keeps.trans (Keeps.trans (appendRecord_keeps s
    (.void s.htb.date s.htb.secs t.sale.ticket t.sale.total)) (dropTicket_keeps _ _))
    (.sameJournal ?_)) (afterAppend_keeps _)
  rfl

end Sys2Proof.Laws
end

