-- ==== Sys2Proof/Laws/Link.lean ====
section
/-! SUPPORT. The line ports and their supervision: what the entries and the reports change, and that
they keep every soundness. -/

namespace Sys2Proof.Laws

open Sys2Proof.Machine Sys2Proof.Safety

/-! ## The transmitter -/

/-- A port with another transmitter state and rate. -/
def withTx (r : Option Rate) (x : TxState) (lp : LinePort) : LinePort := { lp with txRate := r, tx := x }

theorem withTx_portKeeps (limit : Nat) (r : Option Rate) (x : TxState) (lp : LinePort) :
    PortKeeps limit lp (withTx r x lp) := .of_eq rfl rfl rfl rfl

theorem restTx_frame (s : State) (p : Port) : ∃ r x, s.restTx p = s.modPort p (withTx r x) :=
  ⟨s.txRateOf p, restingTx (s.port p).lsu.state (s.txRateOf p), by cases p <;> rfl⟩

theorem modPort_withTx_self (s : State) (p : Port) :
    s.modPort p (withTx (s.port p).txRate (s.port p).tx) = s := by
  cases p <;> rfl

theorem stopTx_frame (s : State) (p : Port) : ∃ r x, s.stopTx p = s.modPort p (withTx r x) := by
  unfold State.stopTx
  split
  · exact ⟨(s.port p).txRate, .aborting, by cases p <;> rfl⟩
  · exact ⟨(s.port p).txRate, .aborting, by cases p <;> rfl⟩
  all_goals exact restTx_frame s p

theorem keepTx_frame (s : State) (p : Port) : ∃ r x, s.keepTx p = s.modPort p (withTx r x) := by
  unfold State.keepTx
  split
  · exact ⟨_, _, (modPort_withTx_self s p).symm⟩
  · exact ⟨_, _, (modPort_withTx_self s p).symm⟩
  all_goals exact restTx_frame s p

theorem lendRate_frame (s : State) : ∃ r x, s.lendRate = s.modPort .down (withTx r x) := by
  unfold State.lendRate
  split
  · exact restTx_frame s .down
  · exact ⟨_, _, (modPort_withTx_self s .down).symm⟩

theorem restTx_keeps (s : State) (p : Port) : Keeps s (s.restTx p) := by
  obtain ⟨r, x, e⟩ := restTx_frame s p
  rw [e]
  exact .modPort (withTx_portKeeps _ _ _ _)

theorem keepTx_keeps (s : State) (p : Port) : Keeps s (s.keepTx p) := by
  obtain ⟨r, x, e⟩ := keepTx_frame s p
  rw [e]
  exact .modPort (withTx_portKeeps _ _ _ _)

theorem lendRate_keeps (s : State) : Keeps s s.lendRate := by
  obtain ⟨r, x, e⟩ := lendRate_frame s
  rw [e]
  exact .modPort (withTx_portKeeps _ _ _ _)

/-! ## Leaving and entering port states -/

/-- A move of a port to another state: its queue stays, its bucket and its buffers do not grow. -/
structure Moves (f : LinePort → LinePort) : Prop where
  queue : ∀ lp, (f lp).queue = lp.queue
  bucket : ∀ lp, (f lp).lsu.bucket ≤ lp.lsu.bucket
  buffers : ∀ lp, (f lp).buffers.length ≤ lp.buffers.length

/-- A move from a state that is not SERVICE: there the queue was empty. -/
theorem Moves.portKeeps {f : LinePort → LinePort} (h : Moves f) (limit : Nat) {lp : LinePort}
    (was : lp.lsu.state ≠ .service) : PortKeeps limit lp (f lp) := by
  refine ⟨?_, fun k => (h.bucket lp).trans k, fun k => (h.buffers lp).trans k⟩
  intro ⟨_, _, k⟩
  have e : (f lp).queue = [] := (h.queue lp).trans (k was)
  exact ⟨by simp [e], by simp [e, nonUrgent], fun _ => e⟩

/-- A move followed by the flush of the queue. -/
theorem Moves.flushed {f : LinePort → LinePort} (h : Moves f) (limit : Nat) (lp : LinePort) :
    PortKeeps limit lp (f lp).flush :=
  ⟨fun _ => ⟨by simp [LinePort.flush], by simp [LinePort.flush, nonUrgent], fun _ => rfl⟩,
    fun k => (h.bucket lp).trans k, fun k => (h.buffers lp).trans k⟩

theorem Moves.withTx {f : LinePort → LinePort} (h : Moves f) (r : Option Rate) (x : TxState) :
    Moves fun lp => Laws.withTx r x (f lp) :=
  ⟨h.queue, h.bucket, h.buffers⟩

/-- What the rest of the part does when a port has left SERVICE. -/
theorem leaveNews_keeps (s : State) (p : Port) :
    Keeps s (match p with
      | .up => s.salesLoseLink.stopsLoseLink
      | .down => s) := by
  cases p
  · exact (salesLoseLink_keeps s).trans (stopsLoseLink_keeps _)
  · exact .refl s

/-- A move to another state, with the announcement of leaving SERVICE (R33). -/
theorem move_keeps (s : State) (p : Port) {f : LinePort → LinePort} (hf : Moves f)
    (r r' : Option Rate) (x x' : TxState) :
    Keeps s (State.leaveIf (((s.modPort p f).modPort p (withTx r x)).modPort .down (withTx r' x'))
      (s.port p).lsu.state p) := by
  have h1 := hf.withTx r x
  unfold State.leaveIf
  split
  · refine Keeps.trans (t := State.modPort
      (((s.modPort p f).modPort p (withTx r x)).modPort .down (withTx r' x')) p LinePort.flush)
      ?_ (leaveNews_keeps _ p)
    cases p with
    | up =>
      refine Keeps.trans (t := s.setPort .up (withTx r x (f s.up)).flush)
        (.setPort (h1.flushed _ _)) ?_
      exact .modPort (p := .down) (withTx_portKeeps _ r' x' _)
    | down => exact .setPort (p := .down) ((h1.withTx r' x').flushed _ _)
  · rename_i was
    cases p with
    | up =>
      refine Keeps.trans (t := s.setPort .up (withTx r x (f s.up))) (.setPort (h1.portKeeps _ was)) ?_
      exact .modPort (p := .down) (withTx_portKeeps _ r' x' _)
    | down => exact .setPort (p := .down) ((h1.withTx r' x').portKeeps _ was)

theorem toHunt_moves : Moves LinePort.toHunt := by
  refine ⟨?_, fun _ => Nat.le_refl _, ?_⟩
  all_goals
    intro lp
    simp only [LinePort.toHunt, LinePort.startSearch]
    split <;> simp [LinePort.seek]

theorem toOff_moves : Moves LinePort.toOff :=
  ⟨fun _ => rfl, fun _ => Nat.le_refl _, fun _ => Nat.zero_le _⟩

theorem toOutage_moves (cause : OutageCause) :
    Moves fun lp => { lp with lsu := lp.lsu.toOutage cause } :=
  ⟨fun _ => rfl, fun _ => Nat.le_refl _, fun _ => Nat.le_refl _⟩

theorem enterHunt_keeps (s : State) (p : Port) : Keeps s (s.enterHunt p) := by
  obtain ⟨r, x, e⟩ := stopTx_frame (s.modPort p LinePort.toHunt) p
  obtain ⟨r', x', e'⟩ := lendRate_frame ((s.modPort p LinePort.toHunt).stopTx p)
  unfold State.enterHunt
  rw [e', e]
  exact move_keeps s p toHunt_moves r r' x x'

theorem enterOff_keeps (s : State) (p : Port) : Keeps s (s.enterOff p) := by
  obtain ⟨r, x, e⟩ := stopTx_frame (s.modPort p LinePort.toOff) p
  obtain ⟨r', x', e'⟩ := lendRate_frame ((s.modPort p LinePort.toOff).stopTx p)
  unfold State.enterOff
  rw [e', e]
  exact move_keeps s p toOff_moves r r' x x'

theorem enterOutage_keeps (s : State) (p : Port) (cause : OutageCause) :
    Keeps s (s.enterOutage p cause) := by
  obtain ⟨r, x, e⟩ := stopTx_frame (s.modLsu p fun l => l.toOutage cause) p
  have e' := modPort_withTx_self ((s.modLsu p fun l => l.toOutage cause).stopTx p) .down
  unfold State.enterOutage
  rw [← e', e]
  exact move_keeps s p (toOutage_moves cause) r _ x _

/-- A change of a port that leaves its queue, its port state, its bucket and its buffers. -/
theorem modPort_keeps (s : State) (p : Port) {f : LinePort → LinePort}
    (h : ∀ lp, PortKeeps (s.params.port p).limit lp (f lp)) : Keeps s (s.modPort p f) :=
  .modPort (h _)

/-- A change of an LSU's items other than its state and its bucket. -/
theorem modLsu_keeps (s : State) (p : Port) {f : Lsu → Lsu} (hs : ∀ l, (f l).state = l.state)
    (hb : ∀ l, l.bucket ≤ (s.params.port p).limit → (f l).bucket ≤ (s.params.port p).limit) :
    Keeps s (s.modLsu p f) := by
  refine .modPort ⟨?_, hb _, id⟩
  intro ⟨k1, k2, k3⟩
  exact ⟨k1, k2, fun n => k3 (by rwa [← hs])⟩

theorem modCtr_keeps (s : State) (p : Port) (f : PortCounters → PortCounters) :
    Keeps s (s.modCtr p f) := .modPort (.of_eq rfl rfl rfl rfl)

theorem modFruCtr_keeps (s : State) (p : Port) (f : FruPortCounters → FruPortCounters) :
    Keeps s (s.modFruCtr p f) := .modPort (.of_eq rfl rfl rfl rfl)

/-- An entry into PROVING is made from HUNT alone, where the queue is empty (R13, R21). -/
theorem enterProving_keeps (s : State) (p : Port) (was : (s.port p).lsu.state ≠ .service) :
    Keeps s (s.enterProving p) := by
  unfold State.enterProving
  refine Keeps.trans (.modPort ⟨?_, id, id⟩) ((keepTx_keeps _ p).trans (lendRate_keeps _))
  intro ⟨k1, k2, k3⟩
  exact ⟨k1, k2, fun _ => k3 was⟩

theorem enterService_keeps (s : State) (p : Port) : Keeps s (s.enterService p) := by
  unfold State.enterService
  refine Keeps.trans (t := s.modLsu p fun l => l.toService (s.params.port p).mode)
    (.modPort ⟨?_, fun _ => Nat.zero_le _, id⟩) ?_
  · intro ⟨k1, k2, _⟩
    exact ⟨k1, k2, fun n => absurd rfl n⟩
  · unfold State.enterServiceNews
    split
    · exact (((originateBeacon_keeps _).trans (drain_keeps _)).trans (salesGainLink_keeps _)).trans
        (stopsGainLink_keeps _)
    · exact .refl _

theorem failProving_keeps (s : State) (p : Port) : Keeps s (s.failProving p) := by
  unfold State.failProving
  refine Keeps.trans (t := s.modLsu p fun l => { l with
    attempts := l.attempts + 1, ctr := { l.ctr with provingFails := tally l.ctr.provingFails } })
    (modLsu_keeps s p (fun _ => rfl) fun _ => id) ?_
  exact .ite (enterOutage_keeps _ _ _) (modLsu_keeps _ p (fun _ => rfl) fun _ => id)

/-! ## Reports -/

theorem reportFlag_keeps (s : State) (p : Port) : Keeps s (s.reportFlag p) := by
  refine modLsu_keeps s p ?_ ?_
  all_goals
    intro l
    split <;> first | rfl | exact id

theorem errorInPeriod_keeps (s : State) (p : Port) : Keeps s (s.errorInPeriod p) :=
  (modLsu_keeps s p (f := fun l => { l with ca := l.ca + 1 }) (fun _ => rfl) fun _ => id).trans
    (.ite (failProving_keeps _ p) (.refl _))

theorem errorInService_keeps (s : State) (p : Port) : Keeps s (s.errorInService p) := by
  unfold State.errorInService
  refine Keeps.trans (t := s.modLsu p fun l => { l with
    bucket := min (s.params.port p).limit (l.bucket + 1) })
    (modLsu_keeps s p (fun _ => rfl) fun _ _ => Nat.min_le_left _ _) ?_
  exact .ite (enterOutage_keeps _ _ _) (.refl _)

theorem reportError_keeps (s : State) (p : Port) : Keeps s (s.reportError p) := by
  unfold State.reportError
  dsimp only
  split
  · exact .refl s
  · exact .refl s
  · exact .modPort (.of_eq rfl rfl rfl rfl)
  · split
    · exact errorInPeriod_keeps s p
    · exact .refl s
  · split
    · exact errorInService_keeps s p
    · exact modLsu_keeps s p (fun _ => rfl) fun _ => id

theorem goodInHunt_keeps (s : State) (p : Port) (was : (s.port p).lsu.state ≠ .service) :
    Keeps s (s.goodInHunt p) := by
  unfold State.goodInHunt
  refine Keeps.trans (t := s.modPort p fun lp => { lp with
    goodRun := lp.goodRun + 1
    dwell := if lp.rateMode = .auto then .running Config.dwellMs else lp.dwell })
    (.modPort (.of_eq rfl rfl rfl rfl)) ?_
  refine .ite (enterProving_keeps _ p ?_) (.refl _)
  cases p <;> exact was

theorem reportGood_keeps (s : State) (p : Port) : Keeps s (s.reportGood p) := by
  unfold State.reportGood
  split
  · rename_i h
    exact goodInHunt_keeps s p (by rw [h]; exact PortState.noConfusion)
  · split
    · refine modLsu_keeps s p ?_ ?_
      · intro l
        unfold Lsu.creditGood
        split <;> rfl
      · intro l k
        unfold Lsu.creditGood
        split
        · exact (Nat.sub_le _ _).trans k
        · exact k
    · exact .refl s
  all_goals exact .refl s

theorem reportFill_keeps (s : State) (p : Port) (bs : List Byte) : Keeps s (s.reportFill p bs) := by
  unfold State.reportFill
  split
  all_goals exact modLsu_keeps s p (fun _ => rfl) fun _ => id

/-! ## The receiver -/

theorem store_keeps (s : State) (p : Port) (f : RxFrame) : Keeps s (s.store p f) := by
  unfold State.store
  split
  · rename_i h
    refine .modPort ⟨id, id, fun _ => ?_⟩
    simp only [Config.rxBuffers] at h
    simp only [List.length_append, List.length_cons, List.length_nil]
    omega
  · exact modCtr_keeps s p _

theorem goodFrame_keeps (s : State) (p : Port) (f : RxFrame) : Keeps s (s.goodFrame p f) :=
  ((modCtr_keeps s p _).trans (reportGood_keeps _ p)).trans
    (.ite (modCtr_keeps _ p _) (.ite (reportFill_keeps _ p _) (store_keeps _ p f)))

/-- A change of the receiver's own items alone. -/
theorem modRx_keeps (s : State) (p : Port) (x : RxState) (n m : LinePort → Nat) :
    Keeps s (s.modPort p fun lp => { lp with rx := x, octetCount := n lp, seqCounted := m lp }) :=
  .modPort (.of_eq rfl rfl rfl rfl)

theorem closeFrame_keeps (s : State) (p : Port) (bits : List Bool) : Keeps s (s.closeFrame p bits) := by
  unfold State.closeFrame
  refine Keeps.trans (modRx_keeps s p .idle (·.octetCount) (·.seqCounted)) ?_
  dsimp only
  split
  · exact goodFrame_keeps _ p _
  · exact (modCtr_keeps _ p _).trans (reportError_keeps _ p)

theorem reportGroup_keeps (s : State) (p : Port) : Keeps s (s.reportGroup p) :=
  (modCtr_keeps s p _).trans (reportError_keeps _ p)

theorem reportGroups_keeps (s : State) (p : Port) (n : Nat) : Keeps s (s.reportGroups p n) := by
  induction n generalizing s with
  | zero => exact .refl s
  | succ n ih => exact (reportGroup_keeps s p).trans (ih _)

theorem addOctets_keeps (s : State) (p : Port) (k : Nat) : Keeps s (s.addOctets p k) := by
  unfold State.addOctets
  exact Keeps.trans (.modPort (.of_eq rfl rfl rfl rfl)) (reportGroups_keeps _ p _)

theorem endSequence_keeps (s : State) (p : Port) (bits : List Bool) :
    Keeps s (s.endSequence p bits) := by
  unfold State.endSequence
  exact Keeps.trans (.modPort (.of_eq rfl rfl rfl rfl)) (addOctets_keeps _ p _)

theorem closeSequence_keeps (s : State) (p : Port) (bits : List Bool) :
    Keeps s (s.closeSequence p bits) := by
  unfold State.closeSequence
  split
  · exact .ite (Keeps.trans (.modPort (.of_eq rfl rfl rfl rfl)) (goodFrame_keeps _ p _))
      (endSequence_keeps s p _)
  · exact endSequence_keeps s p _

theorem longInFrame_keeps (s : State) (p : Port) : Keeps s (s.longInFrame p) :=
  ((modCtr_keeps s p _).trans (reportError_keeps _ p)).trans
    (modRx_keeps _ p .counting (fun _ => 1) (fun _ => 129))

theorem flagInFrame_keeps (s : State) (p : Port) (bits : List Bool) :
    Keeps s (s.flagInFrame p bits) :=
  .ite (closeFrame_keeps s p _) ((longInFrame_keeps s p).trans (closeSequence_keeps _ p _))

theorem abortInFrame_keeps (s : State) (p : Port) (bits : List Bool) :
    Keeps s (s.abortInFrame p bits) :=
  .ite (((modRx_keeps s p .seek (·.octetCount) (·.seqCounted)).trans (modCtr_keeps _ p _)).trans
      (reportError_keeps _ p))
    ((longInFrame_keeps s p).trans (endSequence_keeps _ p _))

theorem emptyFlag_keeps (s : State) (p : Port) : Keeps s (s.emptyFlag p) := by
  unfold State.emptyFlag
  split
  · exact .refl s
  · exact (modRx_keeps s p .idle (·.octetCount) (·.seqCounted)).trans (reportFlag_keeps _ p)
  · exact (modRx_keeps s p .idle (·.octetCount) (·.seqCounted)).trans (reportFlag_keeps _ p)
  all_goals exact reportFlag_keeps s p

/-! ## Timers and the transmitter's choice -/

theorem endPeriod_keeps (s : State) (p : Port) : Keeps s (s.endPeriod p) :=
  .ite (enterService_keeps s p) (failProving_keeps s p)

theorem judgeInterval_keeps (s : State) (p : Port) :
    Keeps s (s.modLsu p fun l => l.judgeInterval (s.params.port p).limit) := by
  refine modLsu_keeps s p (fun _ => rfl) fun l k => ?_
  unfold Lsu.judgeInterval
  dsimp only
  split
  · exact Nat.min_le_left _ _
  · exact (Nat.sub_le _ _).trans k

theorem begin_portKeeps (limit : Nat) (lp : LinePort) (f : TxFrame) :
    PortKeeps limit lp (lp.begin f) := .of_eq rfl rfl rfl rfl

theorem chooseFill_keeps (s : State) (p : Port) : Keeps s (s.chooseFill p) :=
  .ite (.modPort (begin_portKeeps _ _ _)) (.modPort (.of_eq rfl rfl rfl rfl))

theorem chooseQueued_keeps (s : State) (p : Port) : Keeps s (s.chooseQueued p) := by
  unfold State.chooseQueued
  split
  · rename_i f lp h
    have k : Keeps s (s.setPort p (lp.begin f)) :=
      .setPort ((handOver_portKeeps _ h).trans (begin_portKeeps _ _ _))
    dsimp only
    split
    · exact k.trans (drain_keeps _)
    · exact k
  · exact chooseFill_keeps s p

theorem chooseTx_keeps (s : State) (p : Port) : Keeps s (s.chooseTx p) := by
  unfold State.chooseTx
  refine (restTx_keeps s p).trans ?_
  dsimp only
  split
  · exact chooseQueued_keeps _ p
  · exact chooseFill_keeps _ p
  · exact .refl _

theorem restartPort_keeps (s : State) (p : Port) : Keeps s (s.restartPort p) :=
  .ite (.refl s) (Keeps.trans (.modPort ⟨id, id, fun _ => Nat.zero_le _⟩) (enterHunt_keeps _ p))

end Sys2Proof.Laws
end

