-- ==== Sys2Proof/Laws/Control.lean ====
section
/-! SUPPORT. Starts, the loss of power, configuration, queries, control and classification: that their
shared operations keep every soundness. -/

namespace Sys2Proof.Laws

open Sys2Proof.Machine Sys2Proof.Safety

/-! ## Starts -/

theorem atStart_bucket (e : Bool) (m : RateMode) : (LinePort.atStart e m).lsu.bucket = 0 := by
  cases e <;> cases m <;> rfl

theorem atStart_queue (e : Bool) (m : RateMode) : (LinePort.atStart e m).queue = [] := by
  cases e <;> cases m <;> rfl

theorem atStart_buffers (e : Bool) (m : RateMode) : (LinePort.atStart e m).buffers = [] := by
  cases e <;> cases m <;> rfl

theorem queueFits_nil {lp : LinePort} (h : lp.queue = []) : QueueFits lp :=
  ⟨by simp [h], by simp [h, nonUrgent], fun _ => h⟩

theorem retained_callKeeps (c : Call) : CallKeeps c c.retained := .of_eq rfl rfl

theorem bankOrdered_retained {calls : List Call} (h : BankOrdered calls) :
    BankOrdered (calls.map Call.retained) := bankOrdered_map retained_callKeeps h

theorem retained_forecast {t : Tts} (h : ∀ c ∈ t.current ++ t.next, c.forecast ≤ 21600) :
    ∀ c ∈ t.current.map Call.retained ++ t.next, c.forecast ≤ 21600 := by
  intro c hc
  rcases List.mem_append.1 hc with hc | hc
  · obtain ⟨d, hd, rfl⟩ := List.mem_map.1 hc
    exact (retained_callKeeps d).forecast (h d (List.mem_append_left _ hd))
  · exact h c (List.mem_append_right _ hc)

theorem banksOrdered_retained {s : State} (h : BanksOrdered s) :
    BanksOrdered { s with tts := s.tts.atStart } :=
  ⟨bankOrdered_retained h.1, h.2.1,
    fun e => by simp [Tts.atStart, h.2.2.1 e], h.2.2.2⟩

/-- What a start reads of the retained items, kept from one state to another. -/
structure KeepsRetained (s u : State) : Prop where
  pending : u.pending = s.pending
  banks : BanksOrdered s → BanksOrdered u
  journal : JournalRuns s.sju → JournalRuns u.sju
  clock : ClockStands s → ClockStands u
  forecasts : (∀ c ∈ s.tts.current ++ s.tts.next, c.forecast ≤ 21600) →
    ∀ c ∈ u.tts.current ++ u.tts.next, c.forecast ≤ 21600
  windows : WindowsApart s → WindowsApart u

theorem KeepsRetained.refl (s : State) : KeepsRetained s s := ⟨rfl, id, id, id, id, id⟩

/-- Cold items are sound whatever stood before. -/
theorem coldItems_keepsRetained (s : State) : KeepsRetained s s.coldItems := by
  refine ⟨rfl, fun _ => ⟨bankOrdered_nil, bankOrdered_nil, fun _ => rfl, fun _ => rfl⟩, ?_, ?_, ?_, ?_⟩
  · intro _
    refine ⟨show 0 = (1#32 - 1#32).toNat by decide, Nat.zero_le _, ?_,
      show (1#32 - 1#32).toNat ≤ 0 by decide, show (1#32 - 1#32).toNat ≤ 64 by decide⟩
    intro i hi
    exact absurd hi (Nat.not_lt_zero i)
  · intro _
    exact ⟨Nat.zero_le _, fun _ => rfl, show 2 ≤ 3 ∧ 3 ≤ 4 by decide, show 2 ≤ 3 ∧ 3 ≤ 4 by decide⟩
  · intro _ c hc
    simp [State.coldItems] at hc
  · intro _ i j _ a b ha
    simp [State.coldItems] at ha

/-- A port replaced by one with an empty queue, a bucket at 0 and no frames. -/
theorem startVolatile_keeps {s u : State} (h : KeepsRetained s u) : Keeps s u.startVolatile := by
  unfold State.startVolatile
  refine Keeps.trans ?_ ((restTx_keeps _ .up).trans (restTx_keeps _ .down))
  refine ⟨h.pending, ?_, ?_, ?_, ?_, ?_, ?_, ?_⟩
  · intro _
    exact ⟨queueFits_nil (atStart_queue _ _), queueFits_nil (atStart_queue _ _)⟩
  · exact fun k => banksOrdered_retained (h.banks k)
  · intro k
    obtain ⟨h1, h2, h3, -, -⟩ := h.journal k
    refine ⟨h1, h2, h3, ?_, ?_⟩ <;> simp [Sju.atStart, Sju.inFlight]
  · exact h.clock
  · intro k
    refine ⟨?_, retained_forecast (h.forecasts k.2)⟩
    intro p
    cases p
    all_goals
      refine le_trans (le_of_eq (atStart_bucket _ _)) (Nat.zero_le _)
  · intro _
    refine ⟨?_, Nat.zero_le _, Nat.zero_le _⟩
    intro p
    cases p
    all_goals
      refine le_trans (le_of_eq ?_) (Nat.zero_le 8)
      exact congrArg List.length (atStart_buffers _ _)
  · exact h.windows

theorem settleDay_keeps (s : State) : Keeps s s.settleDay := by
  unfold State.settleDay
  refine .ite (.refl s) (.ite (.setHtb fun k => k) (.ite ?_ (.ite (deferralTests_keeps s)
    (rolloverCheck_keeps s))))
  split
  · exact (countDefer_keeps s).trans (daySwitch_keeps _ _)
  · exact daySwitch_keeps s _

theorem restore_keeps (s : State) : Keeps s s.restore := by
  refine Keeps.trans (Keeps.trans (appendOther_keeps s
    (.restore s.htb.date s.htb.secs s.sju.authsPending s.sju.quotesHeld)) (.sameJournal ?_))
    (deriveSalesMode_keeps _)
  rfl

theorem startStops_keeps (s : State) : Keeps s s.startStops :=
  (Keeps.mapCalls unsend_callKeeps).trans (testCutoffs_keeps _)

theorem setStarting_keeps (s : State) (b : Bool) : Keeps s { s with starting := b } := .of_sound rfl

theorem startUp_keeps {s u : State} (h : KeepsRetained s u) : Keeps s u.startUp := by
  unfold State.startUp
  refine Keeps.trans ?_ (setStarting_keeps _ false)
  refine Keeps.trans ?_ (evaluateMessages_keeps _)
  refine Keeps.trans ?_ (startStops_keeps _)
  refine Keeps.trans ?_ (restore_keeps _)
  refine Keeps.trans ?_ (testActivation_keeps _)
  refine Keeps.trans ?_ (settleDay_keeps _)
  refine Keeps.trans ?_ (expireCalls_keeps _)
  refine Keeps.trans ?_ (deriveQuietly_keeps _)
  refine Keeps.trans ?_ (forgetTakes_keeps _)
  exact (startVolatile_keeps h).trans (setStarting_keeps _ true)

theorem warmStart_keeps (s : State) : Keeps s s.warmStart := startUp_keeps (.refl s)

theorem coldStart_keeps (s : State) : Keeps s s.coldStart := by
  have serial (u : State) (k : Keeps s u) :
      Keeps s { u with sju := { u.sju with authSerial := 0#8 } } := by
    refine k.trans (.sameJournal ?_)
    rfl
  exact serial _ (startUp_keeps (coldItems_keepsRetained s))

theorem losePower_keeps (s : State) : Keeps s s.losePower := by
  refine ⟨rfl, ?_, fun k => banksOrdered_retained k, ?_, id, ?_, ?_, id⟩
  · intro _
    exact ⟨queueFits_nil rfl, queueFits_nil rfl⟩
  · exact fun ⟨h1, h2, h3, h4, h5⟩ => ⟨h1, h2, h3, h4, h5⟩
  · intro k
    refine ⟨?_, retained_forecast k.2⟩
    intro p
    cases p <;> exact Nat.zero_le _
  · intro _
    refine ⟨?_, Nat.zero_le _, Nat.zero_le _⟩
    intro p
    cases p <;> exact Nat.zero_le _

/-! ## Configuration -/

theorem clamp_between {lo hi : Nat} (h : lo ≤ hi) (v : Nat) : lo ≤ clamp lo hi v ∧ clamp lo hi v ≤ hi := by
  unfold clamp
  omega

/-- A change of the parameters that leaves the bucket limits, and the configured hour in 2..4. -/
theorem setParams_keeps {s : State} {ps : Params}
    (limit : ∀ p, (ps.port p).limit = (s.params.port p).limit)
    (hour : (2 ≤ s.params.hour ∧ s.params.hour ≤ 4) → 2 ≤ ps.hour ∧ ps.hour ≤ 4) :
    Keeps s { s with params := ps } := by
  refine ⟨rfl, id, id, id, fun ⟨h1, h2, h3, h4⟩ => ⟨h1, h2, h3, hour h4⟩, ?_, id, id⟩
  intro ⟨h1, h2⟩
  exact ⟨fun p => (h1 p).trans (le_of_eq (limit p).symm), h2⟩

theorem store_port (ps : Params) (n v : Nat) (p : Port) : (ps.store n v).port p = ps.port p := by
  unfold Params.store
  split <;> rfl

theorem store_hour (ps : Params) (n v : Nat) (h : 2 ≤ ps.hour ∧ ps.hour ≤ 4) :
    2 ≤ (ps.store n v).hour ∧ (ps.store n v).hour ≤ 4 := by
  unfold Params.store
  split
  all_goals first
    | exact h
    | exact clamp_between (by decide) v

theorem storeParams_keeps (s : State) (n v : Nat) :
    Keeps s { s with params := s.params.store n v } :=
  setParams_keeps (fun p => by rw [store_port]) (store_hour _ _ _)

theorem rederiveDelay_keeps (s : State) : Keeps s s.rederiveDelay := by
  refine rederive_keeps s _ fun c => ?_
  split
  · exact ⟨rfl, rfl, fun _ => delayNow_le _ _⟩
  · exact .refl c

theorem adoptScreens_keeps (s : State) : Keeps s s.adoptScreens :=
  Keeps.trans (t := { s with bdc := { s.bdc with
    one := adoptScreen s.params.screens .one s.bdc.one
    two := adoptScreen s.params.screens .two s.bdc.two
    three := adoptScreen s.params.screens .three s.bdc.three } }) (.of_sound rfl) (compose_keeps _)

theorem configEffect_keeps (s : State) (n : Nat) : Keeps s (s.configEffect n) := by
  unfold State.configEffect
  split
  · exact rederiveDelay_keeps s
  · exact rederiveConfidence_keeps s
  · exact rederiveConfidence_keeps s
  · exact rederiveDisplay_keeps s
  · exact testCutoffs_keeps s
  · exact (testCutoffs_keeps s).trans (cutoffQuotes_keeps _)
  · exact (darkTest_keeps s _).trans (linkStart_keeps _)
  · exact .ite ((countDefer_keeps s).trans (daySwitch_keeps _ _)) (.refl s)
  · exact Keeps.foldl _ expireSlot_keeps allSlots s
  · exact chooseEnergy_keeps s
  · exact chooseEnergy_keeps s
  · exact chooseEnergy_keeps s
  · exact adoptScreens_keeps s
  · exact .refl s

theorem enableEffect_keeps (s : State) (p : Port) : Keeps s (s.enableEffect p) :=
  .ite (.ite (enterHunt_keeps s p) (.refl s)) (.ite (.refl s) (enterOff_keeps s p))

theorem modeEffect_keeps (s : State) (p : Port) (m : MonitorMode) : Keeps s (s.modeEffect p m) :=
  .ite (.refl s) (modLsu_keeps s p (fun _ => rfl) fun _ => id)

theorem creditEffect_keeps (s : State) (p : Port) (n : Nat) :
    Keeps s (s.modLsu p fun l => l.creditEffect n) := by
  refine modLsu_keeps s p ?_ ?_
  · intro l
    unfold Lsu.creditEffect
    split <;> rfl
  · intro l k
    unfold Lsu.creditEffect
    split
    · exact (Nat.sub_le _ _).trans k
    · exact k

theorem alignEffect_keeps (s : State) (p : Port) : Keeps s (s.alignEffect p) :=
  .ite (failProving_keeps s p) (.refl s)

theorem setPort_port (ps : Params) (p q : Port) (pp : PortParams) :
    (ps.setPort p pp).port q = if q = p then pp else ps.port q := by
  cases p <;> cases q <;> rfl

theorem portStore_limit (pp : PortParams) (n v : Nat) (h : n ≠ 25) : (pp.store n v).limit = pp.limit := by
  unfold PortParams.store
  split
  all_goals first
    | rfl
    | exact absurd rfl h

theorem setPort_hour (ps : Params) (p : Port) (pp : PortParams) : (ps.setPort p pp).hour = ps.hour := by
  cases p <;> rfl

/-- A per-port parameter other than the bucket limit stored (R175). -/
theorem storePort_keeps (s : State) (p : Port) (n v : Nat) (h : n ≠ 25) :
    Keeps s { s with params := s.params.setPort p ((s.params.port p).store n v) } := by
  refine setParams_keeps (fun q => ?_) (by rw [setPort_hour]; exact id)
  rw [setPort_port]
  split
  · rename_i e
    rw [portStore_limit _ _ _ h, e]
  · rfl

/-- A bucket limit stored, with the bucket cut to it (R27). -/
theorem storeLimit_keeps (s : State) (p : Port) (pp : PortParams) :
    Keeps s (State.modLsu { s with params := s.params.setPort p pp } p fun l =>
      { l with bucket := min pp.limit l.bucket }) := by
  cases p
  all_goals
    refine ⟨rfl, id, id, id, id, ?_, ?_, id⟩
    · intro ⟨h1, h2⟩
      refine ⟨?_, h2⟩
      intro q
      cases q
      all_goals first
        | exact Nat.min_le_left _ _
        | exact h1 .up
        | exact h1 .down
    · intro ⟨h1, h2⟩
      refine ⟨?_, h2⟩
      intro q
      cases q
      · exact h1 .up
      · exact h1 .down

theorem limitEffect_keeps (s : State) (p : Port) (pp : PortParams) :
    Keeps s (State.limitEffect { s with params := s.params.setPort p pp } p) := by
  have e : (Params.port (s.params.setPort p pp) p).limit = pp.limit := by rw [setPort_port, if_pos rfl]
  unfold State.limitEffect
  dsimp only
  rw [e]
  exact .ite ((storeLimit_keeps s p pp).trans (enterOutage_keeps _ _ _)) (storeLimit_keeps s p pp)

theorem portConfigEffect_keeps (s : State) (p : Port) (old : PortParams) (n : Nat) (h : n ≠ 25) :
    Keeps s (s.portConfigEffect p old n) := by
  unfold State.portConfigEffect
  split
  · exact enableEffect_keeps s p
  · exact modeEffect_keeps s p _
  · exact absurd rfl h
  · exact .ite (creditEffect_keeps s p _) (.refl s)
  · exact alignEffect_keeps s p
  · exact .refl s

theorem loadConfig_keeps (s : State) (c : ConfigLoad) : Keeps s (s.loadConfig c) := by
  unfold State.loadConfig
  split
  · split
    · rename_i p _
      by_cases h : c.number = 25
      · rw [h]
        exact limitEffect_keeps s p _
      · exact (storePort_keeps s p _ _ h).trans (portConfigEffect_keeps _ p _ _ h)
    · exact .refl s
  · exact (storeParams_keeps s _ _).trans (configEffect_keeps _ _)

theorem takeConfig_keeps (s : State) (bs : List Byte) : Keeps s (s.takeConfig bs) := by
  unfold State.takeConfig
  split
  · exact loadConfig_keeps s _
  · exact .of_sound rfl

/-! ## Windows -/

theorem mem_allSlots : ∀ i : Fin 4, i ∈ allSlots := by decide

/-- A window loaded overlaps no other (R40). -/
theorem windowsApart_load {ws ws' : Vector (Option GroupWindow) 4} {l : WindowLoad}
    (h : loadWindow ws l = some ws')
    (apart : ∀ i j : Fin 4, i ≠ j → ∀ a b, ws[i] = some a → ws[j] = some b →
      ∀ n, ¬ ((a.base ≤ n ∧ n < a.base + a.size) ∧ (b.base ≤ n ∧ n < b.base + b.size))) :
    ∀ i j : Fin 4, i ≠ j → ∀ a b, ws'[i] = some a → ws'[j] = some b →
      ∀ n, ¬ ((a.base ≤ n ∧ n < a.base + a.size) ∧ (b.base ≤ n ∧ n < b.base + b.size)) := by
  have at_ (x : Option GroupWindow) (i : Fin 4) :
      (ws.set l.number x)[i] = if l.number = i then x else ws[i] := by
    simp [Vector.getElem_set, Fin.ext_iff]
  unfold loadWindow at h
  split at h
  · cases h
    intro i j ij a b ha hb
    rw [at_] at ha hb
    split at ha
    · cases ha
    · split at hb
      · cases hb
      · exact apart i j ij a b ha hb
  · split at h
    · rename_i _ good
      cases h
      have other (j : Fin 4) (b : GroupWindow) (hj : j ≠ l.number) (hb : ws[j] = some b) :
          ¬ (b.base < l.base + l.size ∧ l.base < b.base + b.size) := by
        intro k
        have no := good.2.2
        simp only [overlapsOther, List.any_eq_false] at no
        have := no j (mem_allSlots j)
        simp [hj, hb, GroupWindow.overlaps] at this
        omega
      intro i j ij a b ha hb n ⟨⟨a1, a2⟩, b1, b2⟩
      rw [at_] at ha hb
      split at ha
      · rename_i hi
        split at hb
        · rename_i hj
          exact ij (hi.symm.trans hj)
        · rename_i hj
          cases ha
          dsimp only at a1 a2
          exact other j b (fun e => hj e.symm) hb ⟨by omega, by omega⟩
      · rename_i hi
        split at hb
        · cases hb
          dsimp only at b1 b2
          exact other i a (fun e => hi e.symm) ha ⟨by omega, by omega⟩
        · exact apart i j ij a b ha hb n ⟨⟨a1, a2⟩, b1, b2⟩
    · cases h

theorem takeWindow_keeps (s : State) (bs : List Byte) : Keeps s (s.takeWindow bs) := by
  unfold State.takeWindow
  split
  · rename_i ws h
    obtain ⟨l, -, h⟩ := Option.bind_eq_some_iff.1 h
    exact ⟨rfl, id, id, id, id, id, id, windowsApart_load h⟩
  · exact .of_sound rfl

/-! ## Queries and control -/

theorem clearGroup_keeps (s : State) (g : Nat) : Keeps s (s.clearGroup g) := by
  unfold State.clearGroup
  split
  · exact .setPort (p := .up) (.of_eq rfl rfl rfl rfl)
  · exact .setPort (p := .down) (.of_eq rfl rfl rfl rfl)
  all_goals exact .of_sound rfl

theorem afterAnswer_keeps (s : State) (r : QueryRequest) : Keeps s (s.afterAnswer r) := by
  unfold State.afterAnswer
  split
  · exact clearGroup_keeps s _
  all_goals exact .refl s

theorem answerQuery_keeps (s : State) (q : Query) : Keeps s (s.answerQuery q) := by
  unfold State.answerQuery
  split
  · exact offerReply_keeps s _
  · exact (afterAnswer_keeps s _).trans (offerReply_keeps _ _)

theorem takeQuery_keeps (s : State) (bs : List Byte) : Keeps s (s.takeQuery bs) := by
  unfold State.takeQuery
  split
  · exact answerQuery_keeps s _
  · exact .of_sound rfl

theorem setSalesClosed_keeps (s : State) (b : Bool) : Keeps s (s.setSalesClosed b) :=
  .ite (.refl s) (Keeps.trans (t := { s with salesClosed := b }) (.of_sound rfl)
    (deriveSalesMode_keeps _))

theorem control_keeps (s : State) (pins : StrapPins) (c : Command) : Keeps s (s.control pins c) := by
  unfold State.control
  split
  · exact Keeps.trans (t := { s with strapPins := pins }) (.of_sound rfl) (warmStart_keeps _)
  · exact ((clearBanks_keeps s).trans (clearFares_keeps _)).trans (clearMessages_keeps _)
  · exact .of_sound rfl
  · exact forceDaySwitch_keeps s
  · exact setSalesClosed_keeps s _
  · exact setSalesClosed_keeps s _
  · exact restartPort_keeps s _

theorem takeCtrl_keeps (s : State) (pins : StrapPins) (bs : List Byte) :
    Keeps s (s.takeCtrl pins bs) := by
  unfold State.takeCtrl
  split
  · exact control_keeps s pins _
  · exact .of_sound rfl

/-! ## Classification -/

theorem takeLoad_keeps (s : State) (bs : List Byte) : Keeps s (s.takeLoad bs) := by
  unfold State.takeLoad
  split
  · exact takeCallAdd_keeps s bs
  · exact takeCallDelete_keeps s bs
  · exact takeBankOpen_keeps s bs
  · exact takeBankClose_keeps s bs
  · exact takeFare_keeps s bs
  · exact takeFareActivate_keeps s bs
  · exact takeMessage_keeps s bs
  · exact takeMessageDelete_keeps s bs
  · exact takeConfig_keeps s bs
  · exact takeWindow_keeps s bs
  · exact .refl s

theorem takeFrame_keeps (s : State) (pins : StrapPins) (k : Kind) (f : RxFrame) :
    Keeps s (s.takeFrame pins k f) := by
  unfold State.takeFrame
  split
  · exact takeTime_keeps s _
  · exact takeLoad_keeps s _
  · exact takeQuery_keeps s _
  · exact takeCtrl_keeps s pins _
  · exact takeJack_keeps s _ _
  · exact takeAuthres_keeps s _
  · exact takeStopconf_keeps s _
  · exact takeRun_keeps s _
  all_goals exact .refl s

theorem forward_keeps (s : State) (p : Port) (f : RxFrame) : Keeps s (s.forward p f) :=
  offer_keeps s _ _

theorem recordOrigin_keeps (s : State) (o : HaltCode) (fields : List Nat) :
    Keeps s (s.recordOrigin o fields) := .of_sound rfl

theorem forwardBeacon_keeps (s : State) (p : Port) (f : RxFrame) : Keeps s (s.forwardBeacon p f) := by
  unfold State.forwardBeacon
  split
  · exact forward_keeps s p f
  · exact .ite (.ite ((forward_keeps s p f).trans (recordOrigin_keeps _ _ _)) (forward_keeps s p f))
      (.of_sound rfl)

theorem relay_keeps (s : State) (p : Port) (f : RxFrame) : Keeps s (s.relay p f) :=
  .ite (.refl s) (.ite (modFruCtr_keeps s p _) (.ite (forwardBeacon_keeps s p f) (forward_keeps s p f)))

theorem countUnknown_keeps (s : State) (p : Port) : Keeps s (s.countUnknown p) :=
  modFruCtr_keeps s p _

theorem classify_keeps (s : State) (p : Port) (pins : StrapPins) (f : RxFrame) :
    Keeps s (s.classify p pins f) := by
  unfold State.classify
  split
  · rename_i k _
    unfold State.classifyKnown
    have taken : Keeps s (if (s.verdictOf p k f.destination).take then s.takeFrame pins k f else s) :=
      .ite (takeFrame_keeps s pins _ f) (.refl s)
    exact .ite (.ite ((countUnknown_keeps s p).trans (relay_keeps _ p f)) (countUnknown_keeps s p))
      (.ite (taken.trans (relay_keeps _ p f)) taken)
  · exact (countUnknown_keeps s p).trans (relay_keeps _ p f)

/-- A command-bearing frame sent to this halt alone is freed, handed to its owner, and not relayed. -/
theorem exec_ownFrame {s : State} {f : RxFrame} {rest : List RxFrame} {kind : Byte} {k : Kind}
    (h : OwnFrame s f rest kind) (pins : StrapPins) (e : Kind.ofCode kind = some k)
    (m : k ∈ [Kind.time, .load, .query, .ctrl, .jack, .authres, .stopconf])
    (u : unknownLoad k f.payload = false) :
    exec (.frameClassify .up pins) s = .next ((freed s rest).takeFrame pins k f) := by
  obtain ⟨p, a, b, fk, d⟩ := h
  have v : (freed s rest).verdictOf .up k f.destination = ⟨true, false⟩ := by
    have r : (freed s rest).addressRule f.destination = ⟨true, false⟩ := by
      simp [State.addressRule, freed, a, d]
    simp only [List.mem_cons, List.not_mem_nil, or_false] at m
    rcases m with rfl | rfl | rfl | rfl | rfl | rfl | rfl <;> exact r
  have c : (freed s rest).classify .up pins f = (freed s rest).takeFrame pins k f := by
    simp [State.classify, fk, e, State.classifyKnown, v, u]
  simp only [exec, execFrameClassify, whenPowered, p, if_true, State.port, b]
  exact congrArg _ c

/-! ## Departures -/

theorem originateRun_keeps (s : State) (c : Call) : Keeps s (s.originateRun c) :=
  .ite (modSruCtr_keeps s _) ((offerOwn_keeps s _ _ _ _).trans (offerOwn_keeps _ _ _ _ _))

theorem matchPulse_keeps (s : State) (p : Platform) : Keeps s (s.matchPulse p) := by
  unfold State.matchPulse
  split
  · exact (setCallState_keeps s _ _).trans (originateRun_keeps _ _)
  · exact modSruCtr_keeps s _

end Sys2Proof.Laws
end

