-- ==== Sys2Proof/Laws/Line.lean ====
section
/-! SUPPORT. The bits of the line: stuffing and its removal, the FCS that a sender adds, octets and
their bits; and the message of the terminal port, read back. -/

namespace Sys2Proof.Laws

open Sys2Proof.Machine

/-! ## Stuffing (R1, R15) -/

theorem destuffFrom_stuffFrom (bits : List Bool) (n : Nat) (h : n ≤ 4) :
    destuffFrom n (stuffFrom n bits) = bits := by
  induction bits generalizing n with
  | nil => rfl
  | cons b bs ih =>
    cases b with
    | false =>
      have : ¬ n = 5 := by omega
      simp only [stuffFrom, destuffFrom, if_neg this, ih 0 (Nat.zero_le _)]
    | true =>
      unfold stuffFrom
      split
      · subst n
        simp only [destuffFrom, ih 0 (Nat.zero_le _), if_true]
      · simp only [destuffFrom, ih (n + 1) (by omega)]

/-- What a sender stuffs, a receiver reads back. -/
theorem destuff_stuff (bits : List Bool) : destuff (stuff bits) = bits :=
  destuffFrom_stuffFrom bits 0 (Nat.zero_le _)

theorem sixOnes_stuffFrom (bits : List Bool) (n : Nat) (h : n ≤ 4) :
    sixOnes n (stuffFrom n bits) = false := by
  induction bits generalizing n with
  | nil => rfl
  | cons b bs ih =>
    cases b with
    | false => simp only [stuffFrom, sixOnes, ih 0 (Nat.zero_le _)]
    | true =>
      unfold stuffFrom
      split
      · subst n
        simp only [sixOnes, ih 0 (Nat.zero_le _)]
        rfl
      · have : ¬ n = 5 := by omega
        simp [sixOnes, ih (n + 1) (by omega), this]

/-- Stuffed bits never hold six ones in a row. -/
theorem sixOnes_stuff (bits : List Bool) : sixOnes 0 (stuff bits) = false :=
  sixOnes_stuffFrom bits 0 (Nat.zero_le _)

/-! ## The FCS (R5) -/

/-- Fed the complement of the register's own bits, the division sheds the register bit by bit. -/
theorem crcStep_own (r c : BitVec 16) (i : Nat) :
    crcStep ((r <<< i) ^^^ c) (!r.getMsbD i) = (r <<< (i + 1)) ^^^ crcStep c true := by
  have m : (r <<< i).msb = r.getMsbD i := by
    simp [BitVec.msb, BitVec.getMsbD_shiftLeft]
  have s : ((r <<< i) ^^^ c) <<< 1 = (r <<< (i + 1)) ^^^ (c <<< 1) := by
    rw [BitVec.shiftLeft_xor_distrib, ← BitVec.shiftLeft_add]
  unfold crcStep
  rw [BitVec.msb_xor, m, s]
  cases r.getMsbD i <;> cases c.msb <;> simp [BitVec.xor_assoc]

/-- A content with the FCS its sender adds leaves the remainder the receiver tests for. -/
theorem crc_of_sent (bits : List Bool) :
    crcFrom 0xFFFF#16 (bits ++ fcsBits bits) = 0x1D0F#16 := by
  unfold crcFrom fcsBits
  rw [List.foldl_append]
  generalize hr : crcFrom 0xFFFF#16 bits = r
  unfold crcFrom at hr
  rw [hr]
  have bit (i : Nat) (h : i < 16) : (~~~r).getMsbD i = !r.getMsbD i := by
    rw [BitVec.getMsbD_not]
    simp [h]
  have e (n : Nat) (h : n ≤ 16) :
      ((List.range n).map fun i => (~~~r).getMsbD i).foldl crcStep r
        = (r <<< n) ^^^ (List.replicate n true).foldl crcStep 0#16 := by
    induction n with
    | zero => simp
    | succ n ih =>
      rw [List.range_succ, List.map_append, List.foldl_append, ih (by omega),
        List.replicate_succ', List.foldl_append]
      simp only [List.map_cons, List.map_nil, List.foldl_cons, List.foldl_nil]
      rw [bit n (by omega), crcStep_own r _ n]
  dsimp only
  rw [e 16 (Nat.le_refl _)]
  have z : r <<< 16 = 0#16 := by
    apply BitVec.eq_of_toNat_eq
    simp
  rw [z]
  decide +kernel

/-- A receiver finds the FCS of what a sender sends good. -/
theorem fcsGood_of_sent (bits : List Bool) : fcsGood (bits ++ fcsBits bits) = true := by
  rw [fcsGood, crc_of_sent]
  rfl

/-! ## Octets and their bits -/

theorem octetOf_octetBits (b : Byte) : octetOf (octetBits b) = b := by
  revert b
  decide +kernel

theorem octetBits_length (b : Byte) : (octetBits b).length = 8 := rfl

/-- The octets of the bits of octets, whatever rest of fewer than 8 bits follows. -/
theorem octetsOf_octetBits (os : List Byte) (rest : List Bool) :
    octetsOf (os.flatMap octetBits ++ rest) = os ++ octetsOf rest := by
  induction os with
  | nil => rfl
  | cons b bs ih =>
    have e := octetOf_octetBits b
    simp only [List.flatMap_cons, List.append_assoc, octetBits] at *
    simp only [List.cons_append, List.nil_append, octetsOf]
    rw [ih, e]

/-! ## Messages of the terminal port (R179) -/

/-- A message followed by its check adds up to 0, the test that the parser makes. -/
theorem xorOctets_checked (bs : List Byte) : xorOctets (bs ++ [xorOctets bs]) = 0#8 := by
  simp [xorOctets, List.foldl_append]

/-- The message that a terminal builds from a code and a body is read as the command of that code and
body. -/
theorem commandOfMessage_terminalMessage (code : Byte) (body : List Byte) (h : body.length ≤ 120) :
    commandOfMessage (terminalMessage code body) = some (commandOfBody code body) := by
  have n : (BitVec.ofNat 8 body.length).toNat = body.length := by
    simp only [BitVec.toNat_ofNat]
    omega
  have c := xorOctets_checked (code :: BitVec.ofNat 8 body.length :: body)
  simp only [List.cons_append] at c
  simp [terminalMessage, commandOfMessage, be, n, c, Nat.not_lt.mpr h]

end Sys2Proof.Laws
end

