-- ==== Sys2Proof/Tests/Slice0.lean ====
section
/-! SUPPORT. Tests: the refusals of WellFormed, one or two steps of each command with the manual's
worked cases, and for each statement with hypotheses states and operands that meet them. -/

namespace Sys2Proof.Tests

-- One test at a time: many kernel evaluations waiting at once each hold a thread's stack.
set_option Elab.async false

open Sys2Proof.Machine Sys2Proof.Safety

/-! ## States to start from -/

/-- The state a command goes on to. -/
def after (c : Instr) (s : State) : State :=
  match exec c s with
  | .next t => t
  | .fault _ | .refused _ => s

/-- A REQUEST call of platform 1 for destination 9, with the timing points of the worked forecasts. -/
def aCall (train : TrainNo) (sched : Nat) : Call :=
  { loaded := {
      train := train, runDate := 100#16, direction := .up, platform := .one, stopMode := .request
      sched := sched, destinations := [9#16]
      points := [⟨11#16, 60⟩, ⟨12#16, 90⟩, ⟨13#16, 120⟩], beyond := none }
    confidence := some .planned, display := some .onTime }

/-- The fare table of the first worked price. -/
def fares : FareTable where
  destinations := [⟨9#16, 14, [65#8], true⟩]
  base := (Vector.replicate 16 0).set 3 640
  types := [⟨1#8, 180, .any⟩]
  bands := (Vector.replicate 4 none).set 0 (some ⟨⟨570, 960⟩, 75⟩)
  classes := (Vector.replicate 4 none).set 1 (some ⟨34, 150⟩)
  unit := 10

/-- Halt 7 of the branch, with the time of 10:42 (s = 27720) on date 100 and one call at 10:47. -/
def halt : State :=
  { State.reset with
    own := ⟨7#16, .auto, .r9600⟩
    fru := { State.reset.fru with unaddressed := false }
    htb := { date := 100#16, secs := 27720, sync := .locked, uptime := 1000 }
    tts := { currentState := .active, currentDate := 100#16, current := [aCall 21#16 28020] } }

/-- A port in SERVICE with nothing to send. -/
def served : LinePort :=
  { LinePort.atReset with
    rx := .idle, txRate := some .r9600, tx := .flags
    lsu := { state := .service, fillDue := .running 500, silence := .running 2000 } }

/-- Halt 7 with both ports in SERVICE, fares in force and sales open. -/
def shop : State :=
  { halt with
    up := served, down := served
    fqu := { active := some fares }
    sju := { salesMode := .opened } }

/-- A frame to halt 7 at the front of the Up port's buffers. -/
def taking (s : State) (kind : Byte) (payload : List Byte) : State :=
  s.modPort .up fun lp => { lp with buffers := [⟨kind, 7#16, centre, 5#8, payload⟩] }

/-- The state after that frame is classified. -/
def taken (s : State) (kind : Byte) (payload : List Byte) : State :=
  after (.frameClassify .up resetPins) (taking s kind payload)

/-- A port's record changed, for both ports. -/
def bothPorts (f : LinePort → LinePort) (s : State) : State := (s.modPort .up f).modPort .down f

/-- A port's LSU changed, for both ports. -/
def bothLsu (f : Lsu → Lsu) (s : State) : State := bothPorts (fun lp => { lp with lsu := f lp.lsu }) s

/-- A port state for both ports. -/
def inState (st : PortState) : State → State := bothLsu fun l => { l with state := st }

/-- A frame with its class. -/
def frameOf (kind : Byte) (c : TxClass) : Queued := ⟨c, ⟨kind, 0#16, 5#16, 4#8, .octets []⟩⟩

/-- An open quote of slot 0 in the shop: the worked price. -/
def aQuote : Quote where
  destination := 9#16
  type := 1#8
  cls := some 1
  call := none
  unitPrice := 570
  quantity := 2
  total := 1140
  created := 1000

/-- The shop with that quote. -/
def quoted : State := shop.setSlot 0 (.opened aQuote)

/-- A CASH sale of the quote. -/
def aSale : Sale where
  date := 100#16
  secs := 27720
  ticket := 1#32
  destination := 9#16
  type := 1#8
  cls := some 1
  quantity := 2
  unitPrice := 570
  total := 1140
  payment := .cash
  authCode := none
  call := none
  offline := false
  checkCode := 0#16

/-- An authorisation of slot 0. -/
def anAuth : PendingAuth := ⟨⟨7#16, 0#8, 0#8⟩, 0, 1140, .running 20000⟩

/-- `n` void records from sequence 1, none of them sent. -/
def journalOf (n : Nat) : Sju where
  journal := (List.range n).map fun i => ⟨1#32 + BitVec.ofNat 32 i, .void 100#16 0 1#32 0⟩
  writeSeq := 1#32 + BitVec.ofNat 32 n
  salesMode := .opened

/-! ## WellFormed refuses -/

theorem test_wf_frame_without_bits : Instr.wellFormed (.frameClosed .up []) = false := by decide

theorem test_wf_frame_with_six_ones :
    Instr.wellFormed (.frameClosed .up [false, true, true, true, true, true, true]) = false := by
  decide

theorem test_wf_abort_with_six_ones :
    Instr.wellFormed (.abort .down (List.replicate 6 true)) = false := by decide

theorem test_wf_short_token :
    Instr.wellFormed (.issue ⟨0#8, 1#8, 0#24, List.replicate 15 0#8⟩) = false := by decide

theorem test_wf_known_code_as_unknown : Instr.wellFormed (.badMessage 9#8 .unknownCode) = false := by
  decide

theorem test_wf_unknown_code_with_body_length :
    Instr.wellFormed (.badMessage 10#8 .bodyLength) = false
      ∧ Instr.wellFormed (.badMessage 0#8 .bodyLength) = false := by decide

/-! ## Commands: line ports -/

theorem test_power_up_cold :
    let t := after (.powerUp false ⟨7#12, .fixed .r9600, .unused⟩ true) quoted
    t.own = ⟨7#16, .fixed .r9600, .r9600⟩ ∧ t.fru.unaddressed = false ∧ t.sju.journalLost = true
      ∧ t.up.rxRate = .r9600 ∧ t.down.txRate = some .r9600 ∧ t.htb.sync = .unset := by
  decide +kernel

theorem test_power_up_warm :
    let t := after (.powerUp true ⟨7#12, .auto, .r9600⟩ false) quoted
    t.sju.journal = [⟨1#32, .restore 100#16 27720 0 1⟩] ∧ t.fqu.slots[0] = .free
      ∧ t.tts.current.length = 1 ∧ t.sju.salesMode = .offline ∧ t.tpi.ring = [] := by
  decide +kernel

theorem test_main_power_loss :
    let t := after .mainPowerLoss quoted
    t.powered = false ∧ t.sju.quotesHeld = 1
      ∧ (after .serviceSecond t).htb.secs = 27721 ∧ after .status t = t := by
  decide +kernel

theorem test_flag_received :
    ((after (.flagReceived .up) halt).up.rx, (after (.flagReceived .up) shop).up.lsu.silence)
      = (.idle, .running 2000) := by decide +kernel

theorem test_idle_line : (after (.idleLine .up) shop).up.rx = .seek := by decide +kernel

theorem test_candidate_frame_begin : (after (.candidateFrameBegin .down) shop).down.rx = .frame := by
  decide +kernel

/-- A FILL in SERVICE from halt 31, as its sender puts it on the line (R31, R32). -/
def fillBits : List Bool :=
  TxFrame.lineBits ⟨1#8, 0#16, 31#16, 1#8, .octets [3#8, 2#8, 0#8, 31#8]⟩

theorem test_frame_closed_fill :
    let s := shop.modPort .up fun lp => { lp with rx := .frame }
    let t := after (.frameClosed .up fillBits) s
    t.up.lsu.peer = some ⟨.service, 2#8, 31#16, 1000⟩ ∧ t.up.buffers = []
      ∧ t.up.ctr = { goodFrames := 1 } ∧ t.up.lsu.bucketRun = 1 := by
  decide +kernel

/-- The third line of the worked octet counting: 12 + 20 octets make two groups. -/
theorem test_frame_closed_counting :
    let s := shop.modPort .up fun lp => { lp with rx := .counting, octetCount := 12 }
    let t := after (.frameClosed .up (List.replicate 160 false)) s
    t.up.octetCount = 0 ∧ t.up.ctr = { octetGroups := 2 } ∧ t.up.lsu.bucket = 2
      ∧ t.up.rx = .counting := by
  decide +kernel

theorem test_abort :
    let s := shop.modPort .up fun lp => { lp with rx := .frame }
    let t := after (.abort .up [false]) s
    t.up.rx = .seek ∧ t.up.ctr = { errAbort := 1 } ∧ t.up.lsu.bucket = 1 := by
  decide +kernel

theorem test_long_frame :
    let s := shop.modPort .up fun lp => { lp with rx := .frame }
    let t := after (.longFrame .up) s
    t.up.rx = .counting ∧ t.up.octetCount = 1 ∧ t.up.ctr = { errLong := 1 } := by
  decide +kernel

theorem test_octet_group :
    let s := shop.modPort .up fun lp => { lp with rx := .counting, octetCount := 4, seqCounted := 132 }
    let t := after (.octetGroup .up) s
    t.up.octetCount = 0 ∧ t.up.seqCounted = 144 ∧ t.up.ctr = { octetGroups := 1 } := by
  decide +kernel

theorem test_dwell_expiry :
    ((after (.dwellExpiry .up) halt).up.rxRate, (after (.dwellExpiry .up) halt).up.dwell)
      = (.r9600, .running 2000) := by decide +kernel

/-- Choices 4 and 5 of the worked arbitration. -/
theorem test_tx_frame_end_arbitration :
    let own := frameOf 10#8 .own
    let r4 := frameOf 11#8 .relay
    let u1 := frameOf 14#8 .urgent
    let s := shop.modPort .up fun lp =>
      { lp with queue := [own, r4, u1], runOfThree := 3, tx := .sending r4.frame }
    let t := after (.txFrameEnd .up) s
    t.up.tx = .sending u1.frame ∧ t.up.runOfThree = 3 ∧ t.up.ctr.txFrames = 1
      ∧ (after (.txFrameEnd .up) t).up.tx = .sending own.frame
      ∧ (after (.txFrameEnd .up) t).up.runOfThree = 0 := by
  decide +kernel

theorem test_tx_flag_end_fill :
    let s := bothLsu (fun l => { l with fillDue := .expired }) shop
    (after (.txFlagEnd .down) s).down.tx
      = .sending ⟨1#8, 0#16, 7#16, 1#8, .octets [3#8, 0#8, 0#8, 7#8]⟩ := by
  decide +kernel

theorem test_tx_abort_end :
    (after (.txAbortEnd .down) (bothPorts (fun lp => { lp with tx := .aborting }) shop)).down.tx
      = .flags := by decide +kernel

/-! ## Commands: link supervision -/

theorem test_fill_due_expiry : (after (.fillDueExpiry .up) shop).up.lsu.fillDue = .expired := by
  decide +kernel

theorem test_period_expiry :
    let s := bothLsu (fun l => { l with state := .proving, period := .running 3000, peerSeen := true })
      (inState .hunt shop)
    let t := after (.periodExpiry .up) s
    t.up.lsu.state = .service ∧ (t.up.queue.map fun x => x.frame.kind) = [10#8]
      ∧ (after (.periodExpiry .down) (bothLsu (fun l => { l with ca := 4 }) s)).down.lsu.phase
          = .pause := by
  decide +kernel

theorem test_pause_expiry :
    let s := bothLsu (fun l => { l with state := .proving, phase := .pause, pause := .running 1000 }) shop
    (after (.pauseExpiry .up) s).up.lsu.period = .running 3000 := by decide +kernel

/-- The 19th to 21st interval of the worked sequence. -/
theorem test_interval_expiry :
    let s := fun b m => bothLsu (fun l =>
      { l with interval := .running 100, bucket := b, intervalMark := m }) shop
    (after (.intervalExpiry .down) (s 27 true)).down.lsu.bucket = 31
      ∧ (after (.intervalExpiry .down) (s 31 false)).down.lsu.bucket = 30
      ∧ (after (.intervalExpiry .down) (s 30 true)).down.lsu.bucket = 32
      ∧ (after (.intervalExpiry .down) (s 30 true)).down.lsu.cause = .errorRate := by
  decide +kernel

theorem test_silence_expiry :
    let s := { quoted with sju := { quoted.sju with pendingAuth := some anAuth, nextSeq := 1#32 } }
    let t := after (.silenceExpiry .up) s
    t.up.lsu.state = .outage ∧ t.sju.salesMode = .offline ∧ t.sju.pendingAuth = none
      ∧ t.tpi.ring = [.issueDone 0 .authLink none, .salesMode .offline] := by
  decide +kernel

theorem test_retry_expiry :
    let s := bothLsu (fun l => { l with state := .outage, retry := .running 30000 }) shop
    (after (.retryExpiry .up) s).up.lsu.state = .hunt := by decide +kernel

/-! ## Commands: classification -/

/-- The worked TIME cases: applied, refused, forced, behind the rollover. -/
theorem test_classify_time :
    let at_ := fun n => { halt with htb := { halt.htb with secs := n } }
    let time := fun (d n f : Nat) => be 2 d ++ be 3 n ++ be 1 f
    (taken (at_ 40000) 2#8 (time 100 40120 0)).htb.secs = 40120
      ∧ (taken (at_ 40000) 2#8 (time 100 40700 0)).htb.ctr.rejected = 1
      ∧ (taken (at_ 40000) 2#8 (time 100 40700 1)).htb.secs = 40700
      ∧ (taken (at_ 100) 2#8 (time 99 86350 0)).htb.secs = 0
      ∧ (taken (at_ 100) 2#8 (time 99 86350 0)).htb.stand = 50 := by
  decide +kernel

/-- The first worked forecast and its display: 10:42 with 435 s is shown as 10:49. -/
theorem test_classify_run :
    let s := { halt with tts := { halt.tts with current := [aCall 21#16 27720] } }
    let t := taken s 9#8 (be 2 21 ++ be 2 100 ++ be 1 1 ++ be 2 12 ++ be 2 540 ++ be 3 27000 ++ be 1 0)
    t.tts.current.map (fun c => (c.state, c.forecast, c.confidence, c.shownMinute))
      = [(.running, 435, some .firm, some 469)] := by
  decide +kernel

theorem test_beacon_timer_expiry :
    ((after .beaconTimerExpiry shop).up.queue.map fun x => (x.cls, x.frame.kind, x.frame.destination))
      = [(.own, 10#8, 65535#16)] := by decide +kernel

/-! ## Commands: time -/

theorem test_service_second : (after .serviceSecond halt).htb.secs = 27721 := by decide +kernel

theorem test_service_second_rollover :
    let s := { halt with htb := { halt.htb with secs := 86399 }, tts := { halt.tts with current := [] } }
    let t := after .serviceSecond s
    t.htb.secs = 0 ∧ t.htb.date = 101#16 ∧ t.tts.generation = 1#16
      ∧ t.sju.journal = [⟨1#32, .dayTotal 100#16 {}⟩] := by
  decide +kernel

theorem test_uptime_second :
    let s := { halt with htb := { halt.htb with uptime := 59 } }
    (after .uptimeSecond s).htb.uptime = 60 ∧ (after .uptimeSecond s).htb.minuteDue = true := by
  decide +kernel

theorem test_minute_tick :
    let s := { halt with
      htb := { halt.htb with minuteDue := true }
      tts := { halt.tts with current := [aCall 21#16 25919, aCall 22#16 25920] } }
    (after .minuteTick s).tts.current.map (·.state) = [.expired, .scheduled] := by decide +kernel

/-! ## Commands: platforms -/

theorem test_button_press :
    let t := after (.buttonPress .one) shop
    t.tts.current.map (·.stop) = [.sent] ∧ t.sru.one.lamp = .slowFlash
      ∧ (t.up.queue.map fun x => x.frame.kind) = [13#8]
      ∧ t.tpi.ring = [.stopState ⟨21#16, 100#16⟩ .wanted] := by
  decide +kernel

theorem test_button_release :
    (after (.buttonRelease .one) (after (.buttonPress .one) shop)).sru.one.button = .released := by
  decide +kernel

theorem test_no_target_expiry :
    let s := { shop with tts := { shop.tts with current := [] } }
    let t := after (.buttonPress .two) s
    t.sru.two.lamp = .fastFlash ∧ (after (.noTargetExpiry .two) t).sru.two.lamp = .off := by
  decide +kernel

theorem test_resend_expiry :
    let t := after (.resendExpiry ⟨21#16, 100#16⟩) (after (.buttonPress .one) shop)
    t.sru.serial = 2#8 ∧ t.up.queue.length = 2 := by decide +kernel

theorem test_contact_pulse :
    let s := { shop with params := { shop.params with ownPoint := 5#16 } }
    let t := after (.contactPulse .one) s
    t.tts.current.map (·.state) = [.departed] ∧ t.sru.one.lockout = .running 10000
      ∧ (t.down.queue.map fun x => x.frame.payload)
          = [.octets (be 2 21 ++ be 2 100 ++ be 1 1 ++ be 2 5 ++ be 2 65236 ++ be 3 27720 ++ be 1 0)] := by
  decide +kernel

theorem test_contact_lockout_expiry :
    (after (.contactLockoutExpiry .one) (after (.contactPulse .one) shop)).sru.one.lockout = .stopped := by
  decide +kernel

/-! ## Commands: boards -/

/-- The boards lit, with no warm-up. -/
def lit : State := { shop with bdc := { shop.bdc with warmUp := .stopped } }

theorem test_screen_message_sent :
    let sc : Screen := ⟨List.replicate 6 ⟨.noTime, true⟩, true⟩
    let s := { lit with bdc := { lit.bdc with one := some sc } }
    let t := after .screenMessageSent s
    t.bdc.link = some (.brightness .one 6)
      ∧ (after .screenMessageSent t).bdc.link = some (.row .one 1 .noTime) := by
  decide +kernel

theorem test_low_energy_change :
    ((after (.lowEnergyChange true) lit).bdc.energy, (after (.lowEnergyChange true) lit).bdc.brightness)
      = (.dim, 3) := by decide +kernel

theorem test_activity_expiry :
    let s := { lit with tts := { lit.tts with current := [] } }
    let t := after .activityExpiry s
    t.bdc.energy = .dark ∧ t.bdc.supply = false ∧ (after .activityExpiry lit).bdc.energy = .lit := by
  decide +kernel

theorem test_warm_up_expiry :
    (after .warmUpExpiry halt).bdc.link = some (.brightness .one 6) := by decide +kernel

/-! ## Commands: fares, sales -/

/-- The first worked price: 570 a ticket, 1140 for two. -/
theorem test_quote :
    let t := after (.quote ⟨9#16, 1#8, 2#8, 0#8, 0#16, 0#16, 2#8⟩) shop
    t.fqu.slots[0] = .opened aQuote
      ∧ t.tpi.replies = [⟨129#8, .ok, .quote 0 570 1140 0#16 false⟩] := by
  decide +kernel

/-- The worked roundings: halves go up, and the top saturates. -/
theorem test_rounding :
    roundFare 10 575 = 580 ∧ roundFare 10 571 = 570 ∧ roundFare 10 65535 = 65535
      ∧ concede 200 (some ⟨50, 153⟩) = 153 ∧ distanceBand 63 = 15 := by decide

theorem test_cancel_quote :
    (after (.cancelQuote 0#8) quoted).fqu.slots[0] = .free
      ∧ (after (.cancelQuote 1#8) quoted).tpi.replies = [⟨130#8, .quoteUnknown, .empty⟩] := by
  decide +kernel

theorem test_quote_expiry :
    let s := { quoted with htb := { quoted.htb with uptime := 1120 } }
    (after (.quoteExpiry 0) s).tpi.ring = [.quoteWithdrawn 0] ∧ after (.quoteExpiry 0) quoted = quoted := by
  decide +kernel

theorem test_find :
    (after (.find ⟨9#16, 0xFFFFFF#24, 0#8, 0#16, 0#8, 1#8⟩) shop).tpi.replies
      = [⟨135#8, .found, .find
          [⟨⟨21#16, 100#16⟩, 647, some .onTime, none, .one, .request⟩] (some ⟨0#16, 1⟩)⟩] := by
  decide +kernel

theorem test_issue_cash :
    let t := after (.issue ⟨0#8, 1#8, 1200#24, List.replicate 16 0#8⟩) quoted
    t.tpi.replies = [⟨131#8, .ok, .issue 1#32 (some 60)⟩] ∧ t.sju.totals.cash = ⟨1, 1140⟩
      ∧ t.sju.journal.length = 1 ∧ t.fqu.slots[0] = .free ∧ t.sju.window.length = 1 := by
  decide +kernel

theorem test_issue_card_online :
    let t := after (.issue ⟨0#8, 2#8, 1140#24, List.replicate 16 0#8⟩) quoted
    t.sju.pendingAuth = some anAuth ∧ (t.up.queue.map fun x => x.frame.kind) = [14#8]
      ∧ t.tpi.replies = [⟨131#8, .pending, .empty⟩] := by
  decide +kernel

/-- The shop with an authorisation pending. -/
def authorising : State :=
  { shop.setSlot 0 (.pendingAuth aQuote false) with
    sju := { shop.sju with pendingAuth := some anAuth, authsPending := 1 } }

theorem test_auth_timer_expiry :
    let t := after .authTimerExpiry authorising
    t.sju.lateTags = [⟨anAuth.tag, 1140⟩] ∧ t.tpi.ring = [.issueDone 0 .authTimeout none]
      ∧ t.fqu.slots[0] = .free := by
  decide +kernel

/-- The shop with a ticket in the window. -/
def ticketed : State :=
  { shop with sju := { shop.sju with window := [⟨1#32, aSale, .running 60000⟩] } }

theorem test_ticket :
    (after (.ticket 1#32) ticketed).tpi.replies = [⟨132#8, .ok, .ticket aSale⟩] := by decide +kernel

theorem test_printed : (after (.printed 1#32) ticketed).sju.window = [] := by decide +kernel

theorem test_void :
    (after (.void 1#32) ticketed).sju.journal = [⟨1#32, .void 100#16 27720 1#32 1140⟩]
      ∧ (after (.void 2#32) ticketed).tpi.replies = [⟨134#8, .tooLate, .empty⟩] := by
  decide +kernel

theorem test_ticket_limit_expiry : (after (.ticketLimitExpiry 1#32) ticketed).sju.window = [] := by
  decide +kernel

/-- The worked go-back: records 105 to 111 are sent again as 105 to 108 and 109 to 111. -/
theorem test_ack_timer_expiry :
    let j := { journalOf 7 with ackTimer := .running 30000, nextSeq := 8#32 }
    let t := after .ackTimerExpiry { shop with sju := j }
    t.up.queue.length = 2 ∧ t.sju.nextSeq = 8#32 ∧ t.sju.ackTimer = .running 30000 := by
  decide +kernel

/-! ## Commands: the terminal port -/

/-- The shop with a notice in the ring. -/
def noticed : State := { shop with tpi := { shop.tpi with ring := [.journalNearFull] } }

theorem test_notices :
    let t := after (.notices 8#8) noticed
    t.tpi.ring = [] ∧ t.tpi.replies = [⟨136#8, .ok, .notices false [.journalNearFull]⟩] := by
  decide +kernel

theorem test_status :
    ((after .status shop).tpi.replies.map fun r => (r.code, r.result)) = [(137#8, .ok)] := by
  decide +kernel

/-- Messages as they arrive: STATUS, a PRINTED of ticket 7, an incomplete one, one past 120, a failed
check, an unknown code and a wrong length. -/
theorem test_command_of_message :
    commandOfMessage [9#8, 0#8, 9#8] = some .status
      ∧ commandOfMessage [5#8, 4#8, 0#8, 0#8, 0#8, 7#8, 6#8] = some (.printed 7#32)
      ∧ commandOfMessage [5#8, 4#8, 0#8, 0#8, 0#8, 7#8] = none
      ∧ commandOfMessage [1#8, 121#8] = some (.badMessage 1#8 .lengthAbove120)
      ∧ commandOfMessage [9#8, 0#8, 8#8] = some (.badMessage 9#8 .checkFails)
      ∧ commandOfMessage [10#8, 0#8, 10#8] = some (.badMessage 10#8 .unknownCode)
      ∧ commandOfMessage [9#8, 1#8, 0#8, 8#8] = some (.badMessage 9#8 .bodyLength) := by decide +kernel

/-- The worked price's request on the wire. -/
theorem test_command_of_quote :
    commandOfMessage (terminalMessage 1#8 [0#8, 9#8, 1#8, 2#8, 0#8, 0#8, 0#8, 0#8, 0#8, 2#8])
      = some (.quote ⟨9#16, 1#8, 2#8, 0#8, 0#16, 0#16, 2#8⟩) := by decide +kernel

theorem test_tp_gap : (after .tpGap shop).tpi.ctr.gap = 1 := by decide +kernel

theorem test_terminal_reply_sent :
    (after .terminalReplySent (after .status shop)).tpi.replies = [] := by decide +kernel

theorem test_bad_message :
    let t := after (.badMessage 1#8 .lengthAbove120) shop
    t.tpi.parser = .ignoring ∧ t.tpi.replies = [⟨129#8, .badMessage, .empty⟩]
      ∧ (after .tpGap t).tpi.parser = .waiting := by
  decide +kernel

/-! ## Hypotheses of the statements: states and operands that meet them -/

theorem test_meets_StepTakesTheFrontCommand : State.reset.pending = [] := by decide

theorem test_meets_EveryCommandGoesOn :
    ({ shop with powered := false }).powered = false ∧ (∀ b pins low, Instr.status ≠ .powerUp b pins low)
      ∧ Instr.status ≠ .serviceSecond :=
  ⟨rfl, nofun, nofun⟩

theorem test_meets_ColdStartIsReset :
    ({ shop with mark := false }.mark = false ∨ true = false) ∧ (shop.mark = false ∨ false = false) := by
  decide

theorem test_meets_WarmStartKeepsRetained :
    let s := { halt with htb := { halt.htb with secs := 86399 } }
    s.mark = true ∧ s.htb.secs < 86400 := by decide

/-- A schedule reached and one not, with a PENDING table; a CTRL WARM_RESET at the front. -/
theorem test_meets_WarmStartKeepsRetained_tables :
    (∀ x ∈ [(27720, true), (27721, false)],
      let s := { halt with fqu := { pendingTable := some fares, schedule := some ⟨100#16, x.1⟩ } }
      s.reached ⟨100#16, x.1⟩ = x.2 ∧ s.fqu.pendingTable ≠ none ∧ s.mark = true)
      ∧ BankOrdered halt.tts.current
      ∧ OwnFrame (taking halt 5#8 [1#8, 0#8]) ⟨5#8, 7#16, centre, 5#8, [1#8, 0#8]⟩ [] 5#8 := by
  unfold BankOrdered OwnFrame
  decide +kernel

/-- A LATE call within its cutoff, and a SENT one that expires, as a warm start leaves them. -/
theorem test_warm_start_calls :
    let s := { halt with tts := { halt.tts with current :=
      [{ aCall 21#16 25919 with stop := .sent }, { aCall 22#16 28020 with stop := .late }] } }
    (after (.powerUp true resetPins false) s).tts.current.map (fun c => (c.state, c.stop))
      = [(.expired, .wanted), (.scheduled, .wanted)] := by
  decide +kernel

theorem test_meets_PowerLossKeepsRetained : shop.powered = true := by decide

theorem test_meets_ReceiverMarks :
    ∀ rx ∈ [RxState.off, .seek, .idle, .frame, .counting],
      let s := bothPorts (fun lp => { lp with rx := rx }) shop
      s.powered = true ∧ (s.port .down).rx = rx := by decide +kernel

theorem test_meets_SentFrameIsDelivered :
    let f : TxFrame := ⟨2#8, 7#16, 5#16, 1#8, .octets (List.replicate 120 0#8)⟩
    ∀ x ∈ [(RxState.frame, 129), (.counting, 128)],
      let s := bothPorts (fun lp => { lp with
        rx := x.1, seqCounted := x.2, buffers := List.replicate 7 ⟨2#8, 7#16, 5#16, 1#8, []⟩ }) shop
      s.powered = true ∧ f.payload = .octets (List.replicate 120 0#8)
        ∧ (List.replicate 120 0#8).length ≤ 120 ∧ f.hop ≠ 0#8 ∧ f.kind ≠ 1#8
        ∧ (s.port .up).buffers.length < 8
        ∧ ((s.port .up).rx = .frame ∨ (s.port .up).rx = .counting ∧ (s.port .up).seqCounted ≤ 128) := by
  decide +kernel

/-- A FILL from each sender state and one of code 4, hop count 0, and eight buffers taken. -/
theorem test_meets_SentFrameIsDelivered_kept :
    let s := shop.modPort .up fun lp => { lp with
      rx := .counting, seqCounted := 128, buffers := List.replicate 8 ⟨2#8, 7#16, 5#16, 1#8, []⟩ }
    let sent := fun (kind hop : Byte) (bs : List Byte) =>
      after (.frameClosed .up (TxFrame.lineBits ⟨kind, 0#16, 31#16, hop, .octets bs⟩)) s
    let fill := fun n => sent 1#8 1#8 [n, 255#8, 0#8, 31#8]
    s.powered = true ∧ (s.port .up).rx = .counting ∧ (s.port .up).seqCounted ≤ 128
      ∧ 8 ≤ (s.port .up).buffers.length
      ∧ [1#8, 2#8, 3#8].map (fun n => (fill n).up.lsu.peer)
        = [PortState.hunt, .proving, .service].map (fun st => some ⟨st, 255#8, 31#16, 1000⟩)
      ∧ (fill 4#8).up.lsu.peer = none ∧ (fill 4#8).up.lsu.ctr.fillForm = 1
      ∧ (sent 1#8 1#8 [3#8, 0#8]).up.lsu.ctr.fillForm = 1
      ∧ (sent 1#8 0#8 [3#8, 0#8, 0#8, 31#8]).up.ctr = { goodFrames := 1, hopZero := 1 }
      ∧ (sent 2#8 1#8 []).up.ctr = { goodFrames := 1, rxOverrun := 1 } := by
  decide +kernel

theorem test_meets_ErroredFrameIsCountedOnce :
    let s := bothPorts (fun lp => { lp with rx := .frame }) shop
    let content := fun n => destuff (List.replicate n false)
    s.powered = true ∧ (s.port .up).rx = .frame
      ∧ ((content 1031).length < 1032 ∧ (content 1031).length % 8 ≠ 0)
      ∧ ((content 56).length % 8 = 0 ∧ (content 56).length < 64)
      ∧ ((content 64).length % 8 = 0 ∧ 64 ≤ (content 64).length ∧ fcsGood (content 64) = false) := by
  decide +kernel

theorem test_meets_LongFramesAreCountedInGroups :
    ∀ x ∈ [(RxState.frame, 0), (.counting, 128), (.counting, 129), (.counting, 0)],
      let s := bothPorts (fun lp => { lp with
        rx := x.1, seqCounted := x.2, ctr := { octetGroups := 4294967295 } }) shop
      s.powered = true ∧ (s.port .up).ctr.octetGroups ≤ 4294967295 ∧ (s.port .up).rx = x.1
        ∧ (s.port .up).seqCounted = x.2 ∧ (destuff []).length < 64 := by
  decide +kernel

theorem test_meets_DwellMovesTheRate :
    (∀ r ∈ [Rate.r19200, .r9600, .r4800, .r2400, .r1200],
      let s := bothPorts (fun lp => { lp with rxRate := r }) halt
      s.powered = true ∧ (s.port .up).lsu.state = .hunt ∧ (s.port .up).dwell.isRunning = true
        ∧ (s.port .up).rxRate = r)
      ∧ (shop.port .up).lsu.state ≠ .hunt
      ∧ (bothPorts (fun lp => { lp with dwell := .stopped }) halt).up.dwell.isRunning = false := by
  decide +kernel

/-- A frame on the line closes with one flag and opens with none of its own. -/
theorem test_sent_frame_line_bits (f : TxFrame) :
    (TxState.sending f).lineBits = f.lineBits ++ flagBits := rfl

/-- A good frame's line bits. -/
def timeBits : List Bool := TxFrame.lineBits ⟨2#8, 7#16, 5#16, 1#8, .octets []⟩

theorem test_meets_FourthGoodFrameLocks :
    ∀ n ∈ [2, 3],
      let s := bothPorts (fun lp => { lp with rx := .frame, goodRun := n }) halt
      s.powered = true ∧ (s.port .up).rx = .frame ∧ (destuff timeBits).length < 1032
        ∧ judge (destuff timeBits) = .ok ⟨2#8, 7#16, 5#16, 1#8, []⟩ ∧ (2#8 : Byte) ≠ 1#8
        ∧ (s.port .up).lsu.state = .hunt ∧ (s.port .up).goodRun = n
        ∧ (s.port .up).rateMode = .auto := by
  decide +kernel

/-- A good frame one short of D and at D in FRAME mode; in INTERVAL mode and in PROVING; a FILL that
completes the lock. -/
theorem test_meets_FourthGoodFrameLocks_credit :
    let at_ := fun run => bothPorts (fun lp => { lp with
      rx := .frame, lsu := { lp.lsu with bucket := 5, bucketRun := run } }) shop
    let ends := fun (s : State) =>
      ((after (.frameClosed .up timeBits) s).up.lsu.bucket,
        (after (.frameClosed .up timeBits) s).up.lsu.bucketRun)
    let hunting := bothPorts (fun lp => { lp with rx := .frame, goodRun := 3 }) (inState .hunt shop)
    (at_ 62).powered = true ∧ (at_ 62).up.rx = .frame ∧ (at_ 62).up.lsu.state = .service
      ∧ ((at_ 62).params.port .up).mode = .frame ∧ ((at_ 62).params.port .up).credit = 64
      ∧ ends (at_ 62) = (5, 63) ∧ ends (at_ 63) = (4, 0)
      ∧ ends { at_ 63 with params :=
          { shop.params with up := { shop.params.up with mode := .interval } } } = (5, 63)
      ∧ ends (inState .proving (at_ 63)) = (5, 63)
      ∧ (after (.frameClosed .up fillBits) hunting).up.lsu.state = .proving := by
  decide +kernel

/-- The shop with a queue on both ports, its transmitters in a state. -/
def queued (q : List Queued) (run : Nat) (tx : TxState) : State :=
  bothPorts (fun lp => { lp with queue := q, runOfThree := run, tx := tx }) shop

theorem test_meets_ArbiterHandsOver :
    let u := frameOf 2#8 .urgent
    let r := frameOf 11#8 .relay
    let o := frameOf 10#8 .own
    (Chooses (.txFlagEnd .up) (queued [o, u] 0 .flags) .up ∧ Preferred (queued [o, u] 0 .flags).up .urgent)
      ∧ (Chooses (.txFrameEnd .up) (queued [o, r] 2 (.sending o.frame)) .up
        ∧ Preferred (queued [o, r] 2 (.sending o.frame)).up .relay)
      ∧ (Chooses (.txFlagEnd .down) (queued [r, o] 3 .flags) .down
        ∧ Preferred (queued [r, o] 3 .flags).down .own)
      ∧ (queued [r, o] 3 .flags).powered = true
      ∧ ((queued [r, o] 3 .flags).port .down).lsu.state = .service
      ∧ ((queued [r, o] 3 .flags).port .down).queue = [r] ++ o :: []
      ∧ ∀ y ∈ [r], y.cls ≠ o.cls := by
  refine ⟨⟨.inl ⟨rfl, rfl⟩, trivial⟩, ⟨.inr ⟨rfl, _, rfl⟩, ?_, ?_⟩, ⟨.inl ⟨rfl, rfl⟩, ?_, ?_⟩, ?_⟩
  all_goals decide +kernel

theorem test_meets_FillWhenDue :
    ∀ fill ∈ [Timer.expired, .running 500],
      let s := bothLsu (fun l => { l with fillDue := fill }) shop
      let h := inState .hunt s
      let hunting : State := { h with down := { h.down with rateMode := .fixed .r9600 } }
      (hunting.powered = true ∧ (hunting.port .down).lsu.state = .hunt ∧ (hunting.txRateOf .down).isSome
          ∧ (hunting.port .down).tx = .flags ∧ (hunting.port .down).lsu.fillDue = fill)
        ∧ ((inState .proving s).port .up).lsu.state = .proving
        ∧ ((s.port .up).lsu.state = .service ∧ (s.port .up).queue = []) := by
  decide +kernel

theorem test_meets_AbortEndsAtRest :
    ((bothPorts (fun lp => { lp with tx := .aborting }) shop).port .up).tx = .aborting := by
  decide +kernel

theorem test_meets_SupervisionTimers :
    (∀ x ∈ [Timer.running 500, .stopped],
      let s := bothLsu (fun l => { l with
        fillDue := x, pause := x, period := x, interval := x, silence := x, retry := x }) shop
      s.powered = true ∧ (s.port .up).lsu.fillDue.isRunning = x.isRunning
        ∧ (s.port .up).lsu.pause.isRunning = x.isRunning) := by
  decide +kernel

/-- The shop's ports in a proving period with some errors and attempts. -/
def proving (ca attempts : Nat) (seen : Bool) : State :=
  bothLsu (fun l => { l with
    state := .proving, period := .running 3000, ca := ca, attempts := attempts, peerSeen := seen }) shop

theorem test_meets_ProvingPeriodEnds :
    (let s := proving 3 0 true;
      (s.port .up).lsu.period.isRunning = true ∧ (s.port .up).lsu.ca < (s.params.port .up).align
        ∧ (s.port .up).lsu.peerSeen = true ∧ s.up.queue = [] ∧ s.fru.unaddressed = false)
      ∧ (let s := proving 4 3 true;
        (s.params.port .up).align ≤ (s.port .up).lsu.ca ∧ (s.port .up).lsu.attempts + 1 < 5)
      ∧ (let s := proving 0 4 false;
        (s.port .up).lsu.peerSeen = false ∧ 5 ≤ (s.port .up).lsu.attempts + 1) := by
  decide +kernel

theorem test_meets_IntervalIsJudged :
    ∀ x ∈ [(27, 31), (28, 32)],
      let s := bothLsu (fun l => { l with
        interval := .running 100, bucket := x.1, intervalMark := true }) shop
      s.powered = true ∧ (s.port .up).lsu.state = .service
        ∧ (s.port .up).lsu.interval.isRunning = true
        ∧ min (s.params.port .up).limit ((s.port .up).lsu.bucket + 4) = x.2
        ∧ (s.params.port .up).limit = 32 := by
  decide +kernel

/-- A cancelled SENT call as the Up port leaves SERVICE (R114, log entry 29). -/
theorem test_link_loss_unsends :
    let s := { shop with tts := { shop.tts with current :=
      [{ aCall 21#16 28020 with state := .cancelled, stop := .sent }] } }
    (after (.silenceExpiry .up) s).tts.current.map (·.stop) = [.wanted] := by
  decide +kernel

theorem test_meets_SilenceEndsService :
    (shop.port .up).lsu.silence.isRunning = true ∧ (shop.port .up).lsu.state = .service
      ∧ (shop.port .up).tx = .flags
      ∧ ((inState .proving shop).port .up).lsu.silence.isRunning = true
      ∧ ((inState .proving shop).port .up).lsu.state ≠ .service := by
  decide +kernel

theorem test_meets_RetryEntersHunt :
    let s := bothLsu (fun l => { l with state := .outage, retry := .running 30000 }) shop
    s.powered = true ∧ (s.port .up).lsu.state = .outage ∧ (s.port .up).lsu.retry.isRunning = true := by
  decide +kernel

/-- The shop with the group window 64..95 (R40's example). -/
def grouped : State :=
  { shop with fru := { shop.fru with windows := shop.fru.windows.set 0 (some ⟨64, 32⟩) } }

/-- Each branch of the rule, at the ends of the window and of the halt codes. -/
theorem test_meets_AddressRule :
    grouped.fru.unaddressed = false
      ∧ [7#16, 0#16, 64#16, 95#16, 63#16, 96#16, 4001#16].map (grouped.verdictOf .up .load)
        = [⟨true, false⟩, ⟨true, true⟩, ⟨true, true⟩, ⟨true, true⟩, ⟨false, true⟩, ⟨false, true⟩,
          ⟨false, true⟩] := by
  decide +kernel

/-- R40's example: windows 80..95 and base 100 are refused, 96..111 is accepted. -/
theorem test_classify_window :
    let load := fun (n b z : Nat) => be 1 10 ++ be 1 n ++ be 2 b ++ be 2 z
    (taken grouped 3#8 (load 1 80 16)).fru.refused = 1
      ∧ (taken grouped 3#8 (load 1 96 16)).fru.windows[1] = some ⟨96, 16⟩
      ∧ (taken grouped 3#8 (load 2 100 8)).fru.refused = 1 := by
  decide +kernel

/-- A frame in the buffers of both ports. -/
def buffered (f : RxFrame) (s : State) : State := bothPorts (fun lp => { lp with buffers := [f] }) s

/-- The other port OFF, in HUNT, and with its last non-urgent place free; hop counts 1 and 2. -/
theorem test_meets_RelayedCopy :
    let full := List.replicate 25 (frameOf 11#8 .relay)
    let f : RxFrame := ⟨11#8, 0#16, 5#16, 2#8, []⟩
    let s := buffered f shop
    s.powered = true ∧ (s.port .up).buffers = f :: [] ∧ f.hop ≠ 0#8 ∧ f.hop ≠ 1#8
      ∧ (∀ k ∈ [12#8, 10#8, 13#8, 0#8, 15#8],
        ((buffered { f with kind := k } shop).port .up).buffers = [{ f with kind := k }])
      ∧ ((inState .off s).port .down).lsu.state = .off
      ∧ ((inState .hunt s).port .down).lsu.state ≠ .service
      ∧ Room ((queued full 0 .flags).port .down) .relay := by
  refine ⟨?_, ?_, ?_, ?_, ?_, ?_, ?_, ?_, ?_, .inr ?_⟩
  all_goals decide +kernel

/-- A STOPREQ with all 32 slots taken, and a JRNL with 26 non-urgent frames queued or 32 urgent ones. -/
theorem test_meets_RelayedCopy_full :
    let dropped := fun (kind : Byte) (q : List Queued) =>
      let s := buffered ⟨kind, 0#16, 5#16, 2#8, []⟩ (queued q 0 .flags)
      let t := after (.frameClassify .up resetPins) s
      (t.down.queue.length, t.down.fruCtr.dropUrgent, t.down.fruCtr.dropRelay)
    let urgent := List.replicate 32 (frameOf 14#8 .urgent)
    dropped 13#8 urgent = (32, 1, 0) ∧ dropped 11#8 urgent = (32, 0, 1)
      ∧ dropped 11#8 (List.replicate 26 (frameOf 11#8 .relay)) = (26, 0, 1)
      ∧ dropped 13#8 (urgent.drop 1) = (32, 0, 0) := by
  decide +kernel

/-- The state after a frame from the centre with hop count 5 is classified at a port of s. -/
def put (s : State) (p : Port) (kind : Byte) (dest : HaltCode) (payload : List Byte) : State :=
  after (.frameClassify p resetPins)
    (s.modPort p fun lp => { lp with buffers := [⟨kind, dest, centre, 5#8, payload⟩] })

/-- A queue's classes, kinds and hop counts. -/
def carried (q : List Queued) : List (TxClass × Byte × Byte) :=
  q.map fun x => (x.cls, x.frame.kind, x.frame.hop)

/-- A TIME of 10:43. -/
def timeOctets : List Byte := be 2 100 ++ be 3 27780 ++ be 1 0

/-- Address-ruled frames for another halt and from the Down port; a queue with no room for them. -/
theorem test_meets_RelayedCopy_elsewhere :
    let full := bothPorts (fun lp => { lp with
      queue := List.replicate 26 (frameOf 11#8 .relay) }) grouped
    carried (put grouped .up 4#8 63#16 [1#8, 1#8]).down.queue = [(.relay, 4#8, 4#8)]
      ∧ carried (put grouped .down 4#8 7#16 [1#8, 1#8]).up.queue = [(.relay, 4#8, 4#8)]
      ∧ (put full .up 4#8 63#16 []).down.fruCtr.dropRelay = 1
      ∧ (put full .up 2#8 63#16 []).down.queue.length = 27 := by
  decide +kernel

/-- A LOAD of unknown subkind for this halt, from the Down port and for all. -/
theorem test_meets_RelayedCopy_strange :
    (put grouped .up 3#8 7#16 [0#8]).up.fruCtr.kindUnknown = 1
      ∧ (put grouped .up 3#8 7#16 [0#8]).down.queue = []
      ∧ carried (put grouped .down 3#8 7#16 [0#8]).up.queue = [(.relay, 3#8, 4#8)]
      ∧ carried (put grouped .up 3#8 0#16 [11#8]).down.queue = [(.relay, 3#8, 4#8)] := by
  decide +kernel

/-- A broadcast and the ends of the group window, taken and relayed; a restart is not relayed. -/
theorem test_meets_RelayedCopy_taken :
    [0#16, 64#16, 95#16].map (fun d => (put grouped .up 2#8 d timeOctets).htb.secs)
        = [27780, 27780, 27780]
      ∧ carried (put grouped .up 2#8 64#16 timeOctets).down.queue = [(.urgent, 2#8, 4#8)]
      ∧ (put grouped .up 5#8 0#16 [1#8, 0#8]).down.queue = []
      ∧ carried (put grouped .up 5#8 0#16 [5#8, 0#8]).down.queue = [(.relay, 5#8, 4#8)]
      ∧ (put grouped .up 6#8 0#16 (be 4 1)).sju.ctr.jackForm = 1
      ∧ carried (put grouped .up 6#8 0#16 (be 4 1)).down.queue = [(.relay, 6#8, 4#8)]
      ∧ carried (put grouped .up 9#8 63#16 []).down.queue = [(.urgent, 9#8, 4#8)] := by
  decide +kernel

/-- An unaddressed halt takes what is sent to 0, and relays all. -/
theorem test_meets_RelayedCopy_unaddressed :
    let lost : State := { grouped with fru := { grouped.fru with unaddressed := true } }
    (put lost .up 2#8 7#16 timeOctets).htb.secs = 27720
      ∧ (put lost .up 2#8 0#16 timeOctets).htb.secs = 27780
      ∧ carried (put lost .up 2#8 0#16 timeOctets).down.queue = [(.urgent, 2#8, 4#8)]
      ∧ (put lost .up 9#8 7#16 []).tts.ctr.runForm = 0
      ∧ (put lost .up 9#8 0#16 []).tts.ctr.runForm = 1 := by
  decide +kernel

/-- An entry for halt 5 at uptime 701, and a BEACON whose fields are its own, 299 s later. -/
theorem test_meets_BeaconIsFiltered :
    let f : RxFrame := ⟨10#8, centre, 5#16, 2#8, List.replicate 25 0#8⟩
    let e : OriginEntry := ⟨5#16, List.replicate 18 0, 701⟩
    let s := { buffered f shop with fru := { shop.fru with origins := shop.fru.origins.set 0 (some e) } }
    s.powered = true ∧ s.down.buffers = f :: [] ∧ s.up.lsu.state ≠ .off
      ∧ beaconOfPayload f.payload = some (List.replicate 18 0) ∧ s.fru.origins[0] = some e
      ∧ (∀ j : Fin 32, (s.fru.origins[j]).any (fun x => x.origin == 5#16) = true → j = 0)
      ∧ e.fields.length = 18 ∧ s.htb.uptime - e.uptime < s.params.refresh := by
  decide +kernel

/-- A BEACON of a known halt at the refresh interval, and of an unknown one, with room and without. -/
theorem test_meets_BeaconIsFiltered_stored :
    let f : RxFrame := ⟨10#8, centre, 5#16, 2#8, List.replicate 25 0#8⟩
    let e := fun o u => (some ⟨o, List.replicate 18 0, u⟩ : Option OriginEntry)
    let with_ := fun (x : Vector (Option OriginEntry) 32) =>
      { buffered f shop with fru := { shop.fru with origins := x } }
    let empty := shop.fru.origins
    let full := Vector.ofFn fun i : Fin 32 => e 9#16 (if i = 3 ∨ i = 7 then 1 else 2)
    let stored := fun s => (after (.frameClassify .down resetPins) s).fru.origins
    shop.params.refresh ≤ shop.htb.uptime - 700 ∧ Room shop.up .relay ∧ ¬ Room halt.up .relay
      ∧ (stored (with_ (empty.set 4 (e 5#16 700))))[4] = e 5#16 1000
      ∧ (stored (with_ (empty.set 0 (e 6#16 700))))[1] = e 5#16 1000
      ∧ (stored (with_ full))[3] = e 5#16 1000 ∧ (stored (with_ full))[7] = e 9#16 1 := by
  unfold Room
  decide +kernel

theorem test_meets_BeaconIsOriginated :
    let full := List.replicate 25 (frameOf 11#8 .relay)
    (shop.fru.beaconTimer.isRunning = true ∧ shop.fru.unaddressed = false)
      ∧ State.reset.fru.unaddressed = true ∧ halt.up.lsu.state ≠ .service
      ∧ Room (queued full 0 .flags).up .own := by
  refine ⟨?_, ?_, ?_, ?_, ?_, .inr ?_⟩
  all_goals decide +kernel

/-- Room at 31 frames for an URGENT one and at 25 for another, none at 32 and at 26. -/
theorem test_meets_AdmissionTests :
    let urgent := fun n => (queued (List.replicate n (frameOf 2#8 .urgent)) 0 .flags).up
    let relay := fun n => (queued (List.replicate n (frameOf 11#8 .relay)) 0 .flags).up
    halt.up.lsu.state ≠ .service ∧ Room (urgent 31) .urgent ∧ ¬ Room (urgent 32) .urgent
      ∧ Room (relay 25) .own ∧ ¬ Room (relay 26) .own := by
  refine ⟨by decide, ?_, ?_, ?_, ?_⟩
  all_goals
    unfold Room
    decide +kernel

/-- UNSET; without power; standing; and counting with s at 86398. -/
theorem test_meets_SecondIsCounted :
    State.reset.htb.sync = .unset
      ∧ ({ halt with powered := false }.htb.sync ≠ .unset ∧ { halt with powered := false }.htb.stand = 0)
      ∧ 0 < ({ halt with htb := { halt.htb with secs := 0, stand := 1 } }).htb.stand
      ∧ ({ halt with htb := { halt.htb with secs := 86398 } }).htb.secs + 1 < 86400
      ∧ halt.htb.deferral = false := by
  decide

/-- Halt 7 in a deferral at a second, with a call that is live to 86460. -/
def deferring (secs : Nat) : State :=
  { halt with
    htb := { halt.htb with secs := secs, deferral := true }
    tts := { halt.tts with current := [aCall 21#16 86400] }
    params := { halt.params with deferLimit := 2 } }

/-- The last second at which the call is live and the next; one second before the limit and the limit;
the stand of an unpowered halt. -/
theorem test_meets_SecondIsCounted_deferred :
    let ends := fun (s : State) =>
      let t := after .serviceSecond s
      (t.htb.secs, t.htb.deferral, t.htb.ctr.deferLimit, t.tts.currentDate)
    let longer := fun n => { deferring n with tts := { halt.tts with current := [aCall 21#16 86520] } }
    (deferring 86459).powered = true ∧ (deferring 86459).htb.sync ≠ .unset
      ∧ (deferring 86459).htb.stand = 0 ∧ (deferring 86459).htb.deferral = true
      ∧ (deferring 86459).params.hour = (deferring 86459).htb.hour
      ∧ ends (deferring 86459) = (86460, true, 0, 100#16)
      ∧ ends (deferring 86460) = (61, false, 0, 101#16)
      ∧ ends (longer 86518) = (86519, true, 0, 100#16)
      ∧ ends (longer 86519) = (120, false, 1, 101#16)
      ∧ (after .serviceSecond { halt with
          powered := false, htb := { halt.htb with secs := 0, stand := 1 } }).htb.stand = 0 := by
  decide +kernel

/-- Halt 7 a second before the rollover, with a call at a given second. -/
def rolling (sched limit : Nat) : State :=
  { halt with
    htb := { halt.htb with secs := 86399 }
    tts := { halt.tts with current := [aCall 21#16 sched] }
    params := { halt.params with deferLimit := limit } }

/-- A call at 86340 is live and one at 86339 is not; limits 0 and 1. -/
theorem test_meets_RolloverSwitchesOrDefers :
    (∃ c ∈ (rolling 86340 1).tts.current, (c.state = .scheduled ∨ c.state = .running)
        ∧ 86400 ≤ c.expected + 60)
      ∧ (¬ ∃ c ∈ (rolling 86339 1).tts.current, (c.state = .scheduled ∨ c.state = .running)
        ∧ 86400 ≤ c.expected + 60)
      ∧ 0 < (rolling 86340 1).params.deferLimit ∧ (rolling 86340 0).params.deferLimit = 0
      ∧ (rolling 86339 1).params.hour = (rolling 86339 1).htb.hour
      ∧ (rolling 86339 1).sju.occupancy < 512 ∧ (rolling 86339 1).htb.secs = 86399 := by
  decide +kernel

/-- Halt 7 in a deferral, READY for date 101, with a CTRL FORCE_DAY_SWITCH at the front. -/
def forcing (secs : Nat) : State :=
  taking { halt with
    htb := { halt.htb with secs := secs, deferral := true }
    tts := { halt.tts with
      nextState := .ready, nextDate := 101#16, next := [aCall 22#16 40000] } } 5#8 [4#8, 0#8]

/-- At 86400 the forced switch makes NEXT CURRENT; at 86399 it does nothing. -/
theorem test_meets_RolloverSwitchesOrDefers_force :
    let t := after (.frameClassify .up resetPins) (forcing 86400)
    OwnFrame (forcing 86400) ⟨5#8, 7#16, centre, 5#8, [4#8, 0#8]⟩ [] 5#8
      ∧ ClockStands (rolling 86339 1) ∧ (forcing 86400).params.hour = (forcing 86400).htb.hour
      ∧ t.tts.current.map (·.key) = [⟨22#16, 100#16⟩] ∧ t.tts.nextState = .empty
      ∧ t.htb.date = 101#16
      ∧ (after (.frameClassify .up resetPins) (forcing 86399)).htb = (forcing 86399).htb := by
  unfold OwnFrame ClockStands
  decide +kernel

theorem test_meets_UptimeAndMinuteTick :
    ({ halt with htb := { halt.htb with minuteDue := true } }).htb.minuteDue = true
      ∧ halt.htb.minuteDue = false ∧ BankOrdered halt.tts.current
      ∧ (∃ sc, halt.bdc.screen .one = some sc ∧ sc.rows.length = ScreenNo.departureRows .one + 1) := by
  refine ⟨by decide, by decide, ?_, ⟨_, rfl, by decide⟩⟩
  unfold BankOrdered
  decide +kernel

/-- A TIME of date and seconds at the front, at a held time of 300 s on date 100. -/
def timed (d n : Nat) (tail : List Byte) : State :=
  taking { halt with htb := { halt.htb with secs := 300 } } 2#8 (be 2 d ++ be 3 n ++ tail)

/-- Forms at their bounds, and steps of −301, −300, 300 and 301 s, with targets down to 0. -/
theorem test_meets_TimeIsJudged :
    (timed 100 300 []).up.buffers.map (·.payload.length) = [5]
      ∧ field (be 2 100 ++ be 3 86400 ++ [0#8]) 2 3 = 86400
      ∧ field (be 2 100 ++ be 3 86399 ++ [0#8]) 2 3 < 86400
      ∧ (timed 100 300 [0#8]).up.buffers.map (·.destination) = [7#16]
      ∧ halt.own.haltCode = 7#16 ∧ State.reset.htb.sync = .unset
      ∧ (let step := fun d n => (timed 100 300 [0#8]).htb.target d n - (timed 100 300 [0#8]).htb.held
        step 99#16 86399 = -301 ∧ step 100#16 0 = -300 ∧ step 100#16 600 = 300 ∧ step 100#16 601 = 301) := by
  decide +kernel

/-- Targets at the ends of each placement: −7200, −1, 86400, the deferral limit, 172800. -/
theorem test_meets_TimeIsJudged_placed :
    let at_ := fun (n : Nat) (stand : Nat) (d m : Nat) (force : Byte) =>
      let s := { rolling 86400 60 with htb := { halt.htb with secs := n, stand := stand } }
      let t := taken s 2#8 (be 2 d ++ be 3 m ++ [force])
      (t.htb.date, t.htb.secs, t.htb.stand, t.htb.deferral)
    at_ 0 6900 99 79200 0#8 = (100#16, 0, 7200, false)
      ∧ at_ 0 0 99 86399 0#8 = (100#16, 0, 1, false)
      ∧ at_ 0 6900 99 79199 1#8 = (99#16, 79199, 0, false)
      ∧ at_ 0 6901 99 79199 0#8 = (100#16, 0, 7200, false)
      ∧ at_ 86399 0 101 60 0#8 = (100#16, 86460, 0, true)
      ∧ at_ 86399 0 101 61 0#8 = (101#16, 61, 0, false)
      ∧ at_ 86399 0 102 0 1#8 = (102#16, 0, 0, false) := by
  decide +kernel

/-- A RUN CANCEL for train 21, and calls in each state. -/
theorem test_meets_RunCancel :
    let bs := be 2 21 ++ be 2 100 ++ be 1 2 ++ be 2 0 ++ be 2 0 ++ be 3 0 ++ be 1 0
    RunNotice.ofPayload bs = some ⟨⟨21#16, 100#16⟩, .cancel⟩
      ∧ ∀ st ∈ [CallState.scheduled, .running, .expired, .cancelled, .departed],
        let c := { aCall 21#16 28020 with state := st }
        let s := taking { shop with tts := { shop.tts with current := [c] } } 9#8 bs
        s.powered = true ∧ s.fru.unaddressed = false ∧ (s.port .up).buffers.length = 1
          ∧ s.call ⟨21#16, 100#16⟩ = some c := by
  decide +kernel

/-- A RUN of an event for train 21. -/
def runOctets (event point platform : Nat) : List Byte :=
  be 2 21 ++ be 2 100 ++ be 1 event ++ be 2 point ++ be 2 60 ++ be 3 27000 ++ be 1 platform

/-- The other three events: forms, a report past the halt, a newer one, an older one. -/
theorem test_meets_RunCancel_others :
    let k : Key := ⟨21#16, 100#16⟩
    let held := fun (i : Int) (n : Nat) =>
      { aCall 21#16 28020 with state := .running, report := some ⟨11#16, i, 0, n, none⟩ }
    let run := fun (c : Call) bs =>
      let t := taken { shop with tts := { shop.tts with current := [c] } } 9#8 bs
      (t.tts.current.map fun c => (c.state, c.report.map (·.index)), t.tts.ctr.runStale)
    let past := { aCall 21#16 28020 with loaded := { (aCall 21#16 0).loaded with beyond := some 13#16 } }
    RunNotice.ofPayload (runOctets 1 12 0) = some ⟨k, .point 12#16 60 27000⟩
      ∧ RunNotice.ofPayload (runOctets 3 0 0) = some ⟨k, .reinstate⟩
      ∧ RunNotice.ofPayload (runOctets 4 0 2) = some ⟨k, .platform .two⟩
      ∧ run (held 0 27000) (runOctets 1 12 0) = ([(.running, some 1)], 0)
      ∧ run (held 1 26999) (runOctets 1 12 0) = ([(.running, some 1)], 0)
      ∧ run (held 1 27000) (runOctets 1 12 0) = ([(.running, some 1)], 1)
      ∧ run past (runOctets 1 13 0) = ([(.departed, none)], 0) := by
  decide +kernel

/-- A frozen LATE call within its cutoff is sent once as it is reinstated. -/
theorem test_reinstate_sends_once :
    let c := { aCall 21#16 28020 with
      state := .cancelled, stop := .late, stopCause := some .button, display := some .cancelled }
    let t := taken { shop with tts := { shop.tts with current := [c] } } 9#8 (runOctets 3 0 0)
    t.tts.current.map (fun c => (c.state, c.stop)) = [(.scheduled, .sent)] ∧ t.sru.serial = 1#8
      ∧ (t.up.queue.map fun x => x.frame.kind) = [13#8]
      ∧ t.tpi.ring = [.stopState ⟨21#16, 100#16⟩ .wanted] := by
  decide +kernel

theorem test_meets_LiveCall : BanksOrdered State.reset ∧ BanksOrdered halt := by
  unfold BanksOrdered BankOrdered
  decide +kernel

/-- Six points at index 5, no report, and a report at each end of its index. -/
theorem test_meets_ForecastDelay :
    (List.replicate 6 (⟨11#16, 1800⟩ : TimingPoint)).length ≤ 6 ∧ 5 ≤ 5
      ∧ (aCall 21#16 0).state = .scheduled ∧ (aCall 21#16 0).report = none
      ∧ (∀ k ∈ [(-1 : Int), 0, 5],
        ({ aCall 21#16 0 with report := some ⟨11#16, k, 21600, 0, none⟩ }).report
          = some ⟨11#16, k, 21600, 0, none⟩) := by
  decide

/-- Calls at the ends of the window (cutoff 3 min, window 45 min), and just outside them. -/
theorem test_meets_PlatformInputsAct_press :
    (∀ d ∈ [180, 2700], PressEligible shop .one (aCall 21#16 (27720 + d)))
      ∧ (∀ d ∈ [179, 2701], ¬ PressEligible shop .one (aCall 21#16 (27720 + d)))
      ∧ (shop.sru.io .one).button = .released ∧ BankOrdered shop.tts.current
      ∧ shop.tts.current = [] ++ aCall 21#16 28020 :: [] ∧ (aCall 21#16 28020).stop = .none
      ∧ shop.up.lsu.state = .service ∧ halt.up.lsu.state ≠ .service
      ∧ shop.fru.unaddressed = false ∧ Room shop.up .urgent
      ∧ (shop.modIo .one fun io => { io with button := .pressed }).sru.one.button = .pressed := by
  unfold PressEligible BankOrdered Room
  decide +kernel

/-- A STOPCONF of 4 octets and of 5, and a call of each kind it meets. -/
theorem test_meets_ResendBuildsStopreq_conf :
    let conf := fun (st : StopState) (bs : List Byte) =>
      let c := { aCall 21#16 28020 with stop := st, resend := .running 30000 }
      let t := taken { shop with tts := { shop.tts with current := [c] } } 8#8 bs
      (t.tts.current.map fun c => (c.stop, c.resend), t.sru.ctr.confUnexpected, t.sru.ctr.confForm)
    let bs := be 2 21 ++ be 2 100
    OwnFrame (taking shop 8#8 bs) ⟨8#8, 7#16, centre, 5#8, bs⟩ [] 8#8
      ∧ (∀ st ∈ [StopState.wanted, .sent, .late], conf st bs = ([(.confirmed, .stopped)], 0, 0))
      ∧ conf .confirmed bs = ([(.confirmed, .running 30000)], 0, 0)
      ∧ conf .none bs = ([(.none, .running 30000)], 1, 0)
      ∧ conf .sent (bs ++ [0#8]) = ([(.sent, .running 30000)], 0, 1) := by
  unfold OwnFrame
  decide +kernel

/-- Of two calls at one E the first in bank order is chosen, by a press and by a pulse. -/
theorem test_platform_ties :
    let s := { shop with tts := { shop.tts with current := [aCall 21#16 27960, aCall 22#16 27960] } }
    (after (.buttonPress .one) s).tts.current.map (·.stop) = [.sent, .none]
      ∧ (after (.contactPulse .one) s).tts.current.map (·.state) = [.departed, .scheduled] := by
  decide +kernel

theorem test_meets_PlatformTimers :
    let s := (shop.modIo .one fun io => { io with lockout := .running 1 }).modIo .one fun io =>
      { io with noTarget := .running 1 }
    s.powered = true ∧ (s.sru.io .one).lockout.isRunning = true
      ∧ (s.sru.io .one).noTarget.isRunning = true := by
  decide +kernel

theorem test_meets_ResendBuildsStopreq :
    let c := { aCall 21#16 28020 with stop := .sent, resend := .running 30000 }
    let s := { shop with tts := { shop.tts with current := [c] } }
    s.call ⟨21#16, 100#16⟩ = some c ∧ c.stop = .sent ∧ c.resend.isRunning = true
      ∧ s.fru.unaddressed = false ∧ shop.call ⟨21#16, 100#16⟩ = some (aCall 21#16 28020)
      ∧ (aCall 21#16 28020).stop ≠ .sent ∧ Room s.up .urgent := by
  refine ⟨?_, ?_, ?_, ?_, ?_, ?_, ?_, ?_, .inl rfl⟩
  all_goals decide +kernel

/-- Calls at the ends of the matching span, and just outside them. -/
theorem test_meets_PlatformInputsAct_pulse :
    (∀ n ∈ [28020, 25920], PulseEligible shop .one (aCall 21#16 n))
      ∧ (∀ n ∈ [28021, 25919], ¬ PulseEligible shop .one (aCall 21#16 n))
      ∧ (shop.sru.io .one).lockout.isRunning = false ∧ BankOrdered shop.tts.current
      ∧ (shop.modIo .one fun io => { io with lockout := .running 1 }).sru.one.lockout.isRunning = true
      ∧ shop.tts.current = [] ++ aCall 21#16 28020 :: []
      ∧ shop.params.ownPoint = 0#16 ∧ ({ shop.params with ownPoint := 5#16 }).ownPoint ≠ 0#16
      ∧ shop.fru.unaddressed = false ∧ Room shop.up .urgent ∧ Room shop.down .urgent := by
  unfold PulseEligible BankOrdered Room
  decide +kernel

/-! ### Loads, controls and queries: payloads written out from 11.7 -/

/-- A LOAD CALL_ADD of train 22 for the date 100: one destination, one timing point. -/
def addOctets (bank date sched : Nat) : List Byte :=
  be 1 1 ++ be 1 bank ++ be 2 22 ++ be 2 date ++ be 1 1 ++ be 1 1 ++ be 1 2 ++ be 3 sched ++ be 1 1
    ++ be 1 1 ++ be 2 13 ++ be 2 9 ++ be 2 11 ++ be 2 60

/-- Each test of a CALL_ADD in turn, then a new record and a replacement at another S. -/
theorem test_meets_LoadsAct_callAdd :
    let l : Loaded := ⟨22#16, 100#16, .up, .one, .request, 29000, [9#16], [⟨11#16, 60⟩], some 13#16⟩
    let held := { aCall 22#16 28500 with stop := .confirmed, state := .running }
    let s := { shop with tts := { shop.tts with nextState := .loading, nextDate := 100#16 } }
    let replacing := { s with tts := { s.tts with current := [aCall 21#16 28020, held] } }
    OwnFrame (taking s 3#8 (addOctets 1 100 29000))
        ⟨3#8, 7#16, centre, 5#8, addOctets 1 100 29000⟩ [] 3#8
      ∧ LoadKind.ofPayload (addOctets 1 100 29000) = some .callAdd
      ∧ callAddOfPayload (addOctets 1 100 29000) = some (.current, l)
      ∧ callAddOfPayload (addOctets 1 100 91800) = none
      ∧ (taken shop 3#8 (addOctets 2 100 29000)).tts.ctr.state = 1
      ∧ (taken s 3#8 (addOctets 2 101 29000)).tts.ctr.date = 1
      ∧ (taken s 3#8 (addOctets 2 100 29000)).tts.next = [{ loaded := l }]
      ∧ (taken replacing 3#8 (addOctets 1 100 29000)).tts.current.map
          (fun c => (c.loaded.sched, c.state, c.stop))
        = [(28020, .scheduled, .none), (29000, .scheduled, .none)] := by
  unfold OwnFrame
  decide +kernel

/-- A replacement at the same S that puts a kept request past its new cutoff posts one notice. -/
theorem test_replacement_posts_once :
    let point : List TimingPoint := [⟨11#16, 60⟩]
    let c := { aCall 22#16 27720 with
      state := .running, stop := .sent, stopCause := some .button, resend := .running 30000
      report := some ⟨11#16, 0, 300, 27000, some 1000⟩, forecast := 300, confidence := some .firm }
    let s := { shop with tts := { shop.tts with
      current := [{ c with loaded := { c.loaded with points := point.map fun p => { p with allowance := 0 } } }] } }
    let t := taken s 3#8 (addOctets 1 100 27720)
    t.tts.current.map (·.forecast) = [270] ∧ t.tts.current.map (·.stop) = [.sent]
      ∧ t.tpi.ring = []
      ∧ (let late := { s with htb := { s.htb with secs := 27839 } }
        let t := taken late 3#8 (addOctets 1 100 27720)
        t.tts.current.map (·.stop) = [.late] ∧ t.tpi.ring = [.stopState ⟨22#16, 100#16⟩ .late]) := by
  decide +kernel

/-- CALL_DELETE, BANK_OPEN and BANK_CLOSE, each bank. -/
theorem test_meets_LoadsAct_banks :
    let del := be 1 2 ++ be 1 1 ++ be 2 21 ++ be 2 100
    let open_ := be 1 3 ++ be 1 2 ++ be 2 101
    let close := fun n => be 1 4 ++ be 1 2 ++ be 1 n
    let s := { shop with tts := { shop.tts with
      nextState := .loading, nextDate := 101#16, next := [aCall 22#16 100] } }
    LoadKind.ofPayload del = some .callDelete ∧ LoadKind.ofPayload open_ = some .bankOpen
      ∧ LoadKind.ofPayload (close 1) = some .bankClose
      ∧ (taken shop 3#8 del).tts.current = [] ∧ (taken halt 3#8 (del.set 5 0#8)).tts.ctr.noKey = 1
      ∧ (taken s 3#8 open_).tts.next = [] ∧ (taken s 3#8 (open_.set 1 1#8)).tts.ctr.state = 1
      ∧ (taken s 3#8 (close 1)).tts.nextState = .ready
      ∧ (taken s 3#8 (close 2)).tts.nextState = .loading
      ∧ (taken s 3#8 (close 1)).up.queue = [ownQueued s .own 12#8 centre
          (.reply ⟨0#8, .bankClose, .ready, .bankClose 1 .ready 101#16⟩)] := by
  decide +kernel

/-- Fare rows, and their activation at once, at an instant reached and at one not. -/
theorem test_meets_LoadsAct_fares :
    let row := be 1 5 ++ be 1 3 ++ be 2 31 ++ be 1 14 ++ be 1 1 ++ be 1 2 ++ [65#8, 66#8]
    let act := fun (now secs : Nat) => be 1 6 ++ be 1 now ++ be 2 100 ++ be 3 secs
    let s := { quoted with fqu := { quoted.fqu with pendingTable := some {} } }
    LoadKind.ofPayload row = some .fare ∧ LoadKind.ofPayload (act 1 0) = some .fareActivate
      ∧ FareRow.ofPayload row = some (.dest ⟨31#16, 14, [65#8, 66#8], true⟩)
      ∧ (taken shop 3#8 row).fqu.pendingTable
          = some { destinations := [⟨31#16, 14, [65#8, 66#8], true⟩] }
      ∧ fareActivateOfPayload (act 1 86399) = some none
      ∧ (taken shop 3#8 (act 1 0)).fqu.ctr.noPend = 1
      ∧ (taken s 3#8 (act 1 0)).fqu.active = some {} ∧ (taken s 3#8 (act 1 0)).fqu.slots[0] = .free
      ∧ (taken s 3#8 (act 0 27720)).fqu.activations = 1#16
      ∧ (taken s 3#8 (act 0 27721)).fqu.schedule = some ⟨100#16, 27721⟩ := by
  decide +kernel

/-- Messages stored in the lowest free slot and over their own id, and removed. -/
theorem test_meets_LoadsAct_messages :
    let load := fun (n prio : Nat) => be 1 7 ++ be 1 n ++ be 1 prio ++ be 1 7 ++ be 1 0 ++ be 2 0
      ++ be 2 1439 ++ be 2 0 ++ be 1 1 ++ be 2 31 ++ be 1 1 ++ [65#8]
    let m := fun n prio => (⟨n, prio, 7#3, none, none, [65#8], [31#16]⟩ : Message)
    let t := taken shop 3#8 (load 5 1)
    LoadKind.ofPayload (load 5 1) = some .message ∧ messageOfPayload (load 5 1) = some (m 5#8 1)
      ∧ messageOfPayload (load 5 4) = none
      ∧ t.bdc.messages[0] = some (m 5#8 1) ∧ t.bdc.held = [31#16]
      ∧ (taken t 3#8 (load 5 2)).bdc.valid = [m 5#8 2]
      ∧ (taken t 3#8 (load 6 0)).bdc.messages[1] = some (m 6#8 0)
      ∧ LoadKind.ofPayload [8#8, 5#8] = some .messageDelete
      ∧ (taken t 3#8 [8#8, 5#8]).bdc.messages[0] = none
      ∧ (taken t 3#8 [8#8, 6#8]).bdc.ctr.noId = 1 := by
  decide +kernel

/-- Values at and past the ends of a range, A2 raised with A1, a port's value, and a bad number. -/
theorem test_meets_LoadsAct_config :
    let load := fun (n p v : Nat) => be 1 9 ++ be 1 n ++ be 1 p ++ be 4 v
    ConfigLoad.ofPayload (load 2 0 1800) = some ⟨2, none, 1800⟩
      ∧ LoadKind.ofPayload (load 2 0 1800) = some .config
      ∧ (taken halt 3#8 (load 2 0 1801)).params.ageTwo = 1800
      ∧ (taken halt 3#8 (load 19 0 7)).params.dimDivisor = 4
      ∧ (taken halt 3#8 (load 25 2 3)).params.down.limit = 4
      ∧ (taken halt 3#8 (load 25 3 3)).mgu.configForm = 1
      ∧ (taken halt 3#8 (load 29 1 3)).mgu.configForm = 1
      ∧ WindowLoad.ofPayload (be 1 10 ++ be 1 0 ++ be 2 64 ++ be 2 0) = some ⟨0, 64, 0⟩
      ∧ (taken grouped 3#8 (be 1 10 ++ be 1 0 ++ be 2 64 ++ be 2 0)).fru.windows[0] = none := by
  decide +kernel

/-- Values that act on what depends on them: a quote's age at its limit and a second below; a deferral at
its limit; the screens; the brightness; the dark test; a limit at the bucket; a port's enable. -/
theorem test_meets_LoadsAct_config_effects :
    let load := fun (n p v : Nat) => be 1 9 ++ be 1 n ++ be 1 p ++ be 4 v
    let aged := fun u => { quoted with htb := { quoted.htb with uptime := u } }
    let late := { shop with tts := { shop.tts with
      current := [{ aCall 21#16 27900 with stop := .wanted, stopCause := some .button }] } }
    let spent := bothLsu (fun l => { l with bucket := 8 }) shop
    let running := { aCall 21#16 28020 with
      state := .running, report := some ⟨12#16, 1, 540, 27000, some 700⟩, forecast := 435 }
    let ran := { shop with tts := { shop.tts with current := [running] } }
    ((taken (aged 1030) 3#8 (load 16 0 30)).fqu.slots[0] = .free
        ∧ (taken (aged 1029) 3#8 (load 16 0 30)).fqu.slots[0] = .opened aQuote)
      ∧ ((taken late 3#8 (load 6 0 4)).tts.current.map (·.stop) = [.late]
        ∧ (taken late 3#8 (load 6 0 3)).tts.current.map (·.stop) ≠ [.late])
      ∧ ((taken ran 3#8 (load 1 0 0)).tts.current.map (·.forecast) = [540]
        ∧ (taken ran 3#8 (load 1 0 100)).tts.current.map (·.forecast) = [330]
        ∧ (taken ran 3#8 (load 2 0 299)).tts.current.map (·.confidence) = [some .aged]
        ∧ (taken ran 3#8 (load 2 0 300)).tts.current.map (·.confidence) = [some .firm])
      ∧ (taken (deferring 86460) 3#8 (load 8 0 1)).htb.secs = 60
      ∧ (taken (deferring 86459) 3#8 (load 8 0 1)).htb.secs = 86459
      ∧ ((taken lit 3#8 (load 18 0 4)).bdc.brightness = 4
        ∧ (taken lit 3#8 (load 22 0 6)).bdc.one = none
        ∧ ((taken lit 3#8 (load 22 0 7)).bdc.three.map fun x => x.rows.length) = some 9)
      ∧ ((taken spent 3#8 (load 25 1 9)).up.lsu.state = .service
        ∧ (taken spent 3#8 (load 25 1 8)).up.lsu.state = .outage
        ∧ (taken spent 3#8 (load 23 2 0)).down.lsu.state = .off
        ∧ (taken (inState .off shop) 3#8 (load 23 2 1)).down.lsu.state = .hunt
        ∧ (taken (proving 3 0 true) 3#8 (load 27 1 3)).up.lsu.phase = .pause
        ∧ (taken spent 3#8 (load 24 2 2)).down.lsu.interval = .running 100) := by
  decide +kernel

/-- The dark test at the lead and a second outside it, from LIT and from DARK. -/
theorem test_meets_LoadsAct_config_dark :
    let load := fun (v : Nat) => be 1 9 ++ be 1 7 ++ be 1 0 ++ be 4 v
    let s := { lit with
      tts := { lit.tts with current := [aCall 21#16 28321] }
      bdc := { lit.bdc with activity := .expired } }
    let dark := { s with bdc := { s.bdc with energy := .dark, supply := false } }
    s.bdc.warmUp.isRunning = false ∧ (taken s 3#8 (load 10)).bdc.energy = .dark
      ∧ (taken s 3#8 (load 11)).bdc.energy = .lit
      ∧ (taken dark 3#8 (load 10)).bdc.energy = .dark
      ∧ (let t := taken dark 3#8 (load 11)
        (t.bdc.supply, t.bdc.wakeCause, t.bdc.warmUp) = (true, .dueTrain, .running 2000)) := by
  decide +kernel

/-- Each CTRL command, and one of bad form. -/
theorem test_meets_ControlsAndQueriesAct_ctrl :
    OwnFrame (taking quoted 5#8 [5#8, 0#8]) ⟨5#8, 7#16, centre, 5#8, [5#8, 0#8]⟩ [] 5#8
      ∧ (let t := taken quoted 5#8 [5#8, 0#8]
        t.salesClosed = true ∧ t.sju.salesMode = .closed ∧ t.fqu.slots[0] = .free
          ∧ (taken t 5#8 [6#8, 0#8]).sju.salesMode = .opened
          ∧ (taken t 5#8 [5#8, 0#8]).tpi.ring = t.tpi.ring)
      ∧ (taken State.reset 5#8 [3#8, 0#8]).sju.journalLost = true
      ∧ (taken { shop with sju := { shop.sju with journalLost := true } } 5#8 [3#8, 0#8]).sju.journalLost
          = false
      ∧ (let t := taken quoted 5#8 [2#8, 0#8]
        t.tts.current = [] ∧ t.fqu.active = none ∧ t.sju.salesMode = .closed)
      ∧ (taken shop 5#8 [7#8, 2#8]).down.lsu.state = .hunt
      ∧ (taken (inState .off shop) 5#8 [7#8, 2#8]).down.lsu.state = .off
      ∧ (taken shop 5#8 [7#8, 3#8]).mgu.ctrlForm = 1 := by
  unfold OwnFrame
  decide +kernel

/-- The REPLYs to a QUERY of each subkind, and to fields outside their range; counters cleared. -/
theorem test_meets_ControlsAndQueriesAct_query :
    let replies := fun bs => (taken grouped 4#8 bs).up.queue.map fun x => x.frame.payload
    let bad := fun k => [Payload.reply ⟨9#8, k, .badMessage, .empty⟩]
    let call := aCall 21#16 28020
    replies ([9#8, 3#8] ++ be 1 1 ++ be 2 21 ++ be 2 100)
        = [.reply ⟨9#8, .call, .found, .call call 28020⟩]
      ∧ replies ([9#8, 3#8] ++ be 1 2 ++ be 2 21 ++ be 2 100)
        = [.reply ⟨9#8, .call, .notFound, .empty⟩]
      ∧ replies ([9#8, 3#8] ++ be 1 1 ++ be 2 0 ++ be 2 100) = bad .call
      ∧ replies ([9#8, 3#8] ++ be 1 3 ++ be 2 21 ++ be 2 100) = bad .call
      ∧ replies [9#8, 2#8, 6#8, 0#8] = bad .counters
      ∧ replies [9#8, 2#8, 5#8, 2#8] = bad .counters
      ∧ replies [9#8, 6#8, 25#8, 1#8] = [.reply ⟨9#8, .config, .ok, .value 32⟩]
      ∧ replies [9#8, 6#8, 40#8, 0#8] = [.reply ⟨9#8, .config, .ok, .window (some ⟨64, 32⟩)⟩]
      ∧ replies [9#8, 6#8, 25#8, 3#8] = bad .config
      ∧ (replies [9#8, 4#8]).length = 1 ∧ (replies [9#8, 1#8]).length = 1
      ∧ (let t := taken grouped 4#8 [9#8]
        t.mgu.queryForm = 1 ∧ t.up.queue = []
          ∧ (taken t 4#8 [9#8, 2#8, 5#8, 1#8]).mgu.queryForm = 0) := by
  decide +kernel

/-- A REPLY without a body ends with its result. -/
theorem test_bad_message_reply_octets :
    Reply.octets ⟨9#8, .counters, .badMessage, .empty⟩ = [9#8, 2#8, 2#8] := by decide +kernel

/-- Digits without leading zeros; a name spelled as the code's digits leaves a row unchanged; a slot in
authorisation that carries the mark has the code of its state. -/
theorem test_digits_and_slot_codes :
    decimalDigits 0 = [48#8] ∧ decimalDigits 214 = [50#8, 49#8, 52#8]
      ∧ decimalDigits 1000 = [49#8, 48#8, 48#8, 48#8]
      ∧ decimalDigits 65535 = [54#8, 53#8, 53#8, 51#8, 53#8]
      ∧ shop.destinationName 9#16 = [65#8] ∧ halt.destinationName 9#16 = decimalDigits 9
      ∧ (Slot.pendingAuth aQuote true).shown.code = 3 ∧ (Slot.opened aQuote).shown.code = 2
      ∧ Slot.free.shown.code = 1 := by
  decide +kernel

theorem test_meets_LinkTakesTheNextItem :
    lit.bdc.energy ≠ .dark ∧ lit.bdc.warmUp.isRunning = false ∧ halt.bdc.warmUp.isRunning = true
      ∧ ({ lit with bdc := { lit.bdc with energy := .dark } }).bdc.energy = .dark
      ∧ lit.bdc.one = some (.fresh .one)
      ∧ ({ Screen.fresh .one with brightnessPending := true }).brightnessPending = true
      ∧ (after .screenMessageSent lit).bdc.link = none := by
  decide +kernel

/-- With no mark on screen 1, screen 2's third row goes before screen 3's brightness. -/
theorem test_meets_LinkTakesTheNextItem_order :
    let blank : RowCell := {}
    let rows := fun (p : Bool) => [blank, blank] ++ ⟨.noTime, p⟩ :: [blank, blank, blank]
    let s := { lit with bdc := { lit.bdc with
      two := some ⟨rows true, false⟩
      three := some { Screen.fresh .three with brightnessPending := true } } }
    let t := after .screenMessageSent s
    t.bdc.link = some (.row .two 3 .noTime) ∧ t.bdc.two = some ⟨rows false, false⟩
      ∧ (after .screenMessageSent t).bdc.link = some (.brightness .three 6) := by
  decide +kernel

/-- Inside and outside the night window, and while UNSET. -/
theorem test_meets_LowEnergyDims :
    lit.powered = true ∧ lit.params.night.contains (clockMinute lit.htb.hour lit.htb.secs) = false
      ∧ lit.params.night.contains (clockMinute 3 73800) = true
      ∧ lit.params.night.contains (clockMinute 3 73799) = false ∧ lit.bdc.energy ≠ .dark := by
  decide +kernel

theorem test_meets_ActivityEndsInDark :
    let s := { lit with tts := { lit.tts with current := [aCall 21#16 28921] } }
    s.bdc.activity.isRunning = true ∧ s.bdc.warmUp.isRunning = false ∧ s.bdc.energy ≠ .dark
      ∧ (∀ n ∈ [ScreenNo.one, .two, .three], ∀ c ∈ s.shownCalls n, c.isRunning = true →
        s.htb.secs + 60 * s.params.darkLead < c.expected)
      ∧ (∀ m ∈ s.bdc.valid, m.priority < 2) ∧ s.tpi.ring = [] ∧ s.htb.sync ≠ .unset := by
  decide +kernel

theorem test_meets_WarmUpRefreshes :
    let s := State.reset
    s.powered = true ∧ s.bdc.warmUp.isRunning = true ∧ s.htb.sync = .unset ∧ s.bdc.energy ≠ .dark
      ∧ s.bdc.link = none ∧ s.bdc.one = some (.fresh .one) := by
  decide

/-- The warm-ups of a wake and of a start with the time set, and one that ends DARK. -/
theorem test_meets_WarmUpRefreshes_set :
    let woken := { halt with bdc := { halt.bdc with energy := .dim, brightness := 3, wakeCause := .button } }
    let idle := { halt with
      tts := { halt.tts with current := [] }, bdc := { halt.bdc with activity := .expired, one := none } }
    let t := after .warmUpExpiry woken
    ¬ DarkConditions woken ∧ DarkConditions idle ∧ idle.bdc.warmUp.isRunning = true
      ∧ (t.bdc.energy, t.bdc.brightness, t.bdc.link) = (.dim, 3, some (.brightness .one 3))
      ∧ (after .warmUpExpiry halt).bdc.energy = .lit
      ∧ (after .warmUpExpiry { halt with bdc := { halt.bdc with one := none } }).bdc.link
          = some (.brightness .two 6)
      ∧ (after .warmUpExpiry idle).bdc.energy = .dark := by
  refine ⟨fun h => ?_, ⟨fun n => ?_, ?_, ?_, ?_, ?_⟩, ?_, ?_, ?_, ?_, ?_⟩
  · exact absurd h.2.2.1 (by decide)
  · cases n <;> decide +kernel
  all_goals decide +kernel

/-- The request of the worked price. -/
def aRequest : QuoteRequest := ⟨9#16, 1#8, 2#8, 0#8, 0#16, 0#16, 2#8⟩

theorem test_meets_RoundedPrice :
    (0 < 10 ∧ 65535 ≤ 65535) ∧ shop.judgeQuote aRequest = .ok (0, aQuote, none)
      ∧ shop.sellableTo 9#16 = .ok (fares, ⟨9#16, 14, [65#8], true⟩)
      ∧ fares.terms (BitVec.ofNat 8 1) 2 9 = some (⟨1#8, 180, .any⟩, some 1) := by
  decide +kernel

theorem test_meets_QuoteOpensASlot :
    Listening shop ∧ shop.sju.salesMode ≠ .closed ∧ State.reset.sju.salesMode = .closed
      ∧ Listening State.reset ∧ shop.fqu.active = some fares
      ∧ fares.destination 9#16 = some ⟨9#16, 14, [65#8], true⟩ ∧ 9#16 ∉ shop.bdc.held
      ∧ fares.typeOf 1#8 = some ⟨1#8, 180, .any⟩ ∧ fares.classNamed 2 = some (some 1)
      ∧ aRequest.callPresent = 0#8 ∧ shop.fqu.slots[0] = .free := by
  unfold Listening
  decide +kernel

/-- A request for the call 21 of the worked price, one ticket of a type and class. -/
def callRequest (type cls : Byte) : QuoteRequest := ⟨9#16, type, cls, 1#8, 21#16, 100#16, 1#8⟩

/-- Each refusal of R147 in its order, at the ends of its ranges, and a quote for a call. -/
theorem test_meets_QuoteOpensASlot_tests :
    let tried := fun (s : State) (r : QuoteRequest) =>
      (after (.quote r) s).tpi.replies.map (·.result)
    let with_ := fun (f : FareTable → FareTable) => { shop with fqu := { active := some (f fares) } }
    let running := fun (f : Call → Call) => { shop with tts := { shop.tts with
      current := [f (aCall 21#16 28020)] } }
    let r := aRequest
    let peak := with_ fun t => { t with types := [⟨1#8, 180, .offPeakOnly⟩] }
    let full := { shop with fqu := { shop.fqu with slots := Vector.replicate 4 (.opened aQuote) } }
    tried shop { r with destination := 8#16 } = [.noDest]
      ∧ tried { shop with fqu := { active := none } } r = [.noDest]
      ∧ tried (with_ fun t => { t with destinations := [⟨9#16, 14, [65#8], false⟩] }) r
          = [.notSellable]
      ∧ tried { shop with bdc := { shop.bdc with held := [9#16] } } r = [.held]
      ∧ tried shop { r with type := 2#8 } = [.badMessage]
      ∧ [3#8, 5#8].map (fun c => tried shop { r with cls := c }) = [[.badMessage], [.badMessage]]
      ∧ [0#8, 1#8, 9#8, 10#8].map (fun n => tried shop { r with quantity := n })
          = [[.badMessage], [.ok], [.ok], [.badMessage]]
      ∧ tried (with_ fun t => { t with types := [⟨1#8, 180, .specifiedCall⟩] }) r = [.noCall]
      ∧ tried { peak with htb := { shop.htb with secs := 0 } } r = [.typeNotValidNow]
      ∧ tried peak r = [.ok] ∧ tried full r = [.busy]
      ∧ tried shop { callRequest 1#8 2#8 with train := 22#16 } = [.noCall]
      ∧ tried (running fun c => { c with loaded := { c.loaded with stopMode := .pass } })
          (callRequest 1#8 2#8) = [.noCall]
      ∧ [27899, 27900].map (fun n =>
          tried (running fun c => { c with loaded := { c.loaded with sched := n } })
            (callRequest 1#8 2#8)) = [[.callGone], [.ok]]
      ∧ tried (running fun c => { c with state := .departed }) (callRequest 1#8 2#8) = [.callGone]
      ∧ tried (running fun c => { c with loaded := { c.loaded with destinations := [8#16] } })
          (callRequest 1#8 2#8) = [.noCall]
      ∧ tried full (callRequest 1#8 2#8) = [.busy]
      ∧ (after (.quote (callRequest 1#8 2#8)) shop).tpi.replies
          = [⟨129#8, .ok, .quote 0 570 570 0#16 true⟩] := by
  decide +kernel

theorem test_meets_QuoteSlotEnds :
    Listening quoted ∧ quoted.fqu.slots[0] = .opened aQuote
      ∧ authorising.fqu.slots[0] = .pendingAuth aQuote false ∧ shop.fqu.slots[0] = .free
      ∧ 3 < (4#8 : Byte).toNat
      ∧ (∀ u ∈ [(1120, true), (1119, false)],
        decide (aQuote.created + quoted.params.quoteExpiry ≤ u.1) = u.2) := by
  unfold Listening
  decide +kernel

/-- NOW and the last start time; an active and an empty bank; a token of another generation. -/
theorem test_meets_FindAnswers :
    Listening shop ∧ (91799#24).toNat ≤ 91799 ∧ (91799#24 : BitVec 24) ≠ 0xFFFFFF#24
      ∧ 91799 < (91800#24).toNat
      ∧ shop.tts.currentState = .active ∧ State.reset.tts.currentState = .empty
      ∧ (1#16 : BitVec 16) ≠ shop.tts.generation ∧ 4 < (5#8 : Byte).toNat
      ∧ ((after (.find ⟨9#16, 0#24, 0#8, 0#16, 0#8, 4#8⟩) shop).tpi.replies.map (·.result)) = [.ended] := by
  unfold Listening
  decide +kernel

/-- A bank of 34 calls for destination 9, of which the first 33 have departed. -/
def longBank : State :=
  { shop with tts := { shop.tts with current := (List.range 34).map fun i =>
      { aCall (BitVec.ofNat 16 (i + 1)) (28020 + i) with
        state := if i < 33 then .departed else .scheduled } } }

/-- What a FIND for destination 9 from the first call answers over that bank: the result, how many calls
it gives and the position of its token. -/
def asked (tokenPresent position count : Byte) : List (Result × Nat × Option Nat) :=
  (after (.find ⟨9#16, 0#24, tokenPresent, 0#16, position, count⟩) longBank).tpi.replies.map fun r =>
    match r.body with
    | .find results token => (r.result, results.length, token.map (·.position))
    | _ => (r.result, 0, none)

/-- The scan stops at the 32nd record, goes on from its token, and ends; FOUND gives its own token. -/
theorem test_meets_FindAnswers_scan :
    longBank.tts.currentState = .active
      ∧ asked 0#8 0#8 1#8 = [(.partialScan, 0, some 32)]
      ∧ asked 1#8 32#8 2#8 = [(.ended, 1, none)]
      ∧ asked 1#8 32#8 1#8 = [(.found, 1, some 34)]
      ∧ asked 1#8 2#8 1#8 = [(.found, 1, some 34)]
      ∧ asked 1#8 1#8 1#8 = [(.partialScan, 0, some 33)]
      ∧ asked 1#8 34#8 1#8 = [(.ended, 0, none)] := by
  decide +kernel

/-- A sale with its total just tendered and its nine places just free; an authorisation pending. -/
theorem test_meets_CashSaleCompletes :
    let s := { quoted with sju := journalOf 503 }
    Listening s ∧ s.sju.pendingAuth = none ∧ s.fqu.slots[0] = .opened aQuote ∧ s.sju.salesMode ≠ .closed
      ∧ aQuote.total ≤ (1140#24 : BitVec 24).toNat ∧ s.htb.sync ≠ .unset ∧ s.sju.occupancy ≤ 503
      ∧ authorising.sju.pendingAuth ≠ none := by
  unfold Listening
  decide +kernel

/-- Each refusal of R158 in its order, and a CARD_OFFLINE sale at both limits and past each. -/
theorem test_meets_CashSaleCompletes_tests :
    let tried := fun (s : State) (slot payment : Byte) (tendered : BitVec 24) =>
      (after (.issue ⟨slot, payment, tendered, List.replicate 16 0#8⟩) s).tpi.replies.map (·.result)
    let mode := fun m => { quoted with sju := { quoted.sju with salesMode := m } }
    let limits := fun n a => { quoted with params := { quoted.params with
      offlineCount := n, offlineAmount := a } }
    tried quoted 4#8 1#8 1140#24 = [.quoteUnknown] ∧ tried quoted 3#8 1#8 1140#24 = [.quoteUnknown]
      ∧ tried (mode .closed) 0#8 1#8 1140#24 = [.salesClosed]
      ∧ tried quoted 0#8 1#8 1139#24 = [.badMessage]
      ∧ [0#8, 4#8].map (fun k => tried quoted 0#8 k 1140#24) = [[.badMessage], [.badMessage]]
      ∧ tried (mode .offline) 0#8 2#8 1140#24 = [.linkDown]
      ∧ tried (mode .offline) 0#8 1#8 1140#24 = [.ok]
      ∧ tried (limits 0 1140) 0#8 3#8 1140#24 = [.offlineLimit]
      ∧ tried (limits 1 1139) 0#8 3#8 1140#24 = [.offlineLimit]
      ∧ (let t := after (.issue ⟨0#8, 3#8, 1140#24, List.replicate 16 0#8⟩) (limits 1 1140)
        t.tpi.replies = [⟨131#8, .ok, .issue 1#32 none⟩] ∧ (t.sju.xc, t.sju.xa) = (1, 1140)
          ∧ t.sju.totals.cardOffline = ⟨1, 1140⟩) := by
  decide +kernel

theorem test_meets_CashSaleCompletes_ledger : LedgerTrue quoted := by
  unfold LedgerTrue
  decide +kernel

theorem test_meets_AuthorisationBeginsAndTimesOut :
    Listening quoted ∧ quoted.sju.pendingAuth = none ∧ quoted.sju.salesMode = .opened
      ∧ quoted.fqu.slots[0] = .opened aQuote ∧ authorising.powered = true
      ∧ authorising.sju.pendingAuth = some anAuth ∧ anAuth.timer.isRunning = true := by
  unfold Listening
  decide +kernel

/-- The AUTHREQ that an ISSUE offers: its tag, the total and the token. -/
theorem test_meets_AuthorisationBeginsAndTimesOut_frame :
    quoted.fru.unaddressed = false ∧ Room quoted.up .urgent
      ∧ (after (.issue ⟨0#8, 2#8, 1140#24, List.replicate 16 5#8⟩) quoted).up.queue.map
          (fun x => x.frame.payload)
        = [.octets ([0#8, 7#8, 0#8, 0#8, 0#8, 4#8, 116#8] ++ List.replicate 16 5#8)] := by
  unfold Room
  decide +kernel

/-- An AUTHRES for a tag of slot 0: approved or declined. -/
def answerOctets (serial result : Nat) : List Byte :=
  be 2 7 ++ be 1 0 ++ be 1 serial ++ be 1 result ++ [65#8, 66#8, 67#8, 68#8, 69#8, 70#8]

/-- Answers to the pending tag, to a withdrawn one, to one timed out, to an unknown one, and bad form. -/
theorem test_meets_AuthorisationBeginsAndTimesOut_answers :
    let withdrawn := { authorising with fqu := { authorising.fqu with
      slots := authorising.fqu.slots.set 0 (.pendingAuth aQuote true) } }
    let late := { shop with sju := { shop.sju with lateTags := [⟨⟨7#16, 0#8, 3#8⟩, 900⟩] } }
    let kinds := fun (t : State) => t.sju.journal.map fun r =>
      match r.body with | .sale x => x.total | .reversal _ _ _ total _ => total + 10000 | _ => 0
    OwnFrame (taking authorising 7#8 (answerOctets 0 1))
        ⟨7#8, 7#16, centre, 5#8, answerOctets 0 1⟩ [] 7#8
      ∧ (AuthResult.ofPayload (answerOctets 0 1)).map (·.tag) = some anAuth.tag
      ∧ (let t := taken authorising 7#8 (answerOctets 0 1)
        kinds t = [1140] ∧ t.tpi.ring = [.issueDone 0 .ok (some 1#32)] ∧ t.fqu.slots[0] = .free)
      ∧ (taken authorising 7#8 (answerOctets 0 2)).tpi.ring = [.issueDone 0 .declined none]
      ∧ kinds (taken withdrawn 7#8 (answerOctets 0 1)) = [11140]
      ∧ (taken withdrawn 7#8 (answerOctets 0 2)).tpi.ring = [.issueDone 0 .quoteWithdrawn none]
      ∧ kinds (taken late 7#8 (answerOctets 3 1)) = [10900]
      ∧ (taken late 7#8 (answerOctets 3 2)).sju.ctr.authLate = 1
      ∧ (taken late 7#8 (answerOctets 4 1)).sju.ctr.authUnknown = 1
      ∧ (taken late 7#8 (answerOctets 3 3)).sju.ctr.authForm = 1 := by
  unfold OwnFrame
  decide +kernel

theorem test_meets_IssuedTicketIsServed :
    Listening ticketed ∧ ticketed.sju.window = [] ++ ⟨1#32, aSale, .running 60000⟩ :: []
      ∧ aSale.ticket = 1#32 ∧ (∀ e ∈ ticketed.sju.window, e.sale.ticket ≠ 2#32)
      ∧ (journalOf 511).occupancy < 512 ∧ 512 ≤ (journalOf 512).occupancy := by
  unfold Listening
  decide +kernel

theorem test_meets_JackAcknowledges_timer :
    let s := { queued (List.replicate 7 (frameOf 11#8 .relay)) 0 .flags with
      sju := { journalOf 1 with ackTimer := .running 30000 } }
    s.powered = true ∧ s.sju.ackTimer.isRunning = true ∧ s.up.lsu.state = .service
      ∧ s.up.queue.length < 32 ∧ nonUrgent s.up.queue < 8 ∧ s.fru.unaddressed = false
      ∧ s.sju.ackSeq ≠ s.sju.writeSeq ∧ halt.up.lsu.state ≠ .service
      ∧ 8 ≤ nonUrgent (List.replicate 8 (frameOf 11#8 .relay))
      ∧ (after .ackTimerExpiry s).up.queue.getLast? = some (ownQueued s .own 11#8 centre
          (.journal 1#32 (s.sju.journal.take 1))) := by
  decide +kernel

/-- The halt with records 1 and 2 sent, and a JACK for a record. -/
def jacked (payload : List Byte) : State :=
  taking { halt with sju := { journalOf 3 with nextSeq := 3#32 } } 6#8 payload

/-- K at A, at N − 1, at N, at 2^31 − 1 past A and at 2^31 past A; a JACK of 3 octets. -/
theorem test_meets_JackAcknowledges :
    (∀ x ∈ [(1, 1, 0), (2, 2, 0), (3, 2, 1), (2147483648, 2, 1), (2147483649, 0, 0)],
      let t := after (.frameClassify .up resetPins) (jacked (be 4 x.1))
      (t.sju.ackSeq - 1#32).toNat = x.2.1 ∧ t.sju.ctr.ackAhead = x.2.2)
      ∧ (jacked []).powered = true ∧ (jacked []).fru.unaddressed = false
      ∧ (jacked []).own.haltCode ≠ 0#16
      ∧ (jacked (be 3 1)).up.buffers = ⟨6#8, 7#16, centre, 5#8, be 3 1⟩ :: [] := by
  decide +kernel

theorem test_journal_of_three_runs : JournalRuns (jacked []).sju := by
  unfold JournalRuns
  decide +kernel

/-- The shop with four replies waiting. -/
def crowded : State :=
  { shop with tpi := { shop.tpi with replies := List.replicate 4 ⟨129#8, .ok, .empty⟩ } }

/-- A failed check and a length above 120 while four replies wait (log entry 53). -/
theorem test_bad_message_crowded :
    (after (.badMessage 1#8 .checkFails) crowded).tpi.ctr = { crowded.tpi.ctr with overrun := 1 }
      ∧ (after (.badMessage 1#8 .lengthAbove120) crowded).tpi.ctr
        = { crowded.tpi.ctr with form := 1 } := by
  decide +kernel

theorem test_meets_NoticesAndStatusServed :
    Listening noticed ∧ (∀ n ∈ [1#8, 8#8], 1 ≤ n.toNat ∧ n.toNat ≤ (8 : Nat))
      ∧ 8 < (9#8 : Byte).toNat
      ∧ crowded.powered = true ∧ crowded.tpi.parser = .waiting ∧ 4 ≤ crowded.tpi.replies.length
      ∧ requestCode .status = some 9#8 := by
  unfold Listening
  decide +kernel

theorem test_meets_RequestParser :
    Listening shop ∧ (127#8 : Byte).toNat < 128
      ∧ ({ shop with tpi := { shop.tpi with parser := .ignoring } }).tpi.parser = .ignoring
      ∧ crowded.powered = true ∧ crowded.tpi.parser = .waiting ∧ 4 ≤ crowded.tpi.replies.length := by
  unfold Listening
  decide +kernel

/-- A step from a state that meets every invariant, with a command at the front. -/
theorem test_meets_invariants :
    let s := { State.reset with pending := [.uptimeSecond] }
    QueuesFit s ∧ BanksOrdered s ∧ JournalRuns s.sju ∧ ClockStands s ∧ SalesModeTrue s ∧ LedgerTrue s
      ∧ step s = exec .uptimeSecond State.reset := by
  unfold QueuesFit QueueFits BanksOrdered BankOrdered JournalRuns ClockStands SalesModeTrue LedgerTrue
  refine ⟨?_, ?_, ?_, ?_, ?_, ?_, rfl⟩
  all_goals decide +kernel

/-- The same state meets the invariants over all ports, calls and windows. -/
theorem test_meets_bounds : CountsBounded State.reset ∧ StoresFit State.reset ∧ WindowsApart State.reset := by
  refine ⟨⟨?_, ?_⟩, ⟨?_, ?_, ?_⟩, ?_⟩
  · intro p
    cases p <;> decide +kernel
  · intro c hc
    exact absurd hc List.not_mem_nil
  · intro p
    cases p <;> decide +kernel
  · decide +kernel
  · decide +kernel
  · intro i j _ a b h
    have e : ∀ i : Fin 4, State.reset.fru.windows[i] = none := by decide +kernel
    rw [e i] at h
    exact absurd h nofun

end Sys2Proof.Tests
end

