-- ==== Sys2Proof/Proofs/Addressing.lean ====
section
/-! The address rule of frames from the Up port (R38) and the group windows it reads (R39). -/

namespace Sys2Proof.Proofs

open Sys2Proof.Machine Sys2Proof.Laws

theorem covers_iff (w : GroupWindow) (c : HaltCode) :
    w.covers c = true ↔
      w.base ≤ c.toNat ∧ c.toNat < w.base + w.size ∧ 1 ≤ c.toNat ∧ c.toNat ≤ 4000 := by
  simp only [GroupWindow.covers, Bool.and_eq_true, decide_eq_true_eq, and_assoc]

theorem inWindow_iff (f : Fru) (c : HaltCode) :
    f.inWindow c = true ↔
      ∃ (i : Fin 4) (w : GroupWindow), f.windows[i] = some w ∧ w.covers c = true := by
  simp only [Fru.inWindow, List.any_eq_true, mem_allSlots, true_and, Option.any_eq_true]

/-- The seven kinds whose frames the address rule classifies when they come from the centre (R37). -/
theorem verdictOf_up_of_addressRuled (s : State) {k : Kind} (d : HaltCode)
    (h : k ∈ [Kind.time, .load, .query, .ctrl, .jack, .authres, .stopconf]) :
    s.verdictOf .up k d = s.addressRule d := by
  simp only [List.mem_cons, List.not_mem_nil, or_false] at h
  rcases h with rfl | rfl | rfl | rfl | rfl | rfl | rfl <;> rfl

theorem addressRule_of_addressed {s : State} (d : HaltCode) (h : s.fru.unaddressed = false) :
    s.addressRule d =
      if d = s.own.haltCode then ⟨true, false⟩
      else if d = allHalts then ⟨true, true⟩
      else if s.fru.inWindow d then ⟨true, true⟩
      else ⟨false, true⟩ := by
  simp only [State.addressRule, h, Bool.false_eq_true, if_false]

/-- Settles O21: the address rule is the chain of tests in R38's order, and its third test is the
statement's bounds on some enabled window. -/
theorem addressRule : Obligations.AddressRule := by
  intro s k d addressed ruled
  have window : s.fru.inWindow d = true ↔
      ∃ (i : Fin 4) (w : GroupWindow), s.fru.windows[i] = some w
        ∧ w.base ≤ d.toNat ∧ d.toNat ≤ w.base + w.size - 1 ∧ d.toNat < w.base + w.size
        ∧ 1 ≤ d.toNat ∧ d.toNat ≤ 4000 := by
    rw [inWindow_iff]
    refine exists₂_congr fun i w => and_congr_right fun _ => ?_
    rw [covers_iff]
    omega
  rw [verdictOf_up_of_addressRuled s d ruled, addressRule_of_addressed d addressed]
  simp only [window, allHalts]

end Sys2Proof.Proofs
end

