-- ==== Sys2Proof/Proofs/LiveCalls.lean ====
section
/-! The live calls of CURRENT (R88), which a deferred day switch waits for. -/

namespace Sys2Proof.Proofs

open Sys2Proof.Machine Sys2Proof.Safety

theorem call_isRunning_iff (c : Call) :
    c.isRunning = true ↔ c.state = .scheduled ∨ c.state = .running := by
  unfold Call.isRunning
  cases c.state <;> decide

theorem hasLiveCall_iff (s : State) :
    s.hasLiveCall = true ↔
      ∃ c ∈ s.tts.current, c.isRunning = true ∧ s.htb.secs ≤ c.expected + 60 := by
  simp only [State.hasLiveCall, List.any_eq_true, Bool.and_eq_true, decide_eq_true_eq]

theorem hasLiveCall_of_current_nil {s : State} (h : s.tts.current = []) :
    s.hasLiveCall = false := by
  simp only [State.hasLiveCall, h, List.any_nil]

theorem current_nil_of_empty {s : State} (h : BanksOrdered s)
    (empty : s.tts.currentState = .empty) : s.tts.current = [] := by
  obtain ⟨_, _, currentEmpty, _⟩ := h
  exact currentEmpty empty

/-- Settles O31: the model's test `s ≤ E + 60`, over the naturals, is R88's `E ≥ s − 60` over the
integers, and an EMPTY CURRENT of ordered banks holds no record to meet it. -/
theorem liveCall : Obligations.LiveCall := by
  intro s ordered
  refine ⟨?_, ?_⟩
  · rw [hasLiveCall_iff]
    refine exists_congr fun c => and_congr_right fun _ => ?_
    have late : s.htb.secs ≤ c.expected + 60 ↔ (s.htb.secs : Int) - 60 ≤ c.expected := by omega
    rw [call_isRunning_iff, late]
  · rintro (empty | recordless)
    · exact hasLiveCall_of_current_nil (current_nil_of_empty ordered empty)
    · exact hasLiveCall_of_current_nil recordless

end Sys2Proof.Proofs
end

section
/-! The remaining allowance (R94) and the forecast delay of a running call (R95). -/

namespace Sys2Proof.Proofs

open Sys2Proof.Machine

/-! ## The remaining allowance -/

theorem sum_drop_eq_sum_Ico_getD (l : List Nat) (k : Nat) :
    (l.drop k).sum = ∑ i ∈ Finset.Ico k l.length, l.getD i 0 := by
  have entry (i : Fin (l.drop k).length) : (l.drop k)[i.1] = l.getD (k + i) 0 := by
    have inRange : k + i.1 < l.length := by
      have : i.1 < l.length - k := i.2.trans_eq List.length_drop
      omega
    rw [List.getElem_drop, List.getD_eq_getElem l 0 inRange]
  calc (l.drop k).sum
      = ∑ i : Fin (l.drop k).length, (l.drop k)[i.1] := (Fin.sum_univ_getElem _).symm
    _ = ∑ i : Fin (l.drop k).length, l.getD (k + i) 0 := Finset.sum_congr rfl fun i _ => entry i
    _ = ∑ i ∈ Finset.range (l.drop k).length, l.getD (k + i) 0 :=
      (Finset.sum_range fun i => l.getD (k + i) 0).symm
    _ = ∑ i ∈ Finset.Ico k l.length, l.getD i 0 := by
      rw [List.length_drop, Finset.sum_Ico_eq_sum_range]

theorem remainingAllowance_of_neg (points : List TimingPoint) {k : Int} (h : k < 0) :
    remainingAllowance points k = 0 := if_pos h

theorem remainingAllowance_natCast (points : List TimingPoint) (k : Nat) :
    remainingAllowance points k
      = min 3600 (∑ i ∈ Finset.Ico k points.length, (points.map (·.allowance)).getD i 0) := by
  have dropped : (points.drop k).map (·.allowance) = (points.map (·.allowance)).drop k :=
    List.map_drop
  have listed : ¬ (k : Int) < 0 := by omega
  rw [remainingAllowance, if_neg listed, Int.toNat_natCast, dropped, sum_drop_eq_sum_Ico_getD,
    List.length_map]

/-! ## The forecast delay -/

/-- The naturals of the model against the integers of R95: d⁺ is `d.toNat`, and the subtraction
that stops at 0 is the lower end of the clamp of stage 4. -/
theorem delayAfter_cast (phi : Nat) (d : Int) (allowance : Nat) :
    (delayAfter phi d allowance : Int)
      = max 0 (min 21600 (max 0 d - min (max 0 d) (allowance : Int) * phi / 100)) := by
  have late : max 0 d = (d.toNat : Int) := by omega
  have recovered : min (d.toNat : Int) allowance * phi / 100
      = ((min d.toNat allowance * phi / 100 : Nat) : Int) := by push_cast; rfl
  rw [late, recovered, delayAfter]
  omega

theorem delayNow_of_no_report (phi : Nat) {c : Call} (h : c.report = none) :
    c.delayNow phi = 0 := by
  rw [Call.delayNow, h]

theorem delayNow_of_report (phi : Nat) {c : Call} {r : Report} (h : c.report = some r) :
    c.delayNow phi = delayAfter phi r.delay (remainingAllowance c.loaded.points r.index) := by
  rw [Call.delayNow, h]

/-- The derivations after F (confidence, overdue mark, display) leave F as it is. -/
theorem deriveCall_forecast_of_running (s : State) {c : Call} (h : c.isRunning = true) :
    (s.deriveCall c).forecast = c.delayNow s.params.phi := by
  simp only [State.deriveCall, State.markCall, State.showCall, h, if_true]

/-- Settles O32: R94's sum is that of the dropped list, and the four stages of R95, taken in the
integers, are the model's `delayAfter`. -/
theorem forecastDelay : Obligations.ForecastDelay := by
  refine ⟨fun points k _ _ => remainingAllowance_natCast points k,
    fun points => remainingAllowance_of_neg points (by decide), fun s c state => ?_⟩
  have derived := deriveCall_forecast_of_running s ((call_isRunning_iff c).2 state)
  refine ⟨fun unreported => ?_, fun r reported => ?_⟩
  · rw [derived, delayNow_of_no_report _ unreported]
  · rw [derived, delayNow_of_report _ reported]
    exact delayAfter_cast _ _ _

end Sys2Proof.Proofs
end

section
/-! The price of a journey (R144, R145): its rounding, the quantity and total of a quote (R147, R148)
and the answer to QUERY PRICE (R176). -/

namespace Sys2Proof.Proofs

open Sys2Proof.Machine

/-! ## Rounding -/

/-- The nearest multiple, halves up, taken apart at the quotient of the fare by the unit: half a unit
is added, so the remainder alone says whether the quotient goes up. -/
theorem nearestMultiple_eq (unit p : Nat) (h : 0 < unit) :
    (2 * p + unit) / (2 * unit) = if 2 * (p % unit) < unit then p / unit else p / unit + 1 := by
  have parts : unit * (p / unit) + p % unit = p := Nat.div_add_mod p unit
  have below : p % unit < unit := Nat.mod_lt p h
  have shifted : 2 * p + unit = 2 * (p % unit) + unit + 2 * unit * (p / unit) := by
    rw [Nat.mul_assoc]
    omega
  rw [shifted, Nat.add_mul_div_left _ _ (by omega : 0 < 2 * unit)]
  split
  case isTrue down => rw [Nat.div_eq_of_lt (by omega), Nat.zero_add]
  case isFalse up => rw [Nat.div_eq_of_lt_le (k := 1) (by omega) (by omega), Nat.add_comm]

theorem roundFare_eq_nearestMultiple {unit p : Nat} (h : 0 < unit) (bound : p ≤ 65535) :
    roundFare unit p = min 65535 (unit * ((2 * p + unit) / (2 * unit))) := by
  have parts : unit * (p / unit) + p % unit = p := Nat.div_add_mod p unit
  have base : p - p % unit = unit * (p / unit) := by omega
  simp only [roundFare, nearestMultiple_eq unit p h, base]
  split
  case isTrue down => omega
  case isFalse up => rw [Nat.mul_succ]

/-! ## The stages of a price -/

theorem base_distanceBand (t : FareTable) (distance : Nat) :
    t.base[distanceBand distance] = t.base[min 15 ((distance - 1) / 4)]! := by
  have inRange : min 15 ((distance - 1) / 4) < 16 := by omega
  rw [getElem!_pos t.base _ inRange]
  rfl

theorem unitPrice_eq (t : FareTable) (d : DestinationRecord) (y : TicketType)
    (k : Option Concession) (m : Option Nat) :
    t.unitPrice d y k m = roundFare t.unit (concede
      (min 65535 (t.base[min 15 ((d.distance - 1) / 4)]! * y.multiplier / 100)
        * t.factorAt m / 100) k) := by
  rw [FareTable.unitPrice, base_distanceBand]

/-! ## Quotes -/

theorem terms_quantity {t : FareTable} {type : Byte} {cls quantity : Nat}
    {x : TicketType × Option (Fin 4)} (h : t.terms type cls quantity = some x) :
    1 ≤ quantity ∧ quantity ≤ 9 := by
  unfold FareTable.terms at h
  split at h
  case h_1 =>
    split at h
    case isTrue inRange => exact inRange
    case isFalse => contradiction
  case h_2 => contradiction

theorem makeQuote_ok {s : State} {r : QuoteRequest} {t : FareTable} {d : DestinationRecord}
    {y : TicketType} {k : Option (Fin 4)} {c : Option Call} {i : Fin 4} {q : Quote}
    (h : s.makeQuote r t d y k c = .ok (i, q)) :
    s.freeSlot = some i ∧ q = {
      destination := r.destination, type := r.type, cls := k, call := c.map Call.key
      unitPrice := t.priceOf d y k (s.travelMinute c), quantity := r.quantity.toNat
      total := t.priceOf d y k (s.travelMinute c) * r.quantity.toNat, created := s.htb.uptime } := by
  dsimp only [State.makeQuote] at h
  split at h
  case isTrue => contradiction
  case isFalse =>
    split at h
    case h_1 => contradiction
    case h_2 j free =>
      cases h
      exact ⟨free, rfl⟩

/-- What an accepted request has passed (R147): the tests of destination, terms and call, and the
quote made from them. -/
theorem judgeQuote_ok {s : State} {r : QuoteRequest} {i : Fin 4} {q : Quote} {c : Option Call}
    (h : s.judgeQuote r = .ok (i, q, c)) :
    s.sju.salesMode ≠ .closed ∧ r.destination ∉ s.bdc.held
      ∧ ∃ (t : FareTable) (d : DestinationRecord) (y : TicketType) (k : Option (Fin 4)),
        s.sellableTo r.destination = .ok (t, d)
          ∧ t.terms r.type r.cls.toNat r.quantity.toNat = some (y, k)
          ∧ s.quoteCall y.rule r = .ok c ∧ s.makeQuote r t d y k c = .ok (i, q) := by
  unfold State.judgeQuote at h
  split at h
  case isTrue => contradiction
  case isFalse selling =>
  split at h
  case h_1 => contradiction
  case h_2 t d sellable =>
  split at h
  case isTrue => contradiction
  case isFalse unheld =>
  split at h
  case h_1 => contradiction
  case h_2 y k terms =>
  split at h
  case h_1 => contradiction
  case h_2 c' named =>
  split at h
  case h_1 => contradiction
  case h_2 j q' made =>
  cases h
  exact ⟨selling, unheld, t, d, y, k, sellable, terms, named, made⟩

theorem judgeQuote_total {s : State} {r : QuoteRequest} {i : Fin 4} {q : Quote} {c : Option Call}
    (h : s.judgeQuote r = .ok (i, q, c)) :
    q.total = q.unitPrice * q.quantity ∧ 1 ≤ q.quantity ∧ q.quantity ≤ 9 := by
  obtain ⟨_, _, t, d, y, k, _, terms, _, made⟩ := judgeQuote_ok h
  obtain ⟨_, rfl⟩ := makeQuote_ok made
  exact ⟨rfl, terms_quantity terms⟩

/-! ## QUERY PRICE -/

theorem priceAnswer_of_terms {s : State} {t : FareTable} {code : HaltCode} {d : DestinationRecord}
    {y : TicketType} {type cls quantity : Nat} {k : Option (Fin 4)} (time : Nat)
    (sellable : s.sellableTo code = .ok (t, d))
    (terms : t.terms (BitVec.ofNat 8 type) cls quantity = some (y, k)) :
    s.priceAnswer code type cls time quantity =
      (.ok, .price (t.priceOf d y k (some (clockMinute s.htb.hour time)))
        (t.priceOf d y k (some (clockMinute s.htb.hour time)) * quantity) s.fqu.activations) := by
  simp only [State.priceAnswer, sellable, terms]

/-- Settles O41: the remainder test of `roundFare` is the rounding to the nearest multiple, an
accepted quote is the one `makeQuote` builds after the terms fixed its quantity, and QUERY PRICE
prices by the `priceOf` of a quote. -/
theorem roundedPrice : Obligations.RoundedPrice :=
  ⟨fun _ _ => roundFare_eq_nearestMultiple, unitPrice_eq, fun _ _ _ _ _ => judgeQuote_total,
    fun _ _ _ _ _ _ time _ _ => priceAnswer_of_terms time⟩

end Sys2Proof.Proofs
end

