-- ==== Sys2Proof/Proofs/Steps.lean ====
section
/-! Every command goes on, keeps the queue of commands and keeps the soundness of the state; without
main power two commands alone act (95, log entry 7). -/

namespace Sys2Proof.Proofs

open Sys2Proof.Machine Sys2Proof.Safety Sys2Proof.Laws

/-! ## Shapes of a command's meaning -/

/-- A command that goes on to a state as sound as the one it acts on. -/
def GoesOn (s : State) (o : Host.Outcome State Fault Refusal) : Prop := ∃ t, o = .next t ∧ Keeps s t

theorem whenPowered_on {s : State} (h : s.powered = true) (f : State → State) :
    whenPowered s f = .next (f s) := by
  rw [whenPowered, if_pos h]

theorem whenPowered_off {s : State} (h : s.powered = false) (f : State → State) :
    whenPowered s f = .next s := by
  simp [whenPowered, h]

theorem whenPowered_goesOn {s : State} {f : State → State} (h : Keeps s (f s)) :
    GoesOn s (whenPowered s f) :=
  ⟨_, rfl, .ite h (.refl s)⟩

theorem whenServed_goesOn {s : State} {code : Byte} {f : State → Served}
    (hf : ∀ u, Keeps u (f u).state) (hr : ∀ u, (f u).state.tpi.replies = u.tpi.replies) :
    GoesOn s (whenServed s code f) :=
  whenPowered_goesOn (serve_keeps s code f hf hr)

/-! ## Requests leave the replies to the one who serves them -/

theorem bdc_replies {s t : State} (h : ∃ b, t = { s with bdc := b }) :
    t.tpi.replies = s.tpi.replies := by
  obtain ⟨b, rfl⟩ := h
  rfl

theorem setRing_replies (s : State) (ring : List Notice) :
    (s.setRing ring).tpi.replies = s.tpi.replies := by
  obtain ⟨b, h⟩ := setRing_frame s ring
  rw [h]

theorem postNotice_replies (s : State) (n : Notice) :
    (s.postNotice n).tpi.replies = s.tpi.replies := by
  obtain ⟨b, h⟩ := postNotice_frame s n
  rw [h]
  dsimp only
  split <;> rfl

end Sys2Proof.Proofs
end

