-- ==== Sys2Proof/Proofs/Trade.lean ====
section
/-! What the announcements of one block to another may change: the Up queue, stop requests, lamps, the
boards, the quote slots, the sales mode, the send pointer and the notices (3.7, 7.4, 9.4, 10.2). -/

namespace Sys2Proof.Proofs

open Sys2Proof.Machine Sys2Proof.Safety Sys2Proof.Laws

/-- The state with everything blanked that an announcement may change. -/
def tradeFrame (s : State) : State :=
  { s with
    up := { s.up with queue := [], fruCtr := {} }
    tts := { s.tts with current := [] }
    sru := {
      one := { s.sru.one with lamp := .off }
      two := { s.sru.two with lamp := .off } }
    bdc := {}
    fqu := { s.fqu with slots := Vector.replicate 4 .free, ctr := {} }
    sju := { s.sju with
      nextSeq := 0#32, quotesHeld := 0, salesMode := .closed, ackTimer := .stopped }
    tpi := { s.tpi with ring := [], overflow := false } }

/-- What an announcement may make of a quote slot: an OPEN one FREE, one in authorisation marked
(R149 to R151). -/
inductive SlotFollows : Slot → Slot → Prop
  | same (x : Slot) : SlotFollows x x
  | freed (q : Quote) : SlotFollows (.opened q) .free
  | marked (q : Quote) (w : Bool) : SlotFollows (.pendingAuth q w) (.pendingAuth q true)

theorem SlotFollows.trans {x y z : Slot} (h : SlotFollows x y) (k : SlotFollows y z) :
    SlotFollows x z := by
  cases h with
  | same => exact k
  | freed q => cases k; exact .freed q
  | marked q w =>
    cases k with
    | same => exact .marked q w
    | marked => exact .marked q w

theorem isRunning_of_state {c d : Call} (h : d.state = c.state) : d.isRunning = c.isRunning := by
  simp only [Call.isRunning, h]

/-- A change of a call that leaves what the timetable holds of it, and the forecast of one that no
longer runs (5.2, 5.4, R93). -/
structure SameCall (c d : Call) : Prop where
  loaded : d.loaded = c.loaded
  state : d.state = c.state
  report : d.report = c.report
  forecast : c.isRunning = false → d.forecast = c.forecast

theorem SameCall.isRunning {c d : Call} (h : SameCall c d) : d.isRunning = c.isRunning :=
  isRunning_of_state h.state

theorem SameCall.refl (c : Call) : SameCall c c := ⟨rfl, rfl, rfl, fun _ => rfl⟩

theorem SameCall.trans (a b c : Call) (h : SameCall a b) (k : SameCall b c) : SameCall a c :=
  ⟨k.loaded.trans h.loaded, k.state.trans h.state, k.report.trans h.report,
    fun n => (k.forecast (h.isRunning.trans n)).trans (h.forecast n)⟩

theorem SameCall.key {c d : Call} (h : SameCall c d) : d.key = c.key := by
  simp only [Call.key, h.loaded]

theorem forall₂_refl {α : Type} {R : α → α → Prop} (refl : ∀ a, R a a) (as : List α) :
    List.Forall₂ R as as :=
  List.forall₂_same.2 fun a _ => refl a

/-- An announcement from one state to another. -/
structure Trades (s t : State) : Prop where
  frame : tradeFrame t = tradeFrame s
  queue : ∃ xs, t.up.queue = s.up.queue ++ xs ∧ (s.up.lsu.state ≠ .service → xs = [])
  slots : ∀ i : Fin 4, SlotFollows s.fqu.slots[i] t.fqu.slots[i]
  held : s.sju.quotesHeld = openSlots s.fqu.slots → t.sju.quotesHeld = openSlots t.fqu.slots
  mode : t.sju.salesMode = s.sju.salesMode ∨ t.sju.salesMode = s.salesModeOf
  calls : List.Forall₂ SameCall s.tts.current t.tts.current

/-! ## What an announcement leaves alone -/

section
variable {s t : State} (h : Trades s t)
include h

theorem Trades.htb : t.htb = s.htb := (congrArg State.htb h.frame :)
theorem Trades.params : t.params = s.params := (congrArg State.params h.frame :)
theorem Trades.own : t.own = s.own := (congrArg State.own h.frame :)
theorem Trades.fru : t.fru = s.fru := (congrArg State.fru h.frame :)
theorem Trades.down : t.down = s.down := (congrArg State.down h.frame :)
theorem Trades.powered : t.powered = s.powered := (congrArg State.powered h.frame :)
theorem Trades.starting : t.starting = s.starting := (congrArg State.starting h.frame :)
theorem Trades.pending : t.pending = s.pending := (congrArg State.pending h.frame :)
theorem Trades.lsu : t.up.lsu = s.up.lsu := (congrArg (fun u : State => u.up.lsu) h.frame :)
theorem Trades.buffers : t.up.buffers = s.up.buffers :=
  (congrArg (fun u : State => u.up.buffers) h.frame :)
theorem Trades.up : t.up = { s.up with queue := t.up.queue, fruCtr := t.up.fruCtr } :=
  (congrArg (fun u : State => { u.up with queue := t.up.queue, fruCtr := t.up.fruCtr }) h.frame :)
theorem Trades.tts : t.tts = { s.tts with current := t.tts.current } :=
  (congrArg (fun u : State => { u.tts with current := t.tts.current }) h.frame :)
theorem Trades.fqu : t.fqu = { s.fqu with slots := t.fqu.slots, ctr := t.fqu.ctr } :=
  (congrArg (fun u : State => { u.fqu with slots := t.fqu.slots, ctr := t.fqu.ctr }) h.frame :)
theorem Trades.sju : t.sju = { s.sju with
    nextSeq := t.sju.nextSeq, quotesHeld := t.sju.quotesHeld, salesMode := t.sju.salesMode
    ackTimer := t.sju.ackTimer } :=
  (congrArg (fun u : State => { u.sju with
    nextSeq := t.sju.nextSeq, quotesHeld := t.sju.quotesHeld, salesMode := t.sju.salesMode
    ackTimer := t.sju.ackTimer }) h.frame :)
theorem Trades.tpi : t.tpi = { s.tpi with ring := t.tpi.ring, overflow := t.tpi.overflow } :=
  (congrArg (fun u : State => { u.tpi with ring := t.tpi.ring, overflow := t.tpi.overflow }) h.frame :)
theorem Trades.replies : t.tpi.replies = s.tpi.replies :=
  (congrArg (fun u : State => u.tpi.replies) h.frame :)
theorem Trades.journal : t.sju.journal = s.sju.journal :=
  (congrArg (fun u : State => u.sju.journal) h.frame :)
theorem Trades.io (p : Platform) : t.sru.io p = { s.sru.io p with lamp := (t.sru.io p).lamp } := by
  cases p
  · exact (congrArg (fun u : State => { u.sru.one with lamp := t.sru.one.lamp }) h.frame :)
  · exact (congrArg (fun u : State => { u.sru.two with lamp := t.sru.two.lamp }) h.frame :)
theorem Trades.pendingAuth : t.sju.pendingAuth = s.sju.pendingAuth :=
  (congrArg (fun u : State => u.sju.pendingAuth) h.frame :)
theorem Trades.authsPending : t.sju.authsPending = s.sju.authsPending :=
  (congrArg (fun u : State => u.sju.authsPending) h.frame :)
theorem Trades.salesModeOf : t.salesModeOf = s.salesModeOf :=
  (congrArg State.salesModeOf h.frame :)

theorem Trades.onlyTrade : OnlyTrade s t :=
  (congrArg (fun u : State => { u with
    up := t.up, tts := t.tts, sru := t.sru, bdc := t.bdc, fqu := t.fqu, sju := t.sju
    tpi := t.tpi }) h.frame :)

end

theorem forall₂_comp {α : Type} {R Q P : α → α → Prop} (comp : ∀ a b c, R a b → Q b c → P a c)
    {as bs cs : List α} (h : List.Forall₂ R as bs) (k : List.Forall₂ Q bs cs) :
    List.Forall₂ P as cs := by
  induction h generalizing cs with
  | nil => cases k; exact .nil
  | cons r _ ih =>
    cases k with
    | cons q k => exact .cons (comp _ _ _ r q) (ih k)

theorem Trades.trans {s t u : State} (h : Trades s t) (k : Trades t u) : Trades s u := by
  obtain ⟨xs, hx, hx'⟩ := h.queue
  obtain ⟨ys, hy, hy'⟩ := k.queue
  refine ⟨k.frame.trans h.frame, ⟨xs ++ ys, ?_, ?_⟩, fun i => (h.slots i).trans (k.slots i),
    k.held ∘ h.held, ?_, ?_⟩
  · rw [hy, hx, List.append_assoc]
  · intro n
    rw [hx' n, hy' (by rwa [h.lsu]), List.nil_append]
  · rw [← h.salesModeOf]
    rcases k.mode with e | e
    · rw [e, h.salesModeOf]
      exact h.mode
    · exact .inr e
  · exact forall₂_comp SameCall.trans h.calls k.calls

/-- A change of the boards, lamps, counters and notices alone. -/
theorem Trades.quiet {s t : State} (frame : tradeFrame t = tradeFrame s) (up : t.up = s.up)
    (calls : t.tts.current = s.tts.current) (slots : t.fqu.slots = s.fqu.slots)
    (held : t.sju.quotesHeld = s.sju.quotesHeld) (mode : t.sju.salesMode = s.sju.salesMode) :
    Trades s t where
  frame := frame
  queue := ⟨[], by rw [up, List.append_nil], fun _ => rfl⟩
  slots i := by
    rw [slots]
    exact .same _
  held h := by rw [held, slots, h]
  mode := .inl mode
  calls := by
    rw [calls]
    exact forall₂_refl SameCall.refl _

theorem Trades.refl (s : State) : Trades s s := .quiet rfl rfl rfl rfl rfl rfl

theorem Trades.ite {c : Prop} [Decidable c] {s t u : State} (h : Trades s t) (k : Trades s u) :
    Trades s (if c then t else u) := by
  split
  · exact h
  · exact k

theorem Trades.foldl {α : Type} (f : State → α → State) (h : ∀ s a, Trades s (f s a))
    (as : List α) (s : State) : Trades s (as.foldl f s) := by
  induction as generalizing s with
  | nil => exact .refl s
  | cons a as ih => exact (h s a).trans (ih (f s a))

/-- Calls of CURRENT changed one by one. -/
theorem Trades.mapCalls (s : State) {f : Call → Call} (h : ∀ c ∈ s.tts.current, SameCall c (f c)) :
    Trades s (s.mapCalls f) where
  frame := rfl
  queue := ⟨[], (List.append_nil _).symm, fun _ => rfl⟩
  slots _ := .same _
  held := id
  mode := .inl rfl
  calls := by
    rw [State.mapCalls_tts, List.forall₂_map_right_iff]
    exact List.forall₂_same.2 h

end Sys2Proof.Proofs
end

