-- ==== Sys2Proof/Proofs/Announce.lean ====
section
/-! Every shared operation that announces a change is an announcement in the sense of `Trades`. -/

namespace Sys2Proof.Proofs

open Sys2Proof.Machine Sys2Proof.Safety Sys2Proof.Laws

/-! ## Calls -/

/-- A change of a call's stop request by the tests of R110 and R112: they leave a call that no longer
runs, one that nobody asked to stop and one whose stop is confirmed, and forget no request. -/
structure StopFollows (c d : Call) : Prop where
  items : { d with stop := .none, resend := .stopped } = { c with stop := .none, resend := .stopped }
  frozen : c.isRunning = false → d.stop = c.stop ∧ (d.resend = c.resend ∨ d.resend = .stopped)
  settled : c.stop = .none ∨ c.stop = .confirmed → d.stop = c.stop
  asked : c.stop = .wanted ∨ c.stop = .sent ∨ c.stop = .late →
    d.stop = .wanted ∨ d.stop = .sent ∨ d.stop = .late

section
variable {c d : Call} (h : StopFollows c d)
include h

theorem StopFollows.loaded : d.loaded = c.loaded := (congrArg Call.loaded h.items :)
theorem StopFollows.state : d.state = c.state := (congrArg Call.state h.items :)
theorem StopFollows.report : d.report = c.report := (congrArg Call.report h.items :)
theorem StopFollows.forecast : d.forecast = c.forecast := (congrArg Call.forecast h.items :)
theorem StopFollows.stopCause : d.stopCause = c.stopCause := (congrArg Call.stopCause h.items :)
theorem StopFollows.isRunning : d.isRunning = c.isRunning := (congrArg Call.isRunning h.items :)
theorem StopFollows.expected : d.expected = c.expected := (congrArg Call.expected h.items :)
theorem StopFollows.key : d.key = c.key := (congrArg Call.key h.items :)

theorem StopFollows.sameCall : SameCall c d := ⟨h.loaded, h.state, h.report, fun _ => h.forecast⟩

end

theorem StopFollows.refl (c : Call) : StopFollows c c := ⟨rfl, fun _ => ⟨rfl, .inl rfl⟩, fun _ => rfl, id⟩

theorem StopFollows.trans (a b c : Call) (h : StopFollows a b) (k : StopFollows b c) :
    StopFollows a c := by
  refine ⟨k.items.trans h.items, fun n => ?_, fun n => ?_, k.asked ∘ h.asked⟩
  · obtain ⟨hs, hr⟩ := h.frozen n
    obtain ⟨ks, kr⟩ := k.frozen (h.isRunning.trans n)
    refine ⟨ks.trans hs, ?_⟩
    rcases kr with kr | kr
    · rw [kr]
      exact hr
    · exact .inr kr
  · have hs := h.settled n
    exact (k.settled (by rwa [hs])).trans hs

/-- The call that a key names, before and after the tests of R110 and R112. -/
def StopsFollow (s t : State) : Prop :=
  ∀ k c, s.call k = some c → ∃ d, t.call k = some d ∧ StopFollows c d

/-- An announcement that may alter the stop requests of calls, and nothing else of them. -/
structure Announces (s t : State) : Prop extends Trades s t where
  stops : StopsFollow s t

theorem Announces.trans {s t u : State} (h : Announces s t) (k : Announces t u) : Announces s u := by
  refine ⟨h.toTrades.trans k.toTrades, fun key c hc => ?_⟩
  obtain ⟨d, hd, follows⟩ := h.stops key c hc
  obtain ⟨e, he, follows'⟩ := k.stops key d hd
  exact ⟨e, he, follows.trans _ _ _ follows'⟩

/-- An announcement that leaves the calls as they are. -/
theorem Announces.of_calls {s t : State} (h : Trades s t) (calls : t.tts.current = s.tts.current) :
    Announces s t :=
  ⟨h, fun k c hc => ⟨c, by rwa [State.call, calls], .refl c⟩⟩

/-- A change of the boards, lamps, counters and notices alone. -/
theorem Announces.quiet {s t : State} (frame : tradeFrame t = tradeFrame s) (up : t.up = s.up)
    (calls : t.tts.current = s.tts.current) (slots : t.fqu.slots = s.fqu.slots)
    (held : t.sju.quotesHeld = s.sju.quotesHeld) (mode : t.sju.salesMode = s.sju.salesMode) :
    Announces s t :=
  .of_calls (.quiet frame up calls slots held mode) calls

theorem Announces.refl (s : State) : Announces s s := .quiet rfl rfl rfl rfl rfl rfl

theorem Announces.of_bdc {s t : State} (h : ∃ b, t = { s with bdc := b }) : Announces s t := by
  obtain ⟨b, rfl⟩ := h
  exact .quiet rfl rfl rfl rfl rfl rfl

theorem Announces.ite {c : Prop} [Decidable c] {s t u : State} (h : Announces s t)
    (k : Announces s u) : Announces s (if c then t else u) := by
  split
  · exact h
  · exact k

theorem Announces.foldl {α : Type} (f : State → α → State) (h : ∀ s a, Announces s (f s a))
    (as : List α) (s : State) : Announces s (as.foldl f s) := by
  induction as generalizing s with
  | nil => exact .refl s
  | cons a as ih => exact (h s a).trans (ih (f s a))

/-! ## Boards, notices, lamps -/

theorem compose_announces (s : State) : Announces s s.compose := .of_bdc (compose_frame s)
theorem linkStart_announces (s : State) : Announces s s.linkStart := .of_bdc (linkStart_frame s)
theorem darkTest_announces (s : State) (r : WakeCause) : Announces s (s.darkTest r) :=
  .of_bdc (darkTest_frame s r)
theorem noteActivity_announces (s : State) (r : WakeCause) : Announces s (s.noteActivity r) :=
  .of_bdc (noteActivity_frame s r)
theorem chooseEnergy_announces (s : State) : Announces s s.chooseEnergy :=
  .of_bdc (chooseEnergy_frame s)
theorem minuteRefresh_announces (s : State) : Announces s s.minuteRefresh :=
  .of_bdc (minuteRefresh_frame s)

theorem setRing_announces (s : State) (ring : List Notice) : Announces s (s.setRing ring) := by
  obtain ⟨b, h⟩ := setRing_frame s ring
  rw [h]
  exact .quiet rfl rfl rfl rfl rfl rfl

theorem postNotice_announces (s : State) (n : Notice) : Announces s (s.postNotice n) := by
  obtain ⟨b, h⟩ := postNotice_frame s n
  rw [h]
  split
  all_goals exact .quiet rfl rfl rfl rfl rfl rfl

theorem deriveLamps_announces (s : State) : Announces s s.deriveLamps :=
  .quiet rfl rfl rfl rfl rfl rfl

theorem modSruCtr_announces (s : State) (f : SruCounters → SruCounters) :
    Announces s (s.modSruCtr f) := .quiet rfl rfl rfl rfl rfl rfl

theorem modFquCtr_announces (s : State) (f : FquCounters → FquCounters) :
    Announces s (s.modFquCtr f) := .quiet rfl rfl rfl rfl rfl rfl

/-! ## Quote slots -/

theorem set_getElem {α : Type} {n : Nat} (v : Vector α n) (i j : Fin n) (x : α) :
    (v.set i x)[j] = if i = j then x else v[j] := by
  simp [Vector.getElem_set, Fin.ext_iff]

theorem setSlot_announces {s : State} {i : Fin 4} {x : Slot} (h : SlotFollows s.fqu.slots[i] x) :
    Announces s (s.setSlot i x) := by
  refine .of_calls ⟨rfl, ⟨[], (List.append_nil _).symm, fun _ => rfl⟩, fun j => ?_, fun _ => rfl,
    .inl rfl, forall₂_refl SameCall.refl _⟩ rfl
  simp only [State.setSlot_fqu, set_getElem]
  split
  · next e => subst e; exact h
  · exact .same _

theorem withdrawSlot_announces {s : State} {i : Fin 4} {q : Quote} (h : s.fqu.slots[i] = .opened q) :
    Announces s (s.withdrawSlot i) := by
  refine ((setSlot_announces ?_).trans (modFquCtr_announces _ _)).trans (postNotice_announces _ _)
  rw [h]
  exact .freed q

theorem invalidateSlot_announces (hit : Quote → Bool) (s : State) (i : Fin 4) :
    Announces s (s.invalidateSlot hit i) := by
  unfold State.invalidateSlot
  split
  · exact .refl s
  · exact .refl s
  · next h => exact .ite (withdrawSlot_announces h) (.refl s)
  · next h =>
    refine .ite (setSlot_announces ?_) (.refl s)
    rw [h]
    exact .marked _ _

theorem invalidate_announces (s : State) (hit : Quote → Bool) : Announces s (s.invalidate hit) :=
  Announces.foldl _ (invalidateSlot_announces hit) allSlots s

theorem invalidateAll_announces (s : State) : Announces s s.invalidateAll := invalidate_announces s _

theorem invalidateNaming_announces (s : State) (k : Key) : Announces s (s.invalidateNaming k) :=
  invalidate_announces s _

theorem cutoffSlot_announces (s : State) (i : Fin 4) : Announces s (s.cutoffSlot i) := by
  unfold State.cutoffSlot
  split
  · next h => exact .ite (withdrawSlot_announces h) (.refl s)
  all_goals exact .refl s

theorem cutoffQuotes_announces (s : State) : Announces s s.cutoffQuotes :=
  Announces.foldl _ cutoffSlot_announces allSlots s

theorem expireSlot_announces (s : State) (i : Fin 4) : Announces s (s.expireSlot i) := by
  unfold State.expireSlot
  split
  · next h =>
    refine .ite (((setSlot_announces ?_).trans (modFquCtr_announces _ _)).trans
      (postNotice_announces _ _)) (.refl s)
    rw [h]
    exact .freed _
  all_goals exact .refl s

theorem evaluateMessages_announces (s : State) : Announces s s.evaluateMessages := by
  unfold State.evaluateMessages
  refine .ite (.refl s) ?_
  refine Announces.trans (t := { s with bdc := { s.bdc with
    valid := s.validMessages, held := heldCodes s.validMessages } }) (.of_bdc ⟨_, rfl⟩) ?_
  exact (((invalidate_announces _ _).trans (compose_announces _)).trans (darkTest_announces _ _)).trans
    (linkStart_announces _)

theorem setMessages_announces (s : State) (ms : Vector (Option Message) 8) :
    Announces s (s.setMessages ms) :=
  (Announces.trans (.of_bdc ⟨{ s.bdc with messages := ms }, rfl⟩) (evaluateMessages_announces _)).trans
    (compose_announces _)

/-! ## The desk: boards, slots and notices -/

/-- The state with the boards, the quote slots, their counters and the notices blanked. -/
def deskFrame (s : State) : State :=
  { s with
    bdc := {}
    fqu := { s.fqu with slots := Vector.replicate 4 .free, ctr := {} }
    sju := { s.sju with quotesHeld := 0 }
    tpi := { s.tpi with ring := [], overflow := false } }

/-- Nothing has changed but the boards, the quote slots with their counts, and the notices. -/
def OnlyDesk (s t : State) : Prop := deskFrame t = deskFrame s

section
variable {s t : State} (h : OnlyDesk s t)
include h

theorem OnlyDesk.up : t.up = s.up := (congrArg State.up h :)
theorem OnlyDesk.down : t.down = s.down := (congrArg State.down h :)
theorem OnlyDesk.fru : t.fru = s.fru := (congrArg State.fru h :)
theorem OnlyDesk.htb : t.htb = s.htb := (congrArg State.htb h :)
theorem OnlyDesk.params : t.params = s.params := (congrArg State.params h :)
theorem OnlyDesk.tts : t.tts = s.tts := (congrArg State.tts h :)
theorem OnlyDesk.sru : t.sru = s.sru := (congrArg State.sru h :)
theorem OnlyDesk.sju : t.sju = { s.sju with quotesHeld := t.sju.quotesHeld } :=
  (congrArg (fun u : State => { u.sju with quotesHeld := t.sju.quotesHeld }) h :)
theorem OnlyDesk.fqu : t.fqu = { s.fqu with slots := t.fqu.slots, ctr := t.fqu.ctr } :=
  (congrArg (fun u : State => { u.fqu with slots := t.fqu.slots, ctr := t.fqu.ctr }) h :)
theorem OnlyDesk.tpi : t.tpi = { s.tpi with ring := t.tpi.ring, overflow := t.tpi.overflow } :=
  (congrArg (fun u : State => { u.tpi with ring := t.tpi.ring, overflow := t.tpi.overflow }) h :)
theorem OnlyDesk.eq : t = { s with bdc := t.bdc, fqu := t.fqu, sju := t.sju, tpi := t.tpi } :=
  (congrArg (fun u : State => { u with bdc := t.bdc, fqu := t.fqu, sju := t.sju, tpi := t.tpi }) h :)

end

theorem OnlyDesk.refl (s : State) : OnlyDesk s s := rfl

theorem OnlyDesk.trans {s t u : State} (h : OnlyDesk s t) (k : OnlyDesk t u) : OnlyDesk s u :=
  Eq.trans k h

theorem OnlyDesk.ite {c : Prop} [Decidable c] {s t u : State} (h : OnlyDesk s t) (k : OnlyDesk s u) :
    OnlyDesk s (if c then t else u) := by
  split
  · exact h
  · exact k

theorem OnlyDesk.foldl {α : Type} (f : State → α → State) (h : ∀ s a, OnlyDesk s (f s a))
    (as : List α) (s : State) : OnlyDesk s (as.foldl f s) := by
  induction as generalizing s with
  | nil => exact .refl s
  | cons a as ih => exact (h s a).trans (ih (f s a))

theorem OnlyDesk.of_bdc {s t : State} (h : ∃ b, t = { s with bdc := b }) : OnlyDesk s t := by
  obtain ⟨b, rfl⟩ := h
  exact rfl

theorem setRing_desk (s : State) (ring : List Notice) : OnlyDesk s (s.setRing ring) := by
  obtain ⟨b, h⟩ := setRing_frame s ring
  rw [h]
  exact rfl

theorem postNotice_desk (s : State) (n : Notice) : OnlyDesk s (s.postNotice n) := by
  obtain ⟨b, h⟩ := postNotice_frame s n
  rw [h]
  split
  all_goals exact rfl

theorem setSlot_desk (s : State) (i : Fin 4) (x : Slot) : OnlyDesk s (s.setSlot i x) := rfl

theorem withdrawSlot_desk (s : State) (i : Fin 4) : OnlyDesk s (s.withdrawSlot i) :=
  OnlyDesk.trans (t := (s.setSlot i .free).modFquCtr fun c =>
    { c with withdrawn := tally c.withdrawn }) rfl (postNotice_desk _ _)

theorem invalidateSlot_desk (hit : Quote → Bool) (s : State) (i : Fin 4) :
    OnlyDesk s (s.invalidateSlot hit i) := by
  unfold State.invalidateSlot
  split
  · exact .refl s
  · exact .refl s
  · exact .ite (withdrawSlot_desk s i) (.refl s)
  · exact .ite (setSlot_desk s i _) (.refl s)

theorem invalidate_desk (s : State) (hit : Quote → Bool) : OnlyDesk s (s.invalidate hit) :=
  OnlyDesk.foldl _ (invalidateSlot_desk hit) allSlots s

theorem cutoffSlot_desk (s : State) (i : Fin 4) : OnlyDesk s (s.cutoffSlot i) := by
  unfold State.cutoffSlot
  split
  · exact .ite (withdrawSlot_desk s i) (.refl s)
  all_goals exact .refl s

theorem cutoffQuotes_desk (s : State) : OnlyDesk s s.cutoffQuotes :=
  OnlyDesk.foldl _ cutoffSlot_desk allSlots s

theorem expireSlot_desk (s : State) (i : Fin 4) : OnlyDesk s (s.expireSlot i) := by
  unfold State.expireSlot
  split
  · refine .ite ?_ (.refl s)
    exact OnlyDesk.trans (t := (s.setSlot i .free).modFquCtr fun c =>
      { c with expired := tally c.expired }) rfl (postNotice_desk _ _)
  all_goals exact .refl s

theorem evaluateMessages_desk (s : State) : OnlyDesk s s.evaluateMessages := by
  unfold State.evaluateMessages
  refine .ite (.refl s) ?_
  refine OnlyDesk.trans (t := { s with bdc := { s.bdc with
    valid := s.validMessages, held := heldCodes s.validMessages } }) rfl ?_
  exact (((invalidate_desk _ _).trans (.of_bdc (compose_frame _))).trans
    (.of_bdc (darkTest_frame _ _))).trans (.of_bdc (linkStart_frame _))

theorem setMessages_desk (s : State) (ms : Vector (Option Message) 8) :
    OnlyDesk s (s.setMessages ms) :=
  OnlyDesk.trans (t := State.evaluateMessages { s with bdc := { s.bdc with messages := ms } })
    (OnlyDesk.trans rfl (evaluateMessages_desk _)) (.of_bdc (compose_frame _))

/-- A sales mode set, with what it announces (R156). -/
theorem setSalesMode_desk (s : State) (m : SalesMode) :
    OnlyDesk { s with sju := { s.sju with salesMode := m } } (s.setSalesMode m) := by
  unfold State.setSalesMode
  split
  · next e => rw [e]; exact rfl
  · refine OnlyDesk.trans (t := if s.starting then { s with sju := { s.sju with salesMode := m } }
      else State.postNotice { s with sju := { s.sju with salesMode := m } } (.salesMode m)) ?_ ?_
    · exact .ite (.refl _) (postNotice_desk _ _)
    · exact .ite (invalidate_desk _ _) (.refl _)

/-! ## Sales mode -/

theorem setMode_announces (s : State) :
    Announces s { s with sju := { s.sju with salesMode := s.salesModeOf } } :=
  .of_calls ⟨rfl, ⟨[], (List.append_nil _).symm, fun _ => rfl⟩, fun _ => .same _, id, .inr rfl,
    forall₂_refl SameCall.refl _⟩ rfl

theorem deriveSalesMode_announces (s : State) : Announces s s.deriveSalesMode := by
  unfold State.deriveSalesMode State.setSalesMode
  refine .ite (.refl s) ?_
  refine Announces.trans (t := if s.starting
    then { s with sju := { s.sju with salesMode := s.salesModeOf } }
    else State.postNotice { s with sju := { s.sju with salesMode := s.salesModeOf } }
      (.salesMode s.salesModeOf))
    (.ite (setMode_announces s) ((setMode_announces s).trans (postNotice_announces _ _))) ?_
  exact .ite (invalidateAll_announces _) (.refl _)

/-! ## The Up queue -/

/-- A change of the Up queue, of its port's FRU counters and of N with its timer alone. -/
theorem Announces.of_queue {s : State} {f : FruPortCounters} {n : Seq} {timer : Timer}
    {xs : List Queued} (h : s.up.lsu.state ≠ .service → xs = []) :
    Announces s { s with
      up := { s.up with queue := s.up.queue ++ xs, fruCtr := f }
      sju := { s.sju with nextSeq := n, ackTimer := timer } } :=
  .of_calls ⟨rfl, ⟨xs, rfl, h⟩, fun _ => .same _, id, .inl rfl, forall₂_refl SameCall.refl _⟩ rfl

theorem enqueue_announces (s : State) (q : Queued) :
    Announces s { s with up := s.up.enqueue q } := by
  rcases enqueue_cases s.up q with ⟨room, e⟩ | ⟨-, e⟩
  · rw [e]
    exact Announces.of_queue (f := s.up.fruCtr) (n := s.sju.nextSeq) (timer := s.sju.ackTimer)
      fun n => absurd room.1 n
  · have h := Announces.of_queue (s := s) (f := s.up.countDrop q.cls) (n := s.sju.nextSeq)
      (timer := s.sju.ackTimer) (xs := []) fun _ => rfl
    rw [List.append_nil] at h
    rw [e]
    exact h

theorem buildJrnl_announces (s : State) : Announces s s.buildJrnl := by
  refine (enqueue_announces s ⟨.own, s.jrnlFrame⟩).trans ?_
  have h := Announces.of_queue (s := { s with up := s.up.enqueue ⟨.own, s.jrnlFrame⟩ })
    (f := (s.up.enqueue ⟨.own, s.jrnlFrame⟩).fruCtr)
    (n := s.sju.nextSeq + BitVec.ofNat 32 s.sju.jrnlCount)
    (timer := if s.sju.ackTimer.isRunning then s.sju.ackTimer else .running Config.ackMs)
    (xs := []) fun _ => rfl
  rw [List.append_nil] at h
  exact h

theorem drainUpTo_announces (n : Nat) (s : State) : Announces s (s.drainUpTo n) := by
  induction n generalizing s with
  | zero => exact .refl s
  | succ n ih =>
    unfold State.drainUpTo
    exact .ite (.ite ((buildJrnl_announces s).trans (ih _)) (buildJrnl_announces s)) (.refl s)

theorem drain_announces (s : State) : Announces s s.drain := drainUpTo_announces _ s

theorem offerUp_announces (s : State) (q : Queued) : Announces s (s.offer .up q) := by
  unfold State.offer
  exact .ite ((enqueue_announces s q).trans (drain_announces _)) (enqueue_announces s q)

theorem offerOwnUp_announces (s : State) (k : Kind) (d : HaltCode) (x : Payload) :
    Announces s (s.offerOwn .up k d x) :=
  .ite (.refl s) (offerUp_announces _ _)

theorem afterAppend_announces (s : State) : Announces s s.afterAppend :=
  (deriveSalesMode_announces s).trans (drain_announces _)

/-! ## Stop requests -/

theorem announceStop_announces (s : State) (k : Key) (a b : StopState) :
    Announces s (s.announceStop k a b) := by
  refine Announces.trans (t := if a = b then s.deriveLamps else s.deriveLamps.compose) ?_ ?_
  · exact .ite (deriveLamps_announces s) ((deriveLamps_announces s).trans (compose_announces _))
  · exact .ite (postNotice_announces _ _) (.refl _)

theorem findCall_map {calls : List Call} {g : Call → Call} (h : ∀ c, (g c).key = c.key) (k : Key) :
    findCall (calls.map g) k = (findCall calls k).map g := by
  simp only [findCall, List.find?_map, Function.comp_def, h]

theorem call_mapCalls (s : State) {f : Call → Call} (h : ∀ c, (f c).key = c.key) (k : Key) :
    (s.mapCalls f).call k = (s.call k).map f :=
  findCall_map h k

theorem key_of_call {s : State} {k : Key} {c : Call} (h : s.call k = some c) : c.key = k :=
  (key_of_findCall h).2

/-- The call that a key names, its stop request changed. -/
theorem modCall_announces {s : State} {k : Key} {f : Call → Call} (same : ∀ x, SameCall x (f x))
    (follows : ∀ c, s.call k = some c → StopFollows c (f c)) : Announces s (s.modCall k f) := by
  have keep : ∀ x : Call, SameCall x (if x.key = k then f x else x) := by
    intro x
    split
    · exact same x
    · exact .refl x
  refine ⟨Trades.mapCalls s fun x _ => keep x, fun k' c hc => ?_⟩
  refine ⟨_, by rw [State.modCall, call_mapCalls _ fun x => (keep x).key, hc]; rfl, ?_⟩
  dsimp only
  split
  · next e => exact follows c (by rw [← e, key_of_call hc]; exact hc)
  · exact .refl c

theorem changeStop_trades (s : State) (c : Call) {f : Call → Call} (same : ∀ x, SameCall x (f x)) :
    Trades s (s.changeStop c f) := by
  refine (Trades.mapCalls s fun x _ => ?_).trans (announceStop_announces _ _ _ _).toTrades
  split
  · exact same x
  · exact .refl x

theorem changeStop_announces {s : State} {k : Key} {c : Call} {f : Call → Call}
    (named : s.call k = some c) (same : ∀ x, SameCall x (f x)) (follows : StopFollows c (f c)) :
    Announces s (s.changeStop c f) := by
  refine (modCall_announces same fun d hd => ?_).trans (announceStop_announces _ _ _ _)
  rw [key_of_call named, named] at hd
  cases hd
  exact follows

/-- A request that waits for its answer, moved to another state of waiting. -/
theorem StopFollows.of_asked {c : Call} {st : StopState} {t : Timer} (running : c.isRunning = true)
    (was : c.stop = .wanted ∨ c.stop = .sent ∨ c.stop = .late)
    (now : st = .wanted ∨ st = .sent ∨ st = .late) :
    StopFollows c { c with stop := st, resend := t } := by
  refine ⟨rfl, fun n => ?_, fun n => ?_, fun _ => now⟩
  · rw [running] at n
    contradiction
  · rcases n with n | n <;> simp [n] at was

/-- What the state is as the call's stop request becomes SENT (R110). -/
def afterOffer (s : State) (c : Call) : State :=
  ((State.modSruCtr { s with sru := { s.sru with serial := s.sru.serial + 1#8 } }
    fun k => { k with stopreqBuilt := tally k.stopreqBuilt }).offerOwn .up .stopreq centre
      (.octets (s.stopreqOctets c)))

theorem sendStopreq_eq (s : State) (c : Call) :
    s.sendStopreq c = (afterOffer s c).changeStop c fun c =>
      { c with stop := .sent, resend := .running Config.resendMs } := rfl

theorem afterOffer_announces (s : State) (c : Call) : Announces s (afterOffer s c) :=
  Announces.trans (t := State.modSruCtr { s with sru := { s.sru with serial := s.sru.serial + 1#8 } }
    fun k => { k with stopreqBuilt := tally k.stopreqBuilt })
    (.quiet rfl rfl rfl rfl rfl rfl) (offerOwnUp_announces _ _ _ _)

theorem tts_afterOffer (s : State) (c : Call) : (afterOffer s c).tts = s.tts := by
  obtain ⟨up, down, sju, h⟩ := offerOwn_frame
    (State.modSruCtr { s with sru := { s.sru with serial := s.sru.serial + 1#8 } }
      fun k => { k with stopreqBuilt := tally k.stopreqBuilt }) .up .stopreq centre
      (.octets (s.stopreqOctets c))
  rw [afterOffer, h]
  rfl

theorem sendStopreq_announces {s : State} {k : Key} {c : Call} (named : s.call k = some c)
    (running : c.isRunning = true) (was : c.stop = .wanted ∨ c.stop = .sent ∨ c.stop = .late) :
    Announces s (s.sendStopreq c) := by
  refine (afterOffer_announces s c).trans (changeStop_announces (k := k) ?_
    (fun _ => ⟨rfl, rfl, rfl, fun _ => rfl⟩) (.of_asked running was (.inr (.inl rfl))))
  rwa [State.call, tts_afterOffer]

theorem sendStopreq_trades (s : State) (c : Call) : Trades s (s.sendStopreq c) :=
  (afterOffer_announces s c).toTrades.trans
    (changeStop_trades _ _ fun _ => ⟨rfl, rfl, rfl, fun _ => rfl⟩)

theorem maySend_iff (s : State) (c : Call) :
    s.maySend c = true ↔ c.isRunning = true ∧ c.stop = .wanted ∧ s.up.lsu.state = .service
      ∧ s.pastCutoff c = false := by
  simp only [State.maySend, Bool.and_eq_true, beq_iff_eq, Bool.not_eq_true', and_assoc]

theorem trySend_announces (s : State) (k : Key) : Announces s (s.trySend k) := by
  unfold State.trySend
  split
  · next c named =>
    split
    · next may =>
      obtain ⟨running, wanted, -, -⟩ := (maySend_iff s c).1 may
      exact sendStopreq_announces named running (.inl wanted)
    · exact .refl s
  · exact .refl s

theorem testCutoff_announces (s : State) (k : Key) : Announces s (s.testCutoff k) := by
  unfold State.testCutoff
  split
  · exact .refl s
  · next c named =>
    split
    · exact .refl s
    · next running =>
      rw [Bool.not_eq_true, Bool.not_eq_false'] at running
      split
      · next asked =>
        exact changeStop_announces named (fun _ => ⟨rfl, rfl, rfl, fun _ => rfl⟩)
          (.of_asked running (asked.1.imp_right .inl) (.inr (.inr rfl)))
      · split
        · next late =>
          refine Announces.trans (changeStop_announces named ?_ ?_) (trySend_announces _ k)
          · exact fun _ => ⟨rfl, rfl, rfl, fun _ => rfl⟩
          · exact .of_asked running (.inr (.inr late.1)) (.inl rfl)
        · exact .refl s

theorem testCutoffs_announces (s : State) : Announces s s.testCutoffs :=
  (Announces.foldl _ testCutoff_announces s.keys s).trans (deriveLamps_announces _)

theorem wantStop_trades (s : State) (c : Call) (x : StopCause) : Trades s (s.wantStop c x) := by
  refine Trades.trans (Trades.trans (changeStop_trades s c ?_) (trySend_announces _ _).toTrades)
    (testCutoff_announces _ _).toTrades
  exact fun _ => ⟨rfl, rfl, rfl, fun _ => rfl⟩

theorem ticketRequest_trades (s : State) (k : Key) : Trades s (s.ticketRequest k) := by
  unfold State.ticketRequest
  split
  · exact .ite (wantStop_trades s _ _) (.refl s)
  · exact .refl s

theorem unsend_sameCall (c : Call) : SameCall c c.unsend := by
  unfold Call.unsend
  split
  · exact ⟨rfl, rfl, rfl, fun _ => rfl⟩
  · exact .refl c

theorem stopsLoseLink_trades (s : State) : Trades s s.stopsLoseLink := by
  have h : Trades s (s.mapCalls Call.unsend).deriveLamps :=
    (Trades.mapCalls s fun c _ => unsend_sameCall c).trans (deriveLamps_announces _).toTrades
  exact .ite h (h.trans (compose_announces _).toTrades)

theorem stopsGainLink_announces (s : State) : Announces s s.stopsGainLink :=
  Announces.foldl _ trySend_announces s.keys s

theorem stopsOnCall_announces (s : State) (k : Key) : Announces s (s.stopsOnCall k) := by
  unfold State.stopsOnCall
  refine Announces.trans ?_ (deriveLamps_announces _)
  split
  · exact .refl s
  · next c named =>
    split
    · exact testCutoff_announces s k
    · next still =>
      refine modCall_announces (fun _ => ⟨rfl, rfl, rfl, fun _ => rfl⟩) fun d hd => ?_
      rw [named] at hd
      cases hd
      exact ⟨rfl, fun _ => ⟨rfl, .inr rfl⟩, fun _ => rfl, id⟩

theorem sendWanted_announces (s : State) (k : Key) : Announces s (s.sendWanted k) :=
  (trySend_announces s k).trans (deriveLamps_announces _)

/-! ## Forecasts -/

theorem announceForecast_announces (s : State) (k : Key) : Announces s (s.announceForecast k) :=
  (((testCutoff_announces s k).trans (deriveLamps_announces _)).trans (cutoffQuotes_announces _)).trans
    (compose_announces _)

/-- What follows a derivation: the announcement of each changed call. -/
theorem rederive_announces (s : State) (f : Call → Call) :
    Announces (s.mapCalls f) (s.rederive f) :=
  Announces.foldl _ announceForecast_announces _ _

theorem rederive_trades (s : State) {f : Call → Call} (same : ∀ c, SameCall c (f c)) :
    Trades s (s.rederive f) :=
  (Trades.mapCalls s fun c _ => same c).trans (rederive_announces s f).toTrades

theorem deriveCall_sameCall (s : State) (c : Call) : SameCall c (s.deriveCall c) := by
  unfold State.deriveCall
  dsimp only
  split
  · next running => exact ⟨rfl, rfl, rfl, fun n => absurd running (by rw [n]; decide)⟩
  · exact ⟨rfl, rfl, rfl, fun _ => rfl⟩

theorem rederiveCall_trades (s : State) (k : Key) : Trades s (s.rederiveCall k) := by
  refine rederive_trades s fun c => ?_
  split
  · exact deriveCall_sameCall s c
  · exact .refl c

theorem rederiveAll_trades (s : State) : Trades s s.rederiveAll :=
  rederive_trades s (deriveCall_sameCall s)

theorem rederiveConfidence_trades (s : State) : Trades s s.rederiveConfidence :=
  rederive_trades s fun _ => ⟨rfl, rfl, rfl, fun _ => rfl⟩

theorem testOverdue_trades (s : State) : Trades s s.testOverdue :=
  rederive_trades s fun _ => ⟨rfl, rfl, rfl, fun _ => rfl⟩

theorem rederiveDisplay_trades (s : State) : Trades s s.rederiveDisplay :=
  rederive_trades s fun _ => ⟨rfl, rfl, rfl, fun _ => rfl⟩

theorem rederiveDelay_trades (s : State) : Trades s s.rederiveDelay := by
  refine rederive_trades s fun c => ?_
  split
  · next h =>
    rw [Bool.and_eq_true] at h
    exact ⟨rfl, rfl, rfl, fun n => absurd h.1 (by rw [n]; decide)⟩
  · exact .refl c

/-! ## Announcements of the timetable and of the time base -/

theorem announceAdded_trades (s : State) (k : Key) : Trades s (s.announceAdded k) :=
  ((rederiveCall_trades s k).trans (stopsOnCall_announces _ _).toTrades).trans
    (compose_announces _).toTrades

theorem announceState_trades (s : State) (k : Key) : Trades s (s.announceState k) :=
  (((rederiveCall_trades s k).trans (stopsOnCall_announces _ _).toTrades).trans
    (.ite (.refl _) (invalidateNaming_announces _ _).toTrades)).trans (compose_announces _).toTrades

theorem announceReplaced_trades (s : State) (k : Key) (before after : StopState) :
    Trades s (s.announceReplaced k before after) :=
  ((((rederiveCall_trades s k).trans (announceStop_announces _ _ _ _).toTrades).trans
    (stopsOnCall_announces _ _).toTrades).trans (invalidateNaming_announces _ _).toTrades).trans
    (compose_announces _).toTrades

theorem announceDeleted_trades (s : State) (k : Key) : Trades s (s.announceDeleted k) :=
  ((stopsOnCall_announces s k).trans (invalidateNaming_announces _ _)).toTrades.trans
    (compose_announces _).toTrades

theorem announceSwitch_trades (s : State) : Trades s s.announceSwitch :=
  (((rederiveAll_trades s).trans (testCutoffs_announces _).toTrades).trans
    (invalidate_announces _ _).toTrades).trans (compose_announces _).toTrades

theorem announceSync_trades (s : State) (h : Htb) : Trades s (s.announceSync h) := by
  refine .ite (.ite (.refl s) (rederiveConfidence_trades s)) ?_
  exact (((((rederiveConfidence_trades s).trans (deriveSalesMode_announces _).toTrades).trans
    (evaluateMessages_announces _).toTrades).trans (chooseEnergy_announces _).toTrades).trans
    (compose_announces _).toTrades).trans (postNotice_announces _ _).toTrades

end Sys2Proof.Proofs
end

