-- ==== Sys2Proof/Proofs/Turns.lean ====
section
/-! What the operations of the day, of the fare tables and of the sale may change beyond an
announcement: the banks, the tables and the journal; that the sales mode stays the one its inputs give
and the ledger true (10.2, 10.7). -/

namespace Sys2Proof.Proofs

open Sys2Proof.Machine Sys2Proof.Safety Sys2Proof.Laws

/-! ## Sales mode and ledger -/

/-- The sales mode is the one its inputs give (R156). -/
def ModeTrue (s : State) : Prop := s.sju.salesMode = s.salesModeOf

/-- The exposure is that of the journal, and the restart counts are those of the slots and of the
pending authorisation (R157, R172). -/
structure LedgerIs (s : State) : Prop where
  count : s.sju.xc = (s.sju.journal.filterMap (·.offlineTotal)).length
  amount : s.sju.xa = (s.sju.journal.filterMap (·.offlineTotal)).sum
  held : s.sju.quotesHeld = openSlots s.fqu.slots
  auths : s.sju.authsPending = if s.sju.pendingAuth.isSome then 1 else 0

/-- A change after which the books are as true as before it. -/
structure Books (s t : State) : Prop where
  mode : ModeTrue s → ModeTrue t
  ledger : LedgerIs s → LedgerIs t

theorem Books.refl (s : State) : Books s s := ⟨id, id⟩

theorem Books.trans {s t u : State} (h : Books s t) (k : Books t u) : Books s u :=
  ⟨k.mode ∘ h.mode, k.ledger ∘ h.ledger⟩

theorem Books.ite {c : Prop} [Decidable c] {s t u : State} (h : Books s t) (k : Books s u) :
    Books s (if c then t else u) := by
  split
  · exact h
  · exact k

theorem setSalesMode_mode (s : State) (m : SalesMode) : (s.setSalesMode m).sju.salesMode = m := by
  rw [(setSalesMode_desk s m).sju]

/-- A derivation leaves the mode that the inputs give, whatever it was before (R156). -/
theorem deriveSalesMode_true (s : State) : ModeTrue s.deriveSalesMode := by
  rw [ModeTrue, (deriveSalesMode_announces s).salesModeOf]
  exact setSalesMode_mode s _

theorem Trades.books {s t : State} (h : Trades s t) : Books s t := by
  refine ⟨fun m => ?_, fun ⟨count, amount, held, auths⟩ => ?_⟩
  · rw [ModeTrue, h.salesModeOf]
    rcases h.mode with e | e
    · rw [e]
      exact m
    · exact e
  · refine ⟨?_, ?_, h.held held, ?_⟩
    · rw [h.sju]
      exact count
    · rw [h.sju]
      exact amount
    · rw [h.sju]
      exact auths

theorem afterAppend_true (s : State) : ModeTrue s.afterAppend :=
  (drain_announces s.deriveSalesMode).books.mode (deriveSalesMode_true s)

/-! ## Operations of a sale and of the day -/

/-- The state with everything blanked that a sale or a turn of the day may change besides the time. -/
def settleFrame (s : State) : State :=
  { s with
    up := { s.up with queue := [], fruCtr := {} }
    tts := {}, sru := {}, bdc := {}, fqu := {}, sju := {}
    tpi := { s.tpi with ring := [], overflow := false } }

/-- An operation of the trade, with the announcements it makes. -/
structure Settles (s t : State) : Prop where
  frame : settleFrame t = settleFrame s
  queue : ∃ xs, t.up.queue = s.up.queue ++ xs ∧ (s.up.lsu.state ≠ .service → xs = [])
  books : Books s t

section
variable {s t : State} (h : Settles s t)
include h

theorem Settles.htb : t.htb = s.htb := (congrArg State.htb h.frame :)
theorem Settles.params : t.params = s.params := (congrArg State.params h.frame :)
theorem Settles.own : t.own = s.own := (congrArg State.own h.frame :)
theorem Settles.fru : t.fru = s.fru := (congrArg State.fru h.frame :)
theorem Settles.down : t.down = s.down := (congrArg State.down h.frame :)
theorem Settles.powered : t.powered = s.powered := (congrArg State.powered h.frame :)
theorem Settles.lsu : t.up.lsu = s.up.lsu := (congrArg (fun u : State => u.up.lsu) h.frame :)
theorem Settles.up : t.up = { s.up with queue := t.up.queue, fruCtr := t.up.fruCtr } :=
  (congrArg (fun u : State => { u.up with queue := t.up.queue, fruCtr := t.up.fruCtr }) h.frame :)
theorem Settles.tpi : t.tpi = { s.tpi with ring := t.tpi.ring, overflow := t.tpi.overflow } :=
  (congrArg (fun u : State => { u.tpi with ring := t.tpi.ring, overflow := t.tpi.overflow }) h.frame :)
theorem Settles.replies : t.tpi.replies = s.tpi.replies :=
  (congrArg (fun u : State => u.tpi.replies) h.frame :)

theorem Settles.onlyTrade : OnlyTrade s t :=
  (congrArg (fun u : State => { u with
    up := t.up, tts := t.tts, sru := t.sru, bdc := t.bdc, fqu := t.fqu, sju := t.sju
    tpi := t.tpi }) h.frame :)

end

theorem queue_trans {s t u : State} (lsu : t.up.lsu = s.up.lsu)
    (h : ∃ xs, t.up.queue = s.up.queue ++ xs ∧ (s.up.lsu.state ≠ .service → xs = []))
    (k : ∃ xs, u.up.queue = t.up.queue ++ xs ∧ (t.up.lsu.state ≠ .service → xs = [])) :
    ∃ xs, u.up.queue = s.up.queue ++ xs ∧ (s.up.lsu.state ≠ .service → xs = []) := by
  obtain ⟨xs, hx, hx'⟩ := h
  obtain ⟨ys, hy, hy'⟩ := k
  refine ⟨xs ++ ys, by rw [hy, hx, List.append_assoc], fun n => ?_⟩
  rw [hx' n, hy' (by rwa [lsu]), List.nil_append]

theorem Settles.trans {s t u : State} (h : Settles s t) (k : Settles t u) : Settles s u :=
  ⟨k.frame.trans h.frame, queue_trans h.lsu h.queue k.queue, h.books.trans k.books⟩

theorem Settles.refl (s : State) : Settles s s :=
  ⟨rfl, ⟨[], (List.append_nil _).symm, fun _ => rfl⟩, .refl s⟩

theorem Settles.ite {c : Prop} [Decidable c] {s t u : State} (h : Settles s t) (k : Settles s u) :
    Settles s (if c then t else u) := by
  split
  · exact h
  · exact k

theorem Settles.foldl {α : Type} (f : State → α → State) (h : ∀ s a, Settles s (f s a))
    (as : List α) (s : State) : Settles s (as.foldl f s) := by
  induction as generalizing s with
  | nil => exact .refl s
  | cons a as ih => exact (h s a).trans (ih (f s a))

theorem Trades.settleFrame {s t : State} (h : Trades s t) : settleFrame t = settleFrame s :=
  (congrArg Proofs.settleFrame h.frame :)

theorem Trades.settles {s t : State} (h : Trades s t) : Settles s t :=
  ⟨h.settleFrame, h.queue, h.books⟩

theorem Announces.settles {s t : State} (h : Announces s t) : Settles s t := h.toTrades.settles

/-- A change of the banks, the tables or the sales, followed by announcements that derive the mode. -/
theorem Settles.of_parts {s u t : State} (frame : Proofs.settleFrame u = Proofs.settleFrame s)
    (up : u.up = s.up) (h : Trades u t) (mode : ModeTrue s → ModeTrue t)
    (ledger : LedgerIs s → LedgerIs u) : Settles s t := by
  obtain ⟨xs, hx, hx'⟩ := h.queue
  rw [up] at hx hx'
  exact ⟨h.settleFrame.trans frame, ⟨xs, hx, hx'⟩, mode, h.books.ledger ∘ ledger⟩

/-- A change of the banks with its announcements. -/
theorem Settles.of_tts {s t : State} {x : Tts} (h : Trades { s with tts := x } t) : Settles s t :=
  .of_parts (u := { s with tts := x }) rfl rfl h h.books.mode fun ⟨a, b, c, d⟩ => ⟨a, b, c, d⟩

/-! ## Fare tables -/

theorem activate_trades (s : State) : Trades { s with fqu := s.fqu.activated } s.activate :=
  ((invalidateAll_announces _).trans (deriveSalesMode_announces _)).toTrades

theorem activate_settles (s : State) : Settles s s.activate :=
  .of_parts (u := { s with fqu := s.fqu.activated }) rfl rfl (activate_trades s)
    (fun _ => deriveSalesMode_true _) fun ⟨a, b, c, d⟩ => ⟨a, b, c, d⟩

theorem testActivation_cases (s : State) :
    s.testActivation = s ∨ (∃ i, s.fqu.schedule = some i ∧ s.reached i = true
      ∧ s.fqu.pendingTable ≠ none ∧ s.testActivation = s.activate) := by
  unfold State.testActivation
  split
  · next i e =>
    split
    · next h =>
      rw [Bool.and_eq_true, Option.isSome_iff_ne_none] at h
      exact .inr ⟨i, e, h.1, h.2, rfl⟩
    · exact .inl rfl
  · exact .inl rfl

theorem testActivation_settles (s : State) : Settles s s.testActivation := by
  rcases testActivation_cases s with e | ⟨_, _, _, _, e⟩
  · rw [e]; exact .refl s
  · rw [e]; exact activate_settles s

theorem clearFares_settles (s : State) : Settles s s.clearFares := by
  refine .of_parts (u := { s with fqu := { s.fqu with
    active := none, pendingTable := none, schedule := none } }) rfl rfl ?_
    (fun _ => deriveSalesMode_true _) fun ⟨a, b, c, d⟩ => ⟨a, b, c, d⟩
  exact ((invalidateAll_announces _).trans (deriveSalesMode_announces _)).toTrades

/-! ## Appends -/

theorem push_ledger {j : Sju} {b : JournalBody} (h : (⟨j.writeSeq, b⟩ : JournalRecord).offlineTotal = none) :
    (j.push b).journal.filterMap (·.offlineTotal) = j.journal.filterMap (·.offlineTotal) := by
  simp [Sju.push, List.filterMap_append, h]

/-- A record appended, with the notice it may bring (R165). -/
theorem appendRecord_of_mayAppend {s : State} {b : JournalBody} (h : s.mayAppend b = true) :
    OnlyDesk { s with sju := s.sju.push b } (s.appendRecord b) := by
  unfold State.appendRecord
  rw [if_pos h]
  exact .ite (postNotice_desk _ _) (.refl _)

theorem appendRecord_of_not {s : State} {b : JournalBody} (h : s.mayAppend b = false) :
    s.appendRecord b = s := by
  unfold State.appendRecord
  rw [h]
  rfl

theorem appendRecord_trades {s : State} {b : JournalBody} (h : s.mayAppend b = true) :
    Trades { s with sju := s.sju.push b } (s.appendRecord b) := by
  unfold State.appendRecord
  rw [if_pos h]
  exact .ite (postNotice_announces _ _).toTrades (.refl _)

theorem modSjuCtr_settles (s : State) (f : SjuCounters → SjuCounters) :
    Settles s (s.modSjuCtr f) :=
  ⟨rfl, ⟨[], (List.append_nil _).symm, fun _ => rfl⟩, id, fun ⟨a, b, c, d⟩ => ⟨a, b, c, d⟩⟩

theorem appendRecord_up (s : State) (b : JournalBody) : (s.appendRecord b).up = s.up := by
  by_cases h : s.mayAppend b = true
  · exact (appendRecord_of_mayAppend h).up
  · rw [appendRecord_of_not (Bool.not_eq_true _ ▸ h)]

theorem appendRecord_settleFrame (s : State) (b : JournalBody) :
    settleFrame (s.appendRecord b) = settleFrame s := by
  by_cases h : s.mayAppend b = true
  · exact (appendRecord_trades h).settleFrame
  · rw [appendRecord_of_not (Bool.not_eq_true _ ▸ h)]

theorem appendRecord_auths (s : State) (b : JournalBody) :
    (s.appendRecord b).sju.pendingAuth = s.sju.pendingAuth
      ∧ (s.appendRecord b).sju.authsPending = s.sju.authsPending := by
  by_cases h : s.mayAppend b = true
  · rw [(appendRecord_of_mayAppend h).sju]
    exact ⟨rfl, rfl⟩
  · rw [appendRecord_of_not (Bool.not_eq_true _ ▸ h)]
    exact ⟨rfl, rfl⟩

/-- A record that bears no CARD_OFFLINE sale leaves the exposure as it was (R157). -/
theorem appendRecord_ledger (s : State) {b : JournalBody}
    (h : (⟨s.sju.writeSeq, b⟩ : JournalRecord).offlineTotal = none) (ledger : LedgerIs s) :
    LedgerIs (s.appendRecord b) := by
  obtain ⟨count, amount, held, auths⟩ := ledger
  by_cases may : s.mayAppend b = true
  · refine (appendRecord_trades may).books.ledger ⟨?_, ?_, held, auths⟩
    · rw [push_ledger h]
      exact count
    · rw [push_ledger h]
      exact amount
  · rw [appendRecord_of_not (Bool.not_eq_true _ ▸ may)]
    exact ⟨count, amount, held, auths⟩

/-- A record that bears no CARD_OFFLINE sale, appended or lost (R165). -/
theorem appendOrLose_settles (s : State) (b : JournalBody) (lost : SjuCounters → SjuCounters)
    (h : (⟨s.sju.writeSeq, b⟩ : JournalRecord).offlineTotal = none) :
    Settles s (s.appendOrLose b lost) := by
  unfold State.appendOrLose
  split
  · exact .of_parts (appendRecord_settleFrame s b) (appendRecord_up s b)
      (afterAppend_announces _).toTrades (fun _ => afterAppend_true _) (appendRecord_ledger s h)
  · exact .ite (.refl s) (modSjuCtr_settles s lost)

theorem appendReversal_settles (s : State) (tag : Tag) (total : Nat) (code : List Byte) :
    Settles s (s.appendReversal tag total code) := appendOrLose_settles s _ _ rfl

theorem closeDay_settles (s : State) (d : Date) : Settles s (s.closeDay d) := by
  refine (appendOrLose_settles s (.dayTotal d s.sju.totals)
    (fun c => { c with recordLost := tally c.recordLost }) rfl).trans ?_
  exact ⟨rfl, ⟨[], (List.append_nil _).symm, fun _ => rfl⟩, id, fun ⟨a, b, c, d⟩ => ⟨a, b, c, d⟩⟩

/-! ## The day -/

/-- An operation of the day: it may withdraw quotes and do no other thing to a slot. -/
structure Turns (s t : State) : Prop extends Settles s t where
  slots : ∀ i : Fin 4, SlotFollows s.fqu.slots[i] t.fqu.slots[i]
  pendingAuth : t.sju.pendingAuth = s.sju.pendingAuth

theorem Turns.trans {s t u : State} (h : Turns s t) (k : Turns t u) : Turns s u :=
  ⟨h.toSettles.trans k.toSettles, fun i => (h.slots i).trans (k.slots i),
    k.pendingAuth.trans h.pendingAuth⟩

theorem Turns.refl (s : State) : Turns s s := ⟨.refl s, fun _ => .same _, rfl⟩

theorem Turns.ite {c : Prop} [Decidable c] {s t u : State} (h : Turns s t) (k : Turns s u) :
    Turns s (if c then t else u) := by
  split
  · exact h
  · exact k

theorem Turns.foldl {α : Type} (f : State → α → State) (h : ∀ s a, Turns s (f s a))
    (as : List α) (s : State) : Turns s (as.foldl f s) := by
  induction as generalizing s with
  | nil => exact .refl s
  | cons a as ih => exact (h s a).trans (ih (f s a))

theorem Trades.turns {s t : State} (h : Trades s t) : Turns s t := ⟨h.settles, h.slots, h.pendingAuth⟩

theorem Announces.turns {s t : State} (h : Announces s t) : Turns s t := h.toTrades.turns

theorem Turns.of_tts {s t : State} {x : Tts} (h : Trades { s with tts := x } t) : Turns s t :=
  ⟨.of_tts h, h.slots, h.pendingAuth⟩

theorem testActivation_turns (s : State) : Turns s s.testActivation := by
  refine ⟨testActivation_settles s, fun i => ?_, ?_⟩
  all_goals rcases testActivation_cases s with e | ⟨_, _, _, _, e⟩
  · rw [e]; exact .same _
  · rw [e]; exact (activate_trades s).slots i
  · rw [e]
  · rw [e]; exact (activate_trades s).pendingAuth

theorem appendOrLose_slots (s : State) (b : JournalBody) (lost : SjuCounters → SjuCounters) (i : Fin 4) :
    SlotFollows s.fqu.slots[i] (s.appendOrLose b lost).fqu.slots[i] := by
  unfold State.appendOrLose
  split
  · next may =>
    exact ((appendRecord_trades may).trans (afterAppend_announces _).toTrades).slots i
  · split
    all_goals exact .same _

theorem appendOrLose_pendingAuth (s : State) (b : JournalBody) (lost : SjuCounters → SjuCounters) :
    (s.appendOrLose b lost).sju.pendingAuth = s.sju.pendingAuth := by
  unfold State.appendOrLose
  split
  · exact (afterAppend_announces _).pendingAuth.trans (appendRecord_auths s b).1
  · split
    all_goals rfl

theorem closeDay_turns (s : State) (d : Date) : Turns s (s.closeDay d) :=
  ⟨closeDay_settles s d, appendOrLose_slots s _ _, appendOrLose_pendingAuth s _ _⟩

theorem switchBanks_turns (s : State) : Turns s s.switchBanks := .of_tts (announceSwitch_trades _)

theorem clearBanks_turns (s : State) : Turns s s.clearBanks := .of_tts (announceSwitch_trades _)

theorem boardsOnSwitch_announces (s : State) : Announces s s.boardsOnSwitch :=
  (setMessages_announces s _).trans (chooseEnergy_announces _)

theorem announceDaySwitch_turns (s : State) (d : Option Date) : Turns s (s.announceDaySwitch d) := by
  unfold State.announceDaySwitch
  have front := ((switchBanks_turns s).trans (invalidateAll_announces _).turns).trans
    (testActivation_turns _)
  cases d with
  | none => exact front.trans (boardsOnSwitch_announces _).turns
  | some d => exact (front.trans (closeDay_turns _ d)).trans (boardsOnSwitch_announces _).turns

theorem announceTime_turns (s : State) : Turns s s.announceTime :=
  ((((((testOverdue_trades s).turns.trans (testCutoffs_announces _).turns).trans
    (testActivation_turns _)).trans (cutoffQuotes_announces _).turns).trans
    (evaluateMessages_announces _).turns).trans (chooseEnergy_announces _).turns).trans
    (compose_announces _).turns

theorem testSecond_turns (s : State) : Turns s s.testSecond :=
  (((testOverdue_trades s).turns.trans (testCutoffs_announces _).turns).trans
    (testActivation_turns _)).trans (cutoffQuotes_announces _).turns

theorem setCallState_turns (s : State) (k : Key) (st : CallState) : Turns s (s.setCallState k st) :=
  .of_tts (announceState_trades _ k)

theorem expireCall_turns (s : State) (k : Key) : Turns s (s.expireCall k) := by
  unfold State.expireCall
  split
  · exact .ite (setCallState_turns s _ _) (.refl s)
  · exact .refl s

theorem expireCalls_turns (s : State) : Turns s s.expireCalls :=
  Turns.foldl _ expireCall_turns s.keys s

/-! ## The time base -/

/-- A change of the time base with what it brings: an operation of the day, but for the time. -/
structure Winds (s t : State) : Prop where
  frame : settleFrame { t with htb := s.htb } = settleFrame s
  queue : ∃ xs, t.up.queue = s.up.queue ++ xs ∧ (s.up.lsu.state ≠ .service → xs = [])
  slots : ∀ i : Fin 4, SlotFollows s.fqu.slots[i] t.fqu.slots[i]
  pendingAuth : t.sju.pendingAuth = s.sju.pendingAuth
  books : Books s t
  sync : t.htb.sync = .unset ↔ s.htb.sync = .unset

section
variable {s t : State} (h : Winds s t)
include h

theorem Winds.params : t.params = s.params := (congrArg State.params h.frame :)
theorem Winds.lsu : t.up.lsu = s.up.lsu := (congrArg (fun u : State => u.up.lsu) h.frame :)

theorem Winds.onlyClock : t = { s with
    up := t.up, htb := t.htb, tts := t.tts, sru := t.sru, bdc := t.bdc, fqu := t.fqu, sju := t.sju
    tpi := t.tpi } :=
  (congrArg (fun u : State => { u with
    up := t.up, htb := t.htb, tts := t.tts, sru := t.sru, bdc := t.bdc, fqu := t.fqu, sju := t.sju
    tpi := t.tpi }) h.frame :)

end

theorem Winds.trans {s t u : State} (h : Winds s t) (k : Winds t u) : Winds s u where
  frame := by
    have e := congrArg (fun v : State => { v with htb := s.htb }) k.frame
    exact Eq.trans e h.frame
  queue := queue_trans h.lsu h.queue k.queue
  slots i := (h.slots i).trans (k.slots i)
  pendingAuth := k.pendingAuth.trans h.pendingAuth
  books := h.books.trans k.books
  sync := k.sync.trans h.sync

theorem Turns.winds {s t : State} (h : Turns s t) : Winds s t :=
  ⟨(congrArg (fun u : State => { u with htb := s.htb }) h.frame :), h.queue, h.slots,
    h.pendingAuth, h.books, by rw [h.htb]⟩

theorem Trades.winds {s t : State} (h : Trades s t) : Winds s t := h.turns.winds

theorem Announces.winds {s t : State} (h : Announces s t) : Winds s t := h.turns.winds

theorem Winds.refl (s : State) : Winds s s := (Turns.refl s).winds

theorem Winds.ite {c : Prop} [Decidable c] {s t u : State} (h : Winds s t) (k : Winds s u) :
    Winds s (if c then t else u) := by
  split
  · exact h
  · exact k

/-- The time alone changed, set as it was set before. -/
theorem Winds.setHtb (s : State) {h : Htb} (set : h.sync = .unset ↔ s.htb.sync = .unset) :
    Winds s { s with htb := h } where
  frame := rfl
  queue := ⟨[], (List.append_nil _).symm, fun _ => rfl⟩
  slots _ := .same _
  pendingAuth := rfl
  books := by
    refine ⟨fun m => ?_, fun ⟨a, b, c, d⟩ => ⟨a, b, c, d⟩⟩
    rw [ModeTrue] at m ⊢
    simp only [State.salesModeOf, set]
    exact m
  sync := set

theorem countDefer_winds (s : State) : Winds s s.countDefer := .setHtb s Iff.rfl

theorem daySwitchOnce_winds (s : State) (x : Nat) : Winds s (s.daySwitchOnce x) :=
  Winds.trans (t := { s with htb := s.htb.switchedAt s.params.hour x }) (.setHtb s Iff.rfl)
    (announceDaySwitch_turns _ _).winds

theorem rolloverWith_winds {f : State → Nat → State} (hf : ∀ s x, Winds s (f s x)) (s : State) :
    Winds s (s.rolloverWith f) := by
  unfold State.rolloverWith
  exact .ite (hf _ _) (.ite ((countDefer_winds s).trans (hf _ _)) (.setHtb s Iff.rfl))

theorem daySwitch_winds (s : State) (x : Nat) : Winds s (s.daySwitch x) :=
  .ite ((daySwitchOnce_winds s x).trans (rolloverWith_winds daySwitchOnce_winds _))
    (daySwitchOnce_winds s x)

theorem rolloverCheck_winds (s : State) : Winds s s.rolloverCheck :=
  rolloverWith_winds daySwitch_winds s

theorem deferralTests_winds (s : State) : Winds s s.deferralTests :=
  .ite ((countDefer_winds s).trans (daySwitch_winds _ _)) (.ite (.refl s) (daySwitch_winds s _))

theorem forceDaySwitch_winds (s : State) : Winds s s.forceDaySwitch :=
  .ite (daySwitch_winds s _) (.refl s)

theorem placePast_winds (s : State) (t : Nat) : Winds s (s.placePast t) := by
  unfold State.placePast
  exact Winds.trans (t := { s with htb := { s.htb with secs := t, stand := 0 } })
    (.setHtb s Iff.rfl) (.ite (deferralTests_winds _) (rolloverCheck_winds _))

theorem place_winds (s : State) (t : Int) (f : TimeFrame) : Winds s (s.place t f) := by
  unfold State.place
  refine .ite (daySwitch_winds s _) (.ite (placePast_winds s _) (.ite (.setHtb s Iff.rfl)
    (.ite (.setHtb s Iff.rfl) (.ite ?_ (.setHtb s Iff.rfl)))))
  exact Winds.trans (t := { s with htb := { s.htb.placed f.secs 0 with date := f.date } })
    (.setHtb s Iff.rfl) (announceDaySwitch_turns _ _).winds

theorem advanceSync_set (h : Htb) : h.advanceSync.sync = .unset ↔ h.sync = .unset := by
  unfold Htb.advanceSync
  split
  · exact Iff.rfl
  all_goals
    next e =>
    rw [e]
    simp only [syncOf]
    split <;> simp

theorem advanceSecs_sync (h : Htb) : h.advanceSecs.sync = h.sync := by
  unfold Htb.advanceSecs
  split
  · rfl
  all_goals split <;> rfl

theorem checkDay_winds (s : State) : Winds s s.checkDay :=
  .ite (deferralTests_winds s) (.ite (rolloverCheck_winds s) (.refl s))

theorem serviceSecond_winds (s : State) : Winds s s.serviceSecond := by
  have told : Winds s (State.announceSync { s with htb := s.htb.advanceSync } s.htb) :=
    (Winds.setHtb s (advanceSync_set s.htb)).trans (announceSync_trades _ _).winds
  unfold State.serviceSecond
  refine told.trans ?_
  have counted (u : State) : Winds u { u with htb := u.htb.advanceSecs } :=
    .setHtb u (by rw [advanceSecs_sync])
  exact .ite (counted _) (((counted _).trans (checkDay_winds _)).trans (testSecond_turns _).winds)

theorem applyTime_winds {s : State} (set : s.htb.sync ≠ .unset) (f : TimeFrame) :
    Winds s (s.applyTime f) := by
  unfold State.applyTime
  have placed := place_winds s (s.htb.target f.date f.secs) f
  refine (placed.trans (Winds.trans (.setHtb _ ?_) (announceSync_trades _ _).winds)).trans
    (announceTime_turns _).winds
  simp [placed.sync, set, Htb.locked]

/-- A change of the sync state derives the sales mode (R58, R156). -/
theorem announceSync_true {s : State} {before : Htb} (h : s.htb.sync ≠ before.sync) :
    ModeTrue (s.announceSync before) := by
  unfold State.announceSync
  rw [if_neg h]
  exact ((((evaluateMessages_announces _).trans (chooseEnergy_announces _)).trans
    (compose_announces _)).trans (postNotice_announces _ _)).books.mode (deriveSalesMode_true _)

theorem firstTime_books {s : State} (unset : s.htb.sync = .unset) (f : TimeFrame) :
    Books s (s.firstTime f) := by
  unfold State.firstTime
  refine Books.trans ⟨fun _ => announceSync_true ?_, fun ⟨a, b, c, d⟩ => ?_⟩
    ((announceDaySwitch_turns _ _).trans (announceTime_turns _)).books
  · rw [unset]
    exact nofun
  · exact (announceSync_trades _ _).books.ledger ⟨a, b, c, d⟩

theorem modHtbCtr_winds (s : State) (f : HtbCounters → HtbCounters) : Winds s (s.modHtbCtr f) :=
  .setHtb s Iff.rfl

theorem takeTime_books (s : State) (bs : List Byte) : Books s (s.takeTime bs) := by
  unfold State.takeTime
  split
  · exact (modHtbCtr_winds s _).books
  · split
    · next unset => exact firstTime_books unset _
    · next set => exact .ite (applyTime_winds set _).books (modHtbCtr_winds s _).books

theorem minuteTick_turns (s : State) : Turns s s.minuteTick :=
  ((((expireCalls_turns s).trans (rederiveConfidence_trades _).turns).trans
    (evaluateMessages_announces _).turns).trans (chooseEnergy_announces _).turns).trans
    (minuteRefresh_announces _).turns

/-! ## Sales -/

/-- The state as the ticket of a sale asks for its stop (R159, step 6). -/
def afterSold (s : State) (x : Sale) : State :=
  { s.appendRecord (.sale x) with sju := (s.appendRecord (.sale x)).sju.sold s.sju.writeSeq x }

/-- The state with the ticket's request made (R109, R159). -/
def afterAsked (s : State) (q : Quote) (x : Sale) : State :=
  match q.call with
  | some k => (afterSold s x).ticketRequest k
  | none => afterSold s x

theorem completeSale_eq (s : State) (i : Fin 4) (q : Quote) (x : Sale) :
    s.completeSale i q x =
      State.afterAppend { (afterAsked s q x).setSlot i .free with
        sju := ((afterAsked s q x).setSlot i .free).sju.withExposure } := rfl

theorem afterAsked_trades (s : State) (q : Quote) (x : Sale) :
    Trades (afterSold s x) (afterAsked s q x) := by
  unfold afterAsked
  split
  · exact ticketRequest_trades _ _
  · exact .refl _

theorem completeSale_settles (s : State) (i : Fin 4) (q : Quote) (x : Sale) :
    Settles s (s.completeSale i q x) := by
  rw [completeSale_eq]
  have asked := afterAsked_trades s q x
  have after := (afterAppend_announces { (afterAsked s q x).setSlot i .free with
    sju := ((afterAsked s q x).setSlot i .free).sju.withExposure }).toTrades
  obtain ⟨pending, auths⟩ := appendRecord_auths s (.sale x)
  have up : (afterSold s x).up = s.up := appendRecord_up s _
  refine ⟨?_, ?_, fun _ => afterAppend_true _, fun ledger => after.books.ledger ?_⟩
  · exact after.settleFrame.trans (asked.settleFrame.trans (appendRecord_settleFrame s (.sale x)))
  · refine queue_trans (t := afterAsked s q x) (by rw [asked.lsu, up]) ?_ after.queue
    have := asked.queue
    rwa [up] at this
  · refine ⟨rfl, rfl, rfl, ?_⟩
    have h := ledger.auths
    rw [← pending, ← auths] at h
    exact (asked.authsPending.trans h).trans
      (congrArg (fun p : Option PendingAuth => if p.isSome then 1 else 0) asked.pendingAuth).symm

theorem startAuth_settles (s : State) (i : Fin 4) (q : Quote) (token : List Byte) :
    Settles s (s.startAuth i q token) := by
  refine .of_parts (u := { s.setSlot i (.pendingAuth q false) with
    sju := { (s.setSlot i (.pendingAuth q false)).sju with
      authSerial := s.sju.authSerial + 1#8
      pendingAuth := some ⟨⟨s.own.haltCode, BitVec.ofNat 8 i.val, s.sju.authSerial⟩, i, q.total,
        .running (1000 * s.params.authTimeout)⟩
      authsPending := 1 } }) rfl rfl (offerOwnUp_announces _ _ _ _).toTrades (fun m => ?_)
    fun ⟨a, b, _, _⟩ => ⟨a, b, rfl, rfl⟩
  exact (offerOwnUp_announces _ _ _ _).books.mode m

theorem endAuth_settles (s : State) (p : PendingAuth) : Settles s (s.endAuth p) :=
  ⟨rfl, ⟨[], (List.append_nil _).symm, fun _ => rfl⟩, id, fun ⟨a, b, _, _⟩ => ⟨a, b, rfl, rfl⟩⟩

/-- A change of the journal's counters, tags, window or totals alone. -/
theorem Settles.of_sju {s : State} {j : Sju}
    (h : { j with ctr := {}, lateTags := [], window := [], totals := {} }
      = { s.sju with ctr := {}, lateTags := [], window := [], totals := {} }) :
    Settles s { s with sju := j } := by
  refine ⟨rfl, ⟨[], (List.append_nil _).symm, fun _ => rfl⟩, fun m => ?_, fun ⟨a, b, c, d⟩ => ?_⟩
  · have mode : j.salesMode = s.sju.salesMode := (congrArg Sju.salesMode h :)
    have inputs : State.salesModeOf { s with sju := j } = s.salesModeOf :=
      (congrArg (fun x : Sju => State.salesModeOf { s with sju := x }) h :)
    rw [ModeTrue, inputs]
    exact mode.trans m
  · have e1 : j.xc = s.sju.xc := (congrArg Sju.xc h :)
    have e2 : j.xa = s.sju.xa := (congrArg Sju.xa h :)
    have e3 : j.journal = s.sju.journal := (congrArg Sju.journal h :)
    have e4 : j.quotesHeld = s.sju.quotesHeld := (congrArg Sju.quotesHeld h :)
    have e5 : j.pendingAuth = s.sju.pendingAuth := (congrArg Sju.pendingAuth h :)
    have e6 : j.authsPending = s.sju.authsPending := (congrArg Sju.authsPending h :)
    refine ⟨?_, ?_, ?_, ?_⟩
    · simpa only [e1, e3] using a
    · simpa only [e2, e3] using b
    · simpa only [e4] using c
    · simpa only [e5, e6] using d

theorem abandonAuth_settles (s : State) (r : Result) (f : SjuCounters → SjuCounters) :
    Settles s (s.abandonAuth r f) := by
  unfold State.abandonAuth
  split
  · exact .refl s
  · next p _ =>
    refine ((endAuth_settles s p).trans ?_).trans (postNotice_announces _ _).settles
    exact .of_sju rfl

theorem approve_settles (s : State) (p : PendingAuth) (code : List Byte) :
    Settles s (s.approve p code) := by
  unfold State.approve
  split
  · exact ((endAuth_settles s p).trans (completeSale_settles _ _ _ _)).trans
      (postNotice_announces _ _).settles
  all_goals
    exact ((appendReversal_settles s _ _ _).trans (endAuth_settles _ p)).trans
      (postNotice_announces _ _).settles

theorem answerPending_settles (s : State) (p : PendingAuth) (a : AuthResult) :
    Settles s (s.answerPending p a) :=
  .ite (approve_settles s p _) ((endAuth_settles s p).trans (postNotice_announces _ _).settles)

theorem answerLate_settles (s : State) (t : LateTag) (a : AuthResult) :
    Settles s (s.answerLate t a) := by
  unfold State.answerLate
  refine Settles.trans (t := { s with sju := { s.sju with
    lateTags := s.sju.lateTags.filter fun x => x.tag != t.tag } }) (.of_sju rfl) ?_
  exact .ite (appendReversal_settles _ _ _ _) (modSjuCtr_settles _ _)

theorem takeAuthres_settles (s : State) (bs : List Byte) : Settles s (s.takeAuthres bs) := by
  unfold State.takeAuthres
  split
  · unfold State.answerAuth
    split
    · exact answerPending_settles s _ _
    · split
      · exact answerLate_settles s _ _
      · exact modSjuCtr_settles s _
  · exact modSjuCtr_settles s _

theorem goBack_settles (s : State) : Settles s { s with sju := s.sju.goBack } :=
  ⟨rfl, ⟨[], (List.append_nil _).symm, fun _ => rfl⟩, id, fun ⟨a, b, c, d⟩ => ⟨a, b, c, d⟩⟩

theorem salesLoseLink_settles (s : State) : Settles s s.salesLoseLink :=
  ((abandonAuth_settles s _ _).trans (goBack_settles _)).trans (deriveSalesMode_announces _).settles

theorem salesLoseLink_true (s : State) : ModeTrue s.salesLoseLink := deriveSalesMode_true _

theorem salesGainLink_announces (s : State) : Announces s s.salesGainLink :=
  (deriveSalesMode_announces s).trans (drain_announces _)

theorem dropTicket_settles (s : State) (n : TicketNo) : Settles s (s.dropTicket n) := .of_sju rfl

theorem voidTicket_settles (s : State) (t : IssuedTicket) : Settles s (s.voidTicket t) := by
  unfold State.voidTicket
  generalize body : JournalBody.void s.htb.date s.htb.secs t.sale.ticket t.sale.total = b
  have ledger := appendRecord_ledger s (b := b) (by rw [← body]; rfl)
  have frame := appendRecord_settleFrame s b
  have up := appendRecord_up s b
  generalize s.appendRecord b = v at ledger frame up ⊢
  refine .of_parts (u := { v.dropTicket t.sale.ticket with
    sju := { (v.dropTicket t.sale.ticket).sju with
      totals := v.sju.totals.lose t.sale.payment t.sale.total } }) frame up
    (afterAppend_announces _).toTrades (fun _ => afterAppend_true _) fun h => ?_
  obtain ⟨a, b, c, d⟩ := ledger h
  exact ⟨a, b, c, d⟩

/-- A may move by a number of records; the exposure follows (R157, R169). -/
theorem advanceAck_settles (s : State) (n : Nat) : Settles s (s.advanceAck n) := by
  refine .ite (.refl s) ?_
  exact .of_parts (u := { s with sju := s.sju.acknowledge n }) rfl rfl
    (afterAppend_announces _).toTrades (fun _ => afterAppend_true _)
    fun ⟨_, _, c, d⟩ => ⟨rfl, rfl, c, d⟩

theorem takeJack_settles (s : State) (d : HaltCode) (bs : List Byte) :
    Settles s (s.takeJack d bs) := by
  unfold State.takeJack
  split
  · refine .ite ?_ (modSjuCtr_settles s _)
    unfold State.ackThrough
    exact .ite (modSjuCtr_settles s _) (.ite (advanceAck_settles s _)
      ((modSjuCtr_settles s _).trans (advanceAck_settles _ _)))
  · exact modSjuCtr_settles s _

end Sys2Proof.Proofs
end

