-- ==== Sys2Proof/Proofs/Commands.lean ====
section
/-! Every command goes on, keeps the queue of commands and keeps the soundness of the state; what
follows for every step (95). -/

namespace Sys2Proof.Proofs

open Sys2Proof.Machine Sys2Proof.Safety Sys2Proof.Laws

/-! ## The requests of the terminal -/

theorem serveNotices_keeps (count : Byte) (s : State) : Keeps s (serveNotices count s).state := by
  unfold serveNotices
  dsimp only
  split
  · exact (setRing_keeps s _ (by simp only [List.length_drop]; omega)).trans (.of_sound rfl)
  · exact .refl s

theorem serveNotices_replies (count : Byte) (s : State) :
    (serveNotices count s).state.tpi.replies = s.tpi.replies := by
  unfold serveNotices
  dsimp only
  split
  · exact (setRing_announces s _).replies
  · rfl

theorem serveCancel_cases (slot : Byte) (s : State) :
    (serveCancel slot s).state = s ∨ ∃ i, (serveCancel slot s).state = s.setSlot i .free := by
  unfold serveCancel
  split
  · exact .inl rfl
  · split
    · exact .inr ⟨_, rfl⟩
    · exact .inl rfl
    · exact .inl rfl

theorem serveQuote_cases (r : QuoteRequest) (s : State) :
    (serveQuote r s).state = s ∨ ∃ i q, (serveQuote r s).state = s.setSlot i (.opened q) := by
  unfold serveQuote
  split
  · exact .inl rfl
  · exact .inr ⟨_, _, rfl⟩

theorem serveFind_state (r : FindRequest) (s : State) : (serveFind r s).state = s := by
  unfold serveFind
  split
  · rfl
  · dsimp only
    split <;> rfl

theorem serveIssue_cases (r : IssueRequest) (s : State) :
    (serveIssue r s).state = s
      ∨ (∃ i q token, (serveIssue r s).state = s.startAuth i q token)
      ∨ ∃ i q x, (serveIssue r s).state = s.completeSale i q x := by
  unfold serveIssue
  split
  · exact .inl rfl
  · split
    · exact .inr (.inl ⟨_, _, _, rfl⟩)
    all_goals exact .inr (.inr ⟨_, _, _, rfl⟩)

theorem serveVoid_cases (n : TicketNo) (s : State) :
    (serveVoid n s).state = s ∨ ∃ t, (serveVoid n s).state = s.voidTicket t := by
  unfold serveVoid
  split
  · exact .inl rfl
  · split
    · exact .inr ⟨_, rfl⟩
    · exact .inl rfl

/-- What TICKET serves (R160). -/
def serveTicket (n : TicketNo) (s : State) : Served :=
  match s.sju.ticket n with
  | some t => { state := s, result := .ok, body := .ticket t.sale }
  | none => { state := s, result := .tooLate }

theorem execTicket_eq (n : TicketNo) (s : State) :
    execTicket n s = whenServed s 4#8 (serveTicket n) := rfl

theorem serveTicket_state (n : TicketNo) (s : State) : (serveTicket n s).state = s := by
  unfold serveTicket
  split <;> rfl

/-- What PRINTED serves (R160). -/
def servePrinted (n : TicketNo) (s : State) : Served :=
  match s.sju.ticket n with
  | some _ => { state := s.dropTicket n, result := .ok }
  | none => { state := s, result := .tooLate }

theorem execPrinted_eq (n : TicketNo) (s : State) :
    execPrinted n s = whenServed s 5#8 (servePrinted n) := rfl

theorem servePrinted_cases (n : TicketNo) (s : State) :
    (servePrinted n s).state = s ∨ (servePrinted n s).state = s.dropTicket n := by
  unfold servePrinted
  split
  · exact .inr rfl
  · exact .inl rfl

/-- A change of nothing the books read. -/
theorem Books.same {s t : State} (sju : t.sju = s.sju) (slots : t.fqu.slots = s.fqu.slots)
    (mode : t.salesModeOf = s.salesModeOf) : Books s t := by
  refine ⟨fun m => ?_, fun ⟨a, b, c, d⟩ => ?_⟩
  · rw [ModeTrue, sju, mode]
    exact m
  · exact ⟨sju ▸ a, sju ▸ b, by rw [sju, slots]; exact c, sju ▸ d⟩

/-- A request served to the end keeps what its owner keeps. -/
structure Serves (f : State → Served) : Prop where
  keeps : ∀ u, Keeps u (f u).state
  replies : ∀ u, (f u).state.tpi.replies = u.tpi.replies
  books : ∀ u, Books u (f u).state

theorem Serves.of_settles {f : State → Served}
    (h : ∀ u, Keeps u (f u).state ∧ Settles u (f u).state) : Serves f :=
  ⟨fun u => (h u).1, fun u => (h u).2.replies, fun u => (h u).2.books⟩

theorem serveNotices_serves (count : Byte) : Serves (serveNotices count) := by
  refine ⟨serveNotices_keeps count, serveNotices_replies count, fun u => ?_⟩
  unfold serveNotices
  dsimp only
  split
  · exact (setRing_announces u _).books.trans (.same rfl rfl rfl)
  · exact .refl u

/-- A slot taken or freed at the terminal (R148, R149). -/
theorem setSlot_settles (s : State) (i : Fin 4) (x : Slot) : Settles s (s.setSlot i x) :=
  ⟨rfl, ⟨[], (List.append_nil _).symm, fun _ => rfl⟩, id, fun ⟨a, b, _, d⟩ => ⟨a, b, rfl, d⟩⟩

theorem serveCancel_serves (slot : Byte) : Serves (serveCancel slot) :=
  .of_settles fun u => by
    rcases serveCancel_cases slot u with e | ⟨i, e⟩
    · rw [e]
      exact ⟨.refl u, .refl u⟩
    · rw [e]
      exact ⟨setSlot_keeps u i _, setSlot_settles u i _⟩

theorem serveQuote_serves (r : QuoteRequest) : Serves (serveQuote r) :=
  .of_settles fun u => by
    rcases serveQuote_cases r u with e | ⟨i, q, e⟩
    · rw [e]
      exact ⟨.refl u, .refl u⟩
    · rw [e]
      exact ⟨setSlot_keeps u i _, setSlot_settles u i _⟩

theorem serveFind_serves (r : FindRequest) : Serves (serveFind r) :=
  .of_settles fun u => by
    rw [serveFind_state]
    exact ⟨.refl u, .refl u⟩

theorem serveIssue_serves (r : IssueRequest) : Serves (serveIssue r) :=
  .of_settles fun u => by
    rcases serveIssue_cases r u with e | ⟨i, q, token, e⟩ | ⟨i, q, x, e⟩
    · rw [e]
      exact ⟨.refl u, .refl u⟩
    · rw [e]
      exact ⟨startAuth_keeps u i q token, startAuth_settles u i q token⟩
    · rw [e]
      exact ⟨completeSale_keeps u i q x, completeSale_settles u i q x⟩

theorem serveVoid_serves (n : TicketNo) : Serves (serveVoid n) :=
  .of_settles fun u => by
    rcases serveVoid_cases n u with e | ⟨t, e⟩
    · rw [e]
      exact ⟨.refl u, .refl u⟩
    · rw [e]
      exact ⟨voidTicket_keeps u t, voidTicket_settles u t⟩

theorem serveTicket_serves (n : TicketNo) : Serves (serveTicket n) :=
  .of_settles fun u => by
    rw [serveTicket_state]
    exact ⟨.refl u, .refl u⟩

theorem servePrinted_serves (n : TicketNo) : Serves (servePrinted n) :=
  .of_settles fun u => by
    rcases servePrinted_cases n u with e | e
    · rw [e]
      exact ⟨.refl u, .refl u⟩
    · rw [e]
      exact ⟨dropTicket_keeps u n, dropTicket_settles u n⟩

theorem answered_serves (x : Result) (b : State → TerminalBody) :
    Serves fun u => { state := u, result := x, body := b u } :=
  .of_settles fun u => ⟨.refl u, .refl u⟩

theorem Serves.goesOn {f : State → Served} (h : Serves f) (s : State) (code : Byte) :
    GoesOn s (whenServed s code f) :=
  whenServed_goesOn h.keeps h.replies

/-! ## Every command goes on -/

/-- The parser ignoring octets, a message of bad form counted (R179). -/
def ignoring (s : State) : State :=
  { s with tpi := { s.tpi with
    parser := .ignoring, ctr := { s.tpi.ctr with form := tally s.tpi.ctr.form } } }

theorem overLength_eq (s : State) (code : Byte) : s.overLength code =
    if s.tpi.replies.length < 4 then
      ((ignoring s).noteActivity .terminal).pushReply ⟨replyCode code, .badMessage, .empty⟩
    else ignoring s := rfl

theorem ignoring_keeps (s : State) : Keeps s (ignoring s) := .of_sound rfl

theorem overLength_keeps (s : State) (code : Byte) : Keeps s (s.overLength code) := by
  rw [overLength_eq]
  split
  · next room =>
    refine (ignoring_keeps s).trans ((noteActivity_keeps _ .terminal).trans
      (pushReply_keeps _ _ ?_))
    rw [(noteActivity_announces _ _).replies]
    exact room
  · exact ignoring_keeps s

theorem badMessage_keeps (s : State) (code : Byte) (form : BadForm) :
    Keeps s (s.badMessage code form) := by
  unfold State.badMessage
  split
  · exact .ite (.refl s) (overLength_keeps s code)
  · exact serve_keeps s code _ (fun _ => .of_sound rfl) fun _ => rfl
  all_goals exact serve_keeps s code _ Keeps.refl fun _ => rfl

theorem modIo_keeps (s : State) (p : Platform) (f : PlatformIo → PlatformIo) :
    Keeps s (s.modIo p f) := by
  cases p <;> exact .of_sound rfl

/-- A change of a port's record that leaves its queue, its bucket and its buffers. -/
theorem modPort_keeps_of_eq (s : State) (p : Port) {f : LinePort → LinePort}
    (h : ∀ lp, (f lp).queue = lp.queue ∧ (f lp).lsu.state = lp.lsu.state
      ∧ (f lp).lsu.bucket = lp.lsu.bucket ∧ (f lp).buffers = lp.buffers) :
    Keeps s (s.modPort p f) :=
  .modPort (.of_eq (h _).1 (h _).2.1 (h _).2.2.1 (h _).2.2.2)

theorem frameClosed_goesOn (p : Port) (bits : List Bool) (s : State) :
    GoesOn s (execFrameClosed p bits s) := by
  refine whenPowered_goesOn ?_
  split
  · exact emptyFlag_keeps s p
  · exact emptyFlag_keeps s p
  · exact emptyFlag_keeps s p
  · exact (reportFlag_keeps s p).trans (flagInFrame_keeps _ p _)
  · exact (reportFlag_keeps s p).trans (closeSequence_keeps _ p _)

theorem abort_goesOn (p : Port) (bits : List Bool) (s : State) :
    GoesOn s (execAbort p bits s) := by
  refine whenPowered_goesOn ?_
  split
  · exact .refl s
  · exact .refl s
  · exact .refl s
  · exact abortInFrame_keeps s p _
  · exact endSequence_keeps s p _

theorem longFrame_goesOn (p : Port) (s : State) : GoesOn s (execLongFrame p s) := by
  refine whenPowered_goesOn ?_
  split
  · exact .refl s
  · exact .refl s
  · exact .refl s
  · exact longInFrame_keeps s p
  · refine .ite (Keeps.trans ?_ (addOctets_keeps _ p _)) (.refl s)
    exact modPort_keeps_of_eq s p fun _ => ⟨rfl, rfl, rfl, rfl⟩

theorem octetGroup_goesOn (p : Port) (s : State) : GoesOn s (execOctetGroup p s) := by
  refine whenPowered_goesOn (.ite (Keeps.trans ?_ (reportGroup_keeps _ p)) (.refl s))
  exact modPort_keeps_of_eq s p fun _ => ⟨rfl, rfl, rfl, rfl⟩

theorem intervalExpiry_goesOn (p : Port) (s : State) : GoesOn s (execIntervalExpiry p s) :=
  whenPowered_goesOn (.ite ((judgeInterval_keeps s p).trans
    (.ite (enterOutage_keeps _ p _) (.refl _))) (.refl s))

theorem pauseExpiry_goesOn (p : Port) (s : State) : GoesOn s (execPauseExpiry p s) :=
  whenPowered_goesOn (.ite (modLsu_keeps s p (fun _ => rfl) fun _ => id) (.refl s))

theorem txFrameEnd_goesOn (p : Port) (s : State) : GoesOn s (execTxFrameEnd p s) := by
  refine whenPowered_goesOn ?_
  split
  · exact (modCtr_keeps s p _).trans (chooseTx_keeps _ p)
  all_goals exact .refl s

theorem txFlagEnd_goesOn (p : Port) (s : State) : GoesOn s (execTxFlagEnd p s) := by
  refine whenPowered_goesOn ?_
  split
  · exact chooseTx_keeps s p
  all_goals exact .refl s

theorem txAbortEnd_goesOn (p : Port) (s : State) : GoesOn s (execTxAbortEnd p s) := by
  refine whenPowered_goesOn ?_
  split
  · exact restTx_keeps s p
  all_goals exact .refl s

theorem frameClassify_goesOn (p : Port) (pins : StrapPins) (s : State) :
    GoesOn s (execFrameClassify p pins s) := by
  refine whenPowered_goesOn ?_
  split
  · exact .refl s
  · next f rest e =>
    refine Keeps.trans (.modPort ⟨id, id, fun room => ?_⟩) (classify_keeps _ p pins f)
    rw [e] at room
    exact (Nat.le_succ _).trans room

theorem powerUp_goesOn (held : Bool) (pins : StrapPins) (low : Bool) (s : State) :
    GoesOn s (execPowerUp held pins low s) := by
  have pinned : Keeps s { s with strapPins := pins, lowEnergy := low } := .of_sound rfl
  exact ⟨_, rfl, pinned.trans (.ite (warmStart_keeps _) (coldStart_keeps _))⟩

theorem serviceSecond_goesOn (s : State) : GoesOn s (execServiceSecond s) :=
  ⟨_, rfl, .ite (serviceSecond_keeps s) ((advanceSync_keeps s).trans (advanceSecs_keeps _))⟩

theorem minuteTick_goesOn (s : State) : GoesOn s (execMinuteTick s) := by
  refine whenPowered_goesOn (.ite (Keeps.trans ?_ (minuteTick_keeps _)) (.refl s))
  exact .of_sound rfl

theorem uptimeSecond_goesOn (s : State) : GoesOn s (execUptimeSecond s) := by
  refine whenPowered_goesOn (Keeps.trans ?_ (compose_keeps _))
  exact .of_sound rfl

theorem contactPulse_goesOn (p : Platform) (s : State) : GoesOn s (execContactPulse p s) :=
  whenPowered_goesOn (.ite (modSruCtr_keeps s _)
    ((modIo_keeps s p _).trans (matchPulse_keeps _ p)))

theorem quoteExpiry_goesOn (i : Fin 4) (s : State) : GoesOn s (execQuoteExpiry i s) :=
  whenPowered_goesOn (expireSlot_keeps s i)

theorem lowEnergyChange_goesOn (asserted : Bool) (s : State) :
    GoesOn s (execLowEnergyChange asserted s) := by
  refine whenPowered_goesOn (Keeps.trans ?_ (chooseEnergy_keeps _))
  exact .of_sound rfl

theorem screenMessageSent_goesOn (s : State) : GoesOn s (execScreenMessageSent s) := by
  refine whenPowered_goesOn (Keeps.trans ?_ (linkStart_keeps _))
  exact .of_bdc ⟨_, rfl⟩

theorem activityExpiry_goesOn (s : State) : GoesOn s (execActivityExpiry s) := by
  refine whenPowered_goesOn
    (.ite (Keeps.trans (Keeps.trans ?_ (darkTest_keeps _ _)) (linkStart_keeps _)) (.refl s))
  exact .of_bdc ⟨_, rfl⟩

theorem badMessage_goesOn (code : Byte) (form : BadForm) (s : State) :
    GoesOn s (execBadMessage code form s) := whenPowered_goesOn (badMessage_keeps s code form)

theorem buttonPress_goesOn (p : Platform) (s : State) : GoesOn s (execButtonPress p s) := by
  refine whenPowered_goesOn ?_
  split
  · exact .refl s
  · exact ((modIo_keeps s p _).trans (noteActivity_keeps _ _)).trans (press_keeps _ p)

theorem resendExpiry_goesOn (k : Key) (s : State) : GoesOn s (execResendExpiry k s) := by
  refine whenPowered_goesOn ?_
  split
  · exact .ite (sendStopreq_keeps s _) (.refl s)
  · exact .refl s

theorem tpGap_goesOn (s : State) : GoesOn s (execTpGap s) := by
  refine whenPowered_goesOn ?_
  split
  all_goals exact .of_sound rfl

theorem terminalReplySent_goesOn (s : State) : GoesOn s (execTerminalReplySent s) := by
  refine whenPowered_goesOn ⟨rfl, id, id, id, id, id, fun ⟨buffers, replies, ring⟩ => ?_, id⟩
  refine ⟨buffers, ?_, ring⟩
  simp only [List.length_drop]
  omega

/-- Every command goes on to a state as sound as the one it acts on. -/
theorem exec_goesOn (c : Instr) (s : State) : GoesOn s (exec c s) :=
  match c with
  | .powerUp held pins low => powerUp_goesOn held pins low s
  | .mainPowerLoss =>
    show GoesOn s (execMainPowerLoss s) from
      whenPowered_goesOn (losePower_keeps s)
  | .flagReceived p =>
    show GoesOn s (execFlagReceived p s) from
      whenPowered_goesOn (emptyFlag_keeps s p)
  | .frameClosed p bits => frameClosed_goesOn p bits s
  | .abort p bits => abort_goesOn p bits s
  | .longFrame p => longFrame_goesOn p s
  | .octetGroup p => octetGroup_goesOn p s
  | .dwellExpiry p =>
    show GoesOn s (execDwellExpiry p s) from
      whenPowered_goesOn (.ite (modPort_keeps_of_eq s p fun _ => ⟨rfl, rfl, rfl, rfl⟩) (.refl s))
  | .txFrameEnd p => txFrameEnd_goesOn p s
  | .txFlagEnd p => txFlagEnd_goesOn p s
  | .fillDueExpiry p =>
    show GoesOn s (execFillDueExpiry p s) from
      whenPowered_goesOn (.ite (modLsu_keeps s p (fun _ => rfl) fun _ => id) (.refl s))
  | .periodExpiry p =>
    show GoesOn s (execPeriodExpiry p s) from
      whenPowered_goesOn (.ite (endPeriod_keeps s p) (.refl s))
  | .pauseExpiry p => pauseExpiry_goesOn p s
  | .intervalExpiry p => intervalExpiry_goesOn p s
  | .silenceExpiry p =>
    show GoesOn s (execSilenceExpiry p s) from
      whenPowered_goesOn (.ite (enterOutage_keeps s p _) (.refl s))
  | .retryExpiry p =>
    show GoesOn s (execRetryExpiry p s) from
      whenPowered_goesOn (.ite (enterHunt_keeps s p) (.refl s))
  | .frameClassify p pins => frameClassify_goesOn p pins s
  | .beaconTimerExpiry =>
    show GoesOn s (execBeaconTimerExpiry s) from
      whenPowered_goesOn (.ite (originateBeacon_keeps s) (.refl s))
  | .serviceSecond => serviceSecond_goesOn s
  | .uptimeSecond => uptimeSecond_goesOn s
  | .minuteTick => minuteTick_goesOn s
  | .buttonPress p => buttonPress_goesOn p s
  | .buttonRelease p =>
    show GoesOn s (execButtonRelease p s) from
      whenPowered_goesOn (modIo_keeps s p _)
  | .noTargetExpiry p =>
    show GoesOn s (execNoTargetExpiry p s) from
      whenPowered_goesOn (.ite ((modIo_keeps s p _).trans (deriveLamps_keeps _)) (.refl s))
  | .resendExpiry k => resendExpiry_goesOn k s
  | .contactPulse p => contactPulse_goesOn p s
  | .contactLockoutExpiry p =>
    show GoesOn s (execContactLockoutExpiry p s) from
      whenPowered_goesOn (.ite (modIo_keeps s p _) (.refl s))
  | .screenMessageSent => screenMessageSent_goesOn s
  | .lowEnergyChange asserted => lowEnergyChange_goesOn asserted s
  | .activityExpiry => activityExpiry_goesOn s
  | .warmUpExpiry =>
    show GoesOn s (execWarmUpExpiry s) from
      whenPowered_goesOn (.ite (endWarmUp_keeps s) (.refl s))
  | .quote r => (serveQuote_serves r).goesOn s _
  | .cancelQuote slot => (serveCancel_serves slot).goesOn s _
  | .quoteExpiry i => quoteExpiry_goesOn i s
  | .find r => (serveFind_serves r).goesOn s _
  | .issue r => (serveIssue_serves r).goesOn s _
  | .authTimerExpiry =>
    show GoesOn s (execAuthTimerExpiry s) from
      whenPowered_goesOn (.ite (abandonAuth_keeps s _ _) (.refl s))
  | .ticket n => (serveTicket_serves n).goesOn s _
  | .printed n => (servePrinted_serves n).goesOn s _
  | .void n => (serveVoid_serves n).goesOn s _
  | .ticketLimitExpiry n =>
    show GoesOn s (execTicketLimitExpiry n s) from
      whenPowered_goesOn (.ite (dropTicket_keeps s n) (.refl s))
  | .ackTimerExpiry =>
    show GoesOn s (execAckTimerExpiry s) from
      whenPowered_goesOn (.ite ((goBack_keeps s).trans (drain_keeps _)) (.refl s))
  | .notices count => (serveNotices_serves count).goesOn s _
  | .status => (answered_serves .ok fun u => .status u.terminalStatus).goesOn s _
  | .tpGap => tpGap_goesOn s
  | .terminalReplySent => terminalReplySent_goesOn s
  | .idleLine p =>
    show GoesOn s (execIdleLine p s) from
      whenPowered_goesOn (.ite (modPort_keeps_of_eq s p fun _ => ⟨rfl, rfl, rfl, rfl⟩) (.refl s))
  | .candidateFrameBegin p =>
    show GoesOn s (execCandidateFrameBegin p s) from
      whenPowered_goesOn (.ite (modPort_keeps_of_eq s p fun _ => ⟨rfl, rfl, rfl, rfl⟩) (.refl s))
  | .txAbortEnd p => txAbortEnd_goesOn p s
  | .badMessage code form => badMessage_goesOn code form s

/-! ## Steps -/

/-- Settles O1. -/
theorem stepTakesTheFrontCommand : Obligations.StepTakesTheFrontCommand := by
  unfold Obligations.StepTakesTheFrontCommand
  refine ⟨fun _ _ _ => rfl, fun s empty => ?_⟩
  rw [step, empty]

/-- Without main power no command acts but POWER_UP and SERVICE_SECOND (log entry 7). -/
theorem exec_unpowered {c : Instr} {s : State} (off : s.powered = false)
    (up : ∀ b pins low, c ≠ .powerUp b pins low) (second : c ≠ .serviceSecond) :
    exec c s = .next s := by
  have dark : s = { s with powered := false } := by rw [← off]
  rw [dark]
  cases c
  case powerUp b pins low => exact absurd rfl (up b pins low)
  case serviceSecond => exact absurd rfl second
  all_goals rfl

/-- Settles O2. -/
theorem everyCommandGoesOn : Obligations.EveryCommandGoesOn := by
  unfold Obligations.EveryCommandGoesOn
  intro c s
  obtain ⟨t, next, keeps⟩ := exec_goesOn c s
  refine ⟨t, next, keeps.pending, fun off up second => ?_⟩
  rw [exec_unpowered off up second] at next
  exact (Host.Outcome.next.inj next).symm

/-- A step is the first command on the state with the queue's rest, or nothing. -/
theorem step_cases {s t : State} (h : step s = .next t) :
    t = s ∨ ∃ c rest, exec c { s with pending := rest } = .next t := by
  unfold step at h
  split at h
  · exact .inl (Host.Outcome.next.inj h).symm
  · next c rest _ => exact .inr ⟨c, rest, h⟩

/-- What every command keeps and no queue of commands touches, every step keeps. -/
theorem keptByStep_of_exec {inv : State → Prop}
    (queue : ∀ s r, inv s → inv { s with pending := r })
    (exec : ∀ c s t, exec c s = .next t → inv s → inv t) : KeptByStep inv := by
  intro s t sound next
  rcases step_cases next with e | ⟨c, rest, e⟩
  · exact e ▸ sound
  · exact exec c _ t e (queue s rest sound)

theorem exec_keeps {c : Instr} {s t : State} (h : exec c s = .next t) : Keeps s t := by
  obtain ⟨u, next, keeps⟩ := exec_goesOn c s
  rw [next] at h
  exact Host.Outcome.next.inj h ▸ keeps

/-- Settles O52. -/
theorem queuesFitAlways : Obligations.QueuesFitAlways :=
  keptByStep_of_exec (fun _ _ h => h) fun _ _ _ e => (exec_keeps e).queues

/-- Settles O53. -/
theorem banksOrderedAlways : Obligations.BanksOrderedAlways :=
  keptByStep_of_exec (fun _ _ h => h) fun _ _ _ e => (exec_keeps e).banks

/-- Settles O54. -/
theorem journalRunsAlways : Obligations.JournalRunsAlways :=
  keptByStep_of_exec (fun _ _ h => h) fun _ _ _ e => (exec_keeps e).journal

/-- Settles O55. -/
theorem clockStandsAlways : Obligations.ClockStandsAlways :=
  keptByStep_of_exec (fun _ _ h => h) fun _ _ _ e => (exec_keeps e).clock

/-- Settles O56. -/
theorem countsBoundedAlways : Obligations.CountsBoundedAlways :=
  keptByStep_of_exec (fun _ _ ⟨a, b⟩ => ⟨fun p => by cases p <;> [exact a .up; exact a .down], b⟩)
    fun _ _ _ e => (exec_keeps e).counts

/-- Settles O57. -/
theorem storesFitAlways : Obligations.StoresFitAlways :=
  keptByStep_of_exec (fun _ _ ⟨a, b⟩ => ⟨fun p => by cases p <;> [exact a .up; exact a .down], b⟩)
    fun _ _ _ e => (exec_keeps e).stores

/-- Settles O58. -/
theorem windowsApartAlways : Obligations.WindowsApartAlways :=
  keptByStep_of_exec (fun _ _ h => h) fun _ _ _ e => (exec_keeps e).windows

end Sys2Proof.Proofs
end

