-- ==== Sys2Proof/Proofs/Loads.lean ====
section
/-! What the loads of the centre, the RUN notices and the stop confirmations change: each is an
operation of the trade (03, 05, 07 to 09). -/

namespace Sys2Proof.Proofs

open Sys2Proof.Machine Sys2Proof.Safety Sys2Proof.Laws

theorem Books.of_true {s t : State} (mode : ModeTrue t) (ledger : LedgerIs t) : Books s t :=
  ⟨fun _ => mode, fun _ => ledger⟩

/-! ## Timetable -/

theorem setTts_settles (s : State) (x : Tts) : Settles s { s with tts := x } :=
  .of_tts (x := x) (.refl _)

theorem modTtsCtr_settles (s : State) (f : TtsCounters → TtsCounters) : Settles s (s.modTtsCtr f) :=
  setTts_settles s _

theorem addCall_settles (s : State) (b : Bank) (l : Loaded) : Settles s (s.addCall b l) := by
  unfold State.addCall
  cases b with
  | next => exact setTts_settles s _
  | current =>
    dsimp only
    split
    · exact .of_tts (announceReplaced_trades _ _ _ _)
    · exact .of_tts (announceAdded_trades _ _)

theorem takeCallAdd_settles (s : State) (bs : List Byte) : Settles s (s.takeCallAdd bs) := by
  unfold State.takeCallAdd
  split
  · exact modTtsCtr_settles s _
  · exact .ite (modTtsCtr_settles s _) (.ite (modTtsCtr_settles s _)
      (.ite (modTtsCtr_settles s _) (addCall_settles s _ _)))

theorem deleteCall_settles (s : State) (b : Bank) (k : Key) : Settles s (s.deleteCall b k) := by
  unfold State.deleteCall
  cases b with
  | next => exact setTts_settles s _
  | current => exact .of_tts (announceDeleted_trades _ _)

theorem takeCallDelete_settles (s : State) (bs : List Byte) : Settles s (s.takeCallDelete bs) := by
  unfold State.takeCallDelete
  split
  · exact modTtsCtr_settles s _
  · exact .ite (deleteCall_settles s _ _) (modTtsCtr_settles s _)

theorem takeBankOpen_settles (s : State) (bs : List Byte) : Settles s (s.takeBankOpen bs) := by
  unfold State.takeBankOpen
  split
  · exact modTtsCtr_settles s _
  · exact modTtsCtr_settles s _
  · exact setTts_settles s _

theorem offerReply_announces (s : State) (r : Reply) : Announces s (s.offerReply r) :=
  offerOwnUp_announces s _ _ _

theorem takeBankClose_settles (s : State) (bs : List Byte) : Settles s (s.takeBankClose bs) := by
  unfold State.takeBankClose
  split
  · exact modTtsCtr_settles s _
  · next b count _ =>
    refine Settles.trans ?_ (offerReply_announces _ _).settles
    cases b with
    | current => exact modTtsCtr_settles s _
    | next => exact setTts_settles s _

theorem modCall_settles (s : State) (k : Key) (f : Call → Call) : Settles s (s.modCall k f) :=
  setTts_settles s _

theorem acceptReport_settles (s : State) (c : Call) (r : Report) : Settles s (s.acceptReport c r) := by
  unfold State.acceptReport
  split
  · exact .of_tts (rederiveCall_trades _ _)
  · exact .of_tts (announceState_trades _ _)

theorem runPoint_settles (s : State) (c : Call) (code : PointCode) (delay : Int) (time : Nat) :
    Settles s (s.runPoint c code delay time) := by
  unfold State.runPoint
  refine .ite (modTtsCtr_settles s _) (.ite (setCallState_turns s _ _).toSettles ?_)
  exact .ite (acceptReport_settles s c _) (modTtsCtr_settles s _)

theorem runCancel_settles (s : State) (c : Call) : Settles s (s.runCancel c) := by
  unfold State.runCancel
  split
  · exact (setCallState_turns s _ _).toSettles
  · exact (setCallState_turns s _ _).toSettles
  · exact (setCallState_turns s _ _).toSettles
  · exact .refl s
  · exact modTtsCtr_settles s _

theorem runReinstate_settles (s : State) (c : Call) : Settles s (s.runReinstate c) := by
  unfold State.runReinstate
  split
  · exact .of_tts ((((rederiveCall_trades _ _).trans (stopsOnCall_announces _ _).toTrades).trans
      (sendWanted_announces _ _).toTrades).trans (compose_announces _).toTrades)
  all_goals exact modTtsCtr_settles s _

theorem runPlatform_settles (s : State) (c : Call) (p : Platform) : Settles s (s.runPlatform c p) := by
  unfold State.runPlatform
  refine .ite (modTtsCtr_settles s _) (.ite (.refl s) ?_)
  exact .of_tts ((stopsOnCall_announces _ _).trans (compose_announces _)).toTrades

theorem takeRun_settles (s : State) (bs : List Byte) : Settles s (s.takeRun bs) := by
  unfold State.takeRun
  split
  · exact modTtsCtr_settles s _
  · split
    · exact modTtsCtr_settles s _
    · split
      · exact runPoint_settles s _ _ _ _
      · exact runCancel_settles s _
      · exact runReinstate_settles s _
      · exact runPlatform_settles s _ _

/-! ## Fares and messages -/

/-- The PENDING table, the schedule or the counters of the fare unit changed. -/
theorem setFqu_settles {s : State} {f : Fqu} (active : f.active = s.fqu.active)
    (slots : f.slots = s.fqu.slots) : Settles s { s with fqu := f } := by
  refine ⟨rfl, ⟨[], (List.append_nil _).symm, fun _ => rfl⟩, .same rfl slots ?_⟩
  simp only [State.salesModeOf, active]

theorem modFquCtr_settles (s : State) (f : FquCounters → FquCounters) : Settles s (s.modFquCtr f) :=
  setFqu_settles rfl rfl

theorem takeFare_settles (s : State) (bs : List Byte) : Settles s (s.takeFare bs) := by
  unfold State.takeFare
  split
  · exact modFquCtr_settles s _
  · split
    · exact setFqu_settles rfl rfl
    · exact modFquCtr_settles s _

theorem takeFareActivate_settles (s : State) (bs : List Byte) :
    Settles s (s.takeFareActivate bs) := by
  unfold State.takeFareActivate
  split
  · exact modFquCtr_settles s _
  · refine .ite (modFquCtr_settles s _) ?_
    split
    · exact activate_settles s
    · refine Settles.trans ?_ (testActivation_settles _)
      exact setFqu_settles rfl rfl

theorem modBdcCtr_announces (s : State) (f : BdcCounters → BdcCounters) :
    Announces s (s.modBdcCtr f) := .of_bdc ⟨_, rfl⟩

theorem takeMessage_announces (s : State) (bs : List Byte) : Announces s (s.takeMessage bs) := by
  unfold State.takeMessage
  split
  · exact modBdcCtr_announces s _
  · split
    · exact setMessages_announces s _
    · exact (modBdcCtr_announces s _).trans (evaluateMessages_announces _)

theorem takeMessageDelete_announces (s : State) (bs : List Byte) :
    Announces s (s.takeMessageDelete bs) := by
  unfold State.takeMessageDelete
  split
  · exact modBdcCtr_announces s _
  · split
    · exact setMessages_announces s _
    · exact modBdcCtr_announces s _

/-! ## Stop requests -/

theorem modIo_settles (s : State) (p : Platform) (f : PlatformIo → PlatformIo) :
    Settles s (s.modIo p f) := by
  cases p
  all_goals exact ⟨rfl, ⟨[], (List.append_nil _).symm, fun _ => rfl⟩, .same rfl rfl rfl⟩

theorem press_settles (s : State) (p : Platform) : Settles s (s.press p) := by
  unfold State.press
  split
  · exact ((modSruCtr_announces s _).settles.trans (modIo_settles _ p _)).trans
      (deriveLamps_announces _).settles
  · refine Settles.trans ?_ (deriveLamps_announces _).settles
    exact .ite ((modIo_settles s p _).trans (wantStop_trades _ _ _).settles) (modIo_settles s p _)

theorem confirm_trades (s : State) (k : Key) : Trades s (s.confirm k) := by
  unfold State.confirm
  dsimp only
  split
  · exact (modSruCtr_announces s _).toTrades
  · refine .ite (modSruCtr_announces s _).toTrades ?_
    split
    · exact (modSruCtr_announces s _).toTrades
    · exact .refl s
    all_goals
      refine changeStop_trades s _ ?_
      exact fun _ => ⟨rfl, rfl, rfl, fun _ => rfl⟩

theorem takeStopconf_trades (s : State) (bs : List Byte) : Trades s (s.takeStopconf bs) := by
  unfold State.takeStopconf
  split
  · exact confirm_trades s _
  · exact (modSruCtr_announces s _).toTrades

/-! ## Departures -/

theorem offerDown_books (s : State) (q : Queued) : Books s (s.offer .down q) := by
  unfold State.offer
  rw [if_neg fun h => Port.noConfusion h.1]
  exact .same rfl rfl rfl

theorem offerOwn_books (s : State) (p : Port) (k : Kind) (d : HaltCode) (x : Payload) :
    Books s (s.offerOwn p k d x) := by
  cases p with
  | up => exact (offerOwnUp_announces s k d x).books
  | down => exact .ite (.refl s) (offerDown_books s _)

theorem originateRun_books (s : State) (c : Call) : Books s (s.originateRun c) :=
  .ite (modSruCtr_announces s _).books ((offerOwn_books s _ _ _ _).trans (offerOwn_books _ _ _ _ _))

theorem matchPulse_books (s : State) (p : Platform) : Books s (s.matchPulse p) := by
  unfold State.matchPulse
  split
  · exact (setCallState_turns s _ _).books.trans (originateRun_books _ _)
  · exact (modSruCtr_announces s _).books

end Sys2Proof.Proofs
end

