-- ==== Sys2Proof/Proofs/LinkMoves.lean ====
section
/-! The line ports: what leaving and entering SERVICE changes, port by port, and that the books stay
true through it (02, R33). -/

namespace Sys2Proof.Proofs

open Sys2Proof.Machine Sys2Proof.Safety Sys2Proof.Laws

/-! ## Records of the ports -/

theorem modPort_modPort (s : State) (p : Port) (f g : LinePort → LinePort) :
    (s.modPort p f).modPort p g = s.modPort p fun lp => g (f lp) := by
  cases p <;> rfl

/-- Nothing has changed but the ports' records. -/
def OnlyPorts (s t : State) : Prop := t = { s with up := t.up, down := t.down }

theorem OnlyPorts.refl (s : State) : OnlyPorts s s := rfl

theorem OnlyPorts.trans {s t u : State} (h : OnlyPorts s t) (k : OnlyPorts t u) : OnlyPorts s u := by
  unfold OnlyPorts at *
  rw [k, h]

theorem setPort_onlyPorts (s : State) (p : Port) (lp : LinePort) : OnlyPorts s (s.setPort p lp) := by
  cases p <;> rfl

theorem onlyPorts_of_onlyPort {s t : State} {p : Port} (h : OnlyPort p s t) : OnlyPorts s t := by
  have e : t = s.setPort p (t.port p) := h
  rw [e]
  exact setPort_onlyPorts _ _ _

theorem setPort_onlyPort (s : State) (p : Port) (lp : LinePort) : OnlyPort p s (s.setPort p lp) := by
  cases p <;> rfl

theorem onlyPort_refl (p : Port) (s : State) : OnlyPort p s s := by
  cases p <;> rfl

theorem onlyPort_trans {p : Port} {s t u : State} (h : OnlyPort p s t) (k : OnlyPort p t u) :
    OnlyPort p s u := by
  have e : t = s.setPort p (t.port p) := h
  have e' : u = t.setPort p (u.port p) := k
  rw [OnlyPort]
  generalize u.port p = b at e'
  rw [e', e, State.setPort_setPort]

/-- The sales mode reads of the ports whether Up is in SERVICE. -/
theorem salesModeOf_of_ports {s t : State} (ports : OnlyPorts s t)
    (service : t.up.lsu.state = .service ↔ s.up.lsu.state = .service) :
    t.salesModeOf = s.salesModeOf := by
  have e : t = { s with up := t.up, down := t.down } := ports
  generalize t.up = up at e service
  rw [e]
  simp only [State.salesModeOf, service]

theorem OnlyPorts.ledger {s t : State} (ports : OnlyPorts s t) (h : LedgerIs s) : LedgerIs t := by
  have e : t = { s with up := t.up, down := t.down } := ports
  obtain ⟨a, b, c, d⟩ := h
  rw [e]
  exact ⟨a, b, c, d⟩

theorem OnlyPorts.books {s t : State} (ports : OnlyPorts s t)
    (service : t.up.lsu.state = .service ↔ s.up.lsu.state = .service) : Books s t := by
  refine ⟨fun m => ?_, ports.ledger⟩
  rw [ModeTrue, salesModeOf_of_ports ports service, (congrArg State.sju ports :)]
  exact m

theorem modPort_books (s : State) (p : Port) {f : LinePort → LinePort}
    (h : ∀ lp, (f lp).lsu.state = lp.lsu.state) : Books s (s.modPort p f) := by
  refine (setPort_onlyPorts s p _).books ?_
  cases p
  · exact iff_of_eq (congrArg (· = _) (h s.up))
  · exact Iff.rfl

theorem modLsu_books (s : State) (p : Port) {f : Lsu → Lsu} (h : ∀ l, (f l).state = l.state) :
    Books s (s.modLsu p f) := modPort_books s p fun _ => h _

theorem restTx_books (s : State) (p : Port) : Books s (s.restTx p) := by
  unfold State.restTx
  exact modPort_books s p fun _ => rfl

/-! ## Leaving SERVICE -/

theorem setSalesMode_up (s : State) (m : SalesMode) : (s.setSalesMode m).up = s.up :=
  (setSalesMode_desk s m).up

theorem abandonAuth_up (s : State) (r : Result) (f : SjuCounters → SjuCounters) :
    (s.abandonAuth r f).up = s.up := by
  unfold State.abandonAuth
  split
  · rfl
  · exact (postNotice_desk _ _).up

theorem salesLoseLink_up (s : State) : s.salesLoseLink.up = s.up :=
  (setSalesMode_up _ _).trans (abandonAuth_up _ _ _)

theorem stopsLoseLink_eq (s : State) :
    s.stopsLoseLink = { (s.mapCalls Call.unsend).deriveLamps with bdc := s.stopsLoseLink.bdc } := by
  unfold State.stopsLoseLink
  dsimp only
  split
  · rfl
  · obtain ⟨b, h⟩ := compose_frame (s.mapCalls Call.unsend).deriveLamps
    rw [h]

theorem stopsLoseLink_up (s : State) : s.stopsLoseLink.up = s.up := by
  rw [stopsLoseLink_eq]
  rfl

theorem leaveService_settles_up (s : State) :
    Settles (s.modPort .up LinePort.flush) (s.leaveService .up) :=
  (salesLoseLink_settles _).trans (stopsLoseLink_trades _).settles

theorem leaveService_down (s : State) : s.leaveService .down = s.modPort .down LinePort.flush := rfl

theorem leaveService_port (s : State) (p : Port) : (s.leaveService p).port p = (s.port p).flush := by
  cases p with
  | down => rfl
  | up => exact (stopsLoseLink_up _).trans (salesLoseLink_up _)

theorem leaveService_onlyLink (s : State) (p : Port) : OnlyLink p s (s.leaveService p) := by
  cases p with
  | down => exact rfl
  | up =>
    have h : OnlyTrade _ _ := (leaveService_settles_up s).onlyTrade
    exact h

theorem leaveService_down_of_up (s : State) : (s.leaveService .up).down = s.down :=
  (leaveService_settles_up s).down

theorem leaveService_mode (s : State) : ModeTrue (s.leaveService .up) :=
  (stopsLoseLink_trades _).books.mode (salesLoseLink_true _)

theorem leaveService_ledger (s : State) (h : LedgerIs s) : LedgerIs (s.leaveService .up) :=
  (leaveService_settles_up s).books.ledger ((setPort_onlyPorts s .up _).ledger h)

theorem leaveIf_of_ne {s : State} {was : PortState} (p : Port) (h : was ≠ .service) :
    s.leaveIf was p = s := if_neg h

theorem leaveIf_service (s : State) (p : Port) : s.leaveIf .service p = s.leaveService p := rfl

theorem leaveIf_port (s : State) (was : PortState) (p : Port) :
    (s.leaveIf was p).port p = if was = .service then (s.port p).flush else s.port p := by
  split
  · next h =>
    rw [h]
    exact leaveService_port s p
  · next h => rw [leaveIf_of_ne p h]

theorem onlyLink_refl (p : Port) (s : State) : OnlyLink p s s := by
  cases p <;> exact rfl

theorem onlyLink_trans {p : Port} {s t u : State} (h : OnlyLink p s t) (k : OnlyLink p t u) :
    OnlyLink p s u := by
  cases p with
  | down =>
    have e : t = { s with down := t.down } := h
    have e' : u = { t with down := u.down } := k
    rw [OnlyLink, e', e]
  | up =>
    have e : OnlyTrade s t := h
    have e' : OnlyTrade t u := k
    rw [OnlyTrade] at e e'
    rw [OnlyLink, e', e]

theorem onlyLink_of_onlyPort {p : Port} {s t : State} (h : OnlyPort p s t) : OnlyLink p s t := by
  have e : t = s.setPort p (t.port p) := h
  generalize t.port p = lp at e
  rw [e]
  cases p <;> exact rfl

theorem leaveIf_onlyLink (s : State) (was : PortState) (p : Port) :
    OnlyLink p s (s.leaveIf was p) := by
  by_cases h : was = .service
  · rw [h]
    exact leaveService_onlyLink s p
  · rw [leaveIf_of_ne p h]
    exact onlyLink_refl p s

/-- A move of a port out of its state, with the announcement of leaving SERVICE, leaves the books true. -/
theorem leaveIf_books {s u : State} {p : Port} (ports : OnlyPorts s u)
    (other : p = .down → u.up.lsu.state = s.up.lsu.state)
    (left : (u.port p).lsu.state ≠ .service) :
    Books s (u.leaveIf (s.port p).lsu.state p) := by
  cases p with
  | down =>
    have same := ports.books (iff_of_eq (congrArg (· = _) (other rfl)))
    unfold State.leaveIf
    exact .ite (same.trans (modPort_books u .down (f := LinePort.flush) fun _ => rfl)) same
  | up =>
    by_cases was : (s.port .up).lsu.state = .service
    · rw [was]
      exact ⟨fun _ => leaveService_mode u, fun h => leaveService_ledger u (ports.ledger h)⟩
    · rw [leaveIf_of_ne _ was]
      exact ports.books ⟨fun h => absurd h left, fun h => absurd h was⟩

/-! ## The transmitter -/

theorem stopTx_onlyPort (s : State) (p : Port) : OnlyPort p s (s.stopTx p) := by
  obtain ⟨r, x, e⟩ := stopTx_frame s p
  rw [e]
  exact setPort_onlyPort s p _

theorem keepTx_onlyPort (s : State) (p : Port) : OnlyPort p s (s.keepTx p) := by
  obtain ⟨r, x, e⟩ := keepTx_frame s p
  rw [e]
  exact setPort_onlyPort s p _

theorem lendRate_onlyPort (s : State) : OnlyPort .down s s.lendRate := by
  obtain ⟨r, x, e⟩ := lendRate_frame s
  rw [e]
  exact setPort_onlyPort s .down _

/-- The record of a port with its rate and its transmitter's state blanked. -/
def txFrameOf (lp : LinePort) : LinePort := { lp with txRate := none, tx := .silent }

theorem stopTx_port (s : State) (p : Port) : txFrameOf ((s.stopTx p).port p) = txFrameOf (s.port p) := by
  obtain ⟨r, x, e⟩ := stopTx_frame s p
  rw [e]
  cases p <;> rfl

theorem keepTx_port (s : State) (p : Port) : txFrameOf ((s.keepTx p).port p) = txFrameOf (s.port p) := by
  obtain ⟨r, x, e⟩ := keepTx_frame s p
  rw [e]
  cases p <;> rfl

theorem lendRate_port (s : State) (p : Port) : txFrameOf (s.lendRate.port p) = txFrameOf (s.port p) := by
  obtain ⟨r, x, e⟩ := lendRate_frame s
  rw [e]
  cases p <;> rfl

/-! ## Moves -/

/-- The state as a port enters HUNT, before the announcement of leaving SERVICE (R20). -/
def huntState (s : State) (p : Port) : State := ((s.modPort p LinePort.toHunt).stopTx p).lendRate

theorem enterHunt_eq (s : State) (p : Port) :
    s.enterHunt p = (huntState s p).leaveIf (s.port p).lsu.state p := rfl

theorem huntState_onlyPorts (s : State) (p : Port) : OnlyPorts s (huntState s p) :=
  ((setPort_onlyPorts s p _).trans (onlyPorts_of_onlyPort (stopTx_onlyPort _ p))).trans
    (onlyPorts_of_onlyPort (lendRate_onlyPort _))

theorem huntState_port (s : State) (p : Port) :
    txFrameOf ((huntState s p).port p) = txFrameOf (s.port p).toHunt := by
  rw [huntState, lendRate_port, stopTx_port, State.modPort_eq, State.port_setPort_self]

theorem toHunt_lsu (lp : LinePort) : lp.toHunt.lsu = lp.lsu.toHunt := rfl

theorem huntState_lsu (s : State) (p : Port) :
    ((huntState s p).port p).lsu = (s.port p).lsu.toHunt :=
  (congrArg LinePort.lsu (huntState_port s p) :)

/-- The other port's record keeps all but its transmitter. -/
theorem huntState_other (s : State) (p : Port) :
    txFrameOf ((huntState s p).port p.other) = txFrameOf (s.port p.other) := by
  rw [huntState, lendRate_port]
  obtain ⟨r, x, e⟩ := stopTx_frame (s.modPort p LinePort.toHunt) p
  rw [e, State.modPort_eq, State.port_setPort_other, State.modPort_eq, State.port_setPort_other]

theorem enterHunt_books (s : State) (p : Port) : Books s (s.enterHunt p) := by
  rw [enterHunt_eq]
  refine leaveIf_books (huntState_onlyPorts s p) ?_ ?_
  · rintro rfl
    exact (congrArg (fun lp : LinePort => lp.lsu.state) (huntState_other s .down) :)
  · rw [huntState_lsu]
    exact nofun

/-- The state as a port goes OFF, before the announcement of leaving SERVICE (R19). -/
def offState (s : State) (p : Port) : State := ((s.modPort p LinePort.toOff).stopTx p).lendRate

theorem enterOff_eq (s : State) (p : Port) :
    s.enterOff p = (offState s p).leaveIf (s.port p).lsu.state p := rfl

theorem offState_onlyPorts (s : State) (p : Port) : OnlyPorts s (offState s p) :=
  ((setPort_onlyPorts s p _).trans (onlyPorts_of_onlyPort (stopTx_onlyPort _ p))).trans
    (onlyPorts_of_onlyPort (lendRate_onlyPort _))

theorem offState_port (s : State) (p : Port) :
    txFrameOf ((offState s p).port p) = txFrameOf (s.port p).toOff := by
  rw [offState, lendRate_port, stopTx_port, State.modPort_eq, State.port_setPort_self]

theorem offState_lsu (s : State) (p : Port) :
    ((offState s p).port p).lsu = (s.port p).lsu.toOff :=
  (congrArg LinePort.lsu (offState_port s p) :)

theorem offState_other (s : State) (p : Port) :
    txFrameOf ((offState s p).port p.other) = txFrameOf (s.port p.other) := by
  rw [offState, lendRate_port]
  obtain ⟨r, x, e⟩ := stopTx_frame (s.modPort p LinePort.toOff) p
  rw [e, State.modPort_eq, State.port_setPort_other, State.modPort_eq, State.port_setPort_other]

theorem enterOff_books (s : State) (p : Port) : Books s (s.enterOff p) := by
  rw [enterOff_eq]
  refine leaveIf_books (offState_onlyPorts s p) ?_ ?_
  · rintro rfl
    exact (congrArg (fun lp : LinePort => lp.lsu.state) (offState_other s .down) :)
  · rw [offState_lsu]
    exact nofun

/-- The state as a port enters OUTAGE, before the announcement of leaving SERVICE (R29). -/
def outageState (s : State) (p : Port) (cause : OutageCause) : State :=
  (s.modLsu p fun l => l.toOutage cause).stopTx p

theorem enterOutage_eq (s : State) (p : Port) (cause : OutageCause) :
    s.enterOutage p cause = (outageState s p cause).leaveIf (s.port p).lsu.state p := rfl

theorem outageState_onlyPort (s : State) (p : Port) (cause : OutageCause) :
    OnlyPort p s (outageState s p cause) :=
  onlyPort_trans (setPort_onlyPort s p _) (stopTx_onlyPort _ p)

theorem outageState_port (s : State) (p : Port) (cause : OutageCause) :
    txFrameOf ((outageState s p cause).port p)
      = txFrameOf { s.port p with lsu := (s.port p).lsu.toOutage cause } := by
  rw [outageState, stopTx_port, State.modLsu, State.modPort_eq, State.port_setPort_self]

theorem outageState_lsu (s : State) (p : Port) (cause : OutageCause) :
    ((outageState s p cause).port p).lsu = (s.port p).lsu.toOutage cause :=
  (congrArg LinePort.lsu (outageState_port s p cause) :)

theorem enterOutage_books (s : State) (p : Port) (cause : OutageCause) :
    Books s (s.enterOutage p cause) := by
  rw [enterOutage_eq]
  refine leaveIf_books (onlyPorts_of_onlyPort (outageState_onlyPort s p cause)) ?_ ?_
  · rintro rfl
    have e : outageState s .down cause = s.setPort .down _ := outageState_onlyPort s .down cause
    rw [e]
    rfl
  · rw [outageState_lsu]
    exact nofun

theorem enterProving_books (s : State) (p : Port) (was : (s.port p).lsu.state ≠ .service) :
    Books s (s.enterProving p) := by
  unfold State.enterProving
  dsimp only
  refine Books.trans ?_ (((onlyPorts_of_onlyPort (keepTx_onlyPort _ p)).books ?_).trans
    ((onlyPorts_of_onlyPort (lendRate_onlyPort _)).books ?_))
  · refine (setPort_onlyPorts s p _).books ?_
    cases p
    · exact ⟨nofun, fun h => absurd h was⟩
    · exact Iff.rfl
  · obtain ⟨r, x, e⟩ := keepTx_frame (s.modPort p fun lp => { lp with
      dwell := .stopped, goodRun := 0
      lsu := { lp.lsu.startPeriod (s.params.port p).period with
        state := .proving, attempts := 0, silence := .running Config.silenceMs
        fillDue := .expired } }) p
    rw [e]
    cases p <;> exact Iff.rfl
  · exact iff_of_eq (congrArg (· = _)
      (congrArg (fun lp : LinePort => lp.lsu.state) (lendRate_port _ .up) :))

/-! ## Entering SERVICE -/

theorem originateBeacon_announces (s : State) :
    Announces { s with fru := { s.fru with
      beaconTimer := .running (1000 * s.params.beaconInterval) } } s.originateBeacon :=
  offerOwnUp_announces _ _ _ _

theorem originateBeacon_books (s : State) : Books s s.originateBeacon :=
  Books.trans (t := { s with fru := { s.fru with
    beaconTimer := .running (1000 * s.params.beaconInterval) } }) (.same rfl rfl rfl)
    (originateBeacon_announces s).books

theorem enterService_books (s : State) (p : Port) : Books s (s.enterService p) := by
  unfold State.enterService State.enterServiceNews
  cases p with
  | down => exact (setPort_onlyPorts s .down _).books Iff.rfl
  | up =>
    refine ⟨fun _ => ?_, fun h => ?_⟩
    · exact ((drain_announces _).trans (stopsGainLink_announces _)).books.mode
        (deriveSalesMode_true _)
    · refine (((originateBeacon_books _).trans (drain_announces _).books).trans
        ((salesGainLink_announces _).trans (stopsGainLink_announces _)).books).ledger ?_
      exact (setPort_onlyPorts s .up _).ledger h

/-! ## Reports -/

theorem failProving_books (s : State) (p : Port) : Books s (s.failProving p) := by
  unfold State.failProving
  exact (modLsu_books s p (by exact fun _ => rfl)).trans
    (.ite (enterOutage_books _ p _) (modLsu_books _ p (by exact fun _ => rfl)))

theorem reportFlag_books (s : State) (p : Port) : Books s (s.reportFlag p) := by
  refine modLsu_books s p fun l => ?_
  split <;> rfl

theorem reportError_books (s : State) (p : Port) : Books s (s.reportError p) := by
  unfold State.reportError
  dsimp only
  split
  · exact .refl s
  · exact .refl s
  · exact modPort_books s p (by exact fun _ => rfl)
  · split
    · exact (modLsu_books s p (by exact fun _ => rfl)).trans (.ite (failProving_books _ p) (.refl _))
    · exact .refl s
  · split
    · exact (modLsu_books s p (by exact fun _ => rfl)).trans (.ite (enterOutage_books _ p _) (.refl _))
    · exact modLsu_books s p (by exact fun _ => rfl)

theorem reportGood_books (s : State) (p : Port) : Books s (s.reportGood p) := by
  unfold State.reportGood
  split
  · next hunt =>
    refine (modPort_books s p (by exact fun _ => rfl)).trans (.ite (enterProving_books _ p ?_) (.refl _))
    rw [State.modPort_eq, State.port_setPort_self, hunt]
    exact nofun
  · split
    · refine modLsu_books s p fun l => ?_
      unfold Lsu.creditGood
      split <;> rfl
    · exact .refl s
  all_goals exact .refl s

theorem reportFill_books (s : State) (p : Port) (bs : List Byte) : Books s (s.reportFill p bs) := by
  unfold State.reportFill
  split
  all_goals exact modLsu_books s p (by exact fun _ => rfl)

theorem modCtr_books (s : State) (p : Port) (f : PortCounters → PortCounters) :
    Books s (s.modCtr p f) := modPort_books s p (by exact fun _ => rfl)

theorem store_books (s : State) (p : Port) (f : RxFrame) : Books s (s.store p f) :=
  .ite (modPort_books s p (by exact fun _ => rfl)) (modCtr_books s p _)

theorem goodFrame_books (s : State) (p : Port) (f : RxFrame) : Books s (s.goodFrame p f) :=
  ((modCtr_books s p _).trans (reportGood_books _ p)).trans
    (.ite (modCtr_books _ p _) (.ite (reportFill_books _ p _) (store_books _ p f)))

theorem closeFrame_books (s : State) (p : Port) (bits : List Bool) :
    Books s (s.closeFrame p bits) := by
  unfold State.closeFrame
  refine Books.trans (t := s.modPort p fun lp => { lp with rx := .idle })
    (modPort_books s p (by exact fun _ => rfl)) ?_
  dsimp only
  split
  · exact goodFrame_books _ p _
  · exact (modCtr_books _ p _).trans (reportError_books _ p)

theorem reportGroups_books (s : State) (p : Port) (n : Nat) : Books s (s.reportGroups p n) := by
  induction n generalizing s with
  | zero => exact .refl s
  | succ n ih => exact ((modCtr_books s p _).trans (reportError_books _ p)).trans (ih _)

theorem addOctets_books (s : State) (p : Port) (k : Nat) : Books s (s.addOctets p k) :=
  Books.trans (modPort_books s p (by exact fun _ => rfl)) (reportGroups_books _ p _)

theorem endSequence_books (s : State) (p : Port) (bits : List Bool) :
    Books s (s.endSequence p bits) :=
  Books.trans (modPort_books s p (by exact fun _ => rfl)) (addOctets_books _ p _)

theorem closeSequence_books (s : State) (p : Port) (bits : List Bool) :
    Books s (s.closeSequence p bits) := by
  unfold State.closeSequence
  split
  · exact .ite (Books.trans (modPort_books s p (by exact fun _ => rfl)) (goodFrame_books _ p _))
      (endSequence_books s p _)
  · exact endSequence_books s p _

theorem longInFrame_books (s : State) (p : Port) : Books s (s.longInFrame p) := by
  refine Books.trans (t := (s.modCtr p fun c => { c with errLong := tally c.errLong }).reportError p)
    ((modCtr_books s p _).trans (reportError_books _ p)) ?_
  unfold State.longInFrame
  exact modPort_books _ p fun _ => rfl

theorem flagInFrame_books (s : State) (p : Port) (bits : List Bool) :
    Books s (s.flagInFrame p bits) :=
  .ite (closeFrame_books s p _) ((longInFrame_books s p).trans (closeSequence_books _ p _))

theorem abortInFrame_books (s : State) (p : Port) (bits : List Bool) :
    Books s (s.abortInFrame p bits) :=
  .ite (((modPort_books s p (by exact fun _ => rfl)).trans (modCtr_books _ p _)).trans (reportError_books _ p))
    ((longInFrame_books s p).trans (endSequence_books _ p _))

theorem emptyFlag_books (s : State) (p : Port) : Books s (s.emptyFlag p) := by
  unfold State.emptyFlag
  split
  · exact .refl s
  · exact (modPort_books s p (by exact fun _ => rfl)).trans (reportFlag_books _ p)
  · exact (modPort_books s p (by exact fun _ => rfl)).trans (reportFlag_books _ p)
  all_goals exact reportFlag_books s p

theorem endPeriod_books (s : State) (p : Port) : Books s (s.endPeriod p) :=
  .ite (enterService_books s p) (failProving_books s p)

/-! ## The transmitter's choice -/

theorem chooseFill_books (s : State) (p : Port) : Books s (s.chooseFill p) :=
  .ite (modPort_books s p (by exact fun _ => rfl)) (modPort_books s p (by exact fun _ => rfl))

/-- A hand-over leaves the rest of the port's record alone (R52). -/
theorem handOver_lsu {lp b : LinePort} {f : TxFrame} (h : lp.handOver = some (f, b)) :
    b.lsu = lp.lsu := by
  simp only [LinePort.handOver, Option.bind_eq_bind, Option.bind_eq_some_iff,
    Option.some.injEq, Prod.mk.injEq] at h
  obtain ⟨c, -, x, -, -, rfl⟩ := h
  rfl

theorem chooseQueued_books (s : State) (p : Port) : Books s (s.chooseQueued p) := by
  unfold State.chooseQueued
  split
  · next f lp h =>
    have begun : Books s (s.setPort p (lp.begin f)) := by
      refine (setPort_onlyPorts s p _).books ?_
      cases p
      · have e : lp.lsu = s.up.lsu := handOver_lsu h
        exact iff_of_eq (congrArg (fun l : Lsu => l.state = .service) e :)
      · exact Iff.rfl
    cases p
    · exact begun.trans (drain_announces _).books
    · exact begun
  · exact chooseFill_books s p

theorem chooseTx_books (s : State) (p : Port) : Books s (s.chooseTx p) := by
  unfold State.chooseTx
  refine (restTx_books s p).trans ?_
  dsimp only
  split
  · exact chooseQueued_books _ p
  · exact chooseFill_books _ p
  · exact .refl _

theorem restartPort_books (s : State) (p : Port) : Books s (s.restartPort p) :=
  .ite (.refl s) (Books.trans (modPort_books s p (by exact fun _ => rfl)) (enterHunt_books _ p))

end Sys2Proof.Proofs
end

