-- ==== Sys2Proof/Proofs/Books.lean ====
section
/-! Every command of a powered part leaves the sales mode the one its inputs give and the ledger true
(10.2, 10.7). -/

namespace Sys2Proof.Proofs

open Sys2Proof.Machine Sys2Proof.Safety Sys2Proof.Laws

/-! ## Configuration -/

theorem adoptScreens_announces (s : State) : Announces s s.adoptScreens := by
  unfold State.adoptScreens
  exact Announces.trans (.of_bdc ⟨_, rfl⟩) (compose_announces _)

theorem deferLowered_winds (s : State) : Winds s s.deferLowered :=
  .ite ((countDefer_winds s).trans (daySwitch_winds _ _)) (.refl s)

theorem configEffect_winds (s : State) (n : Nat) : Winds s (s.configEffect n) := by
  unfold State.configEffect
  split
  · exact (rederiveDelay_trades s).winds
  · exact (rederiveConfidence_trades s).winds
  · exact (rederiveConfidence_trades s).winds
  · exact (rederiveDisplay_trades s).winds
  · exact (testCutoffs_announces s).winds
  · exact ((testCutoffs_announces s).trans (cutoffQuotes_announces _)).winds
  · exact ((darkTest_announces s _).trans (linkStart_announces _)).winds
  · exact deferLowered_winds s
  · exact (Announces.foldl _ expireSlot_announces allSlots s).winds
  · exact (chooseEnergy_announces s).winds
  · exact (chooseEnergy_announces s).winds
  · exact (chooseEnergy_announces s).winds
  · exact (adoptScreens_announces s).winds
  · exact .refl s

theorem enableEffect_books (s : State) (p : Port) : Books s (s.enableEffect p) :=
  .ite (.ite (enterHunt_books s p) (.refl s)) (.ite (.refl s) (enterOff_books s p))

theorem modeEffect_books (s : State) (p : Port) (old : MonitorMode) :
    Books s (s.modeEffect p old) :=
  .ite (.refl s) (modLsu_books s p (by exact fun _ => rfl))

theorem limitEffect_books (s : State) (p : Port) : Books s (s.limitEffect p) := by
  have same := modLsu_books s p (f := fun l => { l with
    bucket := min (s.params.port p).limit l.bucket }) fun _ => rfl
  exact .ite (same.trans (enterOutage_books _ p _)) same

theorem alignEffect_books (s : State) (p : Port) : Books s (s.alignEffect p) :=
  .ite (failProving_books s p) (.refl s)

theorem portConfigEffect_books (s : State) (p : Port) (old : PortParams) (n : Nat) :
    Books s (s.portConfigEffect p old n) := by
  unfold State.portConfigEffect
  split
  · exact enableEffect_books s p
  · exact modeEffect_books s p _
  · exact limitEffect_books s p
  · refine .ite (modLsu_books s p fun l => ?_) (.refl s)
    unfold Lsu.creditEffect
    split <;> rfl
  · exact alignEffect_books s p
  · exact .refl s

theorem setParams_books (s : State) (ps : Params) : Books s { s with params := ps } :=
  .same rfl rfl rfl

theorem loadConfig_books (s : State) (c : ConfigLoad) : Books s (s.loadConfig c) := by
  unfold State.loadConfig
  split
  · split
    · exact (setParams_books s _).trans (portConfigEffect_books _ _ _ _)
    · exact .refl s
  · exact (setParams_books s _).trans (configEffect_winds _ _).books

theorem takeConfig_books (s : State) (bs : List Byte) : Books s (s.takeConfig bs) := by
  unfold State.takeConfig
  split
  · exact loadConfig_books s _
  · exact .same rfl rfl rfl

theorem takeWindow_books (s : State) (bs : List Byte) : Books s (s.takeWindow bs) := by
  unfold State.takeWindow
  split
  all_goals exact .same rfl rfl rfl

/-! ## Queries -/

theorem clearGroup_books (s : State) (g : Nat) : Books s (s.clearGroup g) := by
  unfold State.clearGroup
  split
  · exact .same rfl rfl rfl
  · exact .same rfl rfl rfl
  · exact .same rfl rfl rfl
  · exact .same rfl rfl rfl
  · exact ⟨id, fun ⟨a, b, c, d⟩ => ⟨a, b, c, d⟩⟩
  · exact .refl s

theorem afterAnswer_books (s : State) (r : QueryRequest) : Books s (s.afterAnswer r) := by
  unfold State.afterAnswer
  split
  · exact clearGroup_books s _
  all_goals exact .refl s

theorem takeQuery_books (s : State) (bs : List Byte) : Books s (s.takeQuery bs) := by
  unfold State.takeQuery
  split
  · unfold State.answerQuery
    split
    · exact (offerReply_announces s _).books
    · exact (afterAnswer_books s _).trans (offerReply_announces _ _).books
  · exact .same rfl rfl rfl

/-! ## Starts -/

/-- Every quote slot is FREE. -/
def SlotsFree (s : State) : Prop := ∀ i : Fin 4, s.fqu.slots[i] = .free

theorem SlotFollows.of_free {x : Slot} (h : SlotFollows .free x) : x = .free := by
  cases h
  rfl

theorem Winds.slotsFree {s t : State} (h : Winds s t) (free : SlotsFree s) : SlotsFree t := by
  intro i
  have := h.slots i
  rw [free i] at this
  exact this.of_free

theorem openSlots_of_free {slots : Vector Slot 4} (h : ∀ i : Fin 4, slots[i] = .free) :
    openSlots slots = 0 := by
  have none : slots.toList.filter Slot.isOpen = [] := by
    rw [List.filter_eq_nil_iff]
    intro x hx
    obtain ⟨i, hi, rfl⟩ := List.getElem_of_mem hx
    have e := h ⟨i, by simpa using hi⟩
    simp only [Fin.getElem_fin] at e
    rw [Vector.getElem_toList, e]
    decide
  rw [openSlots, none]
  rfl

/-- The volatile items at a start leave no quote and no authorisation (R155, R173). -/
theorem startVolatile_parts (s : State) :
    SlotsFree s.startVolatile ∧ s.startVolatile.sju = s.sju.atStart := by
  have e : ∀ u : State, ((u.restTx .up).restTx .down).fqu = u.fqu
      ∧ ((u.restTx .up).restTx .down).sju = u.sju := fun u => ⟨rfl, rfl⟩
  unfold State.startVolatile
  dsimp only
  refine ⟨fun i => ?_, (e _).2⟩
  rw [(e _).1]
  simp [Fqu.atStart]

/-- The state of a start as the journal's RESTORE is due (R178). -/
def readied (s : State) : State :=
  (({ s.startVolatile with starting := true } : State).forgetTakes.deriveQuietly.expireCalls).settleDay.testActivation

theorem startUp_eq (s : State) :
    s.startUp = { (readied s).restore.startStops.evaluateMessages with starting := false } := rfl

theorem forgetTakes_turns (s : State) : Turns s s.forgetTakes := .of_tts (.refl _)

theorem deriveQuietly_turns (s : State) : Turns s s.deriveQuietly := .of_tts (.refl _)

theorem settleDay_winds (s : State) : Winds s s.settleDay := by
  unfold State.settleDay
  refine .ite (.refl s) (.ite (.setHtb s Iff.rfl) (.ite ?_ (.ite (deferralTests_winds s)
    (rolloverCheck_winds s))))
  split
  · exact (countDefer_winds s).trans (daySwitch_winds _ _)
  · exact daySwitch_winds s _

theorem readied_winds (s : State) :
    Winds { s.startVolatile with starting := true } (readied s) :=
  ((((forgetTakes_turns _).trans (deriveQuietly_turns _)).trans (expireCalls_turns _)).winds.trans
    (settleDay_winds _)).trans (testActivation_turns _).winds

/-- The restart counts at 0 and the exposure that of the journal (R172). -/
def counted (s : State) : State :=
  { s with sju := { s.sju.withExposure with authsPending := 0, quotesHeld := 0 } }

theorem restore_eq (s : State) : s.restore =
    (counted (s.appendOther
      (.restore s.htb.date s.htb.secs s.sju.authsPending s.sju.quotesHeld))).deriveSalesMode := rfl

theorem counted_ledger {s : State} (free : SlotsFree s) (none : s.sju.pendingAuth = none) :
    LedgerIs (counted s) :=
  ⟨rfl, rfl, (openSlots_of_free free).symm, by
    show 0 = if s.sju.pendingAuth.isSome then 1 else 0
    rw [none]
    rfl⟩

theorem appendOther_slotsFree {s : State} (b : JournalBody) (free : SlotsFree s) :
    SlotsFree (s.appendOther b) := by
  intro i
  have follows := appendOrLose_slots s b (fun c => { c with recordLost := tally c.recordLost }) i
  rw [free i] at follows
  exact follows.of_free

/-- RESTORE leaves true books where no quote and no authorisation stands (R172). -/
theorem restore_true {s : State} (free : SlotsFree s) (none : s.sju.pendingAuth = none) :
    ModeTrue s.restore ∧ LedgerIs s.restore := by
  rw [restore_eq]
  refine ⟨deriveSalesMode_true _, (deriveSalesMode_announces _).books.ledger
    (counted_ledger (appendOther_slotsFree _ free) ?_)⟩
  exact (appendOrLose_pendingAuth s _ _).trans none

theorem endStart_books (s : State) : Books s { s with starting := false } := .same rfl rfl rfl

theorem startStops_trades (s : State) : Trades s s.startStops :=
  (Trades.mapCalls s fun c _ => unsend_sameCall c).trans (testCutoffs_announces _).toTrades

/-- A start leaves true books (R172, R178). -/
theorem startUp_true (s : State) : ModeTrue s.startUp ∧ LedgerIs s.startUp := by
  obtain ⟨free, sju⟩ := startVolatile_parts s
  have ready := readied_winds s
  have none : (readied s).sju.pendingAuth = none := by
    rw [ready.pendingAuth]
    exact congrArg Sju.pendingAuth sju
  obtain ⟨mode, ledger⟩ := restore_true (ready.slotsFree free) none
  have after := ((startStops_trades (readied s).restore).trans
    (evaluateMessages_announces _).toTrades).books.trans (endStart_books _)
  rw [startUp_eq]
  exact ⟨after.mode mode, after.ledger ledger⟩

theorem warmStart_books (s u : State) : Books s u.warmStart :=
  .of_true (startUp_true u).1 (startUp_true u).2

theorem setSerial_books (s : State) (n : Byte) :
    Books s { s with sju := { s.sju with authSerial := n } } :=
  ⟨id, fun ⟨a, b, c, d⟩ => ⟨a, b, c, d⟩⟩

theorem coldStart_true (s : State) : ModeTrue s.coldStart ∧ LedgerIs s.coldStart := by
  obtain ⟨mode, ledger⟩ := startUp_true s.coldItems
  exact ⟨(setSerial_books _ _).mode mode, (setSerial_books _ _).ledger ledger⟩

/-! ## Control and classification -/

theorem setSalesClosed_books (s : State) (b : Bool) : Books s (s.setSalesClosed b) :=
  .ite (.refl s) ⟨fun _ => deriveSalesMode_true _,
    fun ⟨a, b, c, d⟩ => (deriveSalesMode_announces _).books.ledger ⟨a, b, c, d⟩⟩

theorem control_books (s : State) (pins : StrapPins) (c : Command) : Books s (s.control pins c) := by
  unfold State.control
  split
  · exact warmStart_books s _
  · exact ((clearBanks_turns s).books.trans (clearFares_settles _).books).trans
      (setMessages_announces _ _).books
  · exact ⟨id, fun ⟨a, b, c, d⟩ => ⟨a, b, c, d⟩⟩
  · exact (forceDaySwitch_winds s).books
  · exact setSalesClosed_books s _
  · exact setSalesClosed_books s _
  · exact restartPort_books s _

theorem takeCtrl_books (s : State) (pins : StrapPins) (bs : List Byte) :
    Books s (s.takeCtrl pins bs) := by
  unfold State.takeCtrl
  split
  · exact control_books s pins _
  · exact .same rfl rfl rfl

theorem takeLoad_books (s : State) (bs : List Byte) : Books s (s.takeLoad bs) := by
  unfold State.takeLoad
  split
  · exact (takeCallAdd_settles s bs).books
  · exact (takeCallDelete_settles s bs).books
  · exact (takeBankOpen_settles s bs).books
  · exact (takeBankClose_settles s bs).books
  · exact (takeFare_settles s bs).books
  · exact (takeFareActivate_settles s bs).books
  · exact (takeMessage_announces s bs).books
  · exact (takeMessageDelete_announces s bs).books
  · exact takeConfig_books s bs
  · exact takeWindow_books s bs
  · exact .refl s

theorem takeFrame_books (s : State) (pins : StrapPins) (k : Kind) (f : RxFrame) :
    Books s (s.takeFrame pins k f) := by
  unfold State.takeFrame
  split
  · exact takeTime_books s _
  · exact takeLoad_books s _
  · exact takeQuery_books s _
  · exact takeCtrl_books s pins _
  · exact (takeJack_settles s _ _).books
  · exact (takeAuthres_settles s _).books
  · exact (takeStopconf_trades s _).books
  · exact (takeRun_settles s _).books
  all_goals exact .refl s

theorem offer_books (s : State) (p : Port) (q : Queued) : Books s (s.offer p q) := by
  cases p with
  | up => exact (offerUp_announces s q).books
  | down => exact offerDown_books s q

theorem forwardBeacon_books (s : State) (p : Port) (f : RxFrame) :
    Books s (s.forwardBeacon p f) := by
  unfold State.forwardBeacon
  split
  · exact offer_books s _ _
  · exact .ite (.ite ((offer_books s _ _).trans (.same rfl rfl rfl)) (offer_books s _ _))
      (.same rfl rfl rfl)

theorem modFruCtr_books (s : State) (p : Port) (f : FruPortCounters → FruPortCounters) :
    Books s (s.modFruCtr p f) := modPort_books s p fun _ => rfl

theorem relay_books (s : State) (p : Port) (f : RxFrame) : Books s (s.relay p f) :=
  .ite (.refl s) (.ite (modFruCtr_books s p _) (.ite (forwardBeacon_books s p f) (offer_books s _ _)))

theorem classify_books (s : State) (p : Port) (pins : StrapPins) (f : RxFrame) :
    Books s (s.classify p pins f) := by
  unfold State.classify
  split
  · next k _ =>
    unfold State.classifyKnown
    have taken : Books s (if (s.verdictOf p k f.destination).take then s.takeFrame pins k f else s) :=
      .ite (takeFrame_books s pins _ f) (.refl s)
    exact .ite (.ite ((modFruCtr_books s p _).trans (relay_books _ p f)) (modFruCtr_books s p _))
      (.ite (taken.trans (relay_books _ p f)) taken)
  · exact (modFruCtr_books s p _).trans (relay_books _ p f)

/-! ## Commands -/

/-- A command that leaves true books in a powered part. -/
def KeepsBooks (s : State) (o : Host.Outcome State Fault Refusal) : Prop :=
  ∃ t, o = .next t ∧ (t.powered = true → (s.powered = true → ModeTrue s) → ModeTrue t)
    ∧ (t.powered = true → (s.powered = true → LedgerIs s) → LedgerIs t)

theorem whenPowered_keepsBooks {s : State} {f : State → State} (h : Books s (f s)) :
    KeepsBooks s (whenPowered s f) := by
  refine ⟨_, rfl, fun on m => ?_, fun on l => ?_⟩
  all_goals by_cases p : s.powered = true
  · rw [if_pos p]
    exact h.mode (m p)
  · rw [if_neg p] at on
    exact absurd on p
  · rw [if_pos p]
    exact h.ledger (l p)
  · rw [if_neg p] at on
    exact absurd on p

theorem noteActivity_books (s : State) (r : WakeCause) : Books s (s.noteActivity r) :=
  (noteActivity_announces s r).books

theorem pushReply_books (s : State) (r : TerminalReply) : Books s (s.pushReply r) :=
  .same rfl rfl rfl

theorem serve_books {f : State → Served} (h : Serves f) (s : State) (code : Byte) :
    Books s (s.serve code f) := by
  unfold State.serve
  refine .ite (.refl s) (.ite (.same rfl rfl rfl) ?_)
  exact ((noteActivity_books s _).trans (h.books _)).trans (pushReply_books _ _)

theorem Serves.keepsBooks {f : State → Served} (h : Serves f) (s : State) (code : Byte) :
    KeepsBooks s (whenServed s code f) :=
  whenPowered_keepsBooks (serve_books h s code)

theorem checkFails_serves : Serves fun s =>
    { state := s.modTpiCtr fun c => { c with check := tally c.check }, result := .badMessage } :=
  ⟨fun _ => .of_sound rfl, fun _ => rfl, fun _ => .same rfl rfl rfl⟩

theorem badMessage_books (s : State) (code : Byte) (form : BadForm) :
    Books s (s.badMessage code form) := by
  unfold State.badMessage
  split
  · refine .ite (.refl s) ?_
    rw [overLength_eq]
    have ignored : Books s (ignoring s) := .same rfl rfl rfl
    exact .ite ((ignored.trans (noteActivity_books _ _)).trans (pushReply_books _ _)) ignored
  · exact serve_books checkFails_serves s code
  all_goals exact serve_books (answered_serves .badMessage fun _ => .empty) s code

theorem powerUp_keepsBooks (held : Bool) (pins : StrapPins) (low : Bool) (s : State) :
    KeepsBooks s (execPowerUp held pins low s) := by
  have started : ∀ u : State, ModeTrue (if u.mark && held then u.warmStart else u.coldStart)
      ∧ LedgerIs (if u.mark && held then u.warmStart else u.coldStart) := by
    intro u
    split
    · exact startUp_true u
    · exact coldStart_true u
  exact ⟨_, rfl, fun _ _ => (started _).1, fun _ _ => (started _).2⟩

theorem mainPowerLoss_keepsBooks (s : State) : KeepsBooks s (execMainPowerLoss s) := by
  refine ⟨_, rfl, ?_, ?_⟩
  all_goals
    intro on
    by_cases p : s.powered = true
    · rw [if_pos p] at on
      exact absurd (show false = true from on) Bool.false_ne_true
    · rw [if_neg p] at on
      exact absurd on p

theorem serviceSecond_keepsBooks (s : State) : KeepsBooks s (execServiceSecond s) := by
  refine ⟨_, rfl, fun on m => ?_, fun on l => ?_⟩
  all_goals by_cases p : s.powered = true
  · rw [if_pos p]
    exact (serviceSecond_winds s).books.mode (m p)
  · rw [if_neg p] at on
    exact absurd on p
  · rw [if_pos p]
    exact (serviceSecond_winds s).books.ledger (l p)
  · rw [if_neg p] at on
    exact absurd on p

theorem frameClosed_keepsBooks (p : Port) (bits : List Bool) (s : State) :
    KeepsBooks s (execFrameClosed p bits s) := by
  refine whenPowered_keepsBooks ?_
  split
  · exact emptyFlag_books s p
  · exact emptyFlag_books s p
  · exact emptyFlag_books s p
  · exact (reportFlag_books s p).trans (flagInFrame_books _ p _)
  · exact (reportFlag_books s p).trans (closeSequence_books _ p _)

theorem abort_keepsBooks (p : Port) (bits : List Bool) (s : State) :
    KeepsBooks s (execAbort p bits s) := by
  refine whenPowered_keepsBooks ?_
  split
  · exact .refl s
  · exact .refl s
  · exact .refl s
  · exact abortInFrame_books s p _
  · exact endSequence_books s p _

theorem longFrame_keepsBooks (p : Port) (s : State) : KeepsBooks s (execLongFrame p s) := by
  refine whenPowered_keepsBooks ?_
  split
  · exact .refl s
  · exact .refl s
  · exact .refl s
  · exact longInFrame_books s p
  · exact .ite ((modPort_books s p (by exact fun _ => rfl)).trans (addOctets_books _ p _)) (.refl s)

theorem octetGroup_keepsBooks (p : Port) (s : State) : KeepsBooks s (execOctetGroup p s) := by
  refine whenPowered_keepsBooks (.ite ?_ (.refl s))
  exact ((modPort_books s p (by exact fun _ => rfl)).trans (modCtr_books _ p _)).trans
    (reportError_books _ p)

theorem intervalExpiry_keepsBooks (p : Port) (s : State) : KeepsBooks s (execIntervalExpiry p s) :=
  whenPowered_keepsBooks (.ite ((modLsu_books s p (by exact fun _ => rfl)).trans
    (.ite (enterOutage_books _ p _) (.refl _))) (.refl s))

theorem pauseExpiry_keepsBooks (p : Port) (s : State) : KeepsBooks s (execPauseExpiry p s) :=
  whenPowered_keepsBooks (.ite (modLsu_books s p (by exact fun _ => rfl)) (.refl s))

theorem txFrameEnd_keepsBooks (p : Port) (s : State) : KeepsBooks s (execTxFrameEnd p s) := by
  refine whenPowered_keepsBooks ?_
  split
  · exact (modCtr_books s p _).trans (chooseTx_books _ p)
  all_goals exact .refl s

theorem txFlagEnd_keepsBooks (p : Port) (s : State) : KeepsBooks s (execTxFlagEnd p s) := by
  refine whenPowered_keepsBooks ?_
  split
  · exact chooseTx_books s p
  all_goals exact .refl s

theorem txAbortEnd_keepsBooks (p : Port) (s : State) : KeepsBooks s (execTxAbortEnd p s) := by
  refine whenPowered_keepsBooks ?_
  split
  · exact restTx_books s p
  all_goals exact .refl s

theorem frameClassify_keepsBooks (p : Port) (pins : StrapPins) (s : State) :
    KeepsBooks s (execFrameClassify p pins s) := by
  refine whenPowered_keepsBooks ?_
  split
  · exact .refl s
  · exact (modPort_books s p (by exact fun _ => rfl)).trans (classify_books _ p pins _)

theorem minuteTick_keepsBooks (s : State) : KeepsBooks s (execMinuteTick s) := by
  refine whenPowered_keepsBooks (.ite (Books.trans ?_ (minuteTick_turns _).books) (.refl s))
  exact .same rfl rfl rfl

theorem uptimeSecond_keepsBooks (s : State) : KeepsBooks s (execUptimeSecond s) := by
  refine whenPowered_keepsBooks (Books.trans ?_ (compose_announces _).books)
  exact .same rfl rfl rfl

theorem buttonPress_keepsBooks (p : Platform) (s : State) : KeepsBooks s (execButtonPress p s) := by
  refine whenPowered_keepsBooks ?_
  split
  · exact .refl s
  · exact ((modIo_settles s p _).books.trans (noteActivity_books _ _)).trans (press_settles _ p).books

theorem resendExpiry_keepsBooks (k : Key) (s : State) : KeepsBooks s (execResendExpiry k s) := by
  refine whenPowered_keepsBooks ?_
  split
  · exact .ite (sendStopreq_trades s _).books (.refl s)
  · exact .refl s

theorem contactPulse_keepsBooks (p : Platform) (s : State) : KeepsBooks s (execContactPulse p s) :=
  whenPowered_keepsBooks (.ite (modSruCtr_announces s _).books
    ((modIo_settles s p _).books.trans (matchPulse_books _ p)))

theorem tpGap_keepsBooks (s : State) : KeepsBooks s (execTpGap s) := by
  refine whenPowered_keepsBooks ?_
  split
  all_goals exact .same rfl rfl rfl

theorem ackTimerExpiry_keepsBooks (s : State) : KeepsBooks s (execAckTimerExpiry s) :=
  whenPowered_keepsBooks (.ite ((goBack_settles s).books.trans (drain_announces _).books) (.refl s))

theorem screenMessageSent_keepsBooks (s : State) : KeepsBooks s (execScreenMessageSent s) := by
  refine whenPowered_keepsBooks (Books.trans ?_ (linkStart_announces _).books)
  exact .same rfl rfl rfl

theorem lowEnergyChange_keepsBooks (asserted : Bool) (s : State) :
    KeepsBooks s (execLowEnergyChange asserted s) := by
  refine whenPowered_keepsBooks (Books.trans ?_ (chooseEnergy_announces _).books)
  exact .same rfl rfl rfl

theorem activityExpiry_keepsBooks (s : State) : KeepsBooks s (execActivityExpiry s) := by
  refine whenPowered_keepsBooks (.ite (Books.trans (Books.trans ?_ (darkTest_announces _ _).books)
    (linkStart_announces _).books) (.refl s))
  exact .same rfl rfl rfl

theorem endWarmUp_books (s : State) : Books s s.endWarmUp := by
  obtain ⟨b, h⟩ := endWarmUp_frame s
  rw [h]
  exact .same rfl rfl rfl

/-- Every command leaves true books in a powered part. -/
theorem exec_keepsBooks (c : Instr) (s : State) : KeepsBooks s (exec c s) :=
  match c with
  | .powerUp held pins low => powerUp_keepsBooks held pins low s
  | .mainPowerLoss => mainPowerLoss_keepsBooks s
  | .flagReceived p =>
    show KeepsBooks s (execFlagReceived p s) from whenPowered_keepsBooks (emptyFlag_books s p)
  | .frameClosed p bits => frameClosed_keepsBooks p bits s
  | .abort p bits => abort_keepsBooks p bits s
  | .longFrame p => longFrame_keepsBooks p s
  | .octetGroup p => octetGroup_keepsBooks p s
  | .dwellExpiry p =>
    show KeepsBooks s (execDwellExpiry p s) from
      whenPowered_keepsBooks (.ite (modPort_books s p (by exact fun _ => rfl)) (.refl s))
  | .txFrameEnd p => txFrameEnd_keepsBooks p s
  | .txFlagEnd p => txFlagEnd_keepsBooks p s
  | .fillDueExpiry p =>
    show KeepsBooks s (execFillDueExpiry p s) from
      whenPowered_keepsBooks (.ite (modLsu_books s p (by exact fun _ => rfl)) (.refl s))
  | .periodExpiry p =>
    show KeepsBooks s (execPeriodExpiry p s) from
      whenPowered_keepsBooks (.ite (endPeriod_books s p) (.refl s))
  | .pauseExpiry p => pauseExpiry_keepsBooks p s
  | .intervalExpiry p => intervalExpiry_keepsBooks p s
  | .silenceExpiry p =>
    show KeepsBooks s (execSilenceExpiry p s) from
      whenPowered_keepsBooks (.ite (enterOutage_books s p _) (.refl s))
  | .retryExpiry p =>
    show KeepsBooks s (execRetryExpiry p s) from
      whenPowered_keepsBooks (.ite (enterHunt_books s p) (.refl s))
  | .frameClassify p pins => frameClassify_keepsBooks p pins s
  | .beaconTimerExpiry =>
    show KeepsBooks s (execBeaconTimerExpiry s) from
      whenPowered_keepsBooks (.ite (originateBeacon_books s) (.refl s))
  | .serviceSecond => serviceSecond_keepsBooks s
  | .uptimeSecond => uptimeSecond_keepsBooks s
  | .minuteTick => minuteTick_keepsBooks s
  | .buttonPress p => buttonPress_keepsBooks p s
  | .buttonRelease p =>
    show KeepsBooks s (execButtonRelease p s) from
      whenPowered_keepsBooks (modIo_settles s p _).books
  | .noTargetExpiry p =>
    show KeepsBooks s (execNoTargetExpiry p s) from
      whenPowered_keepsBooks
        (.ite ((modIo_settles s p _).books.trans (deriveLamps_announces _).books) (.refl s))
  | .resendExpiry k => resendExpiry_keepsBooks k s
  | .contactPulse p => contactPulse_keepsBooks p s
  | .contactLockoutExpiry p =>
    show KeepsBooks s (execContactLockoutExpiry p s) from
      whenPowered_keepsBooks (.ite (modIo_settles s p _).books (.refl s))
  | .screenMessageSent => screenMessageSent_keepsBooks s
  | .lowEnergyChange asserted => lowEnergyChange_keepsBooks asserted s
  | .activityExpiry => activityExpiry_keepsBooks s
  | .warmUpExpiry =>
    show KeepsBooks s (execWarmUpExpiry s) from
      whenPowered_keepsBooks (.ite (endWarmUp_books s) (.refl s))
  | .quote r => (serveQuote_serves r).keepsBooks s _
  | .cancelQuote slot => (serveCancel_serves slot).keepsBooks s _
  | .quoteExpiry i =>
    show KeepsBooks s (execQuoteExpiry i s) from
      whenPowered_keepsBooks (expireSlot_announces s i).books
  | .find r => (serveFind_serves r).keepsBooks s _
  | .issue r => (serveIssue_serves r).keepsBooks s _
  | .authTimerExpiry =>
    show KeepsBooks s (execAuthTimerExpiry s) from
      whenPowered_keepsBooks (.ite (abandonAuth_settles s _ _).books (.refl s))
  | .ticket n => (serveTicket_serves n).keepsBooks s _
  | .printed n => (servePrinted_serves n).keepsBooks s _
  | .void n => (serveVoid_serves n).keepsBooks s _
  | .ticketLimitExpiry n =>
    show KeepsBooks s (execTicketLimitExpiry n s) from
      whenPowered_keepsBooks (.ite (dropTicket_settles s n).books (.refl s))
  | .ackTimerExpiry => ackTimerExpiry_keepsBooks s
  | .notices count => (serveNotices_serves count).keepsBooks s _
  | .status => (answered_serves .ok fun u => .status u.terminalStatus).keepsBooks s _
  | .tpGap => tpGap_keepsBooks s
  | .terminalReplySent =>
    show KeepsBooks s (execTerminalReplySent s) from whenPowered_keepsBooks (.same rfl rfl rfl)
  | .idleLine p =>
    show KeepsBooks s (execIdleLine p s) from
      whenPowered_keepsBooks (.ite (modPort_books s p (by exact fun _ => rfl)) (.refl s))
  | .candidateFrameBegin p =>
    show KeepsBooks s (execCandidateFrameBegin p s) from
      whenPowered_keepsBooks (.ite (modPort_books s p (by exact fun _ => rfl)) (.refl s))
  | .txAbortEnd p => txAbortEnd_keepsBooks p s
  | .badMessage code form =>
    show KeepsBooks s (execBadMessage code form s) from
      whenPowered_keepsBooks (badMessage_books s code form)

/-- Settles O59. -/
theorem salesModeTrueAlways : Obligations.SalesModeTrueAlways :=
  keptByStep_of_exec (fun _ _ h => h) fun c s t e inv on => by
    obtain ⟨u, next, mode, -⟩ := exec_keepsBooks c s
    rw [e] at next
    cases Host.Outcome.next.inj next
    exact mode on inv

theorem ledgerTrue_iff (s : State) : LedgerTrue s ↔ (s.powered = true → LedgerIs s) :=
  ⟨fun h on => ⟨(h on).1, (h on).2.1, (h on).2.2.1, (h on).2.2.2⟩,
    fun h on => ⟨(h on).count, (h on).amount, (h on).held, (h on).auths⟩⟩

/-- Settles O60. -/
theorem ledgerTrueAlways : Obligations.LedgerTrueAlways :=
  keptByStep_of_exec (fun _ _ h => h) fun c s t e inv => by
    rw [ledgerTrue_iff] at inv ⊢
    intro on
    obtain ⟨u, next, -, ledger⟩ := exec_keepsBooks c s
    rw [e] at next
    cases Host.Outcome.next.inj next
    exact ledger on inv

end Sys2Proof.Proofs
end

