-- ==== Sys2Proof/Proofs/PoweredRules.lean ====
section
/-! What each command of a powered part comes to: one rule per command, cited by the statements about
single commands. -/

namespace Sys2Proof.Proofs

open Sys2Proof.Machine Sys2Proof.Safety Sys2Proof.Laws

section
variable {s : State} (on : s.powered = true)
include on

/-! ## The receiver -/

theorem exec_flagReceived (p : Port) : exec (.flagReceived p) s = .next (s.emptyFlag p) :=
  (whenPowered_on on _ : execFlagReceived p s = _)

theorem exec_idleLine (p : Port) : exec (.idleLine p) s
    = .next (if (s.port p).rx = .idle then s.modPort p fun lp => { lp with rx := .seek } else s) :=
  (whenPowered_on on _ : execIdleLine p s = _)

theorem exec_candidateFrameBegin (p : Port) : exec (.candidateFrameBegin p) s
    = .next (if (s.port p).rx = .idle then s.modPort p fun lp => { lp with rx := .frame } else s) :=
  (whenPowered_on on _ : execCandidateFrameBegin p s = _)

theorem exec_frameClosed_frame {p : Port} (rx : (s.port p).rx = .frame) (bits : List Bool) :
    exec (.frameClosed p bits) s = .next ((s.reportFlag p).flagInFrame p (destuff bits)) := by
  refine (whenPowered_on on _ : execFrameClosed p bits s = _).trans ?_
  rw [rx]

theorem exec_frameClosed_counting {p : Port} (rx : (s.port p).rx = .counting) (bits : List Bool) :
    exec (.frameClosed p bits) s = .next ((s.reportFlag p).closeSequence p (destuff bits)) := by
  refine (whenPowered_on on _ : execFrameClosed p bits s = _).trans ?_
  rw [rx]

theorem exec_abort_frame {p : Port} (rx : (s.port p).rx = .frame) (bits : List Bool) :
    exec (.abort p bits) s = .next (s.abortInFrame p (destuff bits)) := by
  refine (whenPowered_on on _ : execAbort p bits s = _).trans ?_
  rw [rx]

theorem exec_longFrame_frame {p : Port} (rx : (s.port p).rx = .frame) :
    exec (.longFrame p) s = .next (s.longInFrame p) := by
  refine (whenPowered_on on _ : execLongFrame p s = _).trans ?_
  rw [rx]

theorem exec_longFrame_counting {p : Port} (rx : (s.port p).rx = .counting)
    (few : (s.port p).seqCounted ≤ 128) : exec (.longFrame p) s
      = .next ((s.modPort p fun lp => { lp with seqCounted := 129 }).addOctets p 129) := by
  refine (whenPowered_on on _ : execLongFrame p s = _).trans ?_
  rw [rx]
  exact congrArg _ (if_pos few)

theorem exec_octetGroup {p : Port} (rx : (s.port p).rx = .counting)
    (many : 128 < (s.port p).seqCounted) : exec (.octetGroup p) s
      = .next ((s.modPort p fun lp => { lp with
          octetCount := 0, seqCounted := lp.seqCounted + (16 - lp.octetCount) }).reportGroup p) :=
  ((whenPowered_on on _ : execOctetGroup p s = _)).trans (congrArg _ (if_pos ⟨rx, many⟩))

theorem exec_dwellExpiry (p : Port) : exec (.dwellExpiry p) s
    = .next (if (s.port p).lsu.state = .hunt ∧ (s.port p).dwell.isRunning = true then
        s.modPort p fun lp => { lp.seek with
          rxRate := nextRate lp.rxRate, dwell := .running Config.dwellMs, goodRun := 0 }
      else s) :=
  (whenPowered_on on _ : execDwellExpiry p s = _)

/-! ## The LSU's timers -/

theorem exec_periodExpiry (p : Port) : exec (.periodExpiry p) s
    = .next (if (s.port p).lsu.period.isRunning then s.endPeriod p else s) :=
  (whenPowered_on on _ : execPeriodExpiry p s = _)

theorem exec_pauseExpiry (p : Port) : exec (.pauseExpiry p) s
    = .next (if (s.port p).lsu.pause.isRunning then
        s.modLsu p fun l => l.startPeriod (s.params.port p).period else s) :=
  (whenPowered_on on _ : execPauseExpiry p s = _)

theorem exec_intervalExpiry (p : Port) : exec (.intervalExpiry p) s
    = .next (if (s.port p).lsu.interval.isRunning then
        if (s.params.port p).limit
            ≤ ((s.port p).lsu.judgeInterval (s.params.port p).limit).bucket then
          (s.modLsu p fun l => l.judgeInterval (s.params.port p).limit).enterOutage p .errorRate
        else s.modLsu p fun l => l.judgeInterval (s.params.port p).limit
      else s) := by
  refine (whenPowered_on on _ : execIntervalExpiry p s = _).trans ?_
  cases p <;> rfl

theorem exec_silenceExpiry (p : Port) : exec (.silenceExpiry p) s
    = .next (if (s.port p).lsu.silence.isRunning then s.enterOutage p .silence else s) :=
  (whenPowered_on on _ : execSilenceExpiry p s = _)

theorem exec_retryExpiry (p : Port) : exec (.retryExpiry p) s
    = .next (if (s.port p).lsu.retry.isRunning then s.enterHunt p else s) :=
  (whenPowered_on on _ : execRetryExpiry p s = _)

theorem exec_fillDueExpiry (p : Port) : exec (.fillDueExpiry p) s
    = .next (if (s.port p).lsu.fillDue.isRunning then
        s.modLsu p fun l => { l with fillDue := .expired } else s) :=
  (whenPowered_on on _ : execFillDueExpiry p s = _)

/-! ## The transmitter -/

theorem exec_txFrameEnd {p : Port} {f : TxFrame} (tx : (s.port p).tx = .sending f) :
    exec (.txFrameEnd p) s
      = .next ((s.modCtr p fun c => { c with txFrames := tally c.txFrames }).chooseTx p) := by
  refine (whenPowered_on on _ : execTxFrameEnd p s = _).trans ?_
  rw [tx]

theorem exec_txFlagEnd {p : Port} (tx : (s.port p).tx = .flags) :
    exec (.txFlagEnd p) s = .next (s.chooseTx p) := by
  refine (whenPowered_on on _ : execTxFlagEnd p s = _).trans ?_
  rw [tx]

theorem exec_txAbortEnd {p : Port} (tx : (s.port p).tx = .aborting) :
    exec (.txAbortEnd p) s = .next (s.restTx p) := by
  refine (whenPowered_on on _ : execTxAbortEnd p s = _).trans ?_
  rw [tx]

/-! ## Frames and timers of the other blocks -/

theorem exec_frameClassify {p : Port} {f : RxFrame} {rest : List RxFrame}
    (held : (s.port p).buffers = f :: rest) (pins : StrapPins) : exec (.frameClassify p pins) s
      = .next ((s.setPort p { s.port p with buffers := rest }).classify p pins f) := by
  refine (whenPowered_on on _ : execFrameClassify p pins s = _).trans ?_
  rw [held]
  rfl

theorem exec_beaconTimerExpiry : exec .beaconTimerExpiry s
    = .next (if s.fru.beaconTimer.isRunning then s.originateBeacon else s) :=
  (whenPowered_on on _ : execBeaconTimerExpiry s = _)

theorem exec_uptimeSecond : exec .uptimeSecond s
    = .next (State.compose { s with htb := { s.htb with
        uptime := tally s.htb.uptime
        minuteDue := s.htb.minuteDue || tally s.htb.uptime % 60 == 0 } }) :=
  (whenPowered_on on _ : execUptimeSecond s = _)

theorem exec_minuteTick : exec .minuteTick s
    = .next (if s.htb.minuteDue then
        State.minuteTick { s with htb := { s.htb with minuteDue := false } } else s) :=
  (whenPowered_on on _ : execMinuteTick s = _)

theorem exec_serviceSecond : exec .serviceSecond s = .next s.serviceSecond :=
  congrArg Host.Outcome.next (if_pos on)

theorem exec_mainPowerLoss : exec .mainPowerLoss s = .next s.losePower :=
  (whenPowered_on on _ : execMainPowerLoss s = _)

theorem exec_ackTimerExpiry : exec .ackTimerExpiry s
    = .next (if s.sju.ackTimer.isRunning then State.drain { s with sju := s.sju.goBack } else s) :=
  (whenPowered_on on _ : execAckTimerExpiry s = _)

theorem exec_authTimerExpiry : exec .authTimerExpiry s
    = .next (if s.sju.pendingAuth.any fun p => p.timer.isRunning then
        s.abandonAuth .authTimeout fun c => { c with authTimeouts := tally c.authTimeouts }
      else s) :=
  (whenPowered_on on _ : execAuthTimerExpiry s = _)

theorem exec_quoteExpiry (i : Fin 4) : exec (.quoteExpiry i) s = .next (s.expireSlot i) :=
  (whenPowered_on on _ : execQuoteExpiry i s = _)

theorem exec_ticketLimitExpiry (n : TicketNo) : exec (.ticketLimitExpiry n) s
    = .next (if (s.sju.ticket n).any fun t => t.limit.isRunning then s.dropTicket n else s) :=
  (whenPowered_on on _ : execTicketLimitExpiry n s = _)

/-! ## Platforms and boards -/

theorem exec_buttonPress_pressed {p : Platform} (down : (s.sru.io p).button = .pressed) :
    exec (.buttonPress p) s = .next s := by
  refine (whenPowered_on on _ : execButtonPress p s = _).trans ?_
  rw [down]

theorem exec_buttonPress_released {p : Platform} (up : (s.sru.io p).button = .released) :
    exec (.buttonPress p) s = .next
      (((s.modIo p fun io => { io with button := .pressed }).noteActivity .button).press p) := by
  refine (whenPowered_on on _ : execButtonPress p s = _).trans ?_
  rw [up]

theorem exec_buttonRelease (p : Platform) : exec (.buttonRelease p) s
    = .next (s.modIo p fun io => { io with button := .released }) :=
  (whenPowered_on on _ : execButtonRelease p s = _)

theorem exec_noTargetExpiry (p : Platform) : exec (.noTargetExpiry p) s
    = .next (if (s.sru.io p).noTarget.isRunning then
        (s.modIo p fun io => { io with noTarget := .stopped }).deriveLamps else s) :=
  (whenPowered_on on _ : execNoTargetExpiry p s = _)

theorem exec_contactPulse (p : Platform) : exec (.contactPulse p) s
    = .next (if (s.sru.io p).lockout.isRunning then
        s.modSruCtr fun k => { k with contactRepeat := tally k.contactRepeat }
      else (s.modIo p fun io => { io with lockout := .running Config.lockoutMs }).matchPulse p) :=
  (whenPowered_on on _ : execContactPulse p s = _)

theorem exec_contactLockoutExpiry (p : Platform) : exec (.contactLockoutExpiry p) s
    = .next (if (s.sru.io p).lockout.isRunning then
        s.modIo p fun io => { io with lockout := .stopped } else s) :=
  (whenPowered_on on _ : execContactLockoutExpiry p s = _)

theorem exec_resendExpiry (k : Key) : exec (.resendExpiry k) s
    = .next (match s.call k with
      | some c => if c.stop = .sent ∧ c.resend.isRunning = true then s.sendStopreq c else s
      | none => s) := by
  refine (whenPowered_on on _ : execResendExpiry k s = _).trans ?_
  rfl

theorem exec_screenMessageSent : exec .screenMessageSent s
    = .next (State.linkStart { s with bdc := { s.bdc with link := none } }) :=
  (whenPowered_on on _ : execScreenMessageSent s = _)

theorem exec_lowEnergyChange (asserted : Bool) : exec (.lowEnergyChange asserted) s
    = .next (State.chooseEnergy { s with lowEnergy := asserted }) :=
  (whenPowered_on on _ : execLowEnergyChange asserted s = _)

theorem exec_activityExpiry (running : s.bdc.activity.isRunning = true) : exec .activityExpiry s
    = .next (State.linkStart
        (State.darkTest { s with bdc := { s.bdc with activity := .expired } } .none)) :=
  ((whenPowered_on on _ : execActivityExpiry s = _)).trans (congrArg _ (if_pos running))

theorem exec_warmUpExpiry : exec .warmUpExpiry s
    = .next (if s.bdc.warmUp.isRunning then s.endWarmUp else s) :=
  (whenPowered_on on _ : execWarmUpExpiry s = _)

/-! ## The terminal port -/

theorem exec_tpGap : exec .tpGap s
    = .next (match s.tpi.parser with
      | .waiting => s.modTpiCtr fun c => { c with gap := tally c.gap }
      | .ignoring => { s with tpi := { s.tpi with parser := .waiting } }) := by
  refine (whenPowered_on on _ : execTpGap s = _).trans ?_
  rfl

theorem exec_terminalReplySent : exec .terminalReplySent s
    = .next { s with tpi := { s.tpi with replies := s.tpi.replies.drop 1 } } :=
  (whenPowered_on on _ : execTerminalReplySent s = _)

theorem exec_badMessage (code : Byte) (form : BadForm) :
    exec (.badMessage code form) s = .next (s.badMessage code form) :=
  (whenPowered_on on _ : execBadMessage code form s = _)

end

end Sys2Proof.Proofs
end

