-- ==== Sys2Proof/Proofs/Supervision.lean ====
section
/-! The link's small steps: the receiver's marks, the supervision timers, the moves to OUTAGE and HUNT
(01, 02). -/

namespace Sys2Proof.Proofs

open Sys2Proof.Machine Sys2Proof.Safety Sys2Proof.Laws

/-! ## Reports and rates -/

/-- The LSU after a flag: the silence watch restarts in PROVING and SERVICE (R28). -/
def heardFlag (l : Lsu) : Lsu :=
  { l with silence := if l.state = .proving ∨ l.state = .service then .running 2000 else l.silence }

theorem reportFlag_eq (s : State) (p : Port) :
    s.reportFlag p = s.modPort p fun lp => { lp with lsu := heardFlag lp.lsu } := by
  refine congrArg (fun l : Lsu => s.setPort p { s.port p with lsu := l }) ?_
  generalize (s.port p).lsu = l
  unfold heardFlag
  dsimp only
  split
  case h_1 h => rw [if_pos (.inl h)]; rfl
  case h_2 h => rw [if_pos (.inr h)]; rfl
  case h_3 h | h_4 h | h_5 h =>
    rw [if_neg]
    simp [h]

theorem restTx_eq (s : State) (p : Port) :
    s.restTx p = s.setPort p { s.port p with
      txRate := s.txRateOf p
      tx := if (s.port p).lsu.state = .off ∨ (s.port p).lsu.state = .outage ∨ s.txRateOf p = none
        then .silent else .flags } := by
  refine congrArg (fun x => s.setPort p { s.port p with txRate := s.txRateOf p, tx := x }) ?_
  cases hs : (s.port p).lsu.state <;> cases hr : s.txRateOf p <;> simp [restingTx]

/-- What the transmitter does at an entry into OUTAGE: a frame being sent is aborted, flags cease
(R15, R16). -/
theorem stopTx_tx (s : State) (p : Port) : ((s.stopTx p).port p).tx
    = match (s.port p).tx with
      | .sending _ | .aborting => .aborting
      | .silent | .flags =>
        if (s.port p).lsu.state = .off ∨ (s.port p).lsu.state = .outage ∨ s.txRateOf p = none
        then .silent else .flags := by
  unfold State.stopTx
  cases (s.port p).tx
  case sending | aborting => rw [State.modPort_eq, State.port_setPort_self]
  case silent | flags => rw [restTx_eq, State.port_setPort_self]

/-! ## Entries -/

theorem flush_lsu (lp : LinePort) : lp.flush.lsu = lp.lsu := rfl

theorem enterOutage_lsu (s : State) (p : Port) (cause : OutageCause) :
    ((s.enterOutage p cause).port p).lsu = (s.port p).lsu.toOutage cause := by
  rw [enterOutage_eq, leaveIf_port]
  split
  · rw [flush_lsu, outageState_lsu]
  · exact outageState_lsu s p cause

theorem inOutage_toOutage (l : Lsu) (cause : OutageCause) : InOutage l (l.toOutage cause) cause :=
  ⟨rfl, rfl, rfl, rfl, rfl, rfl, rfl, rfl, rfl, rfl, rfl, rfl⟩

theorem enterOutage_onlyLink (s : State) (p : Port) (cause : OutageCause) :
    OnlyLink p s (s.enterOutage p cause) := by
  rw [enterOutage_eq]
  exact onlyLink_trans (onlyLink_of_onlyPort (outageState_onlyPort s p cause)) (leaveIf_onlyLink _ _ p)

theorem enterOutage_onlyPort {s : State} {p : Port} (cause : OutageCause)
    (out : (s.port p).lsu.state ≠ .service) : OnlyPort p s (s.enterOutage p cause) := by
  rw [enterOutage_eq, leaveIf_of_ne p out]
  exact outageState_onlyPort s p cause

theorem flush_txFrame (lp : LinePort) : txFrameOf lp.flush = (txFrameOf lp).flush := rfl

theorem enterOutage_port (s : State) (p : Port) (cause : OutageCause) :
    txFrameOf ((s.enterOutage p cause).port p)
      = if (s.port p).lsu.state = .service then
          (txFrameOf { s.port p with lsu := (s.port p).lsu.toOutage cause }).flush
        else txFrameOf { s.port p with lsu := (s.port p).lsu.toOutage cause } := by
  rw [enterOutage_eq, leaveIf_port]
  split
  · rw [flush_txFrame, outageState_port]
  · exact outageState_port s p cause

theorem enterHunt_of_ne {s : State} {p : Port} (out : (s.port p).lsu.state ≠ .service) :
    s.enterHunt p = huntState s p := by
  rw [enterHunt_eq, leaveIf_of_ne p out]

/-! ## The receiver -/

/-- Settles O7. -/
theorem receiverMarks : Obligations.ReceiverMarks := by
  intro s p on
  dsimp only
  rw [exec_flagReceived on, exec_idleLine on, exec_candidateFrameBegin on]
  refine ⟨fun rx => ?_, fun rx => ?_, fun rx => ?_, fun rx => ?_, fun rx => ?_⟩
  · have empty : s.emptyFlag p = (s.modPort p fun lp => { lp with rx := .idle }).reportFlag p := by
      unfold State.emptyFlag
      rcases rx with rx | rx <;> rw [rx]
    rw [empty, reportFlag_eq, modPort_modPort]
    rfl
  · have empty : s.emptyFlag p = s.reportFlag p := by
      unfold State.emptyFlag
      rcases rx with rx | rx <;> rw [rx]
    rw [empty, reportFlag_eq]
    rfl
  · unfold State.emptyFlag
    rw [rx]
  · rw [if_pos rx, if_pos rx]
    exact ⟨rfl, rfl⟩
  · rw [if_neg rx, if_neg rx]
    exact ⟨rfl, rfl⟩

theorem nextRate_of_mem {old new : Rate}
    (h : (old, new) ∈ [(Rate.r19200, Rate.r9600), (.r9600, .r4800), (.r4800, .r2400),
      (.r2400, .r1200), (.r1200, .r19200)]) : nextRate old = new := by
  simp only [List.mem_cons, Prod.mk.injEq, List.not_mem_nil, or_false] at h
  rcases h with ⟨rfl, rfl⟩ | ⟨rfl, rfl⟩ | ⟨rfl, rfl⟩ | ⟨rfl, rfl⟩ | ⟨rfl, rfl⟩ <;> rfl

/-- Settles O11. -/
theorem dwellMovesTheRate : Obligations.DwellMovesTheRate := by
  intro s p on
  dsimp only
  rw [exec_dwellExpiry on]
  constructor
  · intro hunt running old new step rate
    have next : nextRate (s.port p).rxRate = new := by
      rw [rate]
      exact nextRate_of_mem step
    rw [if_pos ⟨hunt, running⟩, State.modPort_eq, next]
    rfl
  · intro h
    refine congrArg _ (if_neg ?_)
    rintro ⟨hunt, running⟩
    rcases h with h | h
    · exact h hunt
    · exact Bool.false_ne_true (h.symm.trans running)

/-! ## The transmitter -/

/-- Settles O15. -/
theorem abortEndsAtRest : Obligations.AbortEndsAtRest := by
  intro s p on aborting
  dsimp only
  rw [exec_txAbortEnd on aborting, restTx_eq]

/-! ## The timers -/

/-- Settles O16. -/
theorem supervisionTimers : Obligations.SupervisionTimers := by
  intro s p on
  dsimp only
  rw [exec_fillDueExpiry on, exec_pauseExpiry on, exec_periodExpiry on, exec_intervalExpiry on,
    exec_silenceExpiry on, exec_retryExpiry on]
  have idle {b : Bool} {t : State} (h : b = false) :
      (Host.Outcome.next (if b = true then t else s) : Host.Outcome State Fault Refusal)
        = .next s := by
    rw [h]
    rfl
  refine ⟨fun h => ?_, fun h => ?_, idle, idle, idle, idle, idle, idle⟩
  · rw [if_pos h]
    rfl
  · rw [if_pos h]
    rfl

/-- Settles O18. -/
theorem intervalIsJudged : Obligations.IntervalIsJudged := by
  intro s p on service running
  dsimp only
  rw [exec_intervalExpiry on, if_pos running]
  refine ⟨fun below => ?_, fun reached => ?_⟩
  · exact congrArg _ (if_neg (Nat.not_le.mpr below))
  · refine ⟨_, congrArg _ (if_pos reached), ?_, ?_, onlyLink_trans (onlyLink_of_onlyPort (setPort_onlyPort s p _))
      (enterOutage_onlyLink _ p _)⟩
    · rw [enterOutage_lsu, State.modLsu, State.modPort_eq, State.port_setPort_self]
      exact inOutage_toOutage _ _
    · rw [enterOutage_lsu, State.modLsu, State.modPort_eq, State.port_setPort_self]
      rfl

/-- Settles O20. -/
theorem retryEntersHunt : Obligations.RetryEntersHunt := by
  intro s p on outage running
  have out : (s.port p).lsu.state ≠ .service := by
    rw [outage]
    exact nofun
  rw [exec_retryExpiry on, if_pos running, enterHunt_of_ne out]
  have frame := huntState_port s p
  have read {α : Type} (f : LinePort → α) (h : ∀ lp, f (txFrameOf lp) = f lp) :
      f ((huntState s p).port p) = f (s.port p).toHunt := by
    rw [← h, frame, h]
  have search : ∀ lp : LinePort, lp.toHunt.buffers = lp.buffers ∧ lp.toHunt.queue = lp.queue
      ∧ lp.toHunt.rx = .seek ∧ lp.toHunt.octetCount = 0 ∧ lp.toHunt.goodRun = 0
      ∧ (lp.rateMode = .auto → lp.toHunt.rxRate = .r19200 ∧ lp.toHunt.dwell = .running 2000)
      ∧ ∀ r, lp.rateMode = .fixed r → lp.toHunt.rxRate = r := by
    intro lp
    cases h : lp.rateMode <;>
      simp [LinePort.toHunt, LinePort.startSearch, LinePort.seek, h, Config.dwellMs]
  obtain ⟨hb, hq, hrx, ho, hg, hauto, hfixed⟩ := search (s.port p)
  refine ⟨_, rfl, huntState_lsu s p, ?_, ?_, ?_, ?_, ?_, fun h => ⟨?_, ?_⟩, fun r h => ?_,
    huntState_onlyPorts s p⟩
  · exact (read LinePort.rx fun _ => rfl).trans hrx
  · exact (read LinePort.octetCount fun _ => rfl).trans ho
  · exact (read LinePort.goodRun fun _ => rfl).trans hg
  · exact (read LinePort.buffers fun _ => rfl).trans hb
  · exact (read LinePort.queue fun _ => rfl).trans hq
  · exact (read LinePort.rxRate fun _ => rfl).trans (hauto h).1
  · exact (read LinePort.dwell fun _ => rfl).trans (hauto h).2
  · exact (read LinePort.rxRate fun _ => rfl).trans (hfixed r h)

end Sys2Proof.Proofs
end

