-- ==== Sys2Proof/Proofs/Queueing.lean ====
section
/-! The transmit queues: what an offer, a drain and a choice of the transmitter leave (03, R15, R50 to
R54). -/

namespace Sys2Proof.Proofs

open Sys2Proof.Machine Sys2Proof.Safety Sys2Proof.Laws

/-! ## Admission -/

theorem enqueue_of_room {lp : LinePort} {q : Queued} (room : Room lp q.cls) :
    lp.enqueue q = { lp with queue := lp.queue ++ [q] } := by
  rcases enqueue_cases lp q with ⟨-, e⟩ | ⟨full, -⟩
  · exact e
  · exact absurd room full

theorem enqueue_of_not_room {lp : LinePort} {q : Queued} (full : ¬ Room lp q.cls) :
    lp.enqueue q = { lp with fruCtr := lp.countDrop q.cls } := by
  rcases enqueue_cases lp q with ⟨room, -⟩ | ⟨-, e⟩
  · exact absurd room full
  · exact e

theorem countDrop_of_not_service {lp : LinePort} (c : TxClass) (out : lp.lsu.state ≠ .service) :
    lp.countDrop c = { lp.fruCtr with portDownDrop := tally lp.fruCtr.portDownDrop } :=
  if_neg out

theorem countDrop_of_service {lp : LinePort} (c : TxClass) (serving : lp.lsu.state = .service) :
    lp.countDrop c = match c with
      | .urgent => { lp.fruCtr with dropUrgent := tally lp.fruCtr.dropUrgent }
      | .relay => { lp.fruCtr with dropRelay := tally lp.fruCtr.dropRelay }
      | .own => { lp.fruCtr with dropOwn := tally lp.fruCtr.dropOwn } :=
  (if_pos serving).trans (by cases c <;> rfl)

theorem room_serving {lp : LinePort} {c : TxClass} (h : Room lp c) :
    lp.lsu.state = .service := h.1

/-- Settles O25. -/
theorem admissionTests : Obligations.AdmissionTests := by
  intro lp c f
  dsimp only
  refine ⟨fun out => ?_, fun room => enqueue_of_room room, fun serving full => ?_⟩
  · have full : ¬ Room lp c := fun room => out (room_serving room)
    rw [enqueue_of_not_room full, countDrop_of_not_service _ out]
  · refine (enqueue_of_not_room (q := ⟨c, f⟩) full).trans ?_
    refine congrArg (fun k => { lp with fruCtr := k }) ((countDrop_of_service c serving).trans ?_)
    cases c <;> rfl

/-! ## Drains and offers -/

/-- What a drain leaves: JRNLs behind the queue, the journal's pointers moved, drops counted. -/
def Drains (s t : State) : Prop :=
  ∃ (js : List Queued) (k : FruPortCounters) (n : BitVec 32) (x : Timer), AllJrnl js
    ∧ t = { s with
        up := { s.up with queue := s.up.queue ++ js, fruCtr := k }
        sju := { s.sju with nextSeq := n, ackTimer := x } }

theorem allJrnl_nil : AllJrnl [] := fun _ h => absurd h List.not_mem_nil

theorem allJrnl_append {a b : List Queued} (h : AllJrnl a) (k : AllJrnl b) : AllJrnl (a ++ b) := by
  intro y hy
  rcases List.mem_append.mp hy with hy | hy
  · exact h y hy
  · exact k y hy

theorem Drains.refl (s : State) : Drains s s :=
  ⟨[], s.up.fruCtr, s.sju.nextSeq, s.sju.ackTimer, allJrnl_nil, by rw [List.append_nil]⟩

theorem Drains.trans {s t u : State} (h : Drains s t) (k : Drains t u) : Drains s u := by
  obtain ⟨js, a, n, x, hjs, rfl⟩ := h
  obtain ⟨ks, b, m, y, hks, rfl⟩ := k
  exact ⟨js ++ ks, b, m, y, allJrnl_append hjs hks, by rw [← List.append_assoc]⟩

theorem buildJrnl_drains (s : State) : Drains s s.buildJrnl := by
  unfold State.buildJrnl
  rcases enqueue_cases s.up ⟨.own, s.jrnlFrame⟩ with ⟨-, e⟩ | ⟨-, e⟩ <;> rw [e]
  · refine ⟨[⟨.own, s.jrnlFrame⟩], s.up.fruCtr, _, _, ?_, rfl⟩
    intro y hy
    rw [List.mem_singleton.mp hy]
    exact ⟨rfl, rfl⟩
  · exact ⟨[], _, _, _, allJrnl_nil, by rw [List.append_nil]⟩

theorem drainUpTo_drains (n : Nat) (s : State) : Drains s (s.drainUpTo n) := by
  induction n generalizing s with
  | zero => exact .refl s
  | succ n ih =>
    unfold State.drainUpTo
    split
    · split
      · exact (buildJrnl_drains s).trans (ih _)
      · exact buildJrnl_drains s
    · exact .refl s

theorem drain_drains (s : State) : Drains s s.drain := drainUpTo_drains _ s

theorem Drains.frame {s t : State} (h : Drains s t) : t = { s with up := t.up, sju := t.sju } := by
  obtain ⟨js, k, n, x, -, rfl⟩ := h
  rfl

theorem Drains.sju {s t : State} (h : Drains s t) :
    t.sju = { s.sju with nextSeq := t.sju.nextSeq, ackTimer := t.sju.ackTimer } := by
  obtain ⟨js, k, n, x, -, rfl⟩ := h
  rfl

theorem Drains.queue {s t : State} (h : Drains s t) :
    ∃ js, AllJrnl js ∧ t.up.queue = s.up.queue ++ js := by
  obtain ⟨js, k, n, x, hjs, rfl⟩ := h
  exact ⟨js, hjs, rfl⟩

theorem Drains.up {s t : State} (h : Drains s t) :
    t.up = { s.up with queue := t.up.queue, fruCtr := t.up.fruCtr } := by
  obtain ⟨js, k, n, x, -, rfl⟩ := h
  rfl

theorem offer_up_of_room {s : State} {q : Queued} (room : Room s.up q.cls) :
    Drains { s with up := { s.up with queue := s.up.queue ++ [q] } } (s.offer .up q) := by
  have e : s.offer .up q = State.drain (s.modPort .up fun lp => lp.enqueue q) :=
    if_pos ⟨rfl, (admits_iff s.up q.cls).mpr room⟩
  rw [e, State.modPort_eq, State.port_up, enqueue_of_room room]
  exact drain_drains _

theorem offer_down (s : State) (q : Queued) :
    s.offer .down q = s.modPort .down fun lp => lp.enqueue q := by
  unfold State.offer
  exact if_neg fun h => Port.noConfusion h.1

theorem offer_of_not_room {s : State} {p : Port} {q : Queued} (full : ¬ Room (s.port p) q.cls) :
    s.offer p q = s.modFruCtr p fun _ => (s.port p).countDrop q.cls := by
  have e : s.offer p q = s.modPort p fun lp => lp.enqueue q := by
    refine if_neg ?_
    rintro ⟨rfl, admitted⟩
    exact full ((admits_iff s.up q.cls).mp admitted)
  rw [e, State.modPort_eq, enqueue_of_not_room full]
  rfl

theorem offerOwn_unaddressed {s : State} (h : s.fru.unaddressed = true) (p : Port) (k : Kind)
    (d : HaltCode) (x : Payload) : s.offerOwn p k d x = s := if_pos h

theorem offerOwn_addressed {s : State} (h : s.fru.unaddressed = false) (p : Port) (k : Kind)
    (d : HaltCode) (x : Payload) :
    s.offerOwn p k d x = s.offer p (ownQueued s (ownClass k.code) k.code d x) :=
  if_neg (Bool.eq_false_iff.mp h)

/-- The own BEACON (R47, R49). -/
def ownBeacon (s : State) : Queued :=
  ownQueued s .own 10#8 65535#16 (.octets (beaconOctets s.beaconFields))

/-- The beacon timer restarted (R47). -/
def beaconTimed (s : State) : State :=
  { s with fru := { s.fru with beaconTimer := .running (1000 * s.params.beaconInterval) } }

theorem originateBeacon_unaddressed {s : State} (h : s.fru.unaddressed = true) :
    s.originateBeacon = beaconTimed s := offerOwn_unaddressed (s := beaconTimed s) h _ _ _ _

theorem originateBeacon_addressed {s : State} (h : s.fru.unaddressed = false) :
    s.originateBeacon = (beaconTimed s).offer .up (ownBeacon s) :=
  offerOwn_addressed (s := beaconTimed s) h _ _ _ _

/-- Settles O24. -/
theorem beaconIsOriginated : Obligations.BeaconIsOriginated := by
  intro s on running
  dsimp only
  rw [exec_beaconTimerExpiry on, if_pos running]
  refine ⟨fun un => ?_, fun ad out => ?_, fun ad room => ?_⟩
  · rw [originateBeacon_unaddressed un]
    rfl
  · have full : ¬ Room ((beaconTimed s).port .up) (ownBeacon s).cls := fun h => out (room_serving h)
    rw [originateBeacon_addressed ad, offer_of_not_room full,
      countDrop_of_not_service (lp := (beaconTimed s).port .up) _ out]
    rfl
  · have d := offer_up_of_room (s := beaconTimed s) (q := ownBeacon s) room
    obtain ⟨js, hjs, queue⟩ := d.queue
    rw [originateBeacon_addressed ad]
    exact ⟨_, js, rfl, queue.trans (List.append_assoc _ _ _), hjs, d.frame⟩

/-! ## The transmitter's choice -/

/-- A port whose transmitter has ended a frame or a flag and is at rest with a rate (R14, R15). -/
def chosen (s : State) (p : Port) (c : Instr) : LinePort :=
  { s.port p with
    txRate := s.txRateOf p, tx := .flags, ctr := sentCount c (s.port p).ctr }

theorem exec_chooses {s : State} (on : s.powered = true) {c : Instr} {p : Port}
    (h : Chooses c s p) :
    exec c s = .next ((s.modCtr p (sentCount c)).chooseTx p) := by
  rcases h with ⟨rfl, tx⟩ | ⟨rfl, f, tx⟩
  · rw [exec_txFlagEnd on tx]
    refine congrArg (fun u : State => Host.Outcome.next (u.chooseTx p)) ?_
    exact (State.setPort_port s p).symm
  · exact exec_txFrameEnd on tx

theorem txRateOf_modCtr (s : State) (p : Port) (f : PortCounters → PortCounters) :
    (s.modCtr p f).txRateOf p = s.txRateOf p := by
  cases p <;> rfl

theorem restTx_chosen {s : State} {p : Port} (c : Instr) (rate : s.txRateOf p ≠ none)
    (alive : (s.port p).lsu.state ≠ .off ∧ (s.port p).lsu.state ≠ .outage) :
    (s.modCtr p (sentCount c)).restTx p = s.setPort p (chosen s p c) := by
  rw [restTx_eq, txRateOf_modCtr, State.modCtr_eq, State.port_setPort_self, if_neg,
    State.setPort_setPort]
  · rfl
  · rintro (h | h | h)
    · exact alive.1 h
    · exact alive.2 h
    · exact rate h

theorem exec_chooses_service {s : State} (on : s.powered = true) {c : Instr} {p : Port}
    (h : Chooses c s p) (serving : (s.port p).lsu.state = .service) (rate : s.txRateOf p ≠ none) :
    exec c s = .next ((s.setPort p (chosen s p c)).chooseQueued p) := by
  rw [exec_chooses on h]
  unfold State.chooseTx
  dsimp only
  rw [restTx_chosen c rate (by rw [serving]; exact ⟨nofun, nofun⟩), State.port_setPort_self]
  unfold chosen
  dsimp only
  rw [serving]

theorem exec_chooses_fill {s : State} (on : s.powered = true) {c : Instr} {p : Port}
    (h : Chooses c s p) (rate : s.txRateOf p ≠ none)
    (state : (s.port p).lsu.state = .hunt ∨ (s.port p).lsu.state = .proving) :
    exec c s = .next ((s.setPort p (chosen s p c)).chooseFill p) := by
  rw [exec_chooses on h]
  unfold State.chooseTx
  dsimp only
  rw [restTx_chosen c rate (by rcases state with h | h <;> rw [h] <;> exact ⟨nofun, nofun⟩),
    State.port_setPort_self]
  unfold chosen
  dsimp only
  rcases state with h | h <;> rw [h]

theorem txRateOf_of_proving_or_service {s : State} {p : Port}
    (h : (s.port p).lsu.state = .proving ∨ (s.port p).lsu.state = .service) :
    s.txRateOf p ≠ none := by
  unfold State.txRateOf
  dsimp only
  rcases h with h | h <;> rw [h] <;> cases (s.port p).rateMode <;> exact nofun

/-! ## The arbiter -/

theorem holds_iff (c : TxClass) (q : List Queued) : holds c q = true ↔ ∃ y ∈ q, y.cls = c := by
  simp [holds]

theorem choice_of_preferred {lp : LinePort} {x : Queued} (mem : x ∈ lp.queue)
    (pref : Preferred lp x.cls) : lp.choice = some x.cls := by
  have held {c : TxClass} (h : x.cls = c) : holds c lp.queue = true :=
    (holds_iff c lp.queue).mpr ⟨x, mem, h⟩
  have none_of {c : TxClass} (h : ∀ y ∈ lp.queue, y.cls ≠ c) : holds c lp.queue = false := by
    rw [← Bool.not_eq_true, holds_iff]
    rintro ⟨y, hy, e⟩
    exact h y hy e
  unfold LinePort.choice
  cases h : x.cls with
  | urgent => rw [if_pos (held h)]
  | relay =>
    obtain ⟨calm, few⟩ : (∀ y ∈ lp.queue, y.cls ≠ .urgent) ∧ _ := h ▸ pref
    rw [none_of calm, held h, if_neg Bool.false_ne_true]
    cases o : holds .own lp.queue with
    | false => simp
    | true => simp [few ((holds_iff _ _).mp o)]
  | own =>
    obtain ⟨calm, many⟩ : (∀ y ∈ lp.queue, y.cls ≠ .urgent) ∧ _ := h ▸ pref
    rw [none_of calm, held h, if_neg Bool.false_ne_true]
    cases r : holds .relay lp.queue with
    | false => simp
    | true => simp [Nat.not_lt.mpr (many ((holds_iff _ _).mp r))]

theorem handOver_of_preferred {lp : LinePort} {x : Queued} {before after : List Queued}
    (queue : lp.queue = before ++ x :: after) (first : ∀ y ∈ before, y.cls ≠ x.cls)
    (pref : Preferred lp x.cls) :
    lp.handOver = some (x.frame,
      { lp with queue := before ++ after, runOfThree := lp.runAfter x.cls }) := by
  have mem : x ∈ lp.queue := by
    rw [queue]
    simp
  have skip : ∀ y ∈ before, ¬ (y.cls == x.cls) = true := fun y hy e => first y hy (beq_iff_eq.mp e)
  have found : lp.queue.find? (fun y => y.cls == x.cls) = some x := by
    rw [queue, List.find?_append, List.find?_eq_none.mpr skip, Option.none_or,
      List.find?_cons_of_pos (p := fun y : Queued => y.cls == x.cls) (beq_self_eq_true x.cls)]
  have erased : lp.queue.eraseP (fun y => y.cls == x.cls) = before ++ after := by
    rw [queue, List.eraseP_append_right _ skip,
      List.eraseP_cons_of_pos (p := fun y : Queued => y.cls == x.cls) (beq_self_eq_true x.cls)]
  unfold LinePort.handOver
  simp only [choice_of_preferred mem pref, Option.bind_eq_bind, Option.bind_some, found, erased]

theorem chooseQueued_handOver {s : State} {p : Port} {f : TxFrame} {lp : LinePort}
    (h : (s.port p).handOver = some (f, lp)) : ∃ js k j, AllJrnl js ∧ (p = .down → js = [])
      ∧ s.chooseQueued p = { s.setPort p
          { lp.begin f with queue := lp.queue ++ js, fruCtr := k } with sju := j } := by
  unfold State.chooseQueued
  rw [h]
  cases p with
  | down => exact ⟨[], lp.fruCtr, s.sju, allJrnl_nil, fun _ => rfl, by rw [List.append_nil]; rfl⟩
  | up =>
    obtain ⟨js, k, n, x, hjs, e⟩ := drain_drains (s.setPort .up (lp.begin f))
    exact ⟨js, k, _, hjs, nofun, e⟩

/-- Settles O13. -/
theorem arbiterHandsOver : Obligations.ArbiterHandsOver := by
  intro s p c x before after on ends serving queue first pref
  have given := handOver_of_preferred (lp := chosen s p c) (x := x) queue first (by exact pref)
  obtain ⟨js, k, j, hjs, down, e⟩ := chooseQueued_handOver
    (s := s.setPort p (chosen s p c)) ((congrArg LinePort.handOver
      (State.port_setPort_self s p _)).trans given)
  rw [exec_chooses_service on ends serving (txRateOf_of_proving_or_service (.inr serving)), e,
    State.setPort_setPort]
  have run : (chosen s p c).runAfter x.cls
      = match x.cls with
        | .urgent => (s.port p).runOfThree
        | .relay => if ∃ y ∈ (s.port p).queue, y.cls = .own then (s.port p).runOfThree + 1
          else (s.port p).runOfThree
        | .own => 0 := by
    cases x.cls with
    | urgent | own => rfl
    | relay => simp only [LinePort.runAfter, holds_iff]; rfl
  refine ⟨_, js, rfl, ?_⟩
  cases p with
  | up => exact ⟨rfl, rfl, hjs, down, rfl, rfl, run, rfl, rfl⟩
  | down => exact ⟨rfl, rfl, hjs, down, rfl, rfl, run, rfl, rfl⟩

theorem handOver_of_empty {lp : LinePort} (h : lp.queue = []) : lp.handOver = none := by
  unfold LinePort.handOver LinePort.choice
  rw [h]
  rfl

theorem chooseFill_chosen (s : State) (p : Port) (c : Instr) :
    (s.setPort p (chosen s p c)).chooseFill p
      = s.setPort p (if (s.port p).lsu.fillDue.isExpired = true then
          (chosen s p c).begin (s.fillFrame p) else chosen s p c) := by
  unfold State.chooseFill
  have same : (chosen s p c).lsu = (s.port p).lsu := rfl
  rw [State.port_setPort_self, same, apply_ite (s.setPort p)]
  cases p <;> rfl

/-- Settles O14. -/
theorem fillWhenDue : Obligations.FillWhenDue := by
  intro s p c on ends code sender
  dsimp only
  have fills : exec c s = .next ((s.setPort p (chosen s p c)).chooseFill p) := by
    rcases sender with ⟨hunt, rate, -⟩ | ⟨proving, -⟩ | ⟨serving, empty, -⟩
    · exact exec_chooses_fill on ends (Option.isSome_iff_ne_none.mp rate) (.inl hunt)
    · exact exec_chooses_fill on ends (txRateOf_of_proving_or_service (.inl proving)) (.inr proving)
    · rw [exec_chooses_service on ends serving (txRateOf_of_proving_or_service (.inr serving))]
      unfold State.chooseQueued
      rw [State.port_setPort_self, handOver_of_empty (lp := chosen s p c) empty]
  have sent : fillCode (s.port p).lsu.state = code := by
    rcases sender with ⟨h, -, rfl⟩ | ⟨h, rfl⟩ | ⟨h, -, rfl⟩ <;> rw [h] <;> rfl
  rw [fills, chooseFill_chosen, ← sent]
  constructor
  · intro due
    rw [due]
    rfl
  · intro notDue
    have running : ¬ (s.port p).lsu.fillDue.isExpired = true := by
      cases h : (s.port p).lsu.fillDue <;> simp_all [Timer.isExpired]
    rw [if_neg running]
    rfl

end Sys2Proof.Proofs
end

