-- ==== Sys2Proof/Proofs/LinkEntries.lean ====
section
/-! The end of a proving period and of a silence: what the entries into SERVICE and OUTAGE announce
(R23, R24, R28, R33). -/

namespace Sys2Proof.Proofs

open Sys2Proof.Machine Sys2Proof.Safety Sys2Proof.Laws

/-! ## A failed attempt -/

/-- The LSU after a failed proving attempt is counted (R23). -/
def failedAttempt (l : Lsu) : Lsu :=
  { l with
    attempts := l.attempts + 1, ctr := { l.ctr with provingFails := tally l.ctr.provingFails } }

/-- The LSU in the pause after a failed attempt (R23). -/
def pausedAttempt (l : Lsu) : Lsu :=
  { failedAttempt l with phase := .pause, period := .stopped, pause := .running 1000 }

theorem failProving_eq (s : State) (p : Port) :
    s.failProving p = if 5 ≤ (s.port p).lsu.attempts + 1 then
        (s.modLsu p failedAttempt).enterOutage p .provingFailed
      else s.modLsu p pausedAttempt := by
  cases p <;> rfl

theorem failProving_few {s : State} {p : Port} (few : (s.port p).lsu.attempts + 1 < 5) :
    s.failProving p = s.modLsu p pausedAttempt := by
  rw [failProving_eq, if_neg (Nat.not_le.mpr few)]

theorem failProving_many {s : State} {p : Port} (many : 5 ≤ (s.port p).lsu.attempts + 1) :
    s.failProving p = (s.modLsu p failedAttempt).enterOutage p .provingFailed := by
  rw [failProving_eq, if_pos many]

theorem modLsu_lsu (s : State) (p : Port) (f : Lsu → Lsu) :
    ((s.modLsu p f).port p).lsu = f (s.port p).lsu := by
  rw [State.modLsu_eq, State.port_setPort_self]

theorem failProving_outage_lsu {s : State} {p : Port} (many : 5 ≤ (s.port p).lsu.attempts + 1) :
    ((s.failProving p).port p).lsu = (failedAttempt (s.port p).lsu).toOutage .provingFailed := by
  rw [failProving_many many, enterOutage_lsu, modLsu_lsu]

theorem failProving_onlyPort {s : State} {p : Port} (out : (s.port p).lsu.state ≠ .service) :
    OnlyPort p s (s.failProving p) := by
  have still : ((s.modLsu p failedAttempt).port p).lsu.state ≠ .service := by
    rw [modLsu_lsu]
    exact out
  rw [failProving_eq]
  split
  · exact onlyPort_trans (setPort_onlyPort s p _) (enterOutage_onlyPort _ still)
  · exact setPort_onlyPort s p _

/-! ## The entry into SERVICE -/

theorem enterServiceNews_up_announces (s : State) :
    Announces s.originateBeacon (s.enterServiceNews .up) :=
  (drain_announces _).trans ((salesGainLink_announces _).trans (stopsGainLink_announces _))

theorem originateBeacon_up (s : State) : s.originateBeacon.up.lsu = s.up.lsu :=
  (originateBeacon_announces s).lsu

theorem enterService_lsu (s : State) (p : Port) :
    ((s.enterService p).port p).lsu = (s.port p).lsu.toService (s.params.port p).mode := by
  have own := modLsu_lsu s p fun l => l.toService (s.params.port p).mode
  cases p with
  | down => exact own
  | up => exact (enterServiceNews_up_announces _).lsu.trans ((originateBeacon_up _).trans own)

/-- An empty Up queue gets the own BEACON first (R24, R33). -/
theorem enterService_beacon {s : State} (addressed : s.fru.unaddressed = false)
    (empty : s.up.queue = []) :
    ∃ rest, (s.enterService .up).up.queue
      = ownBeacon (s.modLsu .up fun l => l.toService s.params.up.mode) :: rest := by
  generalize hu : (s.modLsu .up fun l => l.toService s.params.up.mode) = u
  have room : Room (beaconTimed u).up .own := by
    subst hu
    refine ⟨rfl, ?_, .inr ?_⟩
    · exact (congrArg List.length empty).trans_lt (by decide)
    · exact (congrArg nonUrgent empty).trans_lt (by decide)
  have queue : (beaconTimed u).up.queue = [] := by
    subst hu
    exact empty
  have ad : u.fru.unaddressed = false := by
    subst hu
    exact addressed
  obtain ⟨js, -, first⟩ := (offer_up_of_room (q := ownBeacon u) room).queue
  obtain ⟨xs, more, -⟩ := (enterServiceNews_up_announces u).queue
  refine ⟨js ++ xs, ?_⟩
  have e : s.enterService .up = u.enterServiceNews .up := by
    subst hu
    rfl
  rw [e, more, originateBeacon_addressed ad, first]
  dsimp only
  rw [queue]
  rfl

/-- Settles O17. -/
theorem provingPeriodEnds : Obligations.ProvingPeriodEnds := by
  intro s p on proving running
  have out : (s.port p).lsu.state ≠ .service := by
    rw [proving]
    exact nofun
  dsimp only
  rw [exec_periodExpiry on, if_pos running]
  refine ⟨fun aligned seen => ?_, fun bad => ?_⟩
  · have e : s.endPeriod p = s.enterService p := if_pos ⟨aligned, seen⟩
    rw [e]
    refine ⟨_, rfl, enterService_lsu s p, ?_, ?_⟩
    · rintro rfl
      exact setPort_onlyPort s .down _
    · rintro rfl addressed empty
      obtain ⟨rest, queue⟩ := enterService_beacon addressed empty
      exact ⟨_, rest, queue, rfl, rfl, rfl, rfl⟩
  · have e : s.endPeriod p = s.failProving p := by
      refine if_neg ?_
      rintro ⟨aligned, seen⟩
      rcases bad with bad | bad
      · exact absurd aligned (Nat.not_lt.mpr bad)
      · exact Bool.false_ne_true (bad.symm.trans seen)
    rw [e]
    refine ⟨fun few => ?_, fun many => ⟨_, rfl, ?_, ?_, failProving_onlyPort out⟩⟩
    · rw [failProving_few few]
      rfl
    · rw [failProving_outage_lsu many]
      exact inOutage_toOutage _ _
    · rw [failProving_outage_lsu many]
      rfl

/-! ## Silence -/

theorem leaveIf_tx (s : State) (was : PortState) (p : Port) :
    ((s.leaveIf was p).port p).tx = (s.port p).tx := by
  rw [leaveIf_port]
  split <;> rfl

theorem enterOutage_tx (s : State) (p : Port) (cause : OutageCause) :
    ((s.enterOutage p cause).port p).tx
      = match (s.port p).tx with
        | .sending _ | .aborting => .aborting
        | .silent | .flags => .silent := by
  rw [enterOutage_eq, leaveIf_tx, outageState, stopTx_tx, modLsu_lsu]
  cases p <;> cases h : (s.port _).tx <;> simp_all [State.modLsu, State.modPort, Lsu.toOutage]

theorem abandonAuth_sju (s : State) (r : Result) (f : SjuCounters → SjuCounters) :
    (s.abandonAuth r f).sju.pendingAuth = none
      ∧ (s.abandonAuth r f).sju.journal = s.sju.journal
      ∧ (s.abandonAuth r f).sju.ackSeq = s.sju.ackSeq := by
  unfold State.abandonAuth
  split
  · next h => exact ⟨h, rfl, rfl⟩
  · refine ⟨?_, ?_, ?_⟩
    all_goals rw [(postNotice_desk _ _).sju]; rfl

theorem salesLoseLink_sju (s : State) :
    s.salesLoseLink.sju.nextSeq = s.sju.ackSeq ∧ s.salesLoseLink.sju.ackSeq = s.sju.ackSeq
      ∧ s.salesLoseLink.sju.ackTimer = .stopped ∧ s.salesLoseLink.sju.journal = s.sju.journal
      ∧ s.salesLoseLink.sju.pendingAuth = none := by
  obtain ⟨pending, journal, ack⟩ := abandonAuth_sju s .authLink fun c =>
    { c with authLinkLosses := tally c.authLinkLosses }
  unfold State.salesLoseLink State.deriveSalesMode
  rw [(setSalesMode_desk _ _).sju]
  exact ⟨ack, ack, rfl, journal, pending⟩

theorem unsend_stop (c : Call) : c.unsend.stop ≠ .sent := by
  unfold Call.unsend
  split
  · exact nofun
  · assumption

theorem leaveService_up_stops (s : State) : ∀ c ∈ (s.leaveService .up).tts.current, c.stop ≠ .sent := by
  have e : (s.leaveService .up).tts.current
      = ((s.modPort .up LinePort.flush).salesLoseLink).tts.current.map Call.unsend := by
    change (State.stopsLoseLink _).tts.current = _
    rw [stopsLoseLink_eq]
    rfl
  intro c hc
  rw [e] at hc
  obtain ⟨d, -, rfl⟩ := List.mem_map.mp hc
  exact unsend_stop d

theorem leaveService_up_sju (s : State) :
    (s.leaveService .up).sju = ((s.modPort .up LinePort.flush).salesLoseLink).sju := by
  change (State.stopsLoseLink _).sju = _
  rw [stopsLoseLink_eq]
  rfl

/-- Settles O19. -/
theorem silenceEndsService : Obligations.SilenceEndsService := by
  intro s p on running
  dsimp only
  rw [exec_silenceExpiry on, if_pos running]
  have port := enterOutage_port s p .silence
  have lsu := enterOutage_lsu s p .silence
  have tx := enterOutage_tx s p .silence
  refine ⟨_, rfl, ?_, ?_, ?_, enterOutage_onlyLink s p _, fun f h => ?_, fun h => ?_, fun out => ?_,
    fun serving => ?_⟩
  · rw [lsu]
    exact inOutage_toOutage _ _
  · rw [lsu]
    rfl
  · have e := congrArg LinePort.buffers port
    refine e.trans ?_
    split <;> rfl
  · rw [tx, h]
  · rw [tx, h]
  · rw [if_neg out] at port
    exact ⟨enterOutage_onlyPort _ out, (congrArg LinePort.queue port :)⟩
  · rw [if_pos serving] at port
    refine ⟨(congrArg LinePort.queue port :), (congrArg LinePort.runOfThree port :),
      (congrArg (fun lp : LinePort => lp.fruCtr.flushed) port :), ?_⟩
    rintro rfl
    obtain ⟨next, ack, timer, journal, pending⟩ :=
      salesLoseLink_sju ((outageState s .up .silence).modPort .up LinePort.flush)
    have same : ((outageState s .up .silence).modPort .up LinePort.flush).sju = s.sju := by
      have e : outageState s .up .silence = s.setPort .up _ := outageState_onlyPort s .up .silence
      rw [e]
      rfl
    rw [same] at next ack journal
    rw [enterOutage_eq, serving, leaveIf_service, leaveService_up_sju]
    exact ⟨next, ack, timer, journal, pending, leaveService_up_stops _⟩

end Sys2Proof.Proofs
end

