-- ==== Sys2Proof/Proofs/Reports.lean ====
section
/-! What one error and one good frame weigh on a port, and what they leave of its receiver (01, 2.8). -/

namespace Sys2Proof.Proofs

open Sys2Proof.Machine Sys2Proof.Safety Sys2Proof.Laws

/-! ## The receiver's part of a port -/

/-- A port's receiver, counters and rate; the LSU, the rate search's counts, the transmitter and the queue
blanked. -/
def receiverOf (lp : LinePort) : LinePort :=
  { lp with
    lsu := { state := .off, fillDue := .stopped }, dwell := .stopped, goodRun := 0, txRate := none, tx := .silent, queue := []
    runOfThree := 0, fruCtr := {} }

theorem receiverOf_txFrameOf (lp : LinePort) : receiverOf (txFrameOf lp) = receiverOf lp := rfl

theorem modPort_port (s : State) (p : Port) (f : LinePort → LinePort) :
    (s.modPort p f).port p = f (s.port p) := by
  rw [State.modPort_eq, State.port_setPort_self]

theorem modCtr_port (s : State) (p : Port) (f : PortCounters → PortCounters) :
    (s.modCtr p f).port p = { s.port p with ctr := f (s.port p).ctr } := by
  rw [State.modCtr_eq, State.port_setPort_self]

theorem modLsu_port (s : State) (p : Port) (f : Lsu → Lsu) :
    (s.modLsu p f).port p = { s.port p with lsu := f (s.port p).lsu } := by
  rw [State.modLsu_eq, State.port_setPort_self]

theorem enterOutage_receiver (s : State) (p : Port) (cause : OutageCause) :
    receiverOf ((s.enterOutage p cause).port p) = receiverOf (s.port p) := by
  have h := enterOutage_port s p cause
  rw [← receiverOf_txFrameOf, h]
  split <;> rfl

theorem failProving_receiver (s : State) (p : Port) :
    receiverOf ((s.failProving p).port p) = receiverOf (s.port p) := by
  rw [failProving_eq]
  split
  · rw [enterOutage_receiver, modLsu_port]
    rfl
  · rw [modLsu_port]
    rfl

/-! ## An error report -/

/-- The LSU with one error more in its proving period (R22). -/
def erredOnce (l : Lsu) : Lsu := { l with ca := l.ca + 1 }

theorem errorInPeriod_eq (s : State) (p : Port) :
    s.errorInPeriod p = if (s.params.port p).align ≤ (s.port p).lsu.ca + 1 then
        (s.modLsu p erredOnce).failProving p
      else s.modLsu p erredOnce := by
  cases p <;> rfl

/-- The LSU with one error more in its bucket (R25). -/
def weighedDown (limit : Nat) (l : Lsu) : Lsu := { l with bucket := min limit (l.bucket + 1) }

theorem errorInService_eq (s : State) (p : Port) :
    s.errorInService p
      = if (s.params.port p).limit ≤ min (s.params.port p).limit ((s.port p).lsu.bucket + 1) then
          (s.modLsu p (weighedDown (s.params.port p).limit)).enterOutage p .errorRate
        else s.modLsu p (weighedDown (s.params.port p).limit) := by
  cases p <;> rfl

section
variable {s : State} {p : Port}

theorem reportError_deaf (h : (s.port p).lsu.state = .off ∨ (s.port p).lsu.state = .outage) :
    s.reportError p = s := by
  unfold State.reportError
  rcases h with h | h <;> simp only [h]

theorem reportError_hunt (h : (s.port p).lsu.state = .hunt) :
    s.reportError p = s.modPort p fun lp => { lp with goodRun := 0 } := by
  unfold State.reportError
  simp only [h]

theorem reportError_pause (h : (s.port p).lsu.state = .proving) (k : (s.port p).lsu.phase = .pause) :
    s.reportError p = s := by
  unfold State.reportError
  simp only [h, k]

theorem reportError_period (h : (s.port p).lsu.state = .proving)
    (k : (s.port p).lsu.phase = .period) : s.reportError p = s.errorInPeriod p := by
  unfold State.reportError
  simp only [h, k]

theorem reportError_frame (h : (s.port p).lsu.state = .service)
    (k : (s.params.port p).mode = .frame) : s.reportError p = s.errorInService p := by
  unfold State.reportError
  simp only [h, k]

theorem reportError_interval (h : (s.port p).lsu.state = .service)
    (k : (s.params.port p).mode = .interval) :
    s.reportError p = s.modLsu p fun l => { l with intervalMark := true } := by
  unfold State.reportError
  simp only [h, k]

end

/-- The forms that an error report can take (2.8). -/
theorem reportError_cases (s : State) (p : Port) :
    s.reportError p = s
    ∨ s.reportError p = (s.modPort p fun lp => { lp with goodRun := 0 })
    ∨ ((s.port p).lsu.state ≠ .service ∧ s.reportError p = s.errorInPeriod p)
    ∨ s.reportError p = s.errorInService p
    ∨ s.reportError p = s.modLsu p fun l => { l with intervalMark := true } := by
  cases h : (s.port p).lsu.state with
  | off => exact .inl (reportError_deaf (.inl h))
  | outage => exact .inl (reportError_deaf (.inr h))
  | hunt => exact .inr (.inl (reportError_hunt h))
  | proving =>
    cases k : (s.port p).lsu.phase with
    | pause => exact .inl (reportError_pause h k)
    | period => exact .inr (.inr (.inl ⟨nofun, reportError_period h k⟩))
  | service =>
    cases k : (s.params.port p).mode with
    | frame => exact .inr (.inr (.inr (.inl (reportError_frame h k))))
    | interval => exact .inr (.inr (.inr (.inr (reportError_interval h k))))

theorem reportError_receiver (s : State) (p : Port) :
    receiverOf ((s.reportError p).port p) = receiverOf (s.port p) := by
  rcases reportError_cases s p with e | e | ⟨-, e⟩ | e | e <;> rw [e]
  · rw [modPort_port]
    rfl
  · rw [errorInPeriod_eq]
    split
    · rw [failProving_receiver, modLsu_port]
      rfl
    · rw [modLsu_port]
      rfl
  · rw [errorInService_eq]
    split
    · rw [enterOutage_receiver, modLsu_port]
      rfl
    · rw [modLsu_port]
      rfl
  · rw [modLsu_port]
    rfl

theorem reportError_onlyLink (s : State) (p : Port) : OnlyLink p s (s.reportError p) := by
  have own (lp : LinePort) : OnlyLink p s (s.setPort p lp) :=
    onlyLink_of_onlyPort (setPort_onlyPort s p lp)
  rcases reportError_cases s p with e | e | ⟨out, e⟩ | e | e <;> rw [e]
  · exact onlyLink_refl p s
  · exact own _
  · have still : ((s.modLsu p erredOnce).port p).lsu.state ≠ .service := by
      rw [modLsu_lsu]
      exact out
    rw [errorInPeriod_eq]
    split
    · exact onlyLink_trans (own _) (onlyLink_of_onlyPort (failProving_onlyPort still))
    · exact own _
  · rw [errorInService_eq]
    split
    · exact onlyLink_trans (own _) (enterOutage_onlyLink _ p _)
    · exact own _
  · exact own _

theorem failProving_fails (s : State) (p : Port) :
    ((s.failProving p).port p).lsu.ctr.provingFails
      = tally (s.port p).lsu.ctr.provingFails := by
  rw [failProving_eq]
  split
  · rw [enterOutage_lsu, modLsu_lsu]
    rfl
  · rw [modLsu_lsu]
    rfl

theorem reportError_weighed (s : State) (p : Port) : ErrorWeighed s (s.reportError p) p := by
  unfold ErrorWeighed
  dsimp only
  split
  · next h => rw [reportError_deaf (.inl h)]
  · next h => rw [reportError_deaf (.inr h)]
  · next h =>
    rw [reportError_hunt h, modPort_port]
    exact ⟨rfl, rfl⟩
  · next h =>
    split
    · next k =>
      rw [reportError_pause h k]
      exact ⟨rfl, rfl⟩
    · next k =>
      rw [reportError_period h k, errorInPeriod_eq]
      refine ⟨fun few => ?_, fun many => ?_⟩
      · rw [if_neg (Nat.not_le.mpr few), modLsu_lsu]
        exact ⟨rfl, rfl⟩
      · rw [if_pos many, failProving_fails, modLsu_lsu]
        rfl
  · next h =>
    split
    · next k =>
      rw [reportError_interval h k, modLsu_lsu]
      exact ⟨rfl, rfl⟩
    · next k =>
      rw [reportError_frame h k, errorInService_eq]
      split
      · next full =>
        rw [enterOutage_lsu, modLsu_lsu]
        exact ⟨rfl, ⟨nofun, fun low => absurd full (Nat.not_le.mpr low)⟩⟩
      · next low =>
        rw [modLsu_lsu]
        exact ⟨rfl, ⟨fun _ => Nat.not_le.mp low, fun _ => h⟩⟩

/-! ## A flag before the report -/

theorem reportFlag_port (s : State) (p : Port) :
    (s.reportFlag p).port p = { s.port p with lsu := heardFlag (s.port p).lsu } := by
  rw [reportFlag_eq, modPort_port]

theorem reportFlag_onlyPort (s : State) (p : Port) : OnlyPort p s (s.reportFlag p) := by
  rw [reportFlag_eq]
  exact setPort_onlyPort s p _

theorem heardFlag_of_deaf {l : Lsu} (h : l.state ≠ .proving) (k : l.state ≠ .service) :
    heardFlag l = l :=
  congrArg (fun t => { l with silence := t }) (if_neg (not_or.mpr ⟨h, k⟩))

/-- An error weighs on a port as it would have before the flag (R28 moves the silence watch alone). -/
theorem errorWeighed_of_heard {s u t : State} {p : Port} (params : u.params = s.params)
    (lsu : (u.port p).lsu = (s.port p).lsu ∨ (u.port p).lsu = heardFlag (s.port p).lsu)
    (h : ErrorWeighed u t p) : ErrorWeighed s t p := by
  rcases lsu with lsu | lsu
  · unfold ErrorWeighed at h ⊢
    rwa [lsu, params] at h
  · unfold ErrorWeighed at h ⊢
    rw [params, lsu] at h
    have state : (heardFlag (s.port p).lsu).state = (s.port p).lsu.state := rfl
    have phase : (heardFlag (s.port p).lsu).phase = (s.port p).lsu.phase := rfl
    dsimp only at h ⊢
    rw [state, phase] at h
    cases hs : (s.port p).lsu.state with
    | off | outage | hunt =>
      rw [hs] at h
      rwa [heardFlag_of_deaf (by rw [hs]; exact nofun) (by rw [hs]; exact nofun)] at h
    | proving | service =>
      rw [hs] at h
      exact h

end Sys2Proof.Proofs
end

