-- ==== Sys2Proof/Proofs/Candidates.lean ====
section
/-! Candidate frames that are not good: counted once, and long ones counted in groups (01, R3 to R7). -/

namespace Sys2Proof.Proofs

open Sys2Proof.Machine Sys2Proof.Safety Sys2Proof.Laws

/-! ## The tests of a closed frame -/

theorem judge_odd {content : List Bool} (odd : content.length % 8 ≠ 0) :
    judge content = .error .odd := if_pos odd

theorem judge_short {content : List Bool} (even : content.length % 8 = 0)
    (short : content.length < 64) : judge content = .error .short := by
  unfold judge
  rw [if_neg (not_not.mpr even), if_pos short]

theorem judge_fcs {content : List Bool} (even : content.length % 8 = 0)
    (long : 64 ≤ content.length) (bad : fcsGood content = false) :
    judge content = .error .fcs := by
  unfold judge
  rw [if_neg (not_not.mpr even), if_neg (Nat.not_lt.mpr long), bad]
  rfl

theorem judge_good {content : List Bool} (even : content.length % 8 = 0)
    (long : 64 ≤ content.length) (good : fcsGood content = true) :
    judge content = .ok (RxFrame.ofOctets (octetsOf content)) := by
  unfold judge
  rw [if_neg (not_not.mpr even), if_neg (Nat.not_lt.mpr long), good]
  rfl

/-! ## One errored candidate -/

/-- A command that prepares a port and then reports an error on it (2.8). -/
theorem errored_of_report {c : Instr} {s u : State} {p : Port} {rx : RxState} {k : PortCounters}
    (gives : exec c s = .next (u.reportError p)) (own : OnlyPort p s u) (params : u.params = s.params)
    (lsu : (u.port p).lsu = (s.port p).lsu ∨ (u.port p).lsu = heardFlag (s.port p).lsu)
    (hrx : (u.port p).rx = rx) (hctr : (u.port p).ctr = k)
    (buffers : (u.port p).buffers = (s.port p).buffers) : Errored c s p rx k := by
  have kept := reportError_receiver u p
  refine ⟨_, gives, ?_, ?_, ?_, errorWeighed_of_heard params lsu (reportError_weighed u p),
    onlyLink_trans (onlyLink_of_onlyPort own) (reportError_onlyLink u p)⟩
  · exact (congrArg LinePort.rx kept :).trans hrx
  · exact (congrArg LinePort.ctr kept :).trans hctr
  · exact (congrArg LinePort.buffers kept :).trans buffers

/-- The state in which a candidate closed in FRAME and found bad is reported (R3). -/
def closedBad (s : State) (p : Port) (e : FrameError) : State :=
  ((s.reportFlag p).modPort p fun lp => { lp with rx := .idle }).modCtr p fun c => c.countError e

theorem closedBad_eq (s : State) (p : Port) (e : FrameError) :
    closedBad s p e = s.setPort p { s.port p with
      lsu := heardFlag (s.port p).lsu, rx := .idle, ctr := (s.port p).ctr.countError e } := by
  unfold closedBad
  rw [reportFlag_eq, modPort_modPort, State.modCtr_eq, modPort_port, State.modPort_eq,
    State.setPort_setPort]

theorem exec_frameClosed_bad {s : State} (on : s.powered = true) {p : Port} {bits : List Bool}
    {e : FrameError} (rx : (s.port p).rx = .frame) (few : (destuff bits).length < 1032)
    (bad : judge (destuff bits) = .error e) :
    exec (.frameClosed p bits) s = .next ((closedBad s p e).reportError p) := by
  rw [exec_frameClosed_frame on rx]
  unfold State.flagInFrame State.closeFrame
  rw [if_pos (by omega), bad]
  rfl

theorem closedBad_errored {s : State} (on : s.powered = true) {p : Port} {bits : List Bool}
    {e : FrameError} (rx : (s.port p).rx = .frame) (few : (destuff bits).length < 1032)
    (bad : judge (destuff bits) = .error e) :
    Errored (.frameClosed p bits) s p .idle ((s.port p).ctr.countError e) := by
  have port := congrArg (fun u : State => u.port p) (closedBad_eq s p e)
  simp only [State.port_setPort_self] at port
  refine errored_of_report (exec_frameClosed_bad on rx few bad) ?_ ?_ (.inr ?_) ?_ ?_ ?_
  · rw [closedBad_eq]
    exact setPort_onlyPort s p _
  · rw [closedBad_eq, State.setPort_params]
  all_goals rw [port]

/-- Settles O9. -/
theorem erroredFrameIsCountedOnce : Obligations.ErroredFrameIsCountedOnce := by
  intro s p bits on rx few
  dsimp only
  refine ⟨fun odd => ?_, fun even short => ?_, fun even long bad => ?_, ?_⟩
  · exact closedBad_errored on rx few (judge_odd odd)
  · exact closedBad_errored on rx few (judge_short even short)
  · exact closedBad_errored on rx few (judge_fcs even long bad)
  · have gives : exec (.abort p bits) s
        = .next (State.reportError (s.setPort p { s.port p with
          rx := .seek
          ctr := { (s.port p).ctr with errAbort := tally (s.port p).ctr.errAbort } }) p) := by
      rw [exec_abort_frame on rx]
      unfold State.abortInFrame
      rw [if_pos (by omega), State.modCtr_eq, modPort_port, State.modPort_eq,
        State.setPort_setPort]
    refine errored_of_report gives (setPort_onlyPort s p _) (State.setPort_params s p _) (.inl ?_)
      ?_ ?_ ?_
    all_goals rw [State.port_setPort_self]

/-! ## Groups -/

theorem tally_eq_satAdd (n : Nat) : tally n = satAdd n 1 := rfl

theorem satAdd_satAdd (n a b : Nat) : satAdd (satAdd n a) b = satAdd n (a + b) := by
  unfold satAdd
  omega

theorem satAdd_zero {n : Nat} (h : n ≤ 4294967295) : satAdd n 0 = n := Nat.min_eq_left h

/-- The port's counters after groups were counted (R7). -/
def grouped (k : PortCounters) (n : Nat) : PortCounters :=
  { k with octetGroups := satAdd k.octetGroups n }

theorem reportGroup_eq (s : State) (p : Port) :
    s.reportGroup p = (s.modCtr p fun c => grouped c 1).reportError p := rfl

theorem reportGroup_receiver (s : State) (p : Port) :
    receiverOf ((s.reportGroup p).port p)
      = receiverOf { s.port p with ctr := grouped (s.port p).ctr 1 } := by
  rw [reportGroup_eq, reportError_receiver, modCtr_port]

theorem reportGroup_onlyLink (s : State) (p : Port) : OnlyLink p s (s.reportGroup p) :=
  onlyLink_trans (onlyLink_of_onlyPort (setPort_onlyPort s p _)) (reportError_onlyLink _ p)

theorem reportGroups_onlyLink (s : State) (p : Port) (n : Nat) :
    OnlyLink p s (s.reportGroups p n) := by
  induction n generalizing s with
  | zero => exact onlyLink_refl p s
  | succ n ih => exact onlyLink_trans (reportGroup_onlyLink s p) (ih _)

theorem reportGroups_receiver (s : State) (p : Port) (n : Nat)
    (fits : (s.port p).ctr.octetGroups ≤ 4294967295) :
    receiverOf ((s.reportGroups p n).port p)
      = receiverOf { s.port p with ctr := grouped (s.port p).ctr n } := by
  induction n generalizing s with
  | zero =>
    have same : grouped (s.port p).ctr 0 = (s.port p).ctr :=
      congrArg (fun n => { (s.port p).ctr with octetGroups := n }) (satAdd_zero fits)
    rw [same]
    rfl
  | succ n ih =>
    have one := reportGroup_receiver s p
    have ctr : ((s.reportGroup p).port p).ctr = grouped (s.port p).ctr 1 :=
      (congrArg LinePort.ctr one :)
    have more := ih (s.reportGroup p) (by rw [ctr]; exact Nat.min_le_right _ _)
    rw [ctr] at more
    have sum : grouped (grouped (s.port p).ctr 1) n = grouped (s.port p).ctr (n + 1) := by
      unfold grouped
      rw [satAdd_satAdd, Nat.add_comm]
    rw [sum] at more
    refine more.trans ?_
    exact congrArg (fun lp : LinePort => { lp with ctr := grouped (s.port p).ctr (n + 1) }) one

/-- What octets added in COUNTING leave: the count below 16, the groups they fill (R7). -/
theorem addOctets_receiver (s : State) (p : Port) (k : Nat)
    (fits : (s.port p).ctr.octetGroups ≤ 4294967295) :
    receiverOf ((s.addOctets p k).port p) = receiverOf { s.port p with
      octetCount := ((s.port p).octetCount + k) % 16
      ctr := grouped (s.port p).ctr (((s.port p).octetCount + k) / 16) } := by
  unfold State.addOctets
  dsimp only
  rw [reportGroups_receiver _ _ _ (by rw [modPort_port]; exact fits), modPort_port]

theorem addOctets_onlyLink (s : State) (p : Port) (k : Nat) : OnlyLink p s (s.addOctets p k) :=
  onlyLink_trans (onlyLink_of_onlyPort (setPort_onlyPort s p _)) (reportGroups_onlyLink _ p _)

theorem endSequence_receiver (s : State) (p : Port) (content : List Bool)
    (fits : (s.port p).ctr.octetGroups ≤ 4294967295) (fresh : (s.port p).seqCounted = 0) :
    receiverOf ((s.endSequence p content).port p) = receiverOf { s.port p with
      octetCount := ((s.port p).octetCount + content.length / 8) % 16
      ctr := grouped (s.port p).ctr (((s.port p).octetCount + content.length / 8) / 16) } := by
  unfold State.endSequence
  dsimp only
  rw [addOctets_receiver _ _ _ (by rw [modPort_port]; exact fits), modPort_port, fresh, Nat.sub_zero]

theorem endSequence_onlyLink (s : State) (p : Port) (content : List Bool) :
    OnlyLink p s (s.endSequence p content) :=
  onlyLink_trans (onlyLink_of_onlyPort (setPort_onlyPort s p _)) (addOctets_onlyLink _ p _)

theorem judge_bad {content : List Bool}
    (bad : content.length % 8 ≠ 0 ∨ content.length < 64 ∨ fcsGood content = false) :
    ∃ e, judge content = .error e := by
  by_cases even : content.length % 8 = 0
  · by_cases short : content.length < 64
    · exact ⟨_, judge_short even short⟩
    · rcases bad with h | h | h
      · exact absurd even h
      · exact absurd h short
      · exact ⟨_, judge_fcs even (Nat.not_lt.mp short) h⟩
  · exact ⟨_, judge_odd even⟩

theorem exec_frameClosed_uncounted {s : State} (on : s.powered = true) {p : Port}
    {bits : List Bool} (rx : (s.port p).rx = .counting)
    (bad : (destuff bits).length % 8 ≠ 0 ∨ (destuff bits).length < 64
      ∨ fcsGood (destuff bits) = false) :
    exec (.frameClosed p bits) s = .next ((s.reportFlag p).endSequence p (destuff bits)) := by
  obtain ⟨e, h⟩ := judge_bad bad
  rw [exec_frameClosed_counting on rx]
  unfold State.closeSequence
  rw [h]

theorem longInFrame_eq (s : State) (p : Port) : s.longInFrame p
    = ((s.modCtr p fun c => { c with errLong := tally c.errLong }).reportError p).modPort p
      fun lp => { lp with rx := .counting, octetCount := 1, seqCounted := 129 } := rfl

/-- Settles O10. -/
theorem longFramesAreCountedInGroups : Obligations.LongFramesAreCountedInGroups := by
  intro s p on fits
  dsimp only
  refine ⟨fun rx => ?_, fun rx few => ?_, fun rx many => ?_, fun bits rx fresh bad => ?_⟩
  · have kept := reportError_receiver (s.modCtr p fun c => { c with errLong := tally c.errLong }) p
    have weighed := reportError_weighed
      (s.modCtr p fun c => { c with errLong := tally c.errLong }) p
    have lsu : ((s.modCtr p fun c => { c with errLong := tally c.errLong }).port p).lsu
        = (s.port p).lsu := by
      rw [modCtr_port]
    rw [modCtr_port] at kept
    rw [exec_longFrame_frame on rx, longInFrame_eq]
    refine ⟨_, rfl, ?_, ?_, ?_, ?_, ?_, ?_⟩
    · rw [modPort_port]
    · rw [modPort_port]
    · rw [modPort_port]
      exact (congrArg LinePort.ctr kept :)
    · rw [modPort_port]
      exact (congrArg LinePort.buffers kept :)
    · have w := errorWeighed_of_heard (s := s) (State.setPort_params s p _)
        (.inl lsu) weighed
      unfold ErrorWeighed at w ⊢
      rw [modPort_port]
      exact w
    · exact onlyLink_trans (onlyLink_trans (onlyLink_of_onlyPort (setPort_onlyPort s p _))
        (reportError_onlyLink _ p)) (onlyLink_of_onlyPort (setPort_onlyPort _ p _))
  · have kept := addOctets_receiver (s.modPort p fun lp => { lp with seqCounted := 129 }) p 129
      (by rw [modPort_port]; exact fits)
    rw [modPort_port] at kept
    rw [exec_longFrame_counting on rx few]
    refine ⟨_, rfl, ?_, ?_, ?_, ?_, ?_⟩
    · exact (congrArg LinePort.rx kept :).trans rx
    · exact (congrArg LinePort.octetCount kept :)
    · exact (congrArg LinePort.ctr kept :)
    · exact (congrArg LinePort.buffers kept :)
    · exact onlyLink_trans (onlyLink_of_onlyPort (setPort_onlyPort s p _))
        (addOctets_onlyLink _ p _)
  · have kept := reportGroup_receiver (s.modPort p fun lp => { lp with
      octetCount := 0, seqCounted := lp.seqCounted + (16 - lp.octetCount) }) p
    rw [modPort_port] at kept
    rw [exec_octetGroup on rx many]
    refine ⟨_, rfl, ?_, ?_, ?_, ?_, ?_, ?_⟩
    · exact (congrArg LinePort.rx kept :).trans rx
    · exact (congrArg LinePort.octetCount kept :)
    · exact (congrArg LinePort.ctr kept :)
    · exact (congrArg LinePort.buffers kept :)
    · rw [reportGroup_eq]
      refine errorWeighed_of_heard ?_ (.inl ?_) (reportError_weighed _ p)
      · exact (State.setPort_params _ p _).trans (State.setPort_params s p _)
      · rw [modCtr_port, modPort_port]
    · exact onlyLink_trans (onlyLink_of_onlyPort (setPort_onlyPort s p _)) (reportGroup_onlyLink _ p)
  · have kept := endSequence_receiver (s.reportFlag p) p (destuff bits)
      (by rw [reportFlag_port]; exact fits) (by rw [reportFlag_port]; exact fresh)
    rw [reportFlag_port] at kept
    rw [exec_frameClosed_uncounted on rx bad]
    refine ⟨_, rfl, ?_, ?_, ?_, ?_, ?_⟩
    · exact (congrArg LinePort.rx kept :).trans rx
    · exact (congrArg LinePort.octetCount kept :)
    · exact (congrArg LinePort.ctr kept :)
    · exact (congrArg LinePort.buffers kept :)
    · exact onlyLink_trans (onlyLink_of_onlyPort (reportFlag_onlyPort s p))
        (endSequence_onlyLink _ p _)

end Sys2Proof.Proofs
end

