-- ==== Sys2Proof/Proofs/GoodFrames.lean ====
section
/-! Good frames: what one leaves of the port that takes it, and that a frame sent is the frame taken (01,
R8, R11, R13, R15, R32). -/

namespace Sys2Proof.Proofs

open Sys2Proof.Machine Sys2Proof.Safety Sys2Proof.Laws

/-! ## A good frame's report -/

/-- The port with one good frame more in HUNT (R11). -/
def heardGood (lp : LinePort) : LinePort :=
  { lp with
    goodRun := lp.goodRun + 1
    dwell := if lp.rateMode = .auto then .running 2000 else lp.dwell }

/-- The LSU as its port enters PROVING (R21). -/
def provingLsu (l : Lsu) (seconds : Nat) : Lsu :=
  { l with
    state := .proving, phase := .period, period := .running (1000 * seconds), pause := .stopped
    ca := 0, attempts := 0, peerSeen := false, silence := .running 2000, fillDue := .expired }

/-- The port as it enters PROVING, before its transmitter follows (R13, R21). -/
def locked (seconds : Nat) (lp : LinePort) : LinePort :=
  { lp with dwell := .stopped, goodRun := 0, lsu := provingLsu lp.lsu seconds }

theorem enterProving_port (s : State) (p : Port) :
    txFrameOf ((s.enterProving p).port p)
      = txFrameOf (locked (s.params.port p).period (s.port p)) := by
  unfold State.enterProving
  dsimp only
  rw [lendRate_port, keepTx_port, modPort_port]
  rfl

theorem enterProving_onlyPorts (s : State) (p : Port) : OnlyPorts s (s.enterProving p) :=
  ((setPort_onlyPorts s p _).trans (onlyPorts_of_onlyPort (keepTx_onlyPort _ p))).trans
    (onlyPorts_of_onlyPort (lendRate_onlyPort _))

section
variable {s : State} {p : Port}

theorem reportGood_young (hunt : (s.port p).lsu.state = .hunt) (young : (s.port p).goodRun < 3) :
    s.reportGood p = s.modPort p heardGood := by
  unfold State.reportGood State.goodInHunt
  rw [hunt]
  dsimp only
  rw [modPort_port]
  exact if_neg (Nat.not_le.mpr (Nat.succ_lt_succ young))

theorem reportGood_fourth (hunt : (s.port p).lsu.state = .hunt) (ripe : 3 ≤ (s.port p).goodRun) :
    s.reportGood p = (s.modPort p heardGood).enterProving p := by
  unfold State.reportGood State.goodInHunt
  rw [hunt]
  dsimp only
  rw [modPort_port]
  exact if_pos (Nat.succ_le_succ ripe)

theorem reportGood_credit (serving : (s.port p).lsu.state = .service)
    (mode : (s.params.port p).mode = .frame) :
    s.reportGood p = s.modLsu p fun l => l.creditGood (s.params.port p).credit := by
  unfold State.reportGood
  rw [serving]
  dsimp only
  rw [mode]

theorem reportGood_idle (h : (s.port p).lsu.state ≠ .hunt)
    (k : (s.port p).lsu.state = .service → (s.params.port p).mode = .interval) :
    s.reportGood p = s := by
  unfold State.reportGood
  cases state : (s.port p).lsu.state with
  | hunt => exact absurd state h
  | service =>
    dsimp only
    rw [k state]
  | off | proving | outage => rfl

end

/-- The forms that a good frame's report can take (2.8). -/
theorem reportGood_cases (s : State) (p : Port) :
    s.reportGood p = s ∨ s.reportGood p = s.modPort p heardGood
    ∨ s.reportGood p = (s.modPort p heardGood).enterProving p
    ∨ s.reportGood p = s.modLsu p fun l => l.creditGood (s.params.port p).credit := by
  by_cases hunt : (s.port p).lsu.state = .hunt
  · by_cases young : (s.port p).goodRun < 3
    · exact .inr (.inl (reportGood_young hunt young))
    · exact .inr (.inr (.inl (reportGood_fourth hunt (Nat.not_lt.mp young))))
  · by_cases serving : (s.port p).lsu.state = .service
    · cases mode : (s.params.port p).mode with
      | frame => exact .inr (.inr (.inr (reportGood_credit serving mode)))
      | interval => exact .inl (reportGood_idle hunt fun _ => mode)
    · exact .inl (reportGood_idle hunt fun h => absurd h serving)

theorem reportGood_onlyPorts (s : State) (p : Port) : OnlyPorts s (s.reportGood p) := by
  rcases reportGood_cases s p with e | e | e | e <;> rw [e]
  · exact .refl s
  · exact setPort_onlyPorts s p _
  · exact (setPort_onlyPorts s p _).trans (enterProving_onlyPorts _ p)
  · exact setPort_onlyPorts s p _

theorem reportGood_receiver (s : State) (p : Port) :
    receiverOf ((s.reportGood p).port p) = receiverOf (s.port p) := by
  rcases reportGood_cases s p with e | e | e | e <;> rw [e]
  · rw [modPort_port]
    rfl
  · rw [← receiverOf_txFrameOf, enterProving_port, receiverOf_txFrameOf, modPort_port]
    rfl
  · rw [modLsu_port]
    rfl

theorem enterProving_lsu (s : State) (p : Port) :
    ((s.enterProving p).port p).lsu
      = provingLsu (s.port p).lsu (s.params.port p).period :=
  (congrArg LinePort.lsu (enterProving_port s p) :)

theorem reportGood_weighed (s : State) (p : Port) : GoodWeighed s (s.reportGood p) p := by
  unfold GoodWeighed
  dsimp only
  split
  case h_1 h | h_2 h | h_3 h =>
    rw [reportGood_idle (by rw [h]; exact nofun) (by rw [h]; exact nofun)]
    exact ⟨rfl, rfl, rfl, rfl⟩
  case h_4 h =>
    refine ⟨fun young => ?_, fun ripe => ?_⟩
    · rw [reportGood_young h young, modPort_port]
      exact ⟨h, rfl, fun auto => if_pos auto⟩
    · have port := enterProving_port (s.modPort p heardGood) p
      rw [reportGood_fourth h ripe, enterProving_lsu]
      exact ⟨rfl, rfl, by cases p <;> rfl, rfl, rfl, rfl, (congrArg LinePort.dwell port :),
        (congrArg LinePort.goodRun port :)⟩
  case h_5 h =>
    split
    · next mode =>
      rw [reportGood_idle (by rw [h]; exact nofun) fun _ => mode]
      exact ⟨h, rfl, rfl⟩
    · next mode =>
      rw [reportGood_credit h mode, modLsu_lsu]
      unfold Lsu.creditGood
      split
      · next due => exact ⟨h, fun few => absurd due (Nat.not_le.mpr few), fun _ => ⟨rfl, rfl⟩⟩
      · next few => exact ⟨h, fun _ => ⟨rfl, rfl⟩, fun due => absurd due few⟩

/-! ## The frame handled -/

/-- The LSU without what a FILL's content alters (R32). -/
def unfilled (l : Lsu) : Lsu := { l with peer := none, peerSeen := false, ctr := {} }

theorem reportFill_eq (s : State) (p : Port) (bs : List Byte) :
    ∃ l, s.reportFill p bs = s.modPort p (fun lp => { lp with lsu := l })
      ∧ unfilled l = unfilled (s.port p).lsu := by
  unfold State.reportFill
  split
  · exact ⟨_, rfl, rfl⟩
  · exact ⟨_, rfl, rfl⟩

/-- The port's counters after a good frame (R8). -/
def goodCounted (k : PortCounters) : PortCounters := { k with goodFrames := tally k.goodFrames }

/-- The state after a good frame was counted and reported, before its content is looked at (R8). -/
def goodReported (s : State) (p : Port) : State := (s.modCtr p goodCounted).reportGood p

section
variable (s : State) (p : Port) (f : RxFrame)

theorem goodFrame_hopZero (h : f.hop = 0#8) : s.goodFrame p f
    = (goodReported s p).modCtr p fun c => { c with hopZero := tally c.hopZero } := if_pos h

theorem goodFrame_fill (h : f.hop ≠ 0#8) (k : f.kind = 1#8) :
    s.goodFrame p f = (goodReported s p).reportFill p f.payload :=
  (if_neg h).trans (if_pos k)

theorem goodFrame_store (h : f.hop ≠ 0#8) (k : f.kind ≠ 1#8) :
    s.goodFrame p f = (goodReported s p).store p f :=
  (if_neg h).trans (if_neg k)

theorem goodReported_onlyPorts : OnlyPorts s (goodReported s p) :=
  (setPort_onlyPorts s p _).trans (reportGood_onlyPorts _ p)

theorem goodReported_receiver : receiverOf ((goodReported s p).port p)
    = receiverOf { s.port p with ctr := goodCounted (s.port p).ctr } := by
  unfold goodReported
  rw [reportGood_receiver, modCtr_port]

/-- What is done with a good frame behind its report alters the port's counters, buffers and the LSU's
record of the peer (R8, R32). -/
theorem goodFrame_handled : ∃ k bufs l, unfilled l = unfilled ((goodReported s p).port p).lsu
    ∧ s.goodFrame p f = (goodReported s p).modPort p fun lp =>
      { lp with ctr := k, buffers := bufs, lsu := l } := by
  by_cases hop : f.hop = 0#8
  · exact ⟨_, _, _, rfl, goodFrame_hopZero s p f hop⟩
  · by_cases kind : f.kind = 1#8
    · obtain ⟨l, e, h⟩ := reportFill_eq (goodReported s p) p f.payload
      exact ⟨_, _, l, h, (goodFrame_fill s p f hop kind).trans e⟩
    · rw [goodFrame_store s p f hop kind]
      unfold State.store
      split
      · exact ⟨_, _, _, rfl, rfl⟩
      · exact ⟨_, _, _, rfl, rfl⟩

theorem goodFrame_onlyPorts : OnlyPorts s (s.goodFrame p f) := by
  obtain ⟨k, bufs, l, -, e⟩ := goodFrame_handled s p f
  rw [e]
  exact (goodReported_onlyPorts s p).trans (setPort_onlyPorts _ p _)

theorem goodFrame_rx : ((s.goodFrame p f).port p).rx = (s.port p).rx
    ∧ ((s.goodFrame p f).port p).rxRate = (s.port p).rxRate
    ∧ ((s.goodFrame p f).port p).octetCount = (s.port p).octetCount := by
  obtain ⟨k, bufs, l, -, e⟩ := goodFrame_handled s p f
  have kept := goodReported_receiver s p
  rw [e, modPort_port]
  exact ⟨(congrArg LinePort.rx kept :), (congrArg LinePort.rxRate kept :),
    (congrArg LinePort.octetCount kept :)⟩

end

/-- A good frame weighs by its report alone: the record of the peer has no part in it (2.8). -/
theorem goodWeighed_congr {s t u : State} {p : Port}
    (lsu : unfilled (u.port p).lsu = unfilled (t.port p).lsu)
    (run : (u.port p).goodRun = (t.port p).goodRun) (dwell : (u.port p).dwell = (t.port p).dwell)
    (h : GoodWeighed s t p) : GoodWeighed s u p := by
  have state : (u.port p).lsu.state = (t.port p).lsu.state := (congrArg Lsu.state lsu :)
  have bucket : (u.port p).lsu.bucket = (t.port p).lsu.bucket := (congrArg Lsu.bucket lsu :)
  have credits : (u.port p).lsu.bucketRun = (t.port p).lsu.bucketRun :=
    (congrArg Lsu.bucketRun lsu :)
  have ca : (u.port p).lsu.ca = (t.port p).lsu.ca := (congrArg Lsu.ca lsu :)
  have phase : (u.port p).lsu.phase = (t.port p).lsu.phase := (congrArg Lsu.phase lsu :)
  have period : (u.port p).lsu.period = (t.port p).lsu.period := (congrArg Lsu.period lsu :)
  have silence : (u.port p).lsu.silence = (t.port p).lsu.silence := (congrArg Lsu.silence lsu :)
  have attempts : (u.port p).lsu.attempts = (t.port p).lsu.attempts := (congrArg Lsu.attempts lsu :)
  unfold GoodWeighed at h ⊢
  dsimp only at h ⊢
  rw [state, bucket, credits, ca, phase, period, silence, attempts, run, dwell]
  exact h

theorem goodWeighed_of_heard {s u t : State} {p : Port} (params : u.params = s.params)
    (lsu : (u.port p).lsu = heardFlag (s.port p).lsu) (run : (u.port p).goodRun = (s.port p).goodRun)
    (mode : (u.port p).rateMode = (s.port p).rateMode) (h : GoodWeighed u t p) :
    GoodWeighed s t p := by
  unfold GoodWeighed at h ⊢
  rw [params, lsu, run, mode] at h
  exact h

theorem goodFrame_weighed (s : State) (p : Port) (f : RxFrame) :
    GoodWeighed s (s.goodFrame p f) p := by
  obtain ⟨k, bufs, l, same, e⟩ := goodFrame_handled s p f
  have weighed : GoodWeighed s (goodReported s p) p := by
    have h := reportGood_weighed (s.modCtr p goodCounted) p
    unfold GoodWeighed at h ⊢
    rw [modCtr_port, State.modCtr_eq, State.setPort_params] at h
    exact h
  refine goodWeighed_congr ?_ ?_ ?_ weighed <;> rw [e, modPort_port]
  exact same

/-! ## A candidate closed good -/

/-- The port that a good frame finds: the flag heard, the receiver in IDLE, COUNTING ended (R1, R7). -/
def closedGood (lp : LinePort) : LinePort :=
  { lp with
    lsu := heardFlag lp.lsu, rx := .idle
    octetCount := if lp.rx = .counting then 0 else lp.octetCount
    seqCounted := if lp.rx = .counting then 0 else lp.seqCounted }

theorem exec_frameClosed_good {s : State} (on : s.powered = true) {p : Port} {bits : List Bool}
    {f : RxFrame} (few : (destuff bits).length < 1032) (good : judge (destuff bits) = .ok f)
    (rx : (s.port p).rx = .frame ∨ (s.port p).rx = .counting ∧ (s.port p).seqCounted ≤ 128) :
    exec (.frameClosed p bits) s = .next ((s.modPort p closedGood).goodFrame p f) := by
  have short : (destuff bits).length / 8 ≤ 128 := by omega
  rcases rx with rx | ⟨rx, counted⟩
  · have e : closedGood (s.port p)
        = { s.port p with rx := .idle, lsu := heardFlag (s.port p).lsu } := by
      unfold closedGood
      rw [rx]
      rfl
    rw [exec_frameClosed_frame on rx]
    unfold State.flagInFrame State.closeFrame
    rw [if_pos short, good, reportFlag_eq, modPort_modPort, State.modPort_eq s p closedGood, e]
    rfl
  · have e : closedGood (s.port p) = { s.port p with
        rx := .idle, lsu := heardFlag (s.port p).lsu, octetCount := 0, seqCounted := 0 } := by
      unfold closedGood
      rw [rx]
      rfl
    rw [exec_frameClosed_counting on rx]
    unfold State.closeSequence
    rw [good]
    dsimp only
    rw [if_pos ⟨short, by rw [reportFlag_port]; exact counted⟩, reportFlag_eq, modPort_modPort,
      State.modPort_eq s p closedGood, e]
    rfl

theorem goodReported_young {s : State} {p : Port} (hunt : (s.port p).lsu.state = .hunt)
    (young : (s.port p).goodRun < 3) :
    goodReported s p = (s.modCtr p goodCounted).modPort p heardGood :=
  reportGood_young (by rw [modCtr_port]; exact hunt) (by rw [modCtr_port]; exact young)

theorem goodReported_fourth {s : State} {p : Port} (hunt : (s.port p).lsu.state = .hunt)
    (ripe : 3 ≤ (s.port p).goodRun) : goodReported s p
      = ((s.modCtr p goodCounted).modPort p heardGood).enterProving p :=
  reportGood_fourth (by rw [modCtr_port]; exact hunt) (by rw [modCtr_port]; exact ripe)

/-- A frame that is no FILL leaves the LSU as its report does (R8). -/
theorem goodFrame_notFill {s : State} {p : Port} {f : RxFrame} (kind : f.kind ≠ 1#8) :
    ∃ k bufs, s.goodFrame p f = (goodReported s p).modPort p fun lp =>
      { lp with ctr := k, buffers := bufs } := by
  by_cases hop : f.hop = 0#8
  · exact ⟨_, _, goodFrame_hopZero s p f hop⟩
  · rw [goodFrame_store s p f hop kind]
    unfold State.store
    split
    · exact ⟨_, _, rfl⟩
    · exact ⟨_, _, rfl⟩

/-- Settles O12. -/
theorem fourthGoodFrameLocks : Obligations.FourthGoodFrameLocks := by
  constructor
  · intro s p bits f on rx few good kind hunt
    have deaf : heardFlag (s.port p).lsu = (s.port p).lsu :=
      heardFlag_of_deaf (by rw [hunt]; exact nofun) (by rw [hunt]; exact nofun)
    have port : (s.modPort p closedGood).port p = closedGood (s.port p) := modPort_port s p _
    have hunt' : ((s.modPort p closedGood).port p).lsu.state = .hunt := by
      rw [port]
      exact hunt
    have rate := (goodFrame_rx (s.modPort p closedGood) p f).2.1
    rw [port] at rate
    obtain ⟨k, bufs, e⟩ := goodFrame_notFill (s := s.modPort p closedGood) (p := p) kind
    refine ⟨_, exec_frameClosed_good on few good (.inl rx), rate, fun young => ?_, fun ripe => ?_⟩
    · have young' : ((s.modPort p closedGood).port p).goodRun < 3 := by
        rw [port]
        exact young
      rw [e, goodReported_young hunt' young']
      refine ⟨?_, ?_, fun auto => ?_, ?_⟩
      · rw [modPort_port, modPort_port, modCtr_port, port]
        exact deaf
      · rw [modPort_port, modPort_port, modCtr_port, port]
        rfl
      · rw [modPort_port, modPort_port, modCtr_port, port]
        exact if_pos auto
      · exact onlyPort_trans (onlyPort_trans (setPort_onlyPort s p _) (setPort_onlyPort _ p _))
          (onlyPort_trans (setPort_onlyPort _ p _) (setPort_onlyPort _ p _))
    · have ripe' : 3 ≤ ((s.modPort p closedGood).port p).goodRun := by
        rw [port]
        exact ripe
      have entered := enterProving_port
        (((s.modPort p closedGood).modCtr p goodCounted).modPort p heardGood) p
      rw [modPort_port, modCtr_port, port] at entered
      rw [e, goodReported_fourth hunt' ripe', modPort_port]
      refine ⟨?_, (congrArg LinePort.dwell entered :), (congrArg LinePort.goodRun entered :), ?_⟩
      · refine (congrArg LinePort.lsu entered :).trans ?_
        have params : (((s.modPort p closedGood).modCtr p goodCounted).modPort p heardGood).params
            = s.params := by
          cases p <;> rfl
        rw [params]
        exact congrArg (fun l => provingLsu l (s.params.port p).period) deaf
      · have ports := goodFrame_onlyPorts (s.modPort p closedGood) p f
        rw [e, goodReported_fourth hunt' ripe'] at ports
        exact (setPort_onlyPorts s p _).trans ports
  · intro s p bits f on few good rx
    refine ⟨_, exec_frameClosed_good on few good rx, ?_, ?_, ?_⟩
    · refine goodWeighed_of_heard ?_ ?_ ?_ ?_ (goodFrame_weighed (s.modPort p closedGood) p f)
      · exact State.setPort_params s p _
      all_goals rw [modPort_port]; rfl
    · have rate := (goodFrame_rx (s.modPort p closedGood) p f).2.1
      rwa [modPort_port] at rate
    · exact (setPort_onlyPorts s p _).trans (goodFrame_onlyPorts _ p f)

end Sys2Proof.Proofs
end

