-- ==== Sys2Proof/Proofs/LineCrossing.lean ====
section
/-! A frame across the line: what one transmitter sends, the other receiver takes (01, R3 to R9, R32). -/

namespace Sys2Proof.Proofs

open Sys2Proof.Machine Sys2Proof.Safety Sys2Proof.Laws

/-! ## Octets and bits of a frame -/

theorem be_two (n : Nat) : be 2 n = [BitVec.ofNat 8 (n / 256), BitVec.ofNat 8 n] := rfl

theorem word_of_be (w : BitVec 16) :
    BitVec.ofNat 16 (beVal [BitVec.ofNat 8 (w.toNat / 256), BitVec.ofNat 8 w.toNat]) = w := by
  apply BitVec.eq_of_toNat_eq
  simp only [beVal, List.foldl_cons, List.foldl_nil, BitVec.toNat_ofNat]
  have := w.isLt
  omega

theorem octet_of_single (b : Byte) : BitVec.ofNat 8 (beVal [b]) = b := by
  apply BitVec.eq_of_toNat_eq
  simp [beVal]

/-- The received frame that a sent one is, whatever the two octets of its FCS. -/
theorem ofOctets_sent {f : TxFrame} {payload : List Byte} (h : f.payload = .octets payload)
    (a b : Byte) : RxFrame.ofOctets (f.octets ++ [a, b])
      = ⟨f.kind, f.destination, f.origin, f.hop, payload⟩ := by
  have octets : f.octets ++ [a, b]
      = f.kind :: BitVec.ofNat 8 (f.destination.toNat / 256) :: BitVec.ofNat 8 f.destination.toNat
        :: BitVec.ofNat 8 (f.origin.toNat / 256) :: BitVec.ofNat 8 f.origin.toNat :: f.hop
        :: (payload ++ [a, b]) := by
    unfold TxFrame.octets
    rw [h, be_two, be_two]
    rfl
  have body : (payload ++ [a, b]).take ((payload ++ [a, b]).length + 6 - 8) = payload := by
    rw [List.length_append]
    exact List.take_left' rfl
  unfold RxFrame.ofOctets
  rw [octets]
  refine RxFrame.mk.injEq _ _ _ _ _ _ _ _ _ _ ▸ ⟨?_, ?_, ?_, ?_, ?_⟩
  · exact octet_of_single _
  · exact word_of_be _
  · exact word_of_be _
  · exact octet_of_single _
  · exact body

theorem octetsOf_fcsBits (bits : List Bool) : ∃ a b, octetsOf (fcsBits bits) = [a, b] :=
  ⟨_, _, rfl⟩

theorem octets_length {f : TxFrame} {payload : List Byte} (h : f.payload = .octets payload) :
    f.octets.length = payload.length + 6 := by
  unfold TxFrame.octets
  rw [h, be_two, be_two]
  simp only [List.length_append, List.length_cons, List.length_nil, Payload.toOctets]
  omega

theorem contentBits_length (os : List Byte) : (contentBits os).length = 8 * os.length + 16 := by
  unfold contentBits fcsBits
  have bits : (os.flatMap octetBits).length = 8 * os.length := by
    induction os with
    | nil => rfl
    | cons b bs ih =>
      rw [List.flatMap_cons, List.length_append, ih, octetBits_length, List.length_cons]
      omega
  simp [bits]

/-- The receiver's judgement of a frame as sent (R3, R5). -/
theorem judge_sent {f : TxFrame} {payload : List Byte} (h : f.payload = .octets payload) :
    judge (destuff f.lineBits) = .ok ⟨f.kind, f.destination, f.origin, f.hop, payload⟩ := by
  obtain ⟨a, b, fcs⟩ := octetsOf_fcsBits (f.octets.flatMap octetBits)
  have len := contentBits_length f.octets
  have octets := octets_length h
  unfold TxFrame.lineBits
  rw [destuff_stuff, judge_good (content := contentBits f.octets) (by omega) (by omega)
    (fcsGood_of_sent _)]
  unfold contentBits
  rw [octetsOf_octetBits, fcs, ofOctets_sent h]

theorem sent_length {f : TxFrame} {payload : List Byte} (h : f.payload = .octets payload)
    (short : payload.length ≤ 120) : (destuff f.lineBits).length < 1032 := by
  have len := contentBits_length f.octets
  have octets := octets_length h
  unfold TxFrame.lineBits
  rw [destuff_stuff]
  omega

theorem lineBits_ne_nil (f : TxFrame) : f.lineBits ≠ [] := by
  intro h
  have len := contentBits_length f.octets
  have none : contentBits f.octets = [] := by
    rw [← destuff_stuff (contentBits f.octets)]
    unfold TxFrame.lineBits at h
    rw [h]
    rfl
  rw [none] at len
  simp at len

theorem frameClosed_wellFormed (p : Port) (f : TxFrame) :
    (Instr.frameClosed p f.lineBits).wellFormed = true := by
  have some : f.lineBits.isEmpty = false := List.isEmpty_eq_false_iff.mpr (lineBits_ne_nil f)
  have ones : sixOnes 0 f.lineBits = false := sixOnes_stuff _
  have e : (Instr.frameClosed p f.lineBits).wellFormed
      = (!f.lineBits.isEmpty && !sixOnes 0 f.lineBits) := rfl
  simp [e, some, ones]

/-! ## The frame taken -/

section
variable (s : State) (p : Port) (f : RxFrame)

theorem goodFrame_receiver_stored (hop : f.hop ≠ 0#8) (kind : f.kind ≠ 1#8)
    (room : (s.port p).buffers.length < 8) : receiverOf ((s.goodFrame p f).port p)
      = receiverOf { s.port p with
          ctr := goodCounted (s.port p).ctr, buffers := (s.port p).buffers ++ [f] } := by
  have kept := goodReported_receiver s p
  have bufs : ((goodReported s p).port p).buffers = (s.port p).buffers :=
    (congrArg LinePort.buffers kept :)
  rw [goodFrame_store s p f hop kind]
  unfold State.store
  rw [if_pos (by rw [bufs]; exact room), modPort_port, bufs]
  exact congrArg (fun lp : LinePort => { lp with buffers := (s.port p).buffers ++ [f] }) kept

theorem goodFrame_receiver_overrun (hop : f.hop ≠ 0#8) (kind : f.kind ≠ 1#8)
    (full : 8 ≤ (s.port p).buffers.length) : receiverOf ((s.goodFrame p f).port p)
      = receiverOf { s.port p with ctr := { goodCounted (s.port p).ctr with
          rxOverrun := tally (s.port p).ctr.rxOverrun } } := by
  have kept := goodReported_receiver s p
  have bufs : ((goodReported s p).port p).buffers = (s.port p).buffers :=
    (congrArg LinePort.buffers kept :)
  have ctr : ((goodReported s p).port p).ctr = goodCounted (s.port p).ctr :=
    (congrArg LinePort.ctr kept :)
  rw [goodFrame_store s p f hop kind]
  unfold State.store
  rw [if_neg (by rw [bufs]; exact Nat.not_lt.mpr full), modCtr_port, ctr]
  exact congrArg (fun lp : LinePort => { lp with ctr := { goodCounted (s.port p).ctr with
    rxOverrun := tally (s.port p).ctr.rxOverrun } }) kept

theorem goodFrame_receiver_hopZero (hop : f.hop = 0#8) : receiverOf ((s.goodFrame p f).port p)
      = receiverOf { s.port p with ctr := { goodCounted (s.port p).ctr with
          hopZero := tally (s.port p).ctr.hopZero } } := by
  have kept := goodReported_receiver s p
  have ctr : ((goodReported s p).port p).ctr = goodCounted (s.port p).ctr :=
    (congrArg LinePort.ctr kept :)
  rw [goodFrame_hopZero s p f hop, modCtr_port, ctr]
  exact congrArg (fun lp : LinePort => { lp with ctr := { goodCounted (s.port p).ctr with
    hopZero := tally (s.port p).ctr.hopZero } }) kept

theorem goodFrame_receiver_fill (hop : f.hop ≠ 0#8) (kind : f.kind = 1#8) :
    receiverOf ((s.goodFrame p f).port p)
      = receiverOf { s.port p with ctr := goodCounted (s.port p).ctr } := by
  obtain ⟨l, e, -⟩ := reportFill_eq (goodReported s p) p f.payload
  rw [goodFrame_fill s p f hop kind, e, modPort_port, ← goodReported_receiver]
  rfl

end

/-! ## A FILL's content -/

/-- What a good frame's report keeps of the LSU: the peer's record and the counters, and outside HUNT the
port state, the phase and whether the peer was seen (2.8). -/
theorem reportGood_lsu (s : State) (p : Port) :
    ((s.reportGood p).port p).lsu.ctr = (s.port p).lsu.ctr
      ∧ ((s.reportGood p).port p).lsu.peer = (s.port p).lsu.peer
      ∧ ((s.port p).lsu.state ≠ .hunt →
        ((s.reportGood p).port p).lsu.state = (s.port p).lsu.state
          ∧ ((s.reportGood p).port p).lsu.phase = (s.port p).lsu.phase
          ∧ ((s.reportGood p).port p).lsu.peerSeen = (s.port p).lsu.peerSeen) := by
  by_cases hunt : (s.port p).lsu.state = .hunt
  · refine ⟨?_, ?_, fun h => absurd hunt h⟩
    all_goals
      by_cases young : (s.port p).goodRun < 3
      · rw [reportGood_young hunt young, modPort_port]
        rfl
      · rw [reportGood_fourth hunt (Nat.not_lt.mp young), enterProving_lsu, modPort_port]
        rfl
  · by_cases serving : (s.port p).lsu.state = .service ∧ (s.params.port p).mode = .frame
    · rw [reportGood_credit serving.1 serving.2, modLsu_lsu]
      unfold Lsu.creditGood
      split
      · exact ⟨rfl, rfl, fun _ => ⟨rfl, rfl, rfl⟩⟩
      · exact ⟨rfl, rfl, fun _ => ⟨rfl, rfl, rfl⟩⟩
    · have idle : s.reportGood p = s := by
        refine reportGood_idle hunt fun h => ?_
        cases mode : (s.params.port p).mode with
        | frame => exact absurd ⟨h, mode⟩ serving
        | interval => rfl
      rw [idle]
      exact ⟨rfl, rfl, fun _ => ⟨rfl, rfl, rfl⟩⟩

theorem fillOfPayload_none {bs : List Byte}
    (h : ¬ (bs.length = 4 ∧ 1 ≤ field bs 0 1 ∧ field bs 0 1 ≤ 3)) : FillContent.ofPayload bs = none := by
  unfold FillContent.ofPayload
  split
  · next len =>
    have none : fillState (field bs 0 1) = none := by
      unfold fillState
      split
      case h_4 => rfl
      all_goals simp_all
    rw [none]
    rfl
  · rfl

theorem fillOfPayload_some {bs : List Byte} (len : bs.length = 4) {st : PortState}
    (code : (field bs 0 1, st) ∈ [(1, PortState.hunt), (2, .proving), (3, .service)]) :
    FillContent.ofPayload bs = some ⟨st, BitVec.ofNat 8 (field bs 1 1), word bs 2⟩ := by
  have state : fillState (field bs 0 1) = some st := by
    simp only [List.mem_cons, Prod.mk.injEq, List.not_mem_nil, or_false] at code
    rcases code with ⟨n, rfl⟩ | ⟨n, rfl⟩ | ⟨n, rfl⟩ <;> rw [n] <;> rfl
  unfold FillContent.ofPayload
  rw [if_pos len, state]
  rfl

theorem goodReported_lsu (s : State) (p : Port) :
    ((goodReported s p).port p).lsu.ctr = (s.port p).lsu.ctr
      ∧ ((goodReported s p).port p).lsu.peer = (s.port p).lsu.peer
      ∧ ((s.port p).lsu.state ≠ .hunt →
        ((goodReported s p).port p).lsu.state = (s.port p).lsu.state
          ∧ ((goodReported s p).port p).lsu.phase = (s.port p).lsu.phase
          ∧ ((goodReported s p).port p).lsu.peerSeen = (s.port p).lsu.peerSeen) := by
  have h := reportGood_lsu (s.modCtr p goodCounted) p
  rwa [modCtr_port] at h

/-- A FILL's content recorded, or its bad form counted (R32). -/
theorem goodFrame_fillRecorded (s : State) (p : Port) (f : RxFrame) (hop : f.hop ≠ 0#8)
    (kind : f.kind = 1#8) : FillRecorded s (s.goodFrame p f) p f.payload := by
  obtain ⟨ctr, peer, kept⟩ := goodReported_lsu s p
  have uptime : (goodReported s p).htb.uptime = s.htb.uptime :=
    (congrArg (fun u : State => u.htb.uptime) (goodReported_onlyPorts s p) :)
  unfold FillRecorded
  dsimp only
  rw [goodFrame_fill s p f hop kind]
  refine ⟨fun bad => ?_, fun good => ?_⟩
  · unfold State.reportFill
    rw [fillOfPayload_none bad]
    dsimp only
    rw [modLsu_lsu, ← ctr]
    exact ⟨peer, rfl⟩
  · have filled {st : PortState}
        (code : (field f.payload 0 1, st) ∈ [(1, PortState.hunt), (2, .proving), (3, .service)]) :
        (((goodReported s p).reportFill p f.payload).port p).lsu
          = ((goodReported s p).port p).lsu.recordFill
            ⟨st, BitVec.ofNat 8 (field f.payload 1 1), word f.payload 2⟩ s.htb.uptime := by
      unfold State.reportFill
      rw [fillOfPayload_some good.1 code]
      dsimp only
      rw [modLsu_lsu, uptime]
    refine ⟨?_, fun st code => ?_⟩
    · have some : ∃ st, (field f.payload 0 1, st)
          ∈ [(1, PortState.hunt), (2, .proving), (3, .service)] := by
        have : field f.payload 0 1 = 1 ∨ field f.payload 0 1 = 2 ∨ field f.payload 0 1 = 3 := by
          omega
        rcases this with n | n | n <;> rw [n] <;> exact ⟨_, by simp; rfl⟩
      obtain ⟨st, code⟩ := some
      rw [filled code]
      exact ctr
    · rw [filled code]
      unfold Lsu.recordFill
      dsimp only
      refine ⟨rfl, fun proving period told => ?_, fun hunt still => ?_⟩
      · simp [proving, period, told]
      · obtain ⟨state, phase, seen⟩ := kept hunt
        rw [seen, state, phase]
        rcases still with h | h | h <;> simp [h]

/-- Settles O8. -/
theorem sentFrameIsDelivered : Obligations.SentFrameIsDelivered := by
  constructor
  · intro s p f payload on sent short hop kind room rx
    have good := judge_sent sent
    have port : (s.modPort p closedGood).port p = closedGood (s.port p) := modPort_port s p _
    have kept := goodFrame_receiver_stored (s.modPort p closedGood) p
      ⟨f.kind, f.destination, f.origin, f.hop, payload⟩ hop kind (by rw [port]; exact room)
    rw [port] at kept
    refine ⟨frameClosed_wellFormed p f, _, exec_frameClosed_good on (sent_length sent short) good rx,
      (congrArg LinePort.buffers kept :), (congrArg LinePort.ctr kept :),
      (congrArg LinePort.rx kept :), fun counting => ?_⟩
    exact (congrArg LinePort.octetCount kept :).trans (if_pos counting)
  · intro s p f payload on sent short rx
    have good := judge_sent sent
    have port : (s.modPort p closedGood).port p = closedGood (s.port p) := modPort_port s p _
    have receiver := goodFrame_rx (s.modPort p closedGood) p
      ⟨f.kind, f.destination, f.origin, f.hop, payload⟩
    rw [port] at receiver
    refine ⟨_, exec_frameClosed_good on (sent_length sent short) good rx, receiver.1,
      (setPort_onlyPorts s p _).trans (goodFrame_onlyPorts _ p _), ?_, ?_, ?_, ?_⟩
    · intro lost
      by_cases hop : f.hop = 0#8
      · have kept := goodFrame_receiver_hopZero (s.modPort p closedGood) p
          ⟨f.kind, f.destination, f.origin, f.hop, payload⟩ hop
        rw [port] at kept
        exact (congrArg LinePort.buffers kept :)
      · by_cases kind : f.kind = 1#8
        · have kept := goodFrame_receiver_fill (s.modPort p closedGood) p
            ⟨f.kind, f.destination, f.origin, f.hop, payload⟩ hop kind
          rw [port] at kept
          exact (congrArg LinePort.buffers kept :)
        · have full : 8 ≤ (s.port p).buffers.length :=
            (lost.resolve_left hop).resolve_left kind
          have kept := goodFrame_receiver_overrun (s.modPort p closedGood) p
            ⟨f.kind, f.destination, f.origin, f.hop, payload⟩ hop kind (by rw [port]; exact full)
          rw [port] at kept
          exact (congrArg LinePort.buffers kept :)
    · intro hop
      have kept := goodFrame_receiver_hopZero (s.modPort p closedGood) p
        ⟨f.kind, f.destination, f.origin, f.hop, payload⟩ hop
      rw [port] at kept
      exact (congrArg LinePort.ctr kept :)
    · intro hop kind
      have kept := goodFrame_receiver_fill (s.modPort p closedGood) p
        ⟨f.kind, f.destination, f.origin, f.hop, payload⟩ hop kind
      have recorded := goodFrame_fillRecorded (s.modPort p closedGood) p
        ⟨f.kind, f.destination, f.origin, f.hop, payload⟩ hop kind
      rw [port] at kept
      unfold FillRecorded at recorded ⊢
      have htb : (s.modPort p closedGood).htb = s.htb := State.setPort_htb s p _
      rw [port, htb] at recorded
      exact ⟨(congrArg LinePort.ctr kept :), recorded⟩
    · intro hop kind full
      have kept := goodFrame_receiver_overrun (s.modPort p closedGood) p
        ⟨f.kind, f.destination, f.origin, f.hop, payload⟩ hop kind (by rw [port]; exact full)
      rw [port] at kept
      exact (congrArg LinePort.ctr kept :)

end Sys2Proof.Proofs
end

