-- ==== Sys2Proof/Proofs/TerminalPort.lean ====
section
/-! The terminal port: what a listening part answers, and what it does with a message it cannot serve
(11.6, R179 to R181). -/

namespace Sys2Proof.Proofs

open Sys2Proof.Machine Sys2Proof.Safety Sys2Proof.Laws

/-! ## A request served -/

/-- A served request's reply stands behind the others (R180). -/
def answered (code : Byte) (r : Served) : State := r.state.pushReply ⟨replyCode code, r.result, r.body⟩

theorem replyCode_low {code : Byte} (h : code.toNat < 128) : replyCode code = code + 128#8 := if_pos h

theorem serve_active {s : State} (h : Listening s) (code : Byte) (f : State → Served) :
    s.serve code f = answered code (f (s.noteActivity .terminal)) := by
  obtain ⟨-, waiting, room⟩ := h
  have room : ¬ Config.replySlots ≤ s.tpi.replies.length := Nat.not_le.mpr room
  unfold State.serve
  rw [if_neg (by rw [waiting]; exact nofun), if_neg room]
  rfl

theorem serve_listening {s : State} (h : Listening s) (code : Byte) (f : State → Served) :
    ∃ b, s.serve code f = answered code (f { s with bdc := b }) := by
  obtain ⟨b, e⟩ := noteActivity_frame s .terminal
  exact ⟨b, by rw [serve_active h, e]⟩

theorem whenServed_listening {s : State} (h : Listening s) (code : Byte) (f : State → Served) :
    ∃ b, whenServed s code f = .next (answered code (f { s with bdc := b })) := by
  obtain ⟨b, e⟩ := serve_listening h code f
  refine ⟨b, ?_⟩
  unfold whenServed
  rw [whenPowered_on h.1, e]

/-- A request whose owner leaves the state alone changes the boards and the replies only. -/
theorem answered_onlyTerminal {s : State} {code : Byte} {f : State → Served}
    {o : Host.Outcome State Fault Refusal} {result : Result} {body : TerminalBody} (h : Listening s) (e : o = whenServed s code f)
    (same : ∀ b, f { s with bdc := b }
      = { state := { s with bdc := b }, result := result, body := body }) :
    ∃ t, o = .next t ∧ t.tpi.replies = s.tpi.replies ++ [⟨replyCode code, result, body⟩]
      ∧ OnlyTerminal s t := by
  obtain ⟨b, given⟩ := whenServed_listening h code f
  refine ⟨_, e.trans given, ?_⟩
  rw [same b]
  exact ⟨rfl, rfl⟩

theorem refused_of_served {c : Instr} {s : State} {code : Byte} {f : State → Served} {result : Result}
    (h : Listening s) (e : exec c s = whenServed s code f)
    (same : ∀ b, f { s with bdc := b } = { state := { s with bdc := b }, result := result }) :
    RefusedWith c s (replyCode code) result :=
  answered_onlyTerminal h e same

/-! ## NOTICES and STATUS -/

theorem serveNotices_few {s : State} {n : Byte} (h : 1 ≤ n.toNat ∧ n.toNat ≤ 8) :
    ∃ b, serveNotices n s = {
      state := { s with
        bdc := b, tpi := { s.tpi with ring := s.tpi.ring.drop n.toNat, overflow := false } }
      result := .ok, body := .notices s.tpi.overflow (s.tpi.ring.take n.toNat) } := by
  obtain ⟨b, e⟩ := setRing_frame s (s.tpi.ring.drop n.toNat)
  refine ⟨b, ?_⟩
  unfold serveNotices
  dsimp only
  rw [if_pos h, e]

theorem serveNotices_other (s : State) {n : Byte} (h : n.toNat = 0 ∨ 8 < n.toNat) :
    serveNotices n s = { state := s, result := .badMessage } := by
  unfold serveNotices
  dsimp only
  rw [if_neg (by omega)]

theorem overrun_of_full {s : State} (on : s.powered = true) (waiting : s.tpi.parser = .waiting)
    (full : 4 ≤ s.tpi.replies.length) (code : Byte) (f : State → Served) :
    whenServed s code f = .next { s with tpi := { s.tpi with
      ctr := { s.tpi.ctr with overrun := tally s.tpi.ctr.overrun } } } := by
  unfold whenServed
  rw [whenPowered_on on]
  have full : Config.replySlots ≤ s.tpi.replies.length := full
  unfold State.serve
  rw [if_neg (by rw [waiting]; exact nofun), if_pos full]
  rfl

section
variable (s : State)

theorem exec_quote (r : QuoteRequest) : exec (.quote r) s = whenServed s 1#8 (serveQuote r) :=
  (rfl : execQuote r s = _)

theorem exec_cancelQuote (n : Byte) : exec (.cancelQuote n) s = whenServed s 2#8 (serveCancel n) :=
  (rfl : execCancelQuote n s = _)

theorem exec_issue (r : IssueRequest) : exec (.issue r) s = whenServed s 3#8 (serveIssue r) :=
  (rfl : execIssue r s = _)

theorem exec_ticket (n : TicketNo) : exec (.ticket n) s = whenServed s 4#8 (serveTicket n) :=
  execTicket_eq n s

theorem exec_printed (n : TicketNo) : exec (.printed n) s = whenServed s 5#8 (servePrinted n) :=
  execPrinted_eq n s

theorem exec_void (n : TicketNo) : exec (.void n) s = whenServed s 6#8 (serveVoid n) :=
  (rfl : execVoid n s = _)

theorem exec_find (r : FindRequest) : exec (.find r) s = whenServed s 7#8 (serveFind r) :=
  (rfl : execFind r s = _)

theorem exec_notices (n : Byte) : exec (.notices n) s = whenServed s 8#8 (serveNotices n) :=
  (rfl : execNotices n s = _)

/-- STATUS served (R180). -/
def serveStatus (s : State) : Served :=
  { state := s, result := .ok, body := .status s.terminalStatus }

theorem exec_status : exec .status s = whenServed s 9#8 serveStatus :=
  (rfl : execStatus s = _)

/-- A terminal request is served by its owner; the other commands are none of its requests (R179). -/
def ServedAs (c : Instr) (o : Option Byte) : Prop :=
  ∀ code, o = some code → ∃ f, exec c s = whenServed s code f

theorem servedAs_some {c : Instr} {code : Byte} {f : State → Served}
    (h : exec c s = whenServed s code f) : ServedAs s c (some code) := by
  intro n e
  obtain rfl := Option.some.inj e
  exact ⟨f, h⟩

theorem exec_request (c : Instr) : ServedAs s c (requestCode c) := by
  cases c
  case quote r => exact servedAs_some s (exec_quote s r)
  case cancelQuote n => exact servedAs_some s (exec_cancelQuote s n)
  case issue r => exact servedAs_some s (exec_issue s r)
  case ticket n => exact servedAs_some s (exec_ticket s n)
  case printed n => exact servedAs_some s (exec_printed s n)
  case void n => exact servedAs_some s (exec_void s n)
  case find r => exact servedAs_some s (exec_find s r)
  case notices n => exact servedAs_some s (exec_notices s n)
  case status => exact servedAs_some s (exec_status s)
  all_goals exact nofun

end

/-- Settles O50. -/
theorem noticesAndStatusServed : Obligations.NoticesAndStatusServed := by
  intro s
  constructor
  · intro listening
    refine ⟨fun n few many => ?_, fun n other => ?_, ?_⟩
    · obtain ⟨b, given⟩ := whenServed_listening listening 8#8 (serveNotices n)
      obtain ⟨b', e⟩ := serveNotices_few (s := { s with bdc := b }) ⟨few, many⟩
      refine ⟨_, (exec_notices s n).trans given, ?_⟩
      rw [e]
      exact ⟨rfl, rfl, rfl, rfl⟩
    · obtain ⟨b, given⟩ := whenServed_listening listening 8#8 (serveNotices n)
      refine ⟨_, (exec_notices s n).trans given, ?_⟩
      rw [serveNotices_other _ other]
      exact ⟨rfl, rfl⟩
    · obtain ⟨b, given⟩ := whenServed_listening listening 9#8 serveStatus
      exact ⟨_, (exec_status s).trans given, rfl, rfl⟩
  · intro on waiting full c code named
    obtain ⟨f, e⟩ := exec_request s c code named
    rw [e]
    exact overrun_of_full on waiting full code f

/-! ## Gaps and messages of bad form -/

theorem overLength_full {s : State} (full : 4 ≤ s.tpi.replies.length) (code : Byte) :
    s.overLength code = { s with tpi := { s.tpi with
      parser := .ignoring, ctr := { s.tpi.ctr with form := tally s.tpi.ctr.form } } } :=
  if_neg (Nat.not_lt.mpr full)

theorem overLength_room {s : State} (room : s.tpi.replies.length < 4) (code : Byte) :
    ∃ b, s.overLength code = { s with
      bdc := b
      tpi := { s.tpi with
        parser := .ignoring, ctr := { s.tpi.ctr with form := tally s.tpi.ctr.form }
        replies := s.tpi.replies ++ [⟨replyCode code, .badMessage, .empty⟩] } } := by
  obtain ⟨b, e⟩ := noteActivity_frame { s with tpi := { s.tpi with
    parser := .ignoring, ctr := { s.tpi.ctr with form := tally s.tpi.ctr.form } } } .terminal
  refine ⟨b, (if_pos room).trans ?_⟩
  exact congrArg (fun u : State => u.pushReply ⟨replyCode code, .badMessage, .empty⟩) e

theorem badMessage_tooLong {s : State} (waiting : s.tpi.parser = .waiting) (code : Byte) :
    s.badMessage code .lengthAbove120 = s.overLength code :=
  if_neg (by rw [waiting]; exact nofun)

theorem serve_full {s : State} (on : s.powered = true) (waiting : s.tpi.parser = .waiting)
    (full : 4 ≤ s.tpi.replies.length) (code : Byte) (f : State → Served) :
    Host.Outcome.next (s.serve code f) = (Host.Outcome.next { s with tpi := { s.tpi with
      ctr := { s.tpi.ctr with overrun := tally s.tpi.ctr.overrun } } }
        : Host.Outcome State Fault Refusal) := by
  rw [← overrun_of_full on waiting full code f, whenServed, whenPowered_on on]

/-- Settles O51. -/
theorem requestParser : Obligations.RequestParser := by
  intro s on
  refine ⟨fun waiting => ?_, fun ignoring => ?_, exec_terminalReplySent on, ?_, ?_⟩
  · rw [exec_tpGap on, waiting]
    rfl
  · rw [exec_tpGap on, ignoring]
  · intro listening code low
    obtain ⟨-, waiting, room⟩ := id listening
    dsimp only
    rw [← replyCode_low low]
    refine ⟨?_, ?_, ?_⟩
    · obtain ⟨b, e⟩ := overLength_room room code
      rw [exec_badMessage on, badMessage_tooLong waiting, e]
      exact ⟨_, rfl, rfl, rfl⟩
    · obtain ⟨b, e⟩ := serve_listening listening code fun s =>
        { state := s.modTpiCtr fun c => { c with check := tally c.check }, result := .badMessage }
      rw [exec_badMessage on]
      exact ⟨_, congrArg _ e, rfl, rfl⟩
    · intro form bad
      obtain ⟨b, e⟩ := serve_listening listening code fun s =>
        { state := s, result := .badMessage }
      rw [exec_badMessage on]
      simp only [List.mem_cons, List.not_mem_nil, or_false] at bad
      rcases bad with rfl | rfl
      · exact ⟨_, congrArg _ e, rfl, rfl⟩
      · exact ⟨_, congrArg _ e, rfl, rfl⟩
  · intro waiting full code
    refine ⟨?_, fun form bad => ?_⟩
    · rw [exec_badMessage on, badMessage_tooLong waiting, overLength_full full]
    · rw [exec_badMessage on]
      simp only [List.mem_cons, List.not_mem_nil, or_false] at bad
      rcases bad with rfl | rfl | rfl
      · exact (serve_full on waiting full code fun s =>
          { state := s.modTpiCtr fun c => { c with check := tally c.check }, result := .badMessage } :)
      · exact (serve_full on waiting full code fun s => { state := s, result := .badMessage } :)
      · exact (serve_full on waiting full code fun s => { state := s, result := .badMessage } :)

end Sys2Proof.Proofs
end

