-- ==== Sys2Proof/Proofs/SlotsAndTickets.lean ====
section
/-! The ends of a quote slot and the issued tickets: CANCEL_QUOTE, QUOTE_EXPIRY, TICKET, PRINTED, VOID
(R149, R160, R161, R165). -/

namespace Sys2Proof.Proofs

open Sys2Proof.Machine Sys2Proof.Safety Sys2Proof.Laws

/-! ## Notices -/

theorem postNotice_room {s : State} (room : s.tpi.ring.length < 32) (n : Notice) :
    (s.postNotice n).tpi.ring = s.tpi.ring ++ [n] := by
  obtain ⟨b, e⟩ := postNotice_frame s n
  rw [e, if_pos room]

/-! ## Slots -/

theorem slotOf_some {n : Nat} {i : Fin 4} (h : n = i.val) : slotOf n = some i := by
  subst h
  exact dif_pos i.isLt

theorem slotOf_none {n : Nat} (h : 3 < n) : slotOf n = none := dif_neg (Nat.not_lt.mpr h)

theorem slotOctet (i : Fin 4) : (BitVec.ofNat 8 i.val).toNat = i.val := by
  have := i.isLt
  rw [BitVec.toNat_ofNat]
  omega

section
variable {s : State} {n : Byte} {i : Fin 4}

theorem serveCancel_opened {q : Quote} (named : n.toNat = i.val) (h : s.fqu.slots[i] = .opened q) :
    serveCancel n s = { state := s.setSlot i .free, result := .ok } := by
  unfold serveCancel
  rw [slotOf_some named]
  dsimp only
  rw [h]

theorem serveCancel_pending {q : Quote} {w : Bool} (named : n.toNat = i.val)
    (h : s.fqu.slots[i] = .pendingAuth q w) :
    serveCancel n s = { state := s, result := .busy } := by
  unfold serveCancel
  rw [slotOf_some named]
  dsimp only
  rw [h]

theorem serveCancel_free (named : n.toNat = i.val) (h : s.fqu.slots[i] = .free) :
    serveCancel n s = { state := s, result := .quoteUnknown } := by
  unfold serveCancel
  rw [slotOf_some named]
  dsimp only
  rw [h]

theorem serveCancel_unknown (h : 3 < n.toNat) :
    serveCancel n s = { state := s, result := .quoteUnknown } := by
  unfold serveCancel
  rw [slotOf_none h]

end

/-- A slot freed as its quote expires, before the notice (R149). -/
def slotExpired (s : State) (i : Fin 4) : State :=
  (s.setSlot i .free).modFquCtr fun c => { c with expired := tally c.expired }

theorem expireSlot_due {s : State} {i : Fin 4} {q : Quote} (opened : s.fqu.slots[i] = .opened q)
    (due : q.created + s.params.quoteExpiry ≤ s.htb.uptime) :
    s.expireSlot i = (slotExpired s i).postNotice (.quoteWithdrawn i) := by
  unfold State.expireSlot
  rw [opened]
  exact if_pos due

/-- Settles O43. -/
theorem quoteSlotEnds : Obligations.QuoteSlotEnds := by
  intro s i
  refine ⟨fun listening => ⟨fun q opened => ?_, fun q w pending => ?_, fun n unknown => ?_⟩,
    fun on => ⟨fun q opened due => ?_, fun early => ?_⟩⟩
  · obtain ⟨b, given⟩ := whenServed_listening listening 2#8 (serveCancel (BitVec.ofNat 8 i.val))
    refine ⟨_, (exec_cancelQuote s _).trans given, ?_⟩
    rw [serveCancel_opened (slotOctet i) (by exact opened)]
    exact ⟨rfl, rfl, rfl, rfl⟩
  · exact answered_onlyTerminal listening (exec_cancelQuote s _) fun b =>
      serveCancel_pending (s := { s with bdc := b }) (slotOctet i) pending
  · refine answered_onlyTerminal listening (exec_cancelQuote s n) fun b => ?_
    rcases unknown with many | ⟨rfl, free⟩
    · exact serveCancel_unknown many
    · exact serveCancel_free (s := { s with bdc := b }) (slotOctet i) free
  · have desk := postNotice_desk (slotExpired s i) (.quoteWithdrawn i)
    rw [exec_quoteExpiry on, expireSlot_due opened due]
    refine ⟨_, rfl, ?_, fun room => ?_, desk.eq⟩
    · obtain ⟨b, posted⟩ := postNotice_frame (slotExpired s i) (.quoteWithdrawn i)
      rw [posted]
      rfl
    · exact (postNotice_room (s := slotExpired s i) room _ :)
  · rw [exec_quoteExpiry on]
    refine congrArg _ ?_
    unfold State.expireSlot
    split
    · next q opened => exact if_neg (Nat.not_le.mpr (early q opened))
    · rfl
    · rfl

/-! ## Tickets -/

section
variable {j : Sju} {n : TicketNo}

theorem ticket_none (h : ∀ e ∈ j.window, e.sale.ticket ≠ n) : j.ticket n = none :=
  List.find?_eq_none.mpr fun e he found => h e he (beq_iff_eq.mp found)

theorem ticket_some {before after : List IssuedTicket} {e : IssuedTicket}
    (window : j.window = before ++ e :: after) (named : e.sale.ticket = n)
    (first : ∀ x ∈ before, x.sale.ticket ≠ n) : j.ticket n = some e :=
  List.find?_eq_some_iff_append.mpr ⟨beq_iff_eq.mpr named, before, after, window, fun x hx => by
    rw [Bool.not_eq_true', beq_eq_false_iff_ne]
    exact first x hx⟩

end

section
variable {s : State} {n : TicketNo}

theorem serveTicket_some {e : IssuedTicket} (h : s.sju.ticket n = some e) :
    serveTicket n s = { state := s, result := .ok, body := .ticket e.sale } := by
  unfold serveTicket
  rw [h]

theorem serveTicket_none (h : s.sju.ticket n = none) :
    serveTicket n s = { state := s, result := .tooLate } := by
  unfold serveTicket
  rw [h]

theorem servePrinted_some {e : IssuedTicket} (h : s.sju.ticket n = some e) :
    servePrinted n s = { state := s.dropTicket n, result := .ok } := by
  unfold servePrinted
  rw [h]

theorem servePrinted_none (h : s.sju.ticket n = none) :
    servePrinted n s = { state := s, result := .tooLate } := by
  unfold servePrinted
  rw [h]

theorem serveVoid_none (h : s.sju.ticket n = none) :
    serveVoid n s = { state := s, result := .tooLate } := by
  unfold serveVoid
  rw [h]

theorem serveVoid_some {e : IssuedTicket} (h : s.sju.ticket n = some e)
    (may : s.mayAppend (.void s.htb.date s.htb.secs e.sale.ticket e.sale.total) = true) :
    serveVoid n s = { state := s.voidTicket e, result := .ok } := by
  unfold serveVoid
  rw [h]
  exact if_pos may

theorem serveVoid_full {e : IssuedTicket} (h : s.sju.ticket n = some e)
    (full : s.mayAppend (.void s.htb.date s.htb.secs e.sale.ticket e.sale.total) = false) :
    serveVoid n s = { state := s, result := .journalFull } := by
  unfold serveVoid
  rw [h]
  exact if_neg (Bool.eq_false_iff.mp full)

end

/-! ## Room in the journal -/

theorem mayAppend_of_room {s : State} {b : JournalBody} (one : b.needs = 1) (set : s.htb.sync ≠ .unset)
    (room : s.sju.occupancy < 512) : s.mayAppend b = true := by
  have places : b.needs ≤ s.sju.freePlaces := by
    rw [one, Sju.freePlaces]
    exact Nat.sub_pos_of_lt room
  simp [State.mayAppend, set, places]

theorem mayAppend_of_full {s : State} {b : JournalBody} (one : b.needs = 1)
    (full : 512 ≤ s.sju.occupancy) : s.mayAppend b = false := by
  have places : ¬ b.needs ≤ s.sju.freePlaces := by
    have none : s.sju.freePlaces = 0 := Nat.sub_eq_zero_of_le full
    rw [one, none]
    decide
  simp [State.mayAppend, places]

theorem mayAppend_of_unset {s : State} (b : JournalBody) (unset : s.htb.sync = .unset) :
    s.mayAppend b = false := by
  simp [State.mayAppend, unset]

/-- A void with room for its record: the record behind the others, the ticket out of the window, the day's
total lowered (R161). -/
theorem voidTicket_sju {s : State} {e : IssuedTicket}
    (may : s.mayAppend (.void s.htb.date s.htb.secs e.sale.ticket e.sale.total) = true) :
    (s.voidTicket e).sju.journal = s.sju.journal ++ [⟨s.sju.writeSeq,
        .void s.htb.date s.htb.secs e.sale.ticket e.sale.total⟩]
      ∧ (s.voidTicket e).sju.window = s.sju.window.filter (fun t => t.sale.ticket != e.sale.ticket)
      ∧ (s.voidTicket e).sju.totals = s.sju.totals.lose e.sale.payment e.sale.total := by
  have desk := (appendRecord_of_mayAppend may).sju
  have kept (u : State) : u.afterAppend.sju.journal = u.sju.journal
      ∧ u.afterAppend.sju.window = u.sju.window ∧ u.afterAppend.sju.totals = u.sju.totals :=
    ⟨(afterAppend_announces u).journal,
      (congrArg (fun v : State => v.sju.window) (afterAppend_announces u).frame :),
      (congrArg (fun v : State => v.sju.totals) (afterAppend_announces u).frame :)⟩
  unfold State.voidTicket
  dsimp only
  obtain ⟨journal, window, totals⟩ := kept { (s.appendRecord (.void s.htb.date s.htb.secs
    e.sale.ticket e.sale.total)).dropTicket e.sale.ticket with sju := _ }
  rw [journal, window, totals]
  unfold State.dropTicket
  dsimp only
  rw [desk]
  exact ⟨rfl, rfl, rfl⟩

/-- Settles O47. -/
theorem issuedTicketIsServed : Obligations.IssuedTicketIsServed := by
  intro s n
  refine ⟨fun listening gone c hc => ?_, fun before after e window named first =>
    ⟨fun listening => ⟨?_, ?_, fun set room => ?_, fun full => ?_⟩, fun on running => ?_⟩⟩
  · have none (b : Bdc) : ({ s with bdc := b } : State).sju.ticket n = none := ticket_none gone
    simp only [List.mem_cons, List.not_mem_nil, or_false] at hc
    rcases hc with rfl | rfl | rfl
    · obtain ⟨t, given, replies, only⟩ := answered_onlyTerminal listening (exec_ticket s n)
        fun b => serveTicket_none (none b)
      exact ⟨t, 4#8, given, rfl, replies, only⟩
    · obtain ⟨t, given, replies, only⟩ := answered_onlyTerminal listening (exec_printed s n)
        fun b => servePrinted_none (none b)
      exact ⟨t, 5#8, given, rfl, replies, only⟩
    · obtain ⟨t, given, replies, only⟩ := answered_onlyTerminal listening (exec_void s n)
        fun b => serveVoid_none (none b)
      exact ⟨t, 6#8, given, rfl, replies, only⟩
  · exact answered_onlyTerminal listening (exec_ticket s n)
      fun b => serveTicket_some (ticket_some window named first)
  · obtain ⟨b, given⟩ := whenServed_listening listening 5#8 (servePrinted n)
    refine ⟨_, (exec_printed s n).trans given, ?_⟩
    rw [servePrinted_some (s := { s with bdc := b }) (ticket_some window named first)]
    exact ⟨rfl, rfl, rfl⟩
  · obtain ⟨b, given⟩ := whenServed_listening listening 6#8 (serveVoid n)
    have may := mayAppend_of_room (s := { s with bdc := b })
      (b := .void s.htb.date s.htb.secs e.sale.ticket e.sale.total) rfl set room
    have settles := voidTicket_settles { s with bdc := b } e
    obtain ⟨journal, gone, totals⟩ := voidTicket_sju may
    subst named
    refine ⟨_, (exec_void s _).trans given, ?_⟩
    rw [serveVoid_some (s := { s with bdc := b }) (ticket_some window rfl first) may]
    refine ⟨journal, gone, totals, ?_, ?_⟩
    · exact congrArg (· ++ [_]) settles.replies
    · have trade := settles.onlyTrade
      exact congrArg (fun u : State => u.pushReply ⟨134#8, .ok, .empty⟩) trade
  · refine answered_onlyTerminal listening (exec_void s n) fun b => ?_
    exact serveVoid_full (s := { s with bdc := b }) (ticket_some window named first)
      (mayAppend_of_full rfl full)
  · rw [exec_ticketLimitExpiry on, ticket_some window named first]
    exact congrArg _ (if_pos running)

end Sys2Proof.Proofs
end

