-- ==== Sys2Proof/Proofs/Boards.lean ====
section
/-! The boards: what the screen link takes, when the screens go DARK or light up, and what each of these
leaves of the screens and the messages (08). -/

namespace Sys2Proof.Proofs

open Sys2Proof.Machine Sys2Proof.Safety Sys2Proof.Laws

/-! ## What the boards keep -/

/-- The row images of a screen. -/
def imagesOf (sc : Screen) : List RowRecord := sc.rows.map (·.image)

/-- The boards keep their messages, what follows from them, the loads that found no room, and the image
of every row. -/
structure SameShow (a b : Bdc) : Prop where
  messages : b.messages = a.messages
  valid : b.valid = a.valid
  held : b.held = a.held
  full : b.ctr.full = a.ctr.full
  images : ∀ n, (b.screen n).map imagesOf = (a.screen n).map imagesOf

theorem SameShow.refl (a : Bdc) : SameShow a a := ⟨rfl, rfl, rfl, rfl, fun _ => rfl⟩

theorem SameShow.trans {a b c : Bdc} (h : SameShow a b) (k : SameShow b c) : SameShow a c :=
  ⟨k.messages.trans h.messages, k.valid.trans h.valid, k.held.trans h.held,
    k.full.trans h.full, fun n => (k.images n).trans (h.images n)⟩

/-- A change of the marks of every screen. -/
theorem SameShow.mapScreens (b : Bdc) {f : ScreenNo → Screen → Screen}
    (h : ∀ n sc, imagesOf (f n sc) = imagesOf sc) : SameShow b (b.mapScreens f) := by
  refine ⟨rfl, rfl, rfl, rfl, fun n => ?_⟩
  rw [Bdc.screen_mapScreens, Option.map_map]
  exact congrArg (fun g => (b.screen n).map g) (funext (h n))

theorem screen_setScreen (b : Bdc) (n m : ScreenNo) (sc : Option Screen) :
    (b.setScreen n sc).screen m = if m = n then sc else b.screen m := by
  cases n <;> cases m <;> rfl

/-! ## The screen link -/

theorem takeRow_images {i k : Nat} {rows rows' : List RowCell} {r : RowRecord}
    (h : takeRow i rows = some (k, r, rows')) : rows'.map (·.image) = rows.map (·.image) := by
  induction rows generalizing i k r rows' with
  | nil => exact absurd h nofun
  | cons c cs ih =>
    unfold takeRow at h
    split at h
    · obtain ⟨rfl, rfl, rfl⟩ := Prod.mk.injEq .. ▸ Option.some.inj h
      rfl
    · obtain ⟨⟨k', r', rest⟩, taken, e⟩ := Option.map_eq_some_iff.mp h
      obtain ⟨rfl, rfl, rfl⟩ := e
      exact congrArg (c.image :: ·) (ih taken)

theorem takeRow_none {i : Nat} {rows : List RowCell} (h : ∀ r ∈ rows, r.pending = false) :
    takeRow i rows = none := by
  induction rows generalizing i with
  | nil => rfl
  | cons c cs ih =>
    unfold takeRow
    rw [h c List.mem_cons_self, ih fun r hr => h r (List.mem_cons_of_mem c hr)]
    rfl

theorem takeRow_eq_none {i : Nat} {rows : List RowCell} (h : takeRow i rows = none) :
    ∀ r ∈ rows, r.pending = false := by
  induction rows generalizing i with
  | nil => exact fun r hr => absurd hr List.not_mem_nil
  | cons c cs ih =>
    unfold takeRow at h
    split at h
    · exact absurd h nofun
    · next clear =>
      intro r hr
      rcases List.mem_cons.mp hr with rfl | hr
      · exact Bool.not_eq_true _ ▸ clear
      · exact ih (Option.map_eq_none_iff.mp h) r hr

theorem takeRow_first {i : Nat} {before after : List RowCell} {r : RowCell}
    (clear : ∀ x ∈ before, x.pending = false) (mark : r.pending = true) :
    takeRow i (before ++ r :: after)
      = some (i + before.length, r.image, before ++ { r with pending := false } :: after) := by
  induction before generalizing i with
  | nil => rw [List.nil_append, takeRow, mark]; rfl
  | cons c cs ih =>
    have cl := clear c List.mem_cons_self
    have more := ih (i := i + 1) fun x hx => clear x (List.mem_cons_of_mem c hx)
    rw [List.cons_append, takeRow, cl, more]
    simp only [Bool.false_eq_true, if_false, Option.map_some, List.length_cons, List.cons_append]
    rw [Nat.add_assoc, Nat.add_comm 1]

theorem nextItem_images {n : ScreenNo} {level : Nat} {sc sc' : Screen} {x : ScreenMessage}
    (h : Screen.nextItem n level sc = some (x, sc')) : imagesOf sc' = imagesOf sc := by
  unfold Screen.nextItem at h
  split at h
  · obtain ⟨rfl, rfl⟩ := Prod.mk.injEq .. ▸ Option.some.inj h
    rfl
  · obtain ⟨⟨k, r, rest⟩, taken, e⟩ := Option.map_eq_some_iff.mp h
    obtain ⟨rfl, rfl⟩ := e
    exact takeRow_images taken

theorem nextItem_unmarked {n : ScreenNo} {level : Nat} {sc : Screen} (h : Unmarked sc) :
    Screen.nextItem n level sc = none := by
  unfold Screen.nextItem
  rw [h.1, takeRow_none h.2]
  rfl

theorem nextItem_brightness {n : ScreenNo} {level : Nat} {sc : Screen}
    (h : sc.brightnessPending = true) : Screen.nextItem n level sc
      = some (.brightness n level, { sc with brightnessPending := false }) := if_pos h

theorem nextItem_row {n : ScreenNo} {level : Nat} {sc : Screen} {before after : List RowCell}
    {r : RowCell} (clear : sc.brightnessPending = false) (rows : sc.rows = before ++ r :: after)
    (first : ∀ x ∈ before, x.pending = false) (mark : r.pending = true) :
    Screen.nextItem n level sc = some (.row n (before.length + 1) r.image,
      { sc with rows := before ++ { r with pending := false } :: after }) := by
  unfold Screen.nextItem
  rw [clear, rows, takeRow_first first mark, Nat.add_comm 1]
  rfl

theorem takeFrom_eq {b : Bdc} {n : ScreenNo} {sc sc' : Screen} {x : ScreenMessage}
    (present : b.screen n = some sc) (next : Screen.nextItem n b.brightness sc = some (x, sc')) :
    b.takeFrom n = some { b.setScreen n (some sc') with link := some x } := by
  unfold Bdc.takeFrom
  rw [present, Option.bind_some, next]
  rfl

theorem takeFrom_none {b : Bdc} {n : ScreenNo}
    (h : ∀ sc, b.screen n = some sc → Unmarked sc) : b.takeFrom n = none := by
  unfold Bdc.takeFrom
  cases present : b.screen n with
  | none => rfl
  | some sc =>
    rw [Option.bind_some, nextItem_unmarked (h sc present)]
    rfl

/-- What the link takes from a screen is one item of it. -/
theorem takeFrom_some {b c : Bdc} {n : ScreenNo} (h : b.takeFrom n = some c) :
    ∃ sc sc' x, b.screen n = some sc ∧ Screen.nextItem n b.brightness sc = some (x, sc')
      ∧ c = { b.setScreen n (some sc') with link := some x } := by
  unfold Bdc.takeFrom at h
  obtain ⟨⟨x, sc'⟩, taken, rfl⟩ := Option.map_eq_some_iff.mp h
  obtain ⟨sc, present, next⟩ := Option.bind_eq_some_iff.mp taken
  exact ⟨sc, sc', x, present, next, rfl⟩

theorem linkMayStart_iff (b : Bdc) :
    b.linkMayStart = true ↔ b.link = none ∧ b.energy ≠ .dark ∧ b.warmUp.isRunning = false := by
  simp [Bdc.linkMayStart, and_assoc]

theorem linkStart_idle {b : Bdc} (h : b.link ≠ none ∨ b.energy = .dark ∨ b.warmUp.isRunning = true) :
    b.linkStart = b := by
  refine if_neg ?_
  rw [linkMayStart_iff]
  rintro ⟨free, lit, cold⟩
  rcases h with h | h | h
  · exact h free
  · exact lit h
  · exact Bool.false_ne_true (cold.symm.trans h)

theorem linkStart_taking {b : Bdc} (free : b.link = none) (lit : b.energy ≠ .dark)
    (cold : b.warmUp.isRunning = false) :
    b.linkStart = ((b.takeFrom .one <|> b.takeFrom .two) <|> b.takeFrom .three).getD b :=
  if_pos ((linkMayStart_iff b).mpr ⟨free, lit, cold⟩)

/-- The link stays free, or takes one item of one screen (R129). -/
theorem linkStart_cases (b : Bdc) :
    b.linkStart = b ∨ ∃ n, b.takeFrom n = some b.linkStart := by
  unfold Bdc.linkStart
  split
  · cases one : b.takeFrom .one with
    | some c => exact .inr ⟨.one, one⟩
    | none =>
      cases two : b.takeFrom .two with
      | some c => exact .inr ⟨.two, two⟩
      | none =>
        cases three : b.takeFrom .three with
        | some c => exact .inr ⟨.three, three⟩
        | none => exact .inl rfl
  · exact .inl rfl

theorem takeFrom_same {b c : Bdc} {n : ScreenNo} (h : b.takeFrom n = some c) : SameShow b c := by
  obtain ⟨sc, sc', x, present, next, rfl⟩ := takeFrom_some h
  refine ⟨by cases n <;> rfl, by cases n <;> rfl, by cases n <;> rfl, by cases n <;> rfl, fun m => ?_⟩
  have e : ({ b.setScreen n (some sc') with link := some x } : Bdc).screen m
      = (b.setScreen n (some sc')).screen m := by cases m <;> rfl
  rw [e, screen_setScreen]
  split
  · next same =>
    rw [same, present]
    exact congrArg some (nextItem_images next)
  · rfl

theorem linkStart_same (b : Bdc) : SameShow b b.linkStart := by
  rcases linkStart_cases b with e | ⟨n, e⟩
  · rw [e]
    exact .refl b
  · exact takeFrom_same e

/-- The boards without their screens and the link. -/
def powerOf (b : Bdc) : Bdc := { b with one := none, two := none, three := none, link := none }

theorem takeFrom_power {b c : Bdc} {n : ScreenNo} (h : b.takeFrom n = some c) :
    powerOf c = powerOf b := by
  obtain ⟨sc, sc', x, -, -, rfl⟩ := takeFrom_some h
  cases n <;> rfl

theorem linkStart_power (b : Bdc) : powerOf b.linkStart = powerOf b := by
  rcases linkStart_cases b with e | ⟨n, e⟩
  · rw [e]
  · exact takeFrom_power e

/-- A free link finds no mark left (R129). -/
theorem linkStart_free {b : Bdc} (lit : b.energy ≠ .dark) (cold : b.warmUp.isRunning = false)
    (free : b.link = none) (still : b.linkStart.link = none) (n : ScreenNo) : b.takeFrom n = none := by
  rw [linkStart_taking free lit cold] at still
  have taken {m : ScreenNo} {c : Bdc} (h : b.takeFrom m = some c) : c.link ≠ none := by
    obtain ⟨sc, sc', x, -, -, rfl⟩ := takeFrom_some h
    exact nofun
  cases one : b.takeFrom .one with
  | some c =>
    rw [one] at still
    exact absurd still (taken one)
  | none =>
    cases two : b.takeFrom .two with
    | some c =>
      rw [one, two] at still
      exact absurd still (taken two)
    | none =>
      cases three : b.takeFrom .three with
      | some c =>
        rw [one, two, three] at still
        exact absurd still (taken three)
      | none => cases n <;> assumption

theorem unmarked_of_takeFrom {b : Bdc} {n : ScreenNo} (h : b.takeFrom n = none) {sc : Screen}
    (present : b.screen n = some sc) : Unmarked sc := by
  have none : Screen.nextItem n b.brightness sc = none := by
    cases next : Screen.nextItem n b.brightness sc with
    | none => rfl
    | some x => exact absurd ((takeFrom_eq present next).symm.trans h) nofun
  unfold Screen.nextItem at none
  split at none
  · exact absurd none nofun
  · next clear =>
    exact ⟨Bool.not_eq_true _ ▸ clear, takeRow_eq_none (Option.map_eq_none_iff.mp none)⟩

/-- The first screen in number with a mark is the one the link takes from (R129). -/
theorem linkStart_first {b c : Bdc} {n : ScreenNo} (lit : b.energy ≠ .dark)
    (cold : b.warmUp.isRunning = false) (free : b.link = none) (taken : b.takeFrom n = some c)
    (before : ∀ m : ScreenNo, m.bit < n.bit → b.takeFrom m = none) : b.linkStart = c := by
  rw [linkStart_taking free lit cold]
  cases n with
  | one => rw [taken]; rfl
  | two => rw [before .one Nat.zero_lt_one, taken]; rfl
  | three => rw [before .one Nat.zero_lt_two, before .two Nat.one_lt_two, taken]; rfl

theorem linkStart_none {b : Bdc} (h : ∀ n, b.takeFrom n = none) : b.linkStart = b := by
  rcases linkStart_cases b with e | ⟨n, e⟩
  · exact e
  · exact absurd ((h n).symm.trans e) nofun

/-- The boards with the link free (R129). -/
def linkFreed (b : Bdc) : Bdc := { b with link := none }

theorem linkFreed_screen (b : Bdc) (n : ScreenNo) : (linkFreed b).screen n = b.screen n := by
  cases n <;> rfl

theorem linkFreed_taken (b : Bdc) (n : ScreenNo) (sc : Option Screen) (x : ScreenMessage) :
    { (linkFreed b).setScreen n sc with link := some x } = { b.setScreen n sc with link := some x } := by
  cases n <;> rfl

/-- Settles O37. -/
theorem linkTakesTheNextItem : Obligations.LinkTakesTheNextItem := by
  intro s on
  have next : exec .screenMessageSent s
      = .next (State.linkStart { s with bdc := linkFreed s.bdc }) := exec_screenMessageSent on
  rw [next]
  have first {n : ScreenNo}
      (h : ∀ (m : ScreenNo) (x : Screen), m.bit < n.bit → s.bdc.screen m = some x → Unmarked x) :
      ∀ m : ScreenNo, m.bit < n.bit → (linkFreed s.bdc).takeFrom m = none :=
    fun m lower => takeFrom_none fun sc present => h m sc lower (linkFreed_screen s.bdc m ▸ present)
  have present' {n : ScreenNo} {sc : Screen} (h : s.bdc.screen n = some sc) :
      (linkFreed s.bdc).screen n = some sc := (linkFreed_screen s.bdc n).trans h
  refine ⟨_, rfl, rfl, fun dark => ?_, fun lit cold free n sc present => ?_,
    fun lit cold sc present mark => ?_, fun lit cold => ⟨fun clear => ?_, fun n sc present lower =>
      ⟨fun mark => ?_, fun clear before after r rows none mark => ?_⟩⟩, fun n => ?_⟩
  · exact linkStart_idle (b := linkFreed s.bdc) (.inr dark)
  · have idle := linkStart_free (b := linkFreed s.bdc) lit cold rfl free
    have e : State.linkStart { s with bdc := linkFreed s.bdc }
        = { s with bdc := linkFreed s.bdc } :=
      congrArg (fun b : Bdc => { s with bdc := b }) (linkStart_none idle)
    rw [e] at present
    exact unmarked_of_takeFrom (idle n) present
  · have taken := takeFrom_eq (n := .one) (present' (n := .one) present) (nextItem_brightness mark)
    have e := linkStart_first (b := linkFreed s.bdc) lit cold rfl taken fun m lower => by
      exact absurd lower (Nat.not_lt_zero _)
    exact ⟨congrArg Bdc.link e, congrArg Bdc.one e⟩
  · exact linkStart_none (b := linkFreed s.bdc) fun n =>
      takeFrom_none fun sc present => clear n sc (linkFreed_screen s.bdc n ▸ present)
  · have taken := takeFrom_eq (present' present) (nextItem_brightness mark)
    exact (linkStart_first (b := linkFreed s.bdc) lit cold rfl taken (first lower)).trans
      (linkFreed_taken s.bdc n _ _)
  · have taken := takeFrom_eq (present' present) (nextItem_row clear rows none mark)
    exact (linkStart_first (b := linkFreed s.bdc) lit cold rfl taken (first lower)).trans
      (linkFreed_taken s.bdc n _ _)
  · have same := (linkStart_same (linkFreed s.bdc)).images n
    exact same.trans (by rw [linkFreed_screen]; rfl)

end Sys2Proof.Proofs
end

