-- ==== Sys2Proof/Proofs/ScreenPower.lean ====
section
/-! Screen power: the dark conditions, entering and leaving DARK, LIT and DIM, the end of a warm-up (08,
R135 to R139). -/

namespace Sys2Proof.Proofs

open Sys2Proof.Machine Sys2Proof.Safety Sys2Proof.Laws

/-! ## The dark conditions -/

theorem dueOn_eq_false_iff (s : State) (n : ScreenNo) : s.dueOn n = false
    ↔ ((s.bdc.screen n).isSome → ∀ c ∈ s.shownCalls n, c.isRunning = true →
      s.htb.secs + 60 * s.params.darkLead < c.expected) := by
  simp [State.dueOn, ← Option.ne_none_iff_isSome]

theorem trainDue_eq_false_iff (s : State) : s.trainDue = false
    ↔ ∀ n, (s.bdc.screen n).isSome → ∀ c ∈ s.shownCalls n, c.isRunning = true →
      s.htb.secs + 60 * s.params.darkLead < c.expected := by
  simp only [State.trainDue, Bool.or_eq_false_iff, dueOn_eq_false_iff]
  exact ⟨fun ⟨⟨h1, h2⟩, h3⟩ n => by cases n <;> assumption, fun h => ⟨⟨h _, h _⟩, h _⟩⟩

theorem isExpired_iff (t : Timer) : t.isExpired = true ↔ t = .expired := by
  cases t <;> simp [Timer.isExpired]

/-- No dark condition fails exactly when all five hold (R136). -/
theorem darkFailure_eq_none_iff (s : State) (r : WakeCause) :
    s.darkFailure r = none ↔ DarkConditions s := by
  unfold State.darkFailure DarkConditions
  rw [← trainDue_eq_false_iff]
  simp only [State.noticeLine, ite_eq_iff, reduceCtorEq, and_false, false_or, Bool.not_eq_true,
    List.any_eq_false, decide_eq_true_eq, not_le, Bool.not_eq_eq_eq_not, Bool.not_true,
    Bool.not_eq_false, List.isEmpty_iff, and_true, isExpired_iff, ne_eq]

theorem dark_of_failure {s : State} {r : WakeCause} (h : ¬ DarkConditions s) :
    ∃ c, s.darkFailure r = some c := by
  cases e : s.darkFailure r with
  | none => exact absurd ((darkFailure_eq_none_iff s r).mp e) h
  | some c => exact ⟨c, rfl⟩

section
variable {s : State} {r : WakeCause}

theorem darkTest_warm (warm : s.bdc.warmUp.isRunning = true) : s.darkTest r = s := if_pos warm

theorem darkTest_enter (cold : s.bdc.warmUp.isRunning = false) (lit : s.bdc.energy ≠ .dark)
    (dark : DarkConditions s) : s.darkTest r = s.enterDark := by
  unfold State.darkTest
  rw [if_neg (Bool.eq_false_iff.mp cold), (darkFailure_eq_none_iff s r).mpr dark]
  cases h : s.bdc.energy with
  | dark => exact absurd h lit
  | lit | dim => rfl

theorem darkTest_stay (lit : s.bdc.energy ≠ .dark) (bright : ¬ DarkConditions s) :
    s.darkTest r = s := by
  obtain ⟨c, e⟩ := dark_of_failure (r := r) bright
  unfold State.darkTest
  split
  · rfl
  · rw [e]
    cases h : s.bdc.energy with
    | dark => exact absurd h lit
    | lit | dim => rfl

theorem darkTest_asleep (asleep : s.bdc.energy = .dark) (dark : DarkConditions s) :
    s.darkTest r = s := by
  unfold State.darkTest
  rw [(darkFailure_eq_none_iff s r).mpr dark, asleep]
  exact ite_self s

theorem darkTest_wake (cold : s.bdc.warmUp.isRunning = false) (asleep : s.bdc.energy = .dark)
    {c : WakeCause} (fails : s.darkFailure r = some c) (caused : c ≠ .none) :
    s.darkTest r = s.wake c := by
  unfold State.darkTest
  rw [if_neg (Bool.eq_false_iff.mp cold), fails, asleep]
  cases c with
  | none => exact absurd rfl caused
  | dueTrain | message | button | terminal | notice => rfl

end

/-- The outcomes of a dark test (R136, R137). -/
theorem darkTest_cases (s : State) (r : WakeCause) :
    s.darkTest r = s ∨ s.darkTest r = s.enterDark ∨ ∃ c, s.darkTest r = s.wake c := by
  unfold State.darkTest
  split
  · exact .inl rfl
  · split
    · exact .inl rfl
    · exact .inl rfl
    · exact .inr (.inr ⟨_, rfl⟩)
    · exact .inr (.inl rfl)
    · exact .inr (.inl rfl)
    · exact .inl rfl
    · exact .inl rfl

/-! ## What they leave of the show -/

theorem screen_congr {a b : Bdc} (one : a.one = b.one) (two : a.two = b.two)
    (three : a.three = b.three) (n : ScreenNo) : a.screen n = b.screen n := by
  cases n <;> assumption

theorem light_same (b : Bdc) (ps : Params) (e : Energy) : SameShow b (b.light ps e) := by
  unfold Bdc.light
  dsimp only
  have set : SameShow b { b with energy := e, brightness := ps.brightnessIn e } :=
    ⟨rfl, rfl, rfl, rfl, fun n => congrArg _ (screen_congr rfl rfl rfl n)⟩
  split
  · exact set
  · exact set.trans (.mapScreens _ fun _ _ => rfl)

theorem clearMarks_images (sc : Screen) : imagesOf sc.clearMarks = imagesOf sc := by
  simp [imagesOf, Screen.clearMarks]

theorem markAll_images (sc : Screen) : imagesOf sc.markAll = imagesOf sc := by
  simp [imagesOf, Screen.markAll]

theorem enterDark_screen (s : State) (n : ScreenNo) :
    s.enterDark.bdc.screen n = (s.bdc.screen n).map Screen.clearMarks := by
  rw [← Bdc.screen_mapScreens s.bdc n fun _ sc => sc.clearMarks]
  exact screen_congr rfl rfl rfl n

theorem wake_screen (s : State) (c : WakeCause) (n : ScreenNo) :
    (s.wake c).bdc.screen n = (s.bdc.light s.params s.litOrDim).screen n :=
  screen_congr rfl rfl rfl n

theorem enterDark_same (s : State) : SameShow s.bdc s.enterDark.bdc := by
  refine ⟨rfl, rfl, rfl, rfl, fun n => ?_⟩
  rw [enterDark_screen, Option.map_map]
  exact congrArg (fun g => (s.bdc.screen n).map g) (funext clearMarks_images)

theorem wake_same (s : State) (c : WakeCause) : SameShow s.bdc (s.wake c).bdc := by
  have lit := light_same s.bdc s.params s.litOrDim
  exact ⟨lit.messages, lit.valid, lit.held, lit.full, fun n => wake_screen s c n ▸ lit.images n⟩

theorem darkTest_same (s : State) (r : WakeCause) : SameShow s.bdc (s.darkTest r).bdc := by
  rcases darkTest_cases s r with e | e | ⟨c, e⟩ <;> rw [e]
  · exact .refl _
  · exact enterDark_same s
  · exact wake_same s c

theorem noteActivity_same (s : State) (r : WakeCause) :
    SameShow s.bdc (s.noteActivity r).bdc :=
  SameShow.trans (b := { s.bdc with activity := .running Config.activityMs })
    ⟨rfl, rfl, rfl, rfl, fun n => congrArg _ (screen_congr rfl rfl rfl n)⟩
    (darkTest_same { s with bdc := { s.bdc with activity := .running Config.activityMs } } r)

theorem stateLinkStart_same (s : State) : SameShow s.bdc s.linkStart.bdc := linkStart_same s.bdc

theorem setRing_same (s : State) (ring : List Notice) : SameShow s.bdc (s.setRing ring).bdc := by
  unfold State.setRing
  dsimp only
  split
  · exact .refl _
  · exact SameShow.trans (darkTest_same { s with tpi := { s.tpi with ring := ring } } .none)
      (stateLinkStart_same _)

theorem postNotice_same (s : State) (n : Notice) : SameShow s.bdc (s.postNotice n).bdc := by
  unfold State.postNotice
  split
  · exact setRing_same s _
  · exact .refl _

/-! ## LIT and DIM -/

theorem night_iff (s : State) : s.params.night.containsAt s.minute = true
    ↔ s.htb.sync ≠ .unset
      ∧ s.params.night.contains (clockMinute s.htb.hour s.htb.secs) = true := by
  unfold State.minute Window.containsAt
  cases s.htb.sync <;> simp

theorem litOrDim_dim {s : State} (h : s.lowEnergy = true ∨ s.htb.sync ≠ .unset
    ∧ s.params.night.contains (clockMinute s.htb.hour s.htb.secs) = true) : s.litOrDim = .dim := by
  rw [← night_iff] at h
  exact if_pos (Bool.or_eq_true _ _ ▸ h)

theorem litOrDim_lit {s : State} (low : s.lowEnergy = false)
    (night : ¬ (s.htb.sync ≠ .unset
      ∧ s.params.night.contains (clockMinute s.htb.hour s.htb.secs) = true)) :
    s.litOrDim = .lit := by
  rw [← night_iff] at night
  refine if_neg ?_
  rw [Bool.or_eq_true, low]
  rintro (h | h)
  · exact Bool.false_ne_true h
  · exact night h

theorem litOrDim_ne_dark (s : State) : s.litOrDim ≠ .dark := by
  unfold State.litOrDim
  split <;> exact nofun

theorem light_power (b : Bdc) (ps : Params) (e : Energy) :
    powerOf (b.light ps e)
      = { powerOf b with energy := e, brightness := ps.brightnessIn e } := by
  unfold Bdc.light
  dsimp only
  split <;> rfl

theorem chooseEnergy_asleep {s : State} (h : s.bdc.energy = .dark) : s.chooseEnergy = s := by
  unfold State.chooseEnergy
  exact if_pos h

theorem chooseEnergy_awake {s : State} (h : s.bdc.energy ≠ .dark) : s.chooseEnergy
    = { s with bdc := (s.bdc.light s.params s.litOrDim).linkStart } := by
  unfold State.chooseEnergy
  exact if_neg h

/-- Settles O38. -/
theorem lowEnergyDims : Obligations.LowEnergyDims := by
  intro s asserted on
  rw [exec_lowEnergyChange on]
  obtain ⟨b, e⟩ := chooseEnergy_frame { s with lowEnergy := asserted }
  refine ⟨_, rfl, by rw [e], by rw [e], fun dark => ?_, fun lit => ?_⟩
  · exact (congrArg State.bdc (chooseEnergy_asleep (s := { s with lowEnergy := asserted }) dark) :)
  · have chosen : (State.chooseEnergy { s with lowEnergy := asserted }).bdc
        = (s.bdc.light s.params (State.litOrDim { s with lowEnergy := asserted })).linkStart :=
      congrArg State.bdc (chooseEnergy_awake (s := { s with lowEnergy := asserted }) lit)
    have power := (linkStart_power _).trans
      (light_power s.bdc s.params (State.litOrDim { s with lowEnergy := asserted }))
    rw [← chosen] at power
    refine ⟨fun dim => ?_, fun low night => ?_⟩
    · rw [litOrDim_dim (s := { s with lowEnergy := asserted }) dim] at power
      exact ⟨(congrArg Bdc.energy power :), (congrArg Bdc.brightness power :)⟩
    · rw [litOrDim_lit (s := { s with lowEnergy := asserted }) low night] at power
      exact ⟨(congrArg Bdc.energy power :), (congrArg Bdc.brightness power :)⟩

/-! ## Entering DARK -/

theorem enterDark_unmarked (s : State) {n : ScreenNo} {sc : Screen}
    (present : s.enterDark.bdc.screen n = some sc) : Unmarked sc := by
  rw [enterDark_screen] at present
  obtain ⟨x, -, rfl⟩ := Option.map_eq_some_iff.mp present
  refine ⟨rfl, fun r hr => ?_⟩
  obtain ⟨c, -, rfl⟩ := List.mem_map.mp hr
  rfl

theorem enterDark_linkStart (s : State) : s.enterDark.linkStart = s.enterDark :=
  congrArg (fun b => { s.enterDark with bdc := b }) (linkStart_idle (.inr (.inl rfl)))

/-- The activity timer expired (R136). -/
def activityOver (s : State) : State := { s with bdc := { s.bdc with activity := .expired } }

theorem activityOver_screen (s : State) (n : ScreenNo) :
    (activityOver s).bdc.screen n = s.bdc.screen n := by cases n <;> rfl

/-- Settles O39. -/
theorem activityEndsInDark : Obligations.ActivityEndsInDark := by
  intro s on running cold lit late quiet empty set
  have dark : DarkConditions (activityOver s) :=
    ⟨fun n present => late n (activityOver_screen s n ▸ present), quiet, rfl, empty, set⟩
  have gives : exec .activityExpiry s
      = .next (State.linkStart (State.darkTest (activityOver s) .none)) :=
    exec_activityExpiry on running
  rw [gives, darkTest_enter (s := activityOver s) cold lit dark, enterDark_linkStart]
  exact ⟨_, rfl, rfl, rfl, rfl, rfl, rfl, fun n sc present => enterDark_unmarked _ present, rfl⟩

/-! ## The end of a warm-up -/

/-- The boards as a warm-up ends, before the dark test: LIT or DIM chosen after a start, everything
marked (R137, R139). -/
def warmed (s : State) : Bdc :=
  let b : Bdc := { s.bdc with warmUp := .stopped }
  let b := if b.wakeCause = .none then b.light s.params s.litOrDim else b
  b.mapScreens fun _ sc => sc.markAll

theorem endWarmUp_eq (s : State) :
    s.endWarmUp = State.linkStart (State.darkTest { s with bdc := warmed s } .none) := by
  unfold State.endWarmUp warmed
  dsimp only
  split
  · rfl
  · rfl

theorem light_screen (b : Bdc) (ps : Params) (e : Energy) (n : ScreenNo) :
    ((b.light ps e).screen n).map Screen.markAll = (b.screen n).map Screen.markAll := by
  unfold Bdc.light
  dsimp only
  split
  · cases n <;> rfl
  · rw [Bdc.screen_mapScreens, Option.map_map]
    cases n <;> rfl

theorem warmed_screen (s : State) (n : ScreenNo) :
    (warmed s).screen n = (s.bdc.screen n).map Screen.markAll := by
  unfold warmed
  dsimp only
  rw [Bdc.screen_mapScreens]
  split
  · rw [light_screen]
    cases n <;> rfl
  · cases n <;> rfl

theorem warmed_power_start {s : State} (h : s.bdc.wakeCause = .none) :
    powerOf (warmed s) = { powerOf s.bdc with
      warmUp := .stopped, energy := s.litOrDim, brightness := s.params.brightnessIn s.litOrDim } := by
  have e : warmed s = (Bdc.light { s.bdc with warmUp := .stopped } s.params s.litOrDim).mapScreens
      fun _ sc => sc.markAll :=
    congrArg (fun b : Bdc => b.mapScreens fun _ sc => sc.markAll) (if_pos h)
  rw [e]
  exact light_power _ s.params s.litOrDim

theorem warmed_power_wake {s : State} (h : s.bdc.wakeCause ≠ .none) :
    powerOf (warmed s) = { powerOf s.bdc with warmUp := .stopped } := by
  have e : warmed s = Bdc.mapScreens { s.bdc with warmUp := .stopped } fun _ sc => sc.markAll :=
    congrArg (fun b : Bdc => b.mapScreens fun _ sc => sc.markAll) (if_neg h)
  rw [e]
  rfl

/-- The warm-up timer, the modes and what the choice leaves, at a warm-up's end. -/
theorem warmed_facts {s : State} (lit : s.bdc.energy ≠ .dark) :
    (warmed s).warmUp = .stopped ∧ (warmed s).energy ≠ .dark
      ∧ (warmed s).wakeCause = s.bdc.wakeCause ∧ (warmed s).valid = s.bdc.valid
      ∧ (warmed s).activity = s.bdc.activity ∧ (warmed s).ctr = s.bdc.ctr := by
  by_cases h : s.bdc.wakeCause = .none
  · have p := warmed_power_start h
    have energy : (warmed s).energy = s.litOrDim := (congrArg Bdc.energy p :)
    exact ⟨(congrArg Bdc.warmUp p :), energy ▸ litOrDim_ne_dark s, (congrArg Bdc.wakeCause p :),
      (congrArg Bdc.valid p :), (congrArg Bdc.activity p :), (congrArg Bdc.ctr p :)⟩
  · have p := warmed_power_wake h
    have energy : (warmed s).energy = s.bdc.energy := (congrArg Bdc.energy p :)
    exact ⟨(congrArg Bdc.warmUp p :), energy ▸ lit, (congrArg Bdc.wakeCause p :),
      (congrArg Bdc.valid p :), (congrArg Bdc.activity p :), (congrArg Bdc.ctr p :)⟩

theorem warmed_link (s : State) : (warmed s).link = s.bdc.link := by
  unfold warmed Bdc.light
  dsimp only
  split
  · split <;> rfl
  · rfl

/-- The dark conditions read nothing that the choice and the marks alter (R136). -/
theorem warmed_dark_iff {s : State} (lit : s.bdc.energy ≠ .dark) :
    DarkConditions { s with bdc := warmed s } ↔ DarkConditions s := by
  obtain ⟨-, -, -, valid, activity, -⟩ := warmed_facts lit
  have present (n : ScreenNo) : ((warmed s).screen n).isSome = (s.bdc.screen n).isSome := by
    rw [warmed_screen, Option.isSome_map]
  unfold DarkConditions
  dsimp only
  simp only [present, valid, activity]
  rfl

theorem warmed_marked (s : State) {n : ScreenNo} {sc : Screen}
    (present : (warmed s).screen n = some sc) :
    sc.brightnessPending = true ∧ ∀ r ∈ sc.rows, r.pending = true := by
  rw [warmed_screen] at present
  obtain ⟨x, -, rfl⟩ := Option.map_eq_some_iff.mp present
  refine ⟨rfl, fun r hr => ?_⟩
  obtain ⟨c, -, rfl⟩ := List.mem_map.mp hr
  rfl

/-- A link that starts a refresh takes a brightness, so that every row keeps its mark (R129). -/
theorem linkStart_refresh {b : Bdc}
    (marked : ∀ n sc, b.screen n = some sc → sc.brightnessPending = true) (n : ScreenNo) :
    (b.linkStart.screen n).map (·.rows) = (b.screen n).map (·.rows) := by
  rcases linkStart_cases b with e | ⟨m, e⟩
  · rw [e]
  · obtain ⟨sc, sc', x, present, next, e⟩ := takeFrom_some e
    rw [nextItem_brightness (marked m sc present)] at next
    obtain ⟨-, rfl⟩ := Prod.mk.injEq .. ▸ Option.some.inj next
    have screen : b.linkStart.screen n
        = (b.setScreen m (some { sc with brightnessPending := false })).screen n := by
      rw [e]
      cases n <;> rfl
    rw [screen, screen_setScreen]
    split
    · next same => rw [same, present]; rfl
    · rfl

/-- The refresh begins with the brightness of the first present screen (R129, R137). -/
theorem linkStart_refresh_first {b : Bdc} {n : ScreenNo} (lit : b.energy ≠ .dark)
    (cold : b.warmUp.isRunning = false) (free : b.link = none)
    (marked : ∀ n sc, b.screen n = some sc → sc.brightnessPending = true)
    (present : (b.screen n).isSome) (first : ∀ m : ScreenNo, m.bit < n.bit → b.screen m = none) :
    b.linkStart.link = some (.brightness n b.brightness)
      ∧ ∀ m x, b.linkStart.screen m = some x → x.brightnessPending = decide (m ≠ n) := by
  obtain ⟨sc, present⟩ := Option.isSome_iff_exists.mp present
  have taken := takeFrom_eq present (nextItem_brightness (marked n sc present))
  have e := linkStart_first lit cold free taken fun m lower =>
    takeFrom_none fun x h => absurd ((first m lower).symm.trans h) nofun
  rw [e]
  refine ⟨rfl, fun m x h => ?_⟩
  have screen : ({ b.setScreen n (some { sc with brightnessPending := false }) with
      link := some (.brightness n b.brightness) } : Bdc).screen m
      = if m = n then some { sc with brightnessPending := false } else b.screen m := by
    rw [← screen_setScreen]
    cases m <;> rfl
  rw [screen] at h
  split at h
  · next same =>
    obtain rfl := Option.some.inj h
    simp [same]
  · next other =>
    rw [marked m x h]
    simp [other]

theorem endWarmUp_dark {s : State} (lit : s.bdc.energy ≠ .dark) (dark : DarkConditions s) :
    s.endWarmUp = State.enterDark { s with bdc := warmed s } := by
  obtain ⟨cold, bright, -⟩ := warmed_facts lit
  have cold' : (warmed s).warmUp.isRunning = false := by rw [cold]; rfl
  rw [endWarmUp_eq, darkTest_enter (s := { s with bdc := warmed s }) cold' bright
    ((warmed_dark_iff lit).mpr dark), enterDark_linkStart]

theorem endWarmUp_bright {s : State} (lit : s.bdc.energy ≠ .dark) (bright : ¬ DarkConditions s) :
    s.endWarmUp = { s with bdc := (warmed s).linkStart } := by
  rw [endWarmUp_eq, darkTest_stay (s := { s with bdc := warmed s }) (warmed_facts lit).2.1
    fun h => bright ((warmed_dark_iff lit).mp h)]
  rfl

/-- What the end of a warm-up shows when the screens stay on (R129, R137, R139). -/
theorem refresh_facts {s : State} (lit : s.bdc.energy ≠ .dark) :
    (warmed s).linkStart.warmUp = .stopped ∧ (warmed s).linkStart.wakeCause = s.bdc.wakeCause
      ∧ (warmed s).linkStart.energy ≠ .dark
      ∧ (∀ n x, (warmed s).linkStart.screen n = some x → ∀ r ∈ x.rows, r.pending = true)
      ∧ ∀ n : ScreenNo, s.bdc.link = none → (s.bdc.screen n).isSome →
        (∀ m : ScreenNo, m.bit < n.bit → s.bdc.screen m = none) →
        (warmed s).linkStart.link = some (.brightness n (warmed s).linkStart.brightness)
          ∧ ∀ m x, (warmed s).linkStart.screen m = some x →
            x.brightnessPending = decide (m ≠ n) := by
  obtain ⟨cold, bright, cause, -⟩ := warmed_facts lit
  have power := linkStart_power (warmed s)
  have marked := fun n sc (h : (warmed s).screen n = some sc) => (warmed_marked s h).1
  have energy : (warmed s).linkStart.energy = (warmed s).energy := (congrArg Bdc.energy power :)
  have level : (warmed s).linkStart.brightness = (warmed s).brightness :=
    (congrArg Bdc.brightness power :)
  refine ⟨(congrArg Bdc.warmUp power :).trans cold, (congrArg Bdc.wakeCause power :).trans cause,
    energy ▸ bright, fun n x h r hr => ?_, fun n free present first => ?_⟩
  · have rows := linkStart_refresh marked n
    rw [h, Option.map_some] at rows
    obtain ⟨sc, present, e⟩ := Option.map_eq_some_iff.mp rows.symm
    exact (warmed_marked s present).2 r (e ▸ hr)
  · rw [level]
    refine linkStart_refresh_first bright (by rw [cold]; rfl) ((warmed_link s).trans free) marked
      ?_ fun m lower => ?_
    · rw [warmed_screen, Option.isSome_map]
      exact present
    · rw [warmed_screen, first m lower]
      rfl

/-- Settles O40. -/
theorem warmUpRefreshes : Obligations.WarmUpRefreshes := by
  refine ⟨fun s sc on warm unset lit free one => ?_, fun s on cold => ?_, fun s on warm lit => ?_⟩
  · have bright : ¬ DarkConditions s := fun h => h.2.2.2.2 unset
    obtain ⟨cold, -, energy, rows, refresh⟩ := refresh_facts lit
    obtain ⟨link, marks⟩ := refresh .one free (by rw [show s.bdc.screen .one = _ from one]; rfl)
      fun m lower => absurd lower (Nat.not_lt_zero _)
    rw [exec_warmUpExpiry on, if_pos warm, endWarmUp_bright lit bright]
    refine ⟨_, rfl, cold, energy, link, fun n x h => ⟨fun other => ?_, rows n x h⟩, rfl⟩
    rw [marks n x h]
    exact decide_eq_true other
  · rw [exec_warmUpExpiry on, cold]
    rfl
  · rw [exec_warmUpExpiry on, if_pos warm]
    obtain ⟨b, frame⟩ := endWarmUp_frame s
    obtain ⟨stopped, -, cause, -, -, ctr⟩ := warmed_facts lit
    by_cases dark : DarkConditions s
    · rw [endWarmUp_dark lit dark]
      refine ⟨_, rfl, rfl, stopped, cause, fun _ => ?_, fun bright => absurd dark bright⟩
      exact ⟨rfl, rfl, rfl, fun n x h => enterDark_unmarked _ h,
        congrArg (fun k : BdcCounters => { k with darkEntries := tally k.darkEntries }) ctr⟩
    · obtain ⟨cold, cause, -, rows, refresh⟩ := refresh_facts lit
      have power := linkStart_power (warmed s)
      rw [endWarmUp_bright lit dark]
      refine ⟨_, rfl, rfl, cold, cause, fun h => absurd h dark, fun _ =>
        ⟨fun woken => ?_, fun started dim => ?_, fun started low night => ?_, rows, refresh⟩⟩
      · rw [warmed_power_wake woken] at power
        exact ⟨(congrArg Bdc.energy power :), (congrArg Bdc.brightness power :)⟩
      · rw [warmed_power_start started, litOrDim_dim dim] at power
        exact ⟨(congrArg Bdc.energy power :), (congrArg Bdc.brightness power :)⟩
      · rw [warmed_power_start started, litOrDim_lit low night] at power
        exact ⟨(congrArg Bdc.energy power :), (congrArg Bdc.brightness power :)⟩

end Sys2Proof.Proofs
end

