-- ==== Sys2Proof/Proofs/Quoting.lean ====
section
/-! QUOTE: the tests of R147 in order, and the slot that an accepted one opens (R147, R148). -/

namespace Sys2Proof.Proofs

open Sys2Proof.Machine Sys2Proof.Safety Sys2Proof.Laws

/-- A request served finds the messages and their hold lists as they were (R134, R179). -/
theorem whenServed_shown {s : State} (h : Listening s) (code : Byte) (f : State → Served) :
    ∃ b, SameShow s.bdc b ∧ whenServed s code f = .next (answered code (f { s with bdc := b })) := by
  obtain ⟨b, e⟩ := noteActivity_frame s .terminal
  have same := noteActivity_same s .terminal
  rw [e] at same
  refine ⟨b, same, ?_⟩
  unfold whenServed
  rw [whenPowered_on h.1, serve_active h, e]

/-! ## Conditions on calls -/

theorem isRunning_iff (c : Call) : c.isRunning = true ↔ c.state = .scheduled ∨ c.state = .running := by
  unfold Call.isRunning
  cases c.state <;> simp

theorem pastCutoff_iff (s : State) (c : Call) : s.pastCutoff c = true ↔ PastCutoff s c :=
  decide_eq_true_iff

theorem pastCutoff_eq_false_iff (s : State) (c : Call) : s.pastCutoff c = false ↔ ¬ PastCutoff s c :=
  decide_eq_false_iff_not

/-! ## The slot -/

theorem allSlots_split : ∀ i : Fin 4,
    allSlots = allSlots.take i ++ i :: allSlots.drop (i + 1) ∧ ∀ j ∈ allSlots.take i, j < i := by
  decide

theorem freeSlot_some {s : State} {i : Fin 4} (free : s.fqu.slots[i] = .free)
    (first : ∀ j : Fin 4, j < i → s.fqu.slots[j] ≠ .free) : s.freeSlot = some i := by
  obtain ⟨split, lower⟩ := allSlots_split i
  refine List.find?_eq_some_iff_append.mpr ⟨beq_iff_eq.mpr free, _, _, split, fun j hj => ?_⟩
  rw [Bool.not_eq_true', beq_eq_false_iff_ne]
  exact first j (lower j hj)

theorem freeSlot_none {s : State} (full : ∀ i : Fin 4, s.fqu.slots[i] ≠ .free) :
    s.freeSlot = none :=
  List.find?_eq_none.mpr fun i _ e => full i (beq_iff_eq.mp e)

/-! ## The tests in order -/

section
variable {s : State} {r : QuoteRequest}

theorem sellableTo_unknown {code : HaltCode}
    (h : ∀ table, s.fqu.active = some table → table.destination code = none) :
    s.sellableTo code = .error .noDest := by
  unfold State.sellableTo
  cases active : s.fqu.active with
  | none => rfl
  | some table =>
    dsimp only
    rw [h table active]

theorem sellableTo_known {code : HaltCode} {table : FareTable} {d : DestinationRecord}
    (active : s.fqu.active = some table) (known : table.destination code = some d) :
    s.sellableTo code = if d.sellable then .ok (table, d) else .error .notSellable := by
  unfold State.sellableTo
  rw [active]
  dsimp only
  rw [known]

theorem terms_none {t : FareTable} {type : Byte} {cls quantity : Nat}
    (h : t.typeOf type = none ∨ t.classNamed cls = none ∨ quantity = 0 ∨ 9 < quantity) :
    t.terms type cls quantity = none := by
  unfold FareTable.terms
  split
  · next y k type cls =>
    refine if_neg fun fits => ?_
    rcases h with h | h | h | h
    · exact absurd (type.symm.trans h) nofun
    · exact absurd (cls.symm.trans h) nofun
    · exact absurd fits.1 (by rw [h]; exact Nat.not_succ_le_zero 0)
    · exact absurd fits.2 (Nat.not_le.mpr h)
  · rfl

theorem terms_some {t : FareTable} {type : Byte} {cls quantity : Nat} {y : TicketType}
    {k : Option (Fin 4)} (hy : t.typeOf type = some y) (hk : t.classNamed cls = some k)
    (low : 1 ≤ quantity) (high : quantity ≤ 9) : t.terms type cls quantity = some (y, k) := by
  unfold FareTable.terms
  rw [hy, hk]
  exact if_pos ⟨low, high⟩

theorem quoteCall_openRequired (absent : r.callPresent = 0#8) :
    s.quoteCall .specifiedCall r = .error .noCall := by
  unfold State.quoteCall
  rw [absent]
  rfl

theorem quoteCall_open {rule : ValidityRule} (absent : r.callPresent = 0#8)
    (h : rule ≠ .specifiedCall) : s.quoteCall rule r = .ok none := by
  unfold State.quoteCall
  rw [absent]
  exact if_neg h

theorem quoteCall_error {rule : ValidityRule} {e : Result} (present : r.callPresent = 1#8)
    (h : s.sellableCall ⟨r.train, r.runDate⟩ r.destination = .error e) :
    s.quoteCall rule r = .error e := by
  unfold State.quoteCall
  rw [present, h]
  rfl

theorem quoteCall_ok {rule : ValidityRule} {c : Call} (present : r.callPresent = 1#8)
    (h : s.sellableCall ⟨r.train, r.runDate⟩ r.destination = .ok c) :
    s.quoteCall rule r = .ok (some c) := by
  unfold State.quoteCall
  rw [present, h]
  rfl

theorem sellableCall_none {k : Key} (d : HaltCode) (h : s.call k = none) :
    s.sellableCall k d = .error .noCall := by
  unfold State.sellableCall
  rw [h]

theorem sellableCall_some {k : Key} {c : Call} (d : HaltCode) (h : s.call k = some c) :
    s.sellableCall k d = if c.loaded.stopMode = .pass then .error .noCall
      else if c.isRunning = false ∨ s.pastCutoff c = true then .error .callGone
      else if d ∈ c.loaded.destinations then .ok c else .error .noCall := by
  unfold State.sellableCall
  rw [h]
  simp only [Bool.or_eq_true, Bool.not_eq_eq_eq_not, Bool.not_true]

/-- A travel time at which a type of its rule may be used (R147, test 10). -/
def Cheap (t : FareTable) (y : TicketType) (m : Option Nat) : Prop :=
  y.rule = .offPeakOnly → t.cheapAt m = true

theorem makeQuote_peak {t : FareTable} {d : DestinationRecord} {y : TicketType}
    {k : Option (Fin 4)} {c : Option Call} (h : ¬ Cheap t y (s.travelMinute c)) :
    s.makeQuote r t d y k c = .error .typeNotValidNow := by
  refine if_pos ?_
  rw [Cheap, Classical.not_imp, Bool.not_eq_true] at h
  exact h

theorem makeQuote_cheap {t : FareTable} {d : DestinationRecord} {y : TicketType}
    {k : Option (Fin 4)} {c : Option Call} (h : Cheap t y (s.travelMinute c)) :
    s.makeQuote r t d y k c = match s.freeSlot with
      | none => .error .busy
      | some i => .ok (i, {
          destination := r.destination, type := r.type, cls := k, call := c.map Call.key
          unitPrice := t.priceOf d y k (s.travelMinute c), quantity := r.quantity.toNat
          total := t.priceOf d y k (s.travelMinute c) * r.quantity.toNat
          created := s.htb.uptime }) := by
  unfold State.makeQuote
  dsimp only
  exact if_neg fun e => Bool.false_ne_true (e.2.symm.trans (h e.1))

theorem makeQuote_full {t : FareTable} {d : DestinationRecord} {y : TicketType}
    {k : Option (Fin 4)} {c : Option Call} (h : Cheap t y (s.travelMinute c))
    (full : ∀ i : Fin 4, s.fqu.slots[i] ≠ .free) :
    s.makeQuote r t d y k c = .error .busy := by
  rw [makeQuote_cheap h, freeSlot_none full]

theorem makeQuote_free {t : FareTable} {d : DestinationRecord} {y : TicketType}
    {k : Option (Fin 4)} {c : Option Call} {i : Fin 4} (h : Cheap t y (s.travelMinute c))
    (free : s.fqu.slots[i] = .free) (first : ∀ j : Fin 4, j < i → s.fqu.slots[j] ≠ .free) :
    s.makeQuote r t d y k c = .ok (i, {
      destination := r.destination, type := r.type, cls := k, call := c.map Call.key
      unitPrice := t.priceOf d y k (s.travelMinute c), quantity := r.quantity.toNat
      total := t.priceOf d y k (s.travelMinute c) * r.quantity.toNat
      created := s.htb.uptime }) := by
  rw [makeQuote_cheap h, freeSlot_some free first]

theorem judgeQuote_closed (closed : s.sju.salesMode = .closed) :
    s.judgeQuote r = .error .salesClosed := if_pos closed

variable (selling : s.sju.salesMode ≠ .closed)
include selling

theorem judgeQuote_unsellable {e : Result} (h : s.sellableTo r.destination = .error e) :
    s.judgeQuote r = .error e := by
  unfold State.judgeQuote
  rw [if_neg selling, h]

variable {table : FareTable} {d : DestinationRecord}
  (sellable : s.sellableTo r.destination = .ok (table, d))
include sellable

theorem judgeQuote_held (held : r.destination ∈ s.bdc.held) : s.judgeQuote r = .error .held := by
  unfold State.judgeQuote
  rw [if_neg selling, sellable]
  exact if_pos held

variable (released : r.destination ∉ s.bdc.held)
include released

theorem judgeQuote_badTerms (h : table.terms r.type r.cls.toNat r.quantity.toNat = none) :
    s.judgeQuote r = .error .badMessage := by
  unfold State.judgeQuote
  rw [if_neg selling, sellable]
  dsimp only
  rw [if_neg released, h]

variable {y : TicketType} {k : Option (Fin 4)}
  (terms : table.terms r.type r.cls.toNat r.quantity.toNat = some (y, k))
include terms

theorem judgeQuote_badCall {e : Result} (h : s.quoteCall y.rule r = .error e) :
    s.judgeQuote r = .error e := by
  unfold State.judgeQuote
  rw [if_neg selling, sellable]
  dsimp only
  rw [if_neg released, terms]
  dsimp only
  rw [h]

variable {c : Option Call} (call : s.quoteCall y.rule r = .ok c)
include call

theorem judgeQuote_unmade {e : Result} (h : s.makeQuote r table d y k c = .error e) :
    s.judgeQuote r = .error e := by
  unfold State.judgeQuote
  rw [if_neg selling, sellable]
  dsimp only
  rw [if_neg released, terms]
  dsimp only
  rw [call]
  dsimp only
  rw [h]

theorem judgeQuote_made {i : Fin 4} {q : Quote} (h : s.makeQuote r table d y k c = .ok (i, q)) :
    s.judgeQuote r = .ok (i, q, c) := by
  unfold State.judgeQuote
  rw [if_neg selling, sellable]
  dsimp only
  rw [if_neg released, terms]
  dsimp only
  rw [call]
  dsimp only
  rw [h]

end

/-! ## QUOTE served -/

/-- Of the boards the tests read the held destinations alone (R147, test 4). -/
theorem judgeQuote_boards {s : State} {b : Bdc} (held : b.held = s.bdc.held) (r : QuoteRequest) :
    ({ s with bdc := b } : State).judgeQuote r = s.judgeQuote r := by
  unfold State.judgeQuote
  dsimp only
  rw [held]
  rfl

theorem quote_refused {s : State} {r : QuoteRequest} {e : Result} (listening : Listening s)
    (h : s.judgeQuote r = .error e) : RefusedWith (.quote r) s 129#8 e := by
  obtain ⟨b, same, given⟩ := whenServed_shown listening 1#8 (serveQuote r)
  have refused : serveQuote r { s with bdc := b } = { state := { s with bdc := b }, result := e } := by
    unfold serveQuote
    rw [judgeQuote_boards same.held, h]
  refine ⟨_, (exec_quote s r).trans given, ?_⟩
  rw [refused]
  exact ⟨rfl, rfl⟩

/-- An accepted QUOTE: the slot opened with its quote, and the answer (R148). -/
theorem quote_accepted {s : State} {r : QuoteRequest} {i : Fin 4} {q : Quote} {c : Option Call}
    (listening : Listening s) (h : s.judgeQuote r = .ok (i, q, c)) :
    ∃ t, exec (.quote r) s = .next t
      ∧ t.fqu = { s.fqu with slots := s.fqu.slots.set i (.opened q) }
      ∧ t.tpi.replies = s.tpi.replies ++ [⟨129#8, .ok,
          .quote i q.unitPrice q.total s.fqu.activations (stopNeeded c)⟩]
      ∧ t.sju = { s.sju with quotesHeld := openSlots t.fqu.slots }
      ∧ t = { s with bdc := t.bdc, fqu := t.fqu, sju := t.sju, tpi := t.tpi } := by
  obtain ⟨b, same, given⟩ := whenServed_shown listening 1#8 (serveQuote r)
  have accepted : serveQuote r { s with bdc := b } = {
      state := State.setSlot { s with bdc := b } i (.opened q)
      result := .ok
      body := .quote i q.unitPrice q.total s.fqu.activations (stopNeeded c) } := by
    unfold serveQuote
    rw [judgeQuote_boards same.held, h]
  refine ⟨_, (exec_quote s r).trans given, ?_⟩
  rw [accepted]
  exact ⟨rfl, rfl, rfl, rfl⟩

theorem quote_open {s : State} {r : QuoteRequest} {table : FareTable} {d : DestinationRecord}
    {y : TicketType} {k : Option (Fin 4)} {i : Fin 4} (selling : s.sju.salesMode ≠ .closed)
    (sellable : s.sellableTo r.destination = .ok (table, d)) (released : r.destination ∉ s.bdc.held)
    (terms : table.terms r.type r.cls.toNat r.quantity.toNat = some (y, k))
    (absent : r.callPresent = 0#8) (rule : y.rule ≠ .specifiedCall) (cheap : Cheap table y s.minute)
    (free : s.fqu.slots[i] = .free) (first : ∀ j : Fin 4, j < i → s.fqu.slots[j] ≠ .free) :
    s.judgeQuote r = .ok (i, {
      destination := r.destination, type := r.type, cls := k, call := none
      unitPrice := table.priceOf d y k s.minute, quantity := r.quantity.toNat
      total := table.priceOf d y k s.minute * r.quantity.toNat, created := s.htb.uptime }, none) :=
  judgeQuote_made selling sellable released terms (quoteCall_open absent rule)
    (makeQuote_free (c := none) cheap free first)

/-- The refusals of tests 7 to 11 and the quote, for a request that names a call (R147, R148). -/
theorem quote_forCall {s : State} {r : QuoteRequest} {table : FareTable} {d : DestinationRecord}
    {y : TicketType} {k : Option (Fin 4)} {c : Call} (listening : Listening s)
    (selling : s.sju.salesMode ≠ .closed)
    (sellable : s.sellableTo r.destination = .ok (table, d)) (released : r.destination ∉ s.bdc.held)
    (terms : table.terms r.type r.cls.toNat r.quantity.toNat = some (y, k))
    (present : r.callPresent = 1#8)
    (sold : s.sellableCall ⟨r.train, r.runDate⟩ r.destination = .ok c) :
    let m := some (clockMinute s.htb.hour c.loaded.sched)
    (¬ Cheap table y m → RefusedWith (.quote r) s 129#8 .typeNotValidNow)
    ∧ (Cheap table y m → (∀ i : Fin 4, s.fqu.slots[i] ≠ .free) →
      RefusedWith (.quote r) s 129#8 .busy)
    ∧ (Cheap table y m → ∀ i : Fin 4, s.fqu.slots[i] = .free →
      (∀ j : Fin 4, j < i → s.fqu.slots[j] ≠ .free) →
      s.judgeQuote r = .ok (i, {
        destination := r.destination, type := r.type, cls := k, call := some c.key
        unitPrice := table.priceOf d y k m, quantity := r.quantity.toNat
        total := table.priceOf d y k m * r.quantity.toNat, created := s.htb.uptime }, some c)) := by
  have call := quoteCall_ok (rule := y.rule) present sold
  refine ⟨fun peak => ?_, fun cheap full => ?_, fun cheap i free first => ?_⟩
  · exact quote_refused listening (judgeQuote_unmade selling sellable released terms call
      (makeQuote_peak (c := some c) peak))
  · exact quote_refused listening (judgeQuote_unmade selling sellable released terms call
      (makeQuote_full (c := some c) cheap full))
  · exact judgeQuote_made selling sellable released terms call
      (makeQuote_free (c := some c) cheap free first)

/-- Settles O42. -/
theorem quoteOpensASlot : Obligations.QuoteOpensASlot := by
  intro s r listening
  refine ⟨fun closed => quote_refused listening (judgeQuote_closed closed), ?_, fun selling =>
    ⟨fun unknown => quote_refused listening
      (judgeQuote_unsellable selling (sellableTo_unknown unknown)), ?_⟩⟩
  · intro table d y k i selling active known sold released type cls low high absent rule cheap free
      first
    have sellable : s.sellableTo r.destination = .ok (table, d) :=
      (sellableTo_known active known).trans (if_pos sold)
    exact quote_accepted listening (quote_open selling sellable released
      (terms_some type cls low high) absent rule cheap free first)
  · intro table d active known
    have sellable := sellableTo_known active known
    refine ⟨fun unsold => ?_, fun sold held => ?_, fun sold released => ?_⟩
    · rw [unsold] at sellable
      exact quote_refused listening (judgeQuote_unsellable selling sellable)
    · exact quote_refused listening
        (judgeQuote_held selling (sellable.trans (if_pos sold)) held)
    · replace sellable := sellable.trans (if_pos sold)
      refine ⟨fun bad => ?_, fun y k type cls low high => ?_⟩
      · exact quote_refused listening
          (judgeQuote_badTerms selling sellable released (terms_none bad))
      · have terms := terms_some type cls low high
        refine ⟨fun absent rule => ?_, fun absent rule => ⟨fun peak => ?_, fun cheap full => ?_⟩,
          fun present => ⟨fun unknown => ?_, fun c named => ?_⟩⟩
        · exact quote_refused listening (judgeQuote_badCall selling sellable released terms
            (rule ▸ quoteCall_openRequired absent))
        · exact quote_refused listening (judgeQuote_unmade selling sellable released terms
            (quoteCall_open absent rule) (makeQuote_peak (c := none) peak))
        · exact quote_refused listening (judgeQuote_unmade selling sellable released terms
            (quoteCall_open absent rule) (makeQuote_full (c := none) cheap full))
        · exact quote_refused listening (judgeQuote_badCall selling sellable released terms
            (quoteCall_error present (sellableCall_none _ unknown)))
        · have judged := sellableCall_some r.destination named
          have alive (live : ¬ (c.isRunning = false ∨ PastCutoff s c)) :
              ¬ (c.isRunning = false ∨ s.pastCutoff c = true) :=
            fun gone => live (gone.imp_right (pastCutoff_iff s c).mp)
          refine ⟨fun pass => ?_, fun stops gone => ?_, fun stops live away => ?_,
            fun stops live serves => ?_⟩
          · exact quote_refused listening (judgeQuote_badCall selling sellable released terms
              (quoteCall_error present (judged.trans (if_pos pass))))
          · exact quote_refused listening (judgeQuote_badCall selling sellable released terms
              (quoteCall_error present (judged.trans ((if_neg stops).trans
                (if_pos (gone.imp_right (pastCutoff_iff s c).mpr))))))
          · exact quote_refused listening (judgeQuote_badCall selling sellable released terms
              (quoteCall_error present (judged.trans
                ((if_neg stops).trans ((if_neg (alive live)).trans (if_neg away))))))
          · obtain ⟨peak, full, made⟩ := quote_forCall listening selling sellable released terms
              present (judged.trans
                ((if_neg stops).trans ((if_neg (alive live)).trans (if_pos serves))))
            refine ⟨peak, full, fun cheap i free first => ?_⟩
            obtain ⟨t, given, fqu, replies, -, frame⟩ :=
              quote_accepted listening (made cheap i free first)
            exact ⟨t, given, fqu, replies, frame⟩

end Sys2Proof.Proofs
end

