-- ==== Sys2Proof/Proofs/Finding.lean ====
section
/-! FIND: its start, the scan of the records, and the three ways a scan ends (R152, R153). -/

namespace Sys2Proof.Proofs

open Sys2Proof.Machine Sys2Proof.Safety Sys2Proof.Laws

/-! ## A result -/

/-- A call that a FIND for a destination can give (R153). -/
abbrev Sold (s : State) (d : HaltCode) (c : Call) : Prop :=
  (c.state = .scheduled ∨ c.state = .running) ∧ c.loaded.stopMode ≠ .pass
    ∧ d ∈ c.loaded.destinations ∧ s.htb.secs + 60 * s.params.cutoff ≤ c.expected

theorem isFindResult_iff (s : State) (d : HaltCode) (c : Call) :
    s.isFindResult d c = true ↔ Sold s d c := by
  unfold State.isFindResult Sold
  rw [← isRunning_iff]
  simp [pastCutoff_eq_false_iff, PastCutoff, and_assoc]

/-! ## The scan -/

/-- How a scan from a position ends, with the records it has seen and those it has left (R153). -/
def ScanEnds (count pos examined : Nat) (hit : Call → Bool) (seen left : List Call) (x : Scan) : Prop :=
  (x.code = .found ∧ x.results.length = count
      ∧ (∃ before c, seen = before ++ [c] ∧ hit c = true) ∧ x.position = some (pos + seen.length))
    ∨ (x.code = .ended ∧ x.results.length < count ∧ left = [] ∧ x.position = none)
    ∨ (x.code = .partialScan ∧ x.results.length < count ∧ left ≠ [] ∧ examined + seen.length = 32
      ∧ x.position = some (pos + seen.length))

/-- The scan of records from a position: what it gives is what the records it has seen give. -/
theorem scan_spec (s : State) (d : HaltCode) (count : Nat) (calls : List Call)
    (pos examined : Nat) (found : List FindResult) (few : found.length < count)
    (early : examined < 32) :
    ∃ seen left, calls = seen ++ left ∧ examined + seen.length ≤ 32
      ∧ (s.scan d count pos examined found calls).results
        = found ++ (seen.filter (s.isFindResult d)).map s.findResult
      ∧ ScanEnds count pos examined (s.isFindResult d) seen left
          (s.scan d count pos examined found calls) := by
  induction calls generalizing pos examined found with
  | nil =>
    exact ⟨[], [], rfl, early.le, (List.append_nil _).symm, .inr (.inl ⟨rfl, few, rfl, rfl⟩)⟩
  | cons c rest ih =>
    obtain ⟨found', hfound'⟩ : ∃ found', found' = found ++ ([c].filter (s.isFindResult d)).map
      s.findResult := ⟨_, rfl⟩
    have given : (if s.isFindResult d c then found ++ [s.findResult c] else found) = found' := by
      rw [hfound']
      by_cases hit : s.isFindResult d c = true
      · rw [if_pos hit, List.filter_cons_of_pos hit]
        rfl
      · rw [if_neg hit, List.filter_cons_of_neg hit]
        exact (List.append_nil _).symm
    unfold State.scan
    dsimp only
    rw [given]
    split
    · next enough =>
      have hit : s.isFindResult d c = true := by
        by_contra miss
        rw [hfound', List.filter_cons_of_neg miss] at enough
        simp at enough
        omega
      exact ⟨[c], rest, rfl, early, hfound', .inl ⟨rfl, enough, ⟨[], c, rfl, hit⟩, rfl⟩⟩
    · next more =>
      have few' : found'.length < count := by
        have : found'.length ≤ found.length + 1 := by
          rw [hfound', List.length_append, List.length_map]
          exact Nat.add_le_add_left (List.length_filter_le _ _) _
        omega
      split
      · next last =>
        obtain rfl := List.isEmpty_iff.mp last
        exact ⟨[c], [], rfl, early, hfound', .inr (.inl ⟨rfl, few', rfl, rfl⟩)⟩
      · next others =>
        split
        · next full =>
          exact ⟨[c], rest, rfl, early, hfound', .inr (.inr ⟨rfl, few',
            fun h => others (List.isEmpty_iff.mpr h), full, rfl⟩)⟩
        · next going =>
          have early' : examined + 1 < 32 := lt_of_le_of_ne early going
          obtain ⟨seen, left, split, bound, results, ends⟩ := ih (pos + 1) (examined + 1) found' few'
            early'
          refine ⟨c :: seen, left, congrArg (c :: ·) split, ?_, ?_, ?_⟩
          · rw [List.length_cons]
            omega
          · rw [results, hfound', List.append_assoc, ← List.map_append, ← List.filter_append]
            rfl
          · have shift : pos + 1 + seen.length = pos + (c :: seen).length := by
              rw [List.length_cons]
              omega
            unfold ScanEnds at ends ⊢
            rw [shift] at ends
            rcases ends with ⟨code, len, ⟨before, x, e, hit⟩, position⟩ | ended |
              ⟨code, len, some, total, position⟩
            · exact .inl ⟨code, len, ⟨c :: before, x, congrArg (c :: ·) e, hit⟩, position⟩
            · exact .inr (.inl ended)
            · refine .inr (.inr ⟨code, len, some, ?_, position⟩)
              rw [List.length_cons]
              omega

theorem scan_boards (s : State) (b : Bdc) (d : HaltCode) (count : Nat) (calls : List Call)
    (pos examined : Nat) (found : List FindResult) :
    ({ s with bdc := b }).scan d count pos examined found calls
      = s.scan d count pos examined found calls := by
  induction calls generalizing pos examined found with
  | nil => rfl
  | cons c rest ih =>
    unfold State.scan
    simp only [ih]
    rfl

/-! ## The start of a search -/

theorem firstFrom_le (t : Nat) (calls : List Call) : firstFrom t calls ≤ calls.length := by
  unfold firstFrom
  cases h : calls.findIdx? fun c => decide (t ≤ c.loaded.sched) with
  | none => exact le_rfl
  | some i =>
    obtain ⟨lt, -⟩ := List.findIdx?_eq_some_iff_getElem.mp h
    exact lt.le

theorem mem_drop_firstFrom {t : Nat} {calls : List Call} {c : Call} (mem : c ∈ calls)
    (late : t ≤ c.loaded.sched) : c ∈ calls.drop (firstFrom t calls) := by
  unfold firstFrom
  induction calls with
  | nil => exact mem
  | cons a as ih =>
    rw [List.findIdx?_cons]
    split
    · exact mem
    · next early =>
      have mem : c ∈ as := by
        rcases List.mem_cons.mp mem with rfl | h
        · exact absurd (decide_eq_true late) early
        · exact h
      have more := ih mem
      cases h : as.findIdx? fun c => decide (t ≤ c.loaded.sched) with
      | none => rw [h] at more; simp at more
      | some i => rw [h] at more; simpa using more

theorem firstFrom_eq {t pos : Nat} {calls : List Call} (bound : pos ≤ calls.length)
    (early : ∀ c ∈ calls.take pos, c.loaded.sched < t)
    (late : ∀ c ∈ (calls.drop pos).head?, t ≤ c.loaded.sched) : firstFrom t calls = pos := by
  unfold firstFrom
  induction calls generalizing pos with
  | nil => exact (Nat.le_zero.mp bound).symm
  | cons a as ih =>
    rw [List.findIdx?_cons]
    cases pos with
    | zero =>
      rw [if_pos (decide_eq_true (late a rfl))]
      rfl
    | succ pos =>
      have before : a.loaded.sched < t := early a (by simp)
      rw [if_neg (by simpa using before)]
      have more := ih (Nat.succ_le_succ_iff.mp bound)
        (fun c hc => early c (by rw [List.take_succ_cons]; exact List.mem_cons_of_mem a hc)) late
      cases h : as.findIdx? fun c => decide (t ≤ c.loaded.sched) with
      | none =>
        rw [h] at more
        exact congrArg (· + 1) more
      | some i =>
        rw [h] at more
        exact congrArg (· + 1) more

section
variable {s : State} {r : FindRequest}

theorem findStart_some {start : Nat}
    (h : r.start = 0xFFFFFF#24 ∧ start = s.htb.secs
      ∨ r.start ≠ 0xFFFFFF#24 ∧ r.start.toNat ≤ 91799 ∧ start = r.start.toNat) :
    s.findStart r.start = some start := by
  unfold State.findStart
  rcases h with ⟨now, rfl⟩ | ⟨then_, low, rfl⟩
  · exact if_pos now
  · exact (if_neg then_).trans (if_pos low)

theorem findStart_none (h : r.start ≠ 0xFFFFFF#24) (high : 91799 < r.start.toNat) :
    s.findStart r.start = none :=
  (if_neg h).trans (if_neg (Nat.not_le.mpr high))

theorem findPosition_token (t : Nat) (present : r.tokenPresent = 1#8)
    (current : r.generation = s.tts.generation) :
    s.findPosition r t = some r.position.toNat := by
  unfold State.findPosition
  rw [present]
  exact if_pos current

theorem findPosition_stale (t : Nat) (present : r.tokenPresent = 1#8)
    (old : r.generation ≠ s.tts.generation) : s.findPosition r t = none := by
  unfold State.findPosition
  rw [present]
  exact if_neg old

theorem findPosition_first (t : Nat) (absent : r.tokenPresent = 0#8) :
    s.findPosition r t = some (firstFrom t s.tts.current) := by
  unfold State.findPosition
  rw [absent]
  rfl

theorem search_empty (t : Nat) (empty : s.tts.currentState = .empty) :
    s.search r t = { results := [], code := .ended } := if_pos empty

theorem search_stale {t : Nat} (active : s.tts.currentState = .active)
    (h : s.findPosition r t = none) : s.search r t = { results := [], code := .stale } := by
  unfold State.search
  rw [active, h]
  rfl

theorem search_from {t p : Nat} (active : s.tts.currentState = .active)
    (h : s.findPosition r t = some p) :
    s.search r t = s.scan r.destination r.count.toNat p 0 [] (s.tts.current.drop p) := by
  unfold State.search
  rw [active, h]
  rfl

/-- A search reads no board: it finds the same after a key's light. -/
theorem search_boards (s : State) (b : Bdc) (r : FindRequest) (t : Nat) :
    ({ s with bdc := b }).search r t = s.search r t := by
  unfold State.search
  simp only [scan_boards]
  rfl

/-- What a search gives are sold calls of CURRENT, at most as many as asked for (R153). -/
theorem search_results (t : Nat) (one : 1 ≤ r.count.toNat) :
    (s.search r t).results.length ≤ r.count.toNat
      ∧ ∀ x ∈ (s.search r t).results, ∃ c ∈ s.tts.current, x.key = c.key ∧ Sold s r.destination c := by
  have none {x : Scan} (h : x.results = []) : x.results.length ≤ r.count.toNat
      ∧ ∀ y ∈ x.results, ∃ c ∈ s.tts.current, y.key = c.key ∧ Sold s r.destination c := by
    rw [h]
    exact ⟨Nat.zero_le _, fun y hy => absurd hy List.not_mem_nil⟩
  cases state : s.tts.currentState with
  | empty =>
    rw [search_empty t state]
    exact none rfl
  | active =>
    cases place : s.findPosition r t with
    | none =>
      rw [search_stale state place]
      exact none rfl
    | some p =>
      obtain ⟨seen, left, split, -, results, ends⟩ := scan_spec s r.destination r.count.toNat
        (s.tts.current.drop p) p 0 [] one (by decide)
      rw [search_from state place]
      refine ⟨?_, fun x hx => ?_⟩
      · rcases ends with ⟨-, len, -⟩ | ⟨-, len, -⟩ | ⟨-, len, -⟩
        · exact len.le
        · exact len.le
        · exact len.le
      · rw [results, List.nil_append] at hx
        obtain ⟨c, hc, rfl⟩ := List.mem_map.mp hx
        obtain ⟨seen_c, hit⟩ := List.mem_filter.mp hc
        refine ⟨c, List.mem_of_mem_drop (i := p) ?_, rfl, (isFindResult_iff s _ c).mp hit⟩
        rw [split]
        exact List.mem_append_left left seen_c

theorem serveFind_search {start : Nat} (h : s.findStart r.start = some start)
    (one : 1 ≤ r.count.toNat) (four : r.count.toNat ≤ 4) :
    serveFind r s = { state := s, result := (s.search r start).code
                      body := .find (s.search r start).results
                        ((s.search r start).position.map fun p => ⟨s.tts.generation, p⟩) } := by
  unfold serveFind
  rw [h]
  exact if_pos ⟨one, four⟩

theorem serveFind_bad (h : r.count.toNat = 0 ∨ 4 < r.count.toNat
    ∨ r.start ≠ 0xFFFFFF#24 ∧ 91799 < r.start.toNat) :
    serveFind r s = { state := s, result := .badMessage } := by
  unfold serveFind
  split
  · rfl
  · next t start =>
    refine if_neg ?_
    rintro ⟨one, four⟩
    rcases h with h | h | ⟨h, high⟩
    · omega
    · omega
    · rw [findStart_none h high] at start
      exact absurd start nofun

end

theorem forall₂_filter_map {P : Call → Prop} [DecidablePred P] {f : Call → Bool}
    {g : Call → FindResult} (same : ∀ c, P c ↔ f c = true) (calls : List Call) :
    List.Forall₂ (fun c x => x = g c) (calls.filter fun c => decide (P c))
      ((calls.filter f).map g) := by
  rw [List.filter_congr fun c _ => Bool.eq_iff_iff.mpr (decide_eq_true_iff.trans (same c))]
  exact List.forall₂_map_right_iff.mpr (List.forall₂_same.mpr fun _ _ => rfl)

/-- Settles O44. -/
theorem findAnswers : Obligations.FindAnswers := by
  intro s r listening
  dsimp only
  refine ⟨fun start named one four => ?_, fun bad => ?_⟩
  · obtain ⟨t, given, replies, only⟩ := answered_onlyTerminal (result := (s.search r start).code)
      (body := .find (s.search r start).results
        ((s.search r start).position.map fun p => ⟨s.tts.generation, p⟩))
      listening (exec_find s r) fun b =>
        search_boards s b r start ▸
          serveFind_search (s := { s with bdc := b }) (findStart_some named) one four
    obtain ⟨few, sold⟩ := search_results (s := s) start one
    refine ⟨t, _, _, _, given, only, replies, few, sold, fun empty => ?_, fun active token old => ?_,
      fun active absent ended c hc late hit => ?_, fun active pos place => ?_⟩
    · have e := search_empty (r := r) start empty
      exact ⟨congrArg Scan.code e, congrArg Scan.results e⟩
    · have e := search_stale active (findPosition_stale start token old)
      exact ⟨congrArg Scan.code e, congrArg Scan.results e⟩
    · have e := search_from active (findPosition_first start absent)
      obtain ⟨seen, left, split, -, results, ends⟩ := scan_spec s r.destination r.count.toNat
        (s.tts.current.drop (firstFrom start s.tts.current)) (firstFrom start s.tts.current) 0 []
        one (by decide)
      rw [← e] at results ends
      have all : left = [] := by
        rcases ends with ⟨code, -⟩ | ⟨-, -, h, -⟩ | ⟨code, -⟩
        · exact absurd (code.symm.trans ended) nofun
        · exact h
        · exact absurd (code.symm.trans ended) nofun
      have mem := mem_drop_firstFrom hc late
      rw [split, all, List.append_nil] at mem
      refine ⟨s.findResult c, ?_, rfl⟩
      have result : s.findResult c ∈ (s.search r start).results := by
        rw [results, List.nil_append]
        exact List.mem_map_of_mem (List.mem_filter.mpr ⟨mem, (isFindResult_iff s _ c).mpr hit⟩)
      exact result
    · have found : s.findPosition r start = some pos := by
        rcases place with ⟨token, current, rfl⟩ | ⟨absent, bound, before, after⟩
        · exact findPosition_token start token current
        · rw [findPosition_first start absent, firstFrom_eq bound before after]
      have e := search_from active found
      obtain ⟨seen, left, split, bound, results, ends⟩ := scan_spec s r.destination r.count.toNat
        (s.tts.current.drop pos) pos 0 [] one (by decide)
      rw [← e] at results ends
      rw [Nat.zero_add] at bound
      refine ⟨seen, left, split, bound, ?_, ?_⟩
      · rw [results, List.nil_append]
        exact forall₂_filter_map (fun c => (isFindResult_iff s r.destination c).symm) seen
      · rcases ends with ⟨code, len, ⟨before, c, e, hit⟩, position⟩ | ⟨code, len, none, position⟩ |
          ⟨code, len, some, total, position⟩
        · exact .inl ⟨code, len, ⟨c, before, e, (isFindResult_iff s _ c).mp hit⟩,
            congrArg _ position⟩
        · exact .inr (.inl ⟨code, len, none, congrArg _ position⟩)
        · rw [Nat.zero_add] at total
          rw [total] at position
          exact .inr (.inr ⟨code, len, some, total, congrArg _ position⟩)
  · obtain ⟨t, given, replies, only⟩ := answered_onlyTerminal listening (exec_find s r) fun b =>
      serveFind_bad (s := { s with bdc := b }) bad
    exact ⟨t, given, only, replies⟩

end Sys2Proof.Proofs
end

