-- ==== Sys2Proof/Proofs/Resetting.lean ====
section
/-! The reset state, the cold start that gives it, and what a loss of main power leaves (R178, log
entries 6 and 7). -/

namespace Sys2Proof.Proofs

open Sys2Proof.Machine Sys2Proof.Safety Sys2Proof.Laws

theorem reset_windows (i : Fin 4) : State.reset.fru.windows[i] = none := by
  revert i
  decide +kernel

/-- The reset state is sound. -/
theorem reset_sound : QueuesFit State.reset ∧ BanksOrdered State.reset ∧ JournalRuns State.reset.sju
    ∧ ClockStands State.reset ∧ CountsBounded State.reset ∧ StoresFit State.reset
    ∧ WindowsApart State.reset ∧ SalesModeTrue State.reset ∧ LedgerTrue State.reset := by
  refine ⟨⟨?_, ?_⟩, ⟨?_, ?_, fun _ => rfl, fun _ => rfl⟩,
    ⟨rfl, by decide, ?_, by decide, by decide⟩, ⟨by decide, fun _ => rfl, by decide, by decide⟩, ⟨fun p => ?_, ?_⟩, ⟨fun p => ?_, by decide, by decide⟩, ?_, fun _ => rfl,
    fun _ => ⟨rfl, rfl, rfl, rfl⟩⟩
  · exact ⟨by decide, by decide, fun _ => rfl⟩
  · exact ⟨by decide, by decide, fun _ => rfl⟩
  · exact ⟨Nat.zero_le _, .nil, .nil⟩
  · exact ⟨Nat.zero_le _, .nil, .nil⟩
  · exact fun i h => absurd h (Nat.not_lt_zero i)
  · cases p <;> decide
  · exact fun c hc => absurd hc List.not_mem_nil
  · cases p <;> decide
  · intro i j _ a b ha
    rw [reset_windows i] at ha
    exact absurd ha nofun

/-- Settles O3. -/
theorem resetState : Obligations.ResetState := by
  refine ⟨fun p => ?_, reset_windows, by decide +kernel, rfl, rfl, rfl, rfl, rfl, rfl, rfl, rfl, rfl,
    rfl, rfl, rfl, rfl, rfl, rfl, rfl, rfl, rfl, fun p => ?_, rfl, by decide +kernel, rfl, rfl, rfl,
    rfl, rfl, rfl, rfl, rfl, rfl, rfl, rfl, by decide +kernel, rfl, rfl, rfl, rfl, rfl, rfl, rfl, rfl,
    rfl, rfl, rfl, rfl, rfl, rfl, rfl, rfl, reset_sound⟩
  · cases p <;> exact ⟨rfl, rfl, rfl, rfl, rfl, rfl, rfl, rfl, rfl, rfl, rfl, rfl, rfl, rfl, rfl, rfl,
      rfl, rfl⟩
  · cases p <;> exact ⟨rfl, rfl⟩

section
variable (s : State) (pins : StrapPins) (low : Bool)

/-- A cold start at its step 3, with the volatile items at their start values (R178). -/
def coldItemsStarting : State :=
  { ({ s with strapPins := pins, lowEnergy := low } : State).coldItems.startVolatile with
    starting := true }

theorem coldItemsStarting_bdc : (coldItemsStarting s pins low).bdc = {} := by
  show Bdc.atStart {} (Vector.replicate 8 none) = {}
  decide +kernel

theorem coldItemsStarting_eq : coldItemsStarting s pins low = { coldItemsStarting s pins low with
    bdc := {} } := by
  rw [← coldItemsStarting_bdc s pins low]

/-- The steps of a cold start find no call, no fare table and an unset clock, and change nothing. -/
theorem coldItemsStarting_startUp :
    ({ s with strapPins := pins, lowEnergy := low } : State).coldItems.startUp
      = { coldItemsStarting s pins low with starting := false } := by
  have takes : (coldItemsStarting s pins low).forgetTakes = coldItemsStarting s pins low := rfl
  have forecasts : (coldItemsStarting s pins low).deriveQuietly = coldItemsStarting s pins low := rfl
  have calls : (coldItemsStarting s pins low).expireCalls = coldItemsStarting s pins low := rfl
  have day : (coldItemsStarting s pins low).settleDay = coldItemsStarting s pins low := rfl
  have fares : (coldItemsStarting s pins low).testActivation = coldItemsStarting s pins low := rfl
  have restore : (coldItemsStarting s pins low).restore = coldItemsStarting s pins low := rfl
  have stops : (coldItemsStarting s pins low).startStops = coldItemsStarting s pins low := rfl
  have messages : (coldItemsStarting s pins low).evaluateMessages = coldItemsStarting s pins low :=
    rfl
  show { (coldItemsStarting s pins low).forgetTakes.deriveQuietly.expireCalls.settleDay
    |>.testActivation.restore.startStops.evaluateMessages with starting := false } = _
  rw [takes, forecasts, calls, day, fares, restore, stops, messages]

end

/-- Settles O4. -/
theorem coldStartIsReset : Obligations.ColdStartIsReset := by
  intro s backupHeld pins low cold
  have lost : ¬ (s.mark && backupHeld) = true := by
    rw [Bool.and_eq_true]
    rintro ⟨mark, held⟩
    rcases cold with h | h
    · exact Bool.false_ne_true (h.symm.trans mark)
    · exact Bool.false_ne_true (h.symm.trans held)
  refine (congrArg Host.Outcome.next (if_neg lost)).trans (congrArg Host.Outcome.next ?_)
  unfold State.coldStart
  rw [coldItemsStarting_startUp, coldItemsStarting_eq]
  obtain ⟨code, upRate, terminalRate⟩ := pins
  cases upRate <;> rfl

/-- Settles O6. -/
theorem powerLossKeepsRetained : Obligations.PowerLossKeepsRetained := by
  intro s on
  refine ⟨s.losePower, exec_mainPowerLoss on, rfl, rfl, rfl, rfl, rfl, rfl, rfl, rfl, rfl, rfl, rfl,
    rfl, rfl, rfl, rfl, rfl, rfl, rfl, rfl, rfl, rfl, rfl, rfl, rfl, fun p => ?_⟩
  cases p <;> exact ⟨rfl, rfl, rfl⟩

end Sys2Proof.Proofs
end

