-- ==== Sys2Proof/Proofs/StopRequests.lean ====
section
/-! Stop requests: the platform's timers and lamps, the resend of a STOPREQ and the STOPCONF that ends
it (R106, R110, R111, R113, R117). -/

namespace Sys2Proof.Proofs

open Sys2Proof.Machine Sys2Proof.Safety Sys2Proof.Laws

/-! ## Lamps -/

theorem deriveLamps_io (s : State) (p : Platform) :
    s.deriveLamps.sru.io p = { s.sru.io p with lamp := s.lampOf p } := by
  cases p <;> rfl

theorem lampOf_idle {s : State} {p : Platform} (h : (s.sru.io p).noTarget.isRunning = false) :
    s.lampOf p = match s.lampCall p with
      | none => .off
      | some c => lampFor c.stop := by
  unfold State.lampOf
  rw [h]
  rfl

/-- Settles O34. -/
theorem platformTimers : Obligations.PlatformTimers := by
  intro s p on
  refine ⟨exec_buttonRelease on p, fun running => ?_, fun running => ?_⟩
  · exact (exec_contactLockoutExpiry on p).trans (congrArg _ (if_pos running))
  · obtain ⟨u, hu⟩ : ∃ u, u = s.modIo p fun io => { io with noTarget := .stopped } := ⟨_, rfl⟩
    have io : u.sru.io p = { s.sru.io p with noTarget := .stopped } := by
      rw [hu, State.modIo_io_self]
    have lamp : (u.deriveLamps.sru.io p).lamp = match s.lampCall p with
        | none => .off
        | some c => lampFor c.stop := by
      have same : u.lampCall p = s.lampCall p := by
        rw [hu]
        cases p <;> rfl
      rw [deriveLamps_io]
      refine (lampOf_idle (by rw [io]; rfl)).trans ?_
      exact congrArg (fun o : Option Call => match o with
        | none => Lamp.off
        | some c => lampFor c.stop) same
    refine ⟨u.deriveLamps, ?_, by rw [deriveLamps_io, io], ?_, ?_⟩
    · rw [hu]
      exact (exec_noTargetExpiry on p).trans (congrArg _ (if_pos running))
    · rw [lamp]
      cases s.lampCall p with
      | none => rfl
      | some c => cases c.stop <;> rfl
    · rw [hu]
      cases p <;> rfl

/-! ## Changes of a stop state -/

theorem announceStop_unnoticed (s : State) (k : Key) (a : StopState) :
    s.announceStop k a a = s.deriveLamps := by
  unfold State.announceStop
  dsimp only
  rw [if_pos rfl]
  refine if_neg ?_
  cases a <;> decide

theorem announceStop_noticed {a b : StopState} (h : stopNoticed a b = true) (s : State) (k : Key) :
    s.announceStop k a b = s.deriveLamps.compose.postNotice (.stopState k b) := by
  have changed : a ≠ b := by
    rintro rfl
    cases a <;> exact absurd h (by decide)
  unfold State.announceStop
  dsimp only
  rw [if_neg changed]
  exact if_pos h

theorem announceStop_frame {a b : StopState} (h : stopNoticed a b = true) (s : State) (k : Key) :
    ∃ x y, s.announceStop k a b = { s.deriveLamps with bdc := x, tpi := y }
      ∧ (s.tpi.ring.length < 32 → y.ring = s.tpi.ring ++ [.stopState k b]) := by
  obtain ⟨x, composed⟩ := compose_frame s.deriveLamps
  obtain ⟨x', posted⟩ := postNotice_frame ({ s.deriveLamps with bdc := x }) (.stopState k b)
  refine ⟨x', _, by rw [announceStop_noticed h, composed, posted], fun room => ?_⟩
  exact congrArg Tpi.ring (if_pos room)

/-! ## Offers to the Up queue -/

theorem offerUp_frame (s : State) (q : Queued) :
    s.offer .up q = { s with up := (s.offer .up q).up, sju := (s.offer .up q).sju } := by
  by_cases room : Room s.up q.cls
  · exact (offer_up_of_room room).frame
  · have full : ¬ Room (s.port .up) q.cls := room
    rw [offer_of_not_room full]
    rfl

theorem offerOwnUp_frame (s : State) (k : Kind) (d : HaltCode) (x : Payload) :
    s.offerOwn .up k d x
      = { s with up := (s.offerOwn .up k d x).up, sju := (s.offerOwn .up k d x).sju } := by
  cases h : s.fru.unaddressed with
  | true => rw [offerOwn_unaddressed h]
  | false =>
    rw [offerOwn_addressed h]
    exact offerUp_frame s _

theorem offerOwnUp_queued {s : State} {k : Kind} (addressed : s.fru.unaddressed = false)
    (room : Room s.up (ownClass k.code)) (d : HaltCode) (x : Payload) :
    QueuedUp s (s.offerOwn .up k d x) (ownQueued s (ownClass k.code) k.code d x) := by
  obtain ⟨js, jrnls, queue⟩ := (offer_up_of_room (s := s)
    (q := ownQueued s (ownClass k.code) k.code d x) room).queue
  refine ⟨js, jrnls, ?_⟩
  rw [offerOwn_addressed addressed, queue, List.append_assoc]
  rfl

/-! ## Sending -/

theorem stopreqOf_eq (s : State) (c : Call) :
    ownQueued s .urgent 13#8 65535#16 (.octets (s.stopreqOctets c)) = stopreqOf s c := by
  unfold State.stopreqOctets stopreqOf
  cases c.loaded.platform <;> cases c.stopCause with
  | none => rfl
  | some x => cases x <;> rfl

/-- The serial number taken and the STOPREQ counted, before it is offered (R110). -/
def stopreqBuilt (s : State) : State :=
  State.modSruCtr { s with sru := { s.sru with serial := s.sru.serial + 1#8 } }
    fun k => { k with stopreqBuilt := tally k.stopreqBuilt }

theorem afterOffer_frame (s : State) (c : Call) :
    afterOffer s c = { stopreqBuilt s with up := (afterOffer s c).up, sju := (afterOffer s c).sju } :=
  offerOwnUp_frame (stopreqBuilt s) .stopreq centre (.octets (s.stopreqOctets c))

theorem afterOffer_queued {s : State} (addressed : s.fru.unaddressed = false)
    (room : Room s.up .urgent) (c : Call) : QueuedUp s (afterOffer s c) (stopreqOf s c) := by
  obtain ⟨js, jrnls, queue⟩ := offerOwnUp_queued (s := stopreqBuilt s) (k := .stopreq) addressed room
    centre (.octets (s.stopreqOctets c))
  refine ⟨js, jrnls, ?_⟩
  rw [← stopreqOf_eq]
  exact queue

/-- A STOPREQ sent again: the call stays SENT, and nothing is announced (R111). -/
theorem sendStopreq_sent {s : State} {c : Call} (sent : c.stop = .sent) :
    s.sendStopreq c = ((afterOffer s c).modCall c.key fun c =>
      { c with stop := .sent, resend := .running Config.resendMs }).deriveLamps := by
  rw [sendStopreq_eq, State.changeStop, sent]
  exact announceStop_unnoticed _ _ _

/-! ## STOPCONF -/

section
variable {s : State} {f : RxFrame} {rest : List RxFrame}

theorem exec_stopconf (own : OwnFrame s f rest 8#8) (pins : StrapPins) :
    exec (.frameClassify .up pins) s = .next ((freed s rest).takeStopconf f.payload) :=
  exec_ownFrame own pins (k := .stopconf) rfl (by decide) rfl

theorem takeStopconf_form (bs : List Byte) (h : bs.length ≠ 4) :
    s.takeStopconf bs = s.modSruCtr fun k => { k with confForm := tally k.confForm } := by
  unfold State.takeStopconf stopconfOfPayload
  rw [if_neg h]

theorem takeStopconf_key (bs : List Byte) (h : bs.length = 4) :
    s.takeStopconf bs = s.confirm ⟨word bs 0, word bs 2⟩ := by
  unfold State.takeStopconf stopconfOfPayload
  rw [if_pos h]

theorem confirm_unexpected {k : Key}
    (h : ∀ c, s.call k = some c → c.isRunning = false ∨ c.stop = .none) :
    s.confirm k = s.modSruCtr fun k => { k with confUnexpected := tally k.confUnexpected } := by
  unfold State.confirm
  dsimp only
  split
  · rfl
  · next c named =>
    cases running : c.isRunning with
    | false => rfl
    | true =>
      have none : c.stop = .none := (h c named).resolve_left (by rw [running]; exact nofun)
      rw [none]
      rfl

theorem confirm_confirmed {k : Key} {c : Call} (named : s.call k = some c)
    (running : c.isRunning = true) (h : c.stop = .confirmed) : s.confirm k = s := by
  unfold State.confirm
  dsimp only
  rw [named]
  dsimp only
  rw [running, h]
  rfl

theorem confirm_asked {k : Key} {c : Call} (named : s.call k = some c)
    (running : c.isRunning = true) (h : c.stop = .wanted ∨ c.stop = .sent ∨ c.stop = .late) :
    s.confirm k = (s.modCall k fun c => { c with stop := .confirmed, resend := .stopped }).announceStop
      k c.stop .confirmed := by
  have key : c.key = k := key_of_call named
  unfold State.confirm
  dsimp only
  rw [named]
  dsimp only
  rw [running]
  rcases h with h | h | h
  all_goals
    rw [h]
    unfold State.changeStop
    rw [key, h]
    rfl

theorem stopNoticed_confirmed {a : StopState} (h : a = .wanted ∨ a = .sent ∨ a = .late) :
    stopNoticed a .confirmed = true := by
  rcases h with rfl | rfl | rfl <;> rfl

end

/-- Settles O35. -/
theorem resendBuildsStopreq : Obligations.ResendBuildsStopreq := by
  refine ⟨fun s k on => ⟨fun c named sent running => ?_, fun other => ?_⟩,
    fun s f rest pins own => ?_⟩
  · obtain ⟨u, hu⟩ : ∃ u, u = afterOffer s c := ⟨_, rfl⟩
    have frame : u = { stopreqBuilt s with up := u.up, sju := u.sju } := hu ▸ afterOffer_frame s c
    refine ⟨s.sendStopreq c, ?_, ?_, ?_, ?_, fun addressed room => ?_, ?_⟩
    · rw [exec_resendExpiry on, named]
      exact congrArg _ (if_pos ⟨sent, running⟩)
    · rw [sendStopreq_sent sent, key_of_call named, ← hu, frame]
      rfl
    · rw [sendStopreq_sent sent, ← hu, frame]
      rfl
    · rw [sendStopreq_sent sent, ← hu, frame]
      rfl
    · obtain ⟨js, jrnls, queue⟩ := afterOffer_queued addressed room c
      refine ⟨js, jrnls, ?_⟩
      rw [sendStopreq_sent sent]
      exact queue
    · rw [sendStopreq_sent sent, ← hu, frame]
      rfl
  · rw [exec_resendExpiry on]
    split
    · next c named => exact congrArg _ (if_neg (other c named))
    · rfl
  · dsimp only
    refine ⟨fun len => ?_, fun len unexpected => ?_, fun len c named running => ⟨fun done => ?_,
      fun asked => ?_⟩⟩
    · exact (exec_stopconf own pins).trans (congrArg _ (takeStopconf_form _ len))
    · refine (exec_stopconf own pins).trans (congrArg _ ?_)
      rw [takeStopconf_key _ len]
      exact confirm_unexpected unexpected
    · refine (exec_stopconf own pins).trans (congrArg _ ?_)
      rw [takeStopconf_key _ len]
      exact confirm_confirmed named running done
    · obtain ⟨x, y, announced, ring⟩ := announceStop_frame (stopNoticed_confirmed asked)
        ((freed s rest).modCall ⟨word f.payload 0, word f.payload 2⟩ fun c =>
          { c with stop := .confirmed, resend := .stopped }) ⟨word f.payload 0, word f.payload 2⟩
      have taken : (freed s rest).takeStopconf f.payload = _ :=
        (takeStopconf_key _ len).trans ((confirm_asked (s := freed s rest) named running asked).trans announced)
      refine ⟨_, (exec_stopconf own pins).trans (congrArg _ taken), rfl, ring, rfl⟩

end Sys2Proof.Proofs
end

