-- ==== Sys2Proof/Proofs/Acknowledgement.lean ====
section
/-! The journal sent and acknowledged: the drain, JACK, and the go-back when none comes (R54, R167 to
R169). -/

namespace Sys2Proof.Proofs

open Sys2Proof.Machine Sys2Proof.Safety Sys2Proof.Laws

/-! ## The drain -/

theorem drainUpTo_succ_of_not {s : State} (n : Nat)
    (h : ¬ (s.drainCondition && s.canBuildJrnl) = true) : s.drainUpTo (n + 1) = s := if_neg h

theorem drainCondition_iff (s : State) :
    s.drainCondition = true ↔ s.up.lsu.state = .service ∧ nonUrgent s.up.queue < 8 := by
  simp only [State.drainCondition, Bool.and_eq_true, beq_iff_eq, decide_eq_true_eq]
  rfl

theorem canBuildJrnl_iff (s : State) : s.canBuildJrnl = true ↔
    s.sju.nextSeq ≠ s.sju.writeSeq ∧ s.sju.inFlight < 64 ∧ s.fru.unaddressed = false := by
  simp only [State.canBuildJrnl, Bool.and_eq_true, bne_iff_ne, decide_eq_true_eq, Bool.not_eq_true',
    and_assoc]
  rfl

theorem drain_idle {s : State} (h : s.up.lsu.state ≠ .service ∨ 8 ≤ nonUrgent s.up.queue
    ∨ s.fru.unaddressed = true ∨ s.sju.nextSeq = s.sju.writeSeq) : s.drain = s := by
  refine drainUpTo_succ_of_not 7 fun builds => ?_
  obtain ⟨condition, can⟩ := (Bool.and_eq_true _ _).mp builds
  obtain ⟨serving, few⟩ := (drainCondition_iff s).mp condition
  obtain ⟨unsent, -, addressed⟩ := (canBuildJrnl_iff s).mp can
  rcases h with h | h | h | h
  · exact h serving
  · omega
  · exact Bool.false_ne_true (addressed.symm.trans h)
  · exact unsent h

/-- The first JRNL of a drain (R54, R167). -/
theorem drain_builds {s : State} (condition : s.drainCondition = true) (can : s.canBuildJrnl = true)
    (room : Room s.up .own) : s.drain = s.buildJrnl.drainUpTo 7 :=
  (if_pos ((Bool.and_eq_true _ _).mpr ⟨condition, can⟩)).trans
    (if_pos ((admits_iff s.up .own).mpr room))

theorem buildJrnl_timer {s : State} (h : s.sju.ackTimer.isRunning = true) :
    s.buildJrnl.sju.ackTimer = s.sju.ackTimer := if_pos h

/-- A drain leaves an acknowledgement timer that runs (R168). -/
theorem drainUpTo_timer (n : Nat) {s : State} (h : s.sju.ackTimer.isRunning = true) :
    (s.drainUpTo n).sju.ackTimer = s.sju.ackTimer := by
  induction n generalizing s with
  | zero => rfl
  | succ n ih =>
    have kept := buildJrnl_timer h
    unfold State.drainUpTo
    split
    · split
      · exact (ih (kept ▸ h)).trans kept
      · exact kept
    · rfl

/-- A drain that builds a JRNL starts the acknowledgement timer (R168). -/
theorem drain_starts_timer {s : State} (condition : s.drainCondition = true)
    (can : s.canBuildJrnl = true) (room : Room s.up .own) (h : s.sju.ackTimer = .stopped) :
    s.drain.sju.ackTimer = .running 30000 := by
  have started : s.buildJrnl.sju.ackTimer = .running 30000 := if_neg (by rw [h]; decide)
  rw [drain_builds condition can room, drainUpTo_timer 7 (by rw [started]; rfl), started]

theorem drain_queue {s : State} (condition : s.drainCondition = true)
    (can : s.canBuildJrnl = true) (room : Room s.up .own) :
    ∃ js, AllJrnl js ∧ s.drain.up.queue = s.up.queue ++ ⟨.own, s.jrnlFrame⟩ :: js := by
  obtain ⟨js, jrnls, queue⟩ := (drainUpTo_drains 7 s.buildJrnl).queue
  have built : s.buildJrnl.up.queue = s.up.queue ++ [⟨.own, s.jrnlFrame⟩] :=
    congrArg LinePort.queue (enqueue_of_room (q := ⟨.own, s.jrnlFrame⟩) room)
  refine ⟨js, jrnls, ?_⟩
  rw [drain_builds condition can room, queue, built, List.append_assoc]
  rfl

/-! ## Go-back -/

/-- The state in which the acknowledgement timer has expired: N is A again (R168). -/
def goneBack (s : State) : State := { s with sju := s.sju.goBack }

theorem goneBack_inFlight (s : State) : (goneBack s).sju.inFlight = 0 := by
  show (s.sju.ackSeq - s.sju.ackSeq).toNat = 0
  rw [BitVec.sub_self]
  rfl

theorem goneBack_jrnlFrame (s : State) : (goneBack s).jrnlFrame = (ownQueued s .own 11#8 65535#16
    (.journal s.sju.ackSeq (s.sju.journal.take (min 4 s.sju.occupancy)))).frame := by
  have count : (goneBack s).sju.jrnlCount = min 4 (min s.sju.occupancy (64 - 0)) :=
    congrArg (fun n => min 4 (min s.sju.occupancy (64 - n))) (goneBack_inFlight s)
  have four : min 4 (min s.sju.occupancy (64 - 0)) = min 4 s.sju.occupancy := by omega
  unfold State.jrnlFrame
  rw [count, four, goneBack_inFlight]
  rfl

theorem exec_ackTimerExpiry_running {s : State} (on : s.powered = true)
    (running : s.sju.ackTimer.isRunning = true) : exec .ackTimerExpiry s = .next (goneBack s).drain :=
  (exec_ackTimerExpiry on).trans (congrArg _ (if_pos running))

/-! ## JACK -/

theorem advanceAck_pos (s : State) {n : Nat} (h : 0 < n) :
    s.advanceAck n = State.afterAppend { s with sju := s.sju.acknowledge n } :=
  if_neg (Nat.pos_iff_ne_zero.mp h)

theorem afterAppend_out {s : State} (h : s.up.lsu.state ≠ .service) :
    s.afterAppend = s.deriveSalesMode := by
  refine drain_eq_of_not_service _ ?_
  unfold State.deriveSalesMode
  rwa [setSalesMode_up]

/-- What an advance of A by some records leaves (R157, R168, R169). -/
theorem advanceAck_acts (s : State) (n : Nat) (t : State) (ht : t = s.advanceAck n) :
    t.sju.ackSeq = s.sju.ackSeq + BitVec.ofNat 32 n ∧ t.sju.journal = s.sju.journal.drop n
      ∧ t.sju.writeSeq = s.sju.writeSeq ∧ t.sju.ctr = s.sju.ctr
      ∧ (0 < n → t.sju.xc = (t.sju.journal.filterMap (·.offlineTotal)).length
        ∧ t.sju.xa = (t.sju.journal.filterMap (·.offlineTotal)).sum
        ∧ t.sju.salesMode = t.salesModeOf)
      ∧ (s.up.lsu.state ≠ .service → 0 < n → t.sju.nextSeq = s.sju.nextSeq
        ∧ t.sju.ackTimer = if t.sju.ackSeq = s.sju.nextSeq then .stopped else .running 30000)
      ∧ OnlyTrade s t := by
  rcases Nat.eq_zero_or_pos n with rfl | pos
  · obtain rfl : t = s := ht
    exact ⟨(BitVec.add_zero _).symm, rfl, rfl, rfl, fun h => absurd h (Nat.lt_irrefl 0),
      fun _ h => absurd h (Nat.lt_irrefl 0), rfl⟩
  · obtain ⟨u, hu⟩ : ∃ u : State, u = { s with sju := s.sju.acknowledge n } := ⟨_, rfl⟩
    have after : t = u.afterAppend := by rw [ht, advanceAck_pos s pos, hu]
    have trades : Trades u t := after ▸ (afterAppend_announces u).toTrades
    have only := trades.onlyTrade
    have journal := trades.journal
    have sju := trades.sju
    subst hu
    have ack := congrArg Sju.ackSeq sju
    refine ⟨ack, journal, (congrArg Sju.writeSeq sju :), (congrArg Sju.ctr sju :), fun _ => ⟨?_, ?_, ?_⟩,
      fun out _ => ?_, only⟩
    · rw [journal]
      exact (congrArg Sju.xc sju :)
    · rw [journal]
      exact (congrArg Sju.xa sju :)
    · rw [after]
      exact afterAppend_true _
    · have desk := setSalesMode_desk { s with sju := s.sju.acknowledge n }
        (State.salesModeOf { s with sju := s.sju.acknowledge n })
      have same : t.sju = _ := (congrArg State.sju (after.trans (afterAppend_out out))).trans desk.sju
      refine ⟨(congrArg Sju.nextSeq same :), ?_⟩
      rw [ack]
      exact (congrArg Sju.ackTimer same :)

theorem ackThrough_behind {s : State} {k : Seq} (h : 2 ^ 31 ≤ (k - s.sju.ackSeq).toNat) :
    s.ackThrough k = s.modSjuCtr fun c => { c with ackBehind := tally c.ackBehind } := if_pos h

theorem ackThrough_sent {s : State} {k : Seq} (h : ¬ 2 ^ 31 ≤ (k - s.sju.ackSeq).toNat)
    (sent : (k - s.sju.ackSeq).toNat < s.sju.inFlight) :
    s.ackThrough k = s.advanceAck ((k - s.sju.ackSeq).toNat + 1) := (if_neg h).trans (if_pos sent)

theorem ackThrough_ahead {s : State} {k : Seq} (h : ¬ 2 ^ 31 ≤ (k - s.sju.ackSeq).toNat)
    (ahead : ¬ (k - s.sju.ackSeq).toNat < s.sju.inFlight) :
    s.ackThrough k = State.advanceAck
      (s.modSjuCtr fun c => { c with ackAhead := tally c.ackAhead }) s.sju.inFlight :=
  (if_neg h).trans (if_neg ahead)

theorem takeJack_form {s : State} {d : HaltCode} {bs : List Byte}
    (h : bs.length ≠ 4 ∨ d = 0#16) :
    s.takeJack d bs = s.modSjuCtr fun c => { c with jackForm := tally c.jackForm } := by
  unfold State.takeJack
  split
  · next k form =>
    rcases h with len | rfl
    · exact absurd (form.symm.trans (if_neg len)) nofun
    · exact if_neg fun own => own.2 rfl
  · rfl

theorem takeJack_own {s : State} {bs : List Byte} (len : bs.length = 4)
    (own : s.own.haltCode ≠ 0#16) :
    s.takeJack s.own.haltCode bs = s.ackThrough (BitVec.ofNat 32 (field bs 0 4)) := by
  have form : jackOfPayload bs = some (BitVec.ofNat 32 (field bs 0 4)) := if_pos len
  unfold State.takeJack
  rw [form]
  exact if_pos ⟨rfl, own⟩

/-- A frame of the Up port relayed leaves the sales and the journal (R41). -/
theorem relay_up_sju (s : State) (f : RxFrame) : (s.relay .up f).sju = s.sju := by
  unfold State.relay
  split
  · rfl
  · split
    · rfl
    · rw [if_neg fun h => Port.noConfusion h.1]
      unfold State.forward
      rw [Port.other, offer_down]
      rfl

theorem addressRule_all {s : State} (addressed : s.fru.unaddressed = false)
    (own : s.own.haltCode ≠ 0#16) : s.addressRule 0#16 = ⟨true, true⟩ := by
  unfold State.addressRule
  rw [if_neg (Bool.eq_false_iff.mp addressed), if_neg fun e => own e.symm]
  exact if_pos rfl

/-- A JACK to every halt is taken and relayed (R38, log entry 41). -/
theorem exec_jack_all {s : State} {f : RxFrame} {rest : List RxFrame} (pins : StrapPins)
    (on : s.powered = true) (addressed : s.fru.unaddressed = false) (own : s.own.haltCode ≠ 0#16)
    (front : s.up.buffers = f :: rest) (kind : f.kind = 6#8) (all : f.destination = 0#16) :
    exec (.frameClassify .up pins) s
      = .next (((freed s rest).takeJack 0#16 f.payload).relay .up f) := by
  have rule : (freed s rest).verdictOf .up .jack f.destination = ⟨true, true⟩ := by
    rw [all]
    exact addressRule_all (s := freed s rest) addressed own
  refine (exec_frameClassify on (p := .up) front pins).trans (congrArg _ ?_)
  show (freed s rest).classify .up pins f = _
  unfold State.classify
  rw [kind]
  show (freed s rest).classifyKnown .up pins .jack f = _
  unfold State.classifyKnown
  dsimp only
  rw [rule]
  exact congrArg (fun d => ((freed s rest).takeJack d f.payload).relay .up f) all

/-- Settles O49. -/
theorem jackAcknowledges : Obligations.JackAcknowledges := by
  refine ⟨fun s on => ⟨fun stopped => ?_, fun running => ?_⟩,
    fun s pins f rest on addressed own front kind runs => ?_⟩
  · exact (exec_ackTimerExpiry on).trans (congrArg _ (if_neg (Bool.eq_false_iff.mp stopped)))
  · have given := exec_ackTimerExpiry_running on running
    have drains := drain_drains (goneBack s)
    refine ⟨fun idle => given.trans (congrArg _ (drain_idle idle)),
      fun serving free few addressed unsent => ?_, _, given, ?_, ?_⟩
    · have condition := (drainCondition_iff (goneBack s)).mpr ⟨serving, few⟩
      have can := (canBuildJrnl_iff (goneBack s)).mpr
        ⟨unsent, by rw [goneBack_inFlight]; decide, addressed⟩
      have room : Room (goneBack s).up .own := ⟨serving, free, .inr (lt_trans few (by decide))⟩
      obtain ⟨js, jrnls, queue⟩ := drain_queue condition can room
      rw [goneBack_jrnlFrame] at queue
      exact ⟨_, js, given, queue, jrnls, drain_starts_timer condition can room rfl⟩
    · exact drains.sju
    · exact drains.frame
  · dsimp only
    have mine (e : f.destination = s.own.haltCode) : exec (.frameClassify .up pins) s
        = .next ((freed s rest).takeJack f.destination f.payload) :=
      exec_ownFrame ⟨on, addressed, front, kind, e⟩ pins (k := .jack) rfl (by decide) rfl
    refine ⟨fun e len => (mine e).trans (congrArg _ (takeJack_form (.inl len))), fun e => ?_,
      fun e len => ?_⟩
    · refine ⟨_, exec_jack_all pins on addressed own front kind e, ?_⟩
      rw [relay_up_sju, takeJack_form (.inr rfl)]
      rfl
    · have taken : exec (.frameClassify .up pins) s
          = .next ((freed s rest).ackThrough (BitVec.ofNat 32 (field f.payload 0 4))) := by
        rw [mine e, e]
        exact congrArg _ (takeJack_own (s := freed s rest) len own)
      refine ⟨fun far => taken.trans (congrArg _ (ackThrough_behind (s := freed s rest) far)),
        fun n near steps => ?_⟩
      have near : ¬ 2 ^ 31 ≤ (BitVec.ofNat 32 (field f.payload 0 4)
        - (freed s rest).sju.ackSeq).toNat := Nat.not_le.mpr near
      rcases steps with ⟨sent, rfl⟩ | ⟨ahead, rfl⟩
      · obtain ⟨ack, journal, write, ctr, exposure, out, only⟩ := advanceAck_acts (freed s rest) _ _ rfl
        refine ⟨_, taken.trans (congrArg _ (ackThrough_sent (s := freed s rest) near sent)), ack,
          journal, write, ?_, exposure, out, ?_⟩
        · rw [ctr]
          exact (if_pos sent).symm
        · exact only
      · obtain ⟨ack, journal, write, ctr, exposure, out, only⟩ := advanceAck_acts
          ((freed s rest).modSjuCtr fun c => { c with ackAhead := tally c.ackAhead }) _ _ rfl
        refine ⟨_, taken.trans (congrArg _ (ackThrough_ahead (s := freed s rest) near
          (Nat.not_lt.mpr ahead))), ack, journal, write, ?_, exposure, out, only⟩
        rw [ctr]
        exact (if_neg (Nat.not_lt.mpr ahead)).symm

end Sys2Proof.Proofs
end

