-- ==== Sys2Proof/Proofs/Selling.lean ====
section
/-! ISSUE: the tests in their order, and the sale that they let through (R156 to R160). -/

namespace Sys2Proof.Proofs

open Sys2Proof.Machine Sys2Proof.Safety Sys2Proof.Laws

/-! ## The tests of an ISSUE -/

section
variable {s : State} {r : IssueRequest} {q : Quote} {i : Fin 4}

theorem judgePayment_closed (h : s.sju.salesMode = .closed) :
    s.judgePayment q r = .error .salesClosed := if_pos h

theorem payment_bad (h : r.payment.toNat = 0 ∨ 3 < r.payment.toNat) :
    PaymentKind.ofCode r.payment.toNat = none := by
  unfold PaymentKind.ofCode
  split
  · omega
  · omega
  · omega
  · rfl

theorem judgePayment_bad (selling : s.sju.salesMode ≠ .closed)
    (h : r.tendered.toNat < q.total ∨ r.payment.toNat = 0 ∨ 3 < r.payment.toNat) :
    s.judgePayment q r = .error .badMessage := by
  refine (if_neg selling).trans ?_
  cases code : PaymentKind.ofCode r.payment.toNat with
  | none => rfl
  | some k =>
    rcases h with short | bad
    · exact if_pos short
    · exact absurd (code.symm.trans (payment_bad bad)) nofun

/-- The tests 4 and 5 of a payment that is enough (R158). -/
theorem judgePayment_kind {k : PaymentKind} (selling : s.sju.salesMode ≠ .closed)
    (enough : q.total ≤ r.tendered.toNat) (code : PaymentKind.ofCode r.payment.toNat = some k) :
    s.judgePayment q r = if k = .cardOnline ∧ s.sju.salesMode = .offline then .error .linkDown
      else if k = .cardOffline ∧ s.overOffline q.total = true then .error .offlineLimit
      else .ok k := by
  refine (if_neg selling).trans ?_
  rw [code]
  exact if_neg (Nat.not_lt.mpr enough)

theorem judgePayment_ok {k : PaymentKind} (selling : s.sju.salesMode ≠ .closed)
    (enough : q.total ≤ r.tendered.toNat) (code : PaymentKind.ofCode r.payment.toNat = some k)
    (online : k = .cardOnline → s.sju.salesMode ≠ .offline)
    (limit : k = .cardOffline → s.overOffline q.total = false) : s.judgePayment q r = .ok k := by
  refine (judgePayment_kind selling enough code).trans ((if_neg fun h => online h.1 h.2).trans ?_)
  exact if_neg fun h => Bool.false_ne_true ((limit h.1).symm.trans h.2)

theorem overOffline_iff (s : State) (total : Nat) : s.overOffline total = true
    ↔ s.params.offlineCount < s.sju.xc + 1 ∨ s.params.offlineAmount < s.sju.xa + total := by
  simp only [State.overOffline, Bool.or_eq_true, decide_eq_true_eq]

theorem judgeIssue_pending (h : s.sju.pendingAuth ≠ none) : s.judgeIssue r = .error .busy :=
  if_pos (Option.isSome_iff_ne_none.mpr h)

theorem judgeIssue_idle (h : s.sju.pendingAuth = none) : s.judgeIssue r
    = match slotOf r.slot.toNat with
      | none => .error .quoteUnknown
      | some i =>
        match s.fqu.slots[i] with
        | .opened q =>
          match s.judgePayment q r with
          | .ok k => .ok (i, q, k)
          | .error e => .error e
        | .free | .pendingAuth .. => .error .quoteUnknown := by
  refine (if_neg ?_).trans rfl
  rw [h]
  exact nofun

theorem judgeIssue_noSlot (h : s.sju.pendingAuth = none) (no : 3 < r.slot.toNat) :
    s.judgeIssue r = .error .quoteUnknown := by
  rw [judgeIssue_idle h, slotOf_none no]

theorem judgeIssue_notOpened (h : s.sju.pendingAuth = none) (named : r.slot.toNat = i.val)
    (no : ∀ q, s.fqu.slots[i] ≠ .opened q) : s.judgeIssue r = .error .quoteUnknown := by
  rw [judgeIssue_idle h, slotOf_some named]
  dsimp only
  split
  · next q opened => exact absurd opened (no q)
  · rfl
  · rfl

theorem judgeIssue_opened {e : Except Result PaymentKind} (h : s.sju.pendingAuth = none)
    (named : r.slot.toNat = i.val) (opened : s.fqu.slots[i] = .opened q)
    (judged : s.judgePayment q r = e) :
    s.judgeIssue r = e.map fun k => (i, q, k) := by
  rw [judgeIssue_idle h, slotOf_some named]
  dsimp only
  rw [opened]
  dsimp only
  rw [judged]
  cases e <;> rfl

theorem serveIssue_error {e : Result} (h : s.judgeIssue r = .error e) :
    serveIssue r s = { state := s, result := e } := by
  unfold serveIssue
  rw [h]

theorem serveIssue_online (h : s.judgeIssue r = .ok (i, q, .cardOnline)) :
    serveIssue r s = { state := s.startAuth i q r.token, result := .pending } := by
  unfold serveIssue
  rw [h]

theorem serveIssue_now {k : PaymentKind} (h : s.judgeIssue r = .ok (i, q, k))
    (now : k ≠ .cardOnline) : serveIssue r s = s.sellNow i q k r.tendered.toNat := by
  unfold serveIssue
  rw [h]
  cases k with
  | cash => rfl
  | cardOnline => exact absurd rfl now
  | cardOffline => rfl

end

/-! ## What a sale leaves -/

/-- The sales and the journal without what an announcement may change. -/
def bareSju (j : Sju) : Sju :=
  { j with nextSeq := 0#32, quotesHeld := 0, salesMode := .closed, ackTimer := .stopped }

theorem Trades.bareSju {s t : State} (h : Trades s t) : bareSju t.sju = bareSju s.sju :=
  (congrArg (fun u : State => Proofs.bareSju u.sju) h.frame :)

theorem OnlyDesk.bareSju {s t : State} (h : OnlyDesk s t) : bareSju t.sju = bareSju s.sju :=
  (congrArg (fun u : State => Proofs.bareSju u.sju) h :)

theorem mayAppend_sale {s : State} (x : Sale) (set : s.htb.sync ≠ .unset)
    (room : s.sju.occupancy ≤ 503) : s.mayAppend (.sale x) = true := by
  have free : Config.saleNeeds ≤ s.sju.freePlaces := by
    unfold Sju.freePlaces Config.saleNeeds Config.journalRecords
    omega
  exact (Bool.and_eq_true _ _).mpr ⟨bne_iff_ne.mpr set, decide_eq_true free⟩

/-- The books after a sale: its record at W, the ticket counted and in the window (R159). -/
theorem completeSale_sju {s : State} {x : Sale} (may : s.mayAppend (.sale x) = true) (i : Fin 4)
    (q : Quote) : bareSju (s.completeSale i q x).sju
      = bareSju ((s.sju.push (.sale x)).sold s.sju.writeSeq x).withExposure := by
  have asked := (afterAsked_trades s q x).bareSju
  have appended := (appendRecord_of_mayAppend may).bareSju
  rw [completeSale_eq]
  calc bareSju (State.afterAppend _).sju
      = (bareSju (afterAsked s q x).sju).withExposure := (afterAppend_announces _).toTrades.bareSju
    _ = (bareSju (afterSold s x).sju).withExposure := congrArg Sju.withExposure asked
    _ = ((bareSju (s.appendRecord (.sale x)).sju).sold s.sju.writeSeq x).withExposure := rfl
    _ = _ := congrArg (fun j : Sju => (j.sold s.sju.writeSeq x).withExposure) appended

theorem completeSale_slot (s : State) (i : Fin 4) (q : Quote) (x : Sale) :
    (s.completeSale i q x).fqu.slots[i] = .free := by
  have after := (afterAppend_announces { (afterAsked s q x).setSlot i .free with
    sju := ((afterAsked s q x).setSlot i .free).sju.withExposure }).toTrades.slots i
  rw [completeSale_eq]
  have free : ((afterAsked s q x).setSlot i .free).fqu.slots[i] = .free :=
    Vector.getElem_set_self i.isLt
  rw [free] at after
  exact after.of_free

/-- A sale completed at once is in the journal, in the day's total and in the window; its quote slot is
free (R159). -/
structure SoldAtOnce (s t : State) (i : Fin 4) (x : Sale) : Prop where
  journal : t.sju.journal = s.sju.journal ++ [⟨s.sju.writeSeq, .sale x⟩]
  write : t.sju.writeSeq = s.sju.writeSeq + 1#32
  ack : t.sju.ackSeq = s.sju.ackSeq
  counter : t.sju.ticketCounter = s.sju.ticketCounter + 1#32
  totals : t.sju.totals = s.sju.totals.gain x.payment x.total
  window : t.sju.window = (if 4 ≤ s.sju.window.length then s.sju.window.drop 1 else s.sju.window)
    ++ [⟨s.sju.writeSeq, x, .running 60000⟩]
  slot : t.fqu.slots[i] = .free
  count : t.sju.xc = (t.sju.journal.filterMap (·.offlineTotal)).length
  amount : t.sju.xa = (t.sju.journal.filterMap (·.offlineTotal)).sum

theorem completeSale_sold {s : State} {x : Sale} (may : s.mayAppend (.sale x) = true) (i : Fin 4)
    (q : Quote) : SoldAtOnce s (s.completeSale i q x) i x := by
  have books := completeSale_sju may i q
  have journal : (s.completeSale i q x).sju.journal = s.sju.journal ++ [⟨s.sju.writeSeq, .sale x⟩] :=
    (congrArg Sju.journal books :)
  refine ⟨journal, (congrArg Sju.writeSeq books :), (congrArg Sju.ackSeq books :),
    (congrArg Sju.ticketCounter books :), (congrArg Sju.totals books :),
    (congrArg Sju.window books :), completeSale_slot s i q x, ?_, ?_⟩
  · rw [journal]
    exact (congrArg Sju.xc books :)
  · rw [journal]
    exact (congrArg Sju.xa books :)

/-- An ISSUE that is paid at once (R158, R159). -/
theorem issue_sold {s : State} {r : IssueRequest} {i : Fin 4} {q : Quote} {k : PaymentKind}
    (listening : Listening s) (idle : s.sju.pendingAuth = none) (named : r.slot.toNat = i.val)
    (opened : s.fqu.slots[i] = .opened q) (judged : s.judgePayment q r = .ok k)
    (now : k ≠ .cardOnline) (set : s.htb.sync ≠ .unset) (room : s.sju.occupancy ≤ 503) :
    ∃ t, exec (.issue r) s = .next t ∧ SoldAtOnce s t i (s.saleOf q k none)
      ∧ t.tpi.replies = s.tpi.replies ++ [⟨131#8, .ok,
        .issue s.sju.ticketCounter (changeDue k r.tendered.toNat q.total)⟩]
      ∧ OnlyTrade s t := by
  obtain ⟨b, given⟩ := whenServed_listening listening 3#8 (serveIssue r)
  have accepted : ({ s with bdc := b } : State).judgeIssue r = .ok (i, q, k) :=
    judgeIssue_opened (s := { s with bdc := b }) idle named opened judged
  rw [serveIssue_now accepted now] at given
  have settles := completeSale_settles { s with bdc := b } i q (s.saleOf q k none)
  have sold := completeSale_sold (s := { s with bdc := b }) (mayAppend_sale (s.saleOf q k none) set room) i q
  refine ⟨_, (exec_issue s r).trans given, ?_, ?_, ?_⟩
  · obtain ⟨journal, write, ack, counter, totals, window, slot, count, amount⟩ := sold
    exact ⟨journal, write, ack, counter, totals, window, slot, count, amount⟩
  · exact congrArg (· ++ [_]) settles.replies
  · exact congrArg (fun u : State => u.pushReply ⟨131#8, .ok,
      .issue s.sju.ticketCounter (changeDue k r.tendered.toNat q.total)⟩) settles.onlyTrade

theorem issue_refused {s : State} {r : IssueRequest} {e : Result} (listening : Listening s)
    (judged : s.judgeIssue r = .error e) : RefusedWith (.issue r) s 131#8 e :=
  refused_of_served listening (exec_issue s r) fun b =>
    serveIssue_error (s := { s with bdc := b }) judged

/-- A CARD_OFFLINE sale raises the exposure (R157). -/
theorem SoldAtOnce.exposure {s t : State} {i : Fin 4} {x : Sale} (h : SoldAtOnce s t i x)
    (offline : x.payment = .cardOffline) (on : s.powered = true) (ledger : LedgerTrue s) :
    t.sju.xc = s.sju.xc + 1 ∧ t.sju.xa = s.sju.xa + x.total := by
  obtain ⟨count, amount, -⟩ := ledger on
  have more : t.sju.journal.filterMap (·.offlineTotal)
      = s.sju.journal.filterMap (·.offlineTotal) ++ [x.total] := by
    have one : (⟨s.sju.writeSeq, .sale x⟩ : JournalRecord).offlineTotal = some x.total :=
      if_pos offline
    rw [h.journal, List.filterMap_append, List.filterMap_cons_some one]
    rfl
  rw [h.count, h.amount, more, count, amount]
  simp

/-- Settles O45. -/
theorem cashSaleCompletes : Obligations.CashSaleCompletes := by
  intro s r listening
  refine ⟨fun pending => issue_refused listening (judgeIssue_pending pending),
    fun i q idle named opened selling cash enough set room => ?_, fun idle => ?_⟩
  · have code : PaymentKind.ofCode r.payment.toNat = some .cash := by
      rw [cash]
      rfl
    obtain ⟨t, given, ⟨journal, write, ack, counter, totals, window, slot, -, -⟩, replies, only⟩ :=
      issue_sold listening idle named opened (judgePayment_ok selling enough code nofun nofun) nofun
        set room
    exact ⟨t, _, given, journal, write, ack, rfl, rfl, rfl, rfl, rfl, rfl, rfl, rfl, rfl, rfl, rfl,
      rfl, rfl, counter, totals, window, slot, replies, only⟩
  · dsimp only
    refine ⟨fun no => issue_refused listening (judgeIssue_noSlot idle no), fun i named =>
      ⟨fun no => issue_refused listening (judgeIssue_notOpened idle named no), fun q opened =>
      ⟨fun closed => ?_, fun selling => ⟨fun bad => ?_, fun enough card offline => ?_,
        fun enough card => ⟨fun beyond => ?_, fun within set room => ?_⟩⟩⟩⟩⟩
    · exact issue_refused listening (judgeIssue_opened idle named opened (judgePayment_closed closed))
    · exact issue_refused listening
        (judgeIssue_opened idle named opened (judgePayment_bad selling bad))
    · have code : PaymentKind.ofCode r.payment.toNat = some .cardOnline := by
        rw [card]
        rfl
      exact issue_refused listening (judgeIssue_opened idle named opened
        ((judgePayment_kind selling enough code).trans (if_pos ⟨rfl, offline⟩)))
    · have code : PaymentKind.ofCode r.payment.toNat = some .cardOffline := by
        rw [card]
        rfl
      exact issue_refused listening (judgeIssue_opened idle named opened
        ((judgePayment_kind selling enough code).trans ((if_neg fun h => nomatch h.1).trans
          (if_pos ⟨rfl, (overOffline_iff s q.total).mpr beyond⟩))))
    · have code : PaymentKind.ofCode r.payment.toNat = some .cardOffline := by
        rw [card]
        rfl
      have limit : s.overOffline q.total = false :=
        Bool.eq_false_iff.mpr fun h => within ((overOffline_iff s q.total).mp h)
      obtain ⟨t, given, sold, replies, only⟩ := issue_sold listening idle named opened
        (judgePayment_ok selling enough code nofun fun _ => limit) nofun set room
      have exposure := sold.exposure rfl listening.1
      obtain ⟨journal, write, ack, counter, totals, window, slot, -, -⟩ := sold
      exact ⟨t, _, given, journal, write, rfl, rfl, rfl, rfl, rfl, rfl, rfl, rfl, rfl, rfl, rfl, rfl,
        rfl, counter, totals, exposure, window, slot, replies, only⟩

end Sys2Proof.Proofs
end

