-- ==== Sys2Proof/Proofs/Authorisation.lean ====
section
/-! Card authorisations: their start, the answers of the centre, and the end without one (R162 to
R164). -/

namespace Sys2Proof.Proofs

open Sys2Proof.Machine Sys2Proof.Safety Sys2Proof.Laws

/-! ## Notices posted -/

/-- At most so many notices are posted. -/
def Posts (n : Nat) (s t : State) : Prop := t.tpi.ring.length ≤ s.tpi.ring.length + n

theorem Posts.of_tpi {s t : State} (h : t.tpi = s.tpi) : Posts 0 s t := by
  rw [Posts, h]
  exact le_rfl

theorem Posts.trans {n m : Nat} {s t u : State} (h : Posts n s t) (k : Posts m t u) :
    Posts (n + m) s u := by
  unfold Posts at h k ⊢
  omega

theorem Posts.mono {n m : Nat} {s t : State} (h : Posts n s t) (le : n ≤ m) : Posts m s t := by
  unfold Posts at h ⊢
  omega

theorem Posts.ite {c : Prop} [Decidable c] {n : Nat} {s t u : State} (h : Posts n s t)
    (k : Posts n s u) : Posts n s (if c then t else u) := by
  split
  · exact h
  · exact k

theorem Posts.foldl {α : Type} {n : Nat} (f : State → α → State) (h : ∀ s a, Posts n s (f s a))
    (as : List α) (s : State) : Posts (n * as.length) s (as.foldl f s) := by
  induction as generalizing s with
  | nil => exact .of_tpi rfl
  | cons a as ih =>
    refine ((h s a).trans (ih (f s a))).mono ?_
    rw [List.length_cons, Nat.mul_succ, Nat.add_comm]

theorem postNotice_posts (s : State) (n : Notice) : Posts 1 s (s.postNotice n) := by
  obtain ⟨b, e⟩ := postNotice_frame s n
  rw [e, Posts]
  dsimp only
  split
  · simp
  · exact Nat.le_add_right _ 1

theorem withdrawSlot_posts (s : State) (i : Fin 4) : Posts 1 s (s.withdrawSlot i) :=
  postNotice_posts ((s.setSlot i .free).modFquCtr fun c => { c with withdrawn := tally c.withdrawn }) _

theorem invalidateSlot_posts (hit : Quote → Bool) (s : State) (i : Fin 4) :
    Posts 1 s (s.invalidateSlot hit i) := by
  have none : Posts 1 s s := (Posts.of_tpi rfl).mono (Nat.zero_le 1)
  unfold State.invalidateSlot
  split
  · exact none
  · exact none
  · exact .ite (withdrawSlot_posts s i) none
  · exact .ite none none

theorem setSalesMode_posts (s : State) (m : SalesMode) : Posts 5 s (s.setSalesMode m) := by
  have none {t : State} (h : t.tpi = s.tpi) : Posts 1 s t := (Posts.of_tpi h).mono (Nat.zero_le 1)
  unfold State.setSalesMode
  refine .ite ((none rfl).mono (by decide)) ?_
  have posted : Posts 1 s (if s.starting then { s with sju := { s.sju with salesMode := m } }
      else State.postNotice { s with sju := { s.sju with salesMode := m } } (.salesMode m)) :=
    .ite (none rfl) (postNotice_posts { s with sju := { s.sju with salesMode := m } } _)
  exact .ite (posted.trans (Posts.foldl (n := 1) _ (invalidateSlot_posts _) allSlots _))
    (posted.mono (by decide))

theorem afterAppend_posts (s : State) : Posts 5 s s.afterAppend := by
  refine (setSalesMode_posts s s.salesModeOf).trans (m := 0) (.of_tpi ?_)
  exact (congrArg State.tpi (drain_drains s.deriveSalesMode).frame :)

theorem appendRecord_posts (s : State) (b : JournalBody) : Posts 1 s (s.appendRecord b) := by
  have none {t : State} (h : t.tpi = s.tpi) : Posts 1 s t := (Posts.of_tpi h).mono (Nat.zero_le 1)
  unfold State.appendRecord
  exact .ite (.ite (postNotice_posts { s with sju := s.sju.push b } _) (none rfl)) (none rfl)

theorem announceStop_posts (s : State) (k : Key) (a b : StopState) :
    Posts 1 s (s.announceStop k a b) := by
  have composed : Posts 0 s (if a = b then s.deriveLamps else s.deriveLamps.compose) := by
    obtain ⟨x, e⟩ := compose_frame s.deriveLamps
    exact .ite (.of_tpi rfl) (.of_tpi (by rw [e]; rfl))
  exact .ite (composed.trans (postNotice_posts _ _)) (composed.mono (Nat.zero_le 1))

theorem changeStop_posts (s : State) (c : Call) (f : Call → Call) : Posts 1 s (s.changeStop c f) :=
  announceStop_posts (s.modCall c.key f) _ _ _

theorem sendStopreq_posts (s : State) (c : Call) : Posts 1 s (s.sendStopreq c) := by
  have offered : Posts 0 s (afterOffer s c) := 
    .of_tpi (congrArg State.tpi (afterOffer_frame s c) :)
  exact (offered.trans (changeStop_posts _ c _)).mono le_rfl

theorem trySend_posts (s : State) (k : Key) : Posts 1 s (s.trySend k) := by
  have none : Posts 1 s s := (Posts.of_tpi rfl).mono (Nat.zero_le 1)
  unfold State.trySend
  split
  · exact .ite (sendStopreq_posts s _) none
  · exact none

theorem testCutoff_posts (s : State) (k : Key) : Posts 2 s (s.testCutoff k) := by
  have none : Posts 2 s s := (Posts.of_tpi rfl).mono (Nat.zero_le 2)
  unfold State.testCutoff
  split
  · exact none
  · exact .ite none (.ite ((changeStop_posts s _ _).mono (by decide))
      (.ite ((changeStop_posts s _ _).trans (trySend_posts _ k)) none))

theorem ticketRequest_posts (s : State) (k : Key) : Posts 4 s (s.ticketRequest k) := by
  have none : Posts 4 s s := (Posts.of_tpi rfl).mono (Nat.zero_le 4)
  unfold State.ticketRequest
  split
  · exact .ite (((changeStop_posts s _ _).trans (trySend_posts _ _)).trans (testCutoff_posts _ _)) none
  · exact none

theorem completeSale_posts (s : State) (i : Fin 4) (q : Quote) (x : Sale) :
    Posts 10 s (s.completeSale i q x) := by
  have asked : Posts 4 (afterSold s x) (afterAsked s q x) := by
    unfold afterAsked
    split
    · exact ticketRequest_posts _ _
    · exact (Posts.of_tpi rfl).mono (Nat.zero_le 4)
  exact ((appendRecord_posts s (.sale x)).trans asked).trans
    (afterAppend_posts { (afterAsked s q x).setSlot i .free with
      sju := ((afterAsked s q x).setSlot i .free).sju.withExposure })

theorem appendReversal_posts (s : State) (tag : Tag) (total : Nat) (code : List Byte) :
    Posts 6 s (s.appendReversal tag total code) := by
  have none {t : State} (h : t.tpi = s.tpi) : Posts 6 s t := (Posts.of_tpi h).mono (Nat.zero_le 6)
  exact .ite ((appendRecord_posts s _).trans (afterAppend_posts _)) (.ite (none rfl) (none rfl))

/-- A notice posted into a ring that few notices have gone into stands there (R181). -/
theorem posted_of_posts {n : Nat} {s t : State} (h : Posts n s t) (few : n ≤ 11)
    (room : s.tpi.ring.length ≤ 20) (x : Notice) : x ∈ (t.postNotice x).tpi.ring := by
  unfold Posts at h
  rw [postNotice_room (by omega) x]
  exact List.mem_append_right _ (List.mem_singleton.mpr rfl)

/-! ## The start -/

/-- The slot in authorisation and the authorisation pending, before the AUTHREQ is offered (R162). -/
def authStarted (s : State) (i : Fin 4) (q : Quote) : State :=
  { s.setSlot i (.pendingAuth q false) with
    sju := { (s.setSlot i (.pendingAuth q false)).sju with
      authSerial := s.sju.authSerial + 1#8
      pendingAuth := some ⟨⟨s.own.haltCode, BitVec.ofNat 8 i.val, s.sju.authSerial⟩, i, q.total,
        .running (1000 * s.params.authTimeout)⟩
      authsPending := 1 } }

/-- The payload of the AUTHREQ of a quote (R162, 11.7). -/
def authreqOctets (s : State) (i : Fin 4) (q : Quote) (token : List Byte) : List Byte :=
  be 2 s.own.haltCode.toNat ++ [BitVec.ofNat 8 i.val, s.sju.authSerial] ++ be 3 q.total ++ token

theorem startAuth_eq (s : State) (i : Fin 4) (q : Quote) (token : List Byte) :
    s.startAuth i q token = (authStarted s i q).offerOwn .up .authreq centre
      (.octets (authreqOctets s i q token)) := rfl

/-- What the start of an authorisation leaves (R162). -/
theorem startAuth_acts (s : State) (i : Fin 4) (q : Quote) (token : List Byte) :
    (s.startAuth i q token).fqu.slots = s.fqu.slots.set i (.pendingAuth q false)
      ∧ (s.startAuth i q token).sju.pendingAuth = some ⟨⟨s.own.haltCode, BitVec.ofNat 8 i.val,
        s.sju.authSerial⟩, i, q.total, .running (1000 * s.params.authTimeout)⟩
      ∧ (s.startAuth i q token).sju.authSerial = s.sju.authSerial + 1#8
      ∧ (s.startAuth i q token).sju.journal = s.sju.journal
      ∧ (s.fru.unaddressed = false → Room s.up .urgent → QueuedUp s (s.startAuth i q token)
        (ownQueued s .urgent 14#8 65535#16 (.octets (authreqOctets s i q token)))) := by
  have trades := (offerOwnUp_announces (authStarted s i q) .authreq centre
    (.octets (authreqOctets s i q token))).toTrades
  have frame := offerOwnUp_frame (authStarted s i q) .authreq centre
    (.octets (authreqOctets s i q token))
  have books := trades.bareSju
  rw [startAuth_eq]
  refine ⟨?_, (congrArg Sju.pendingAuth books :), (congrArg Sju.authSerial books :),
    (congrArg Sju.journal books :), fun addressed room => ?_⟩
  · exact (congrArg (fun u : State => u.fqu.slots) frame :)
  · exact offerOwnUp_queued (s := authStarted s i q) (k := .authreq) addressed room centre _

/-! ## The end -/

theorem endAuth_slot (s : State) (p : PendingAuth) : (s.endAuth p).fqu.slots[p.slot] = .free :=
  Vector.getElem_set_self p.slot.isLt

/-- The pending authorisation ended, the timed-out tag noted, before the notice (R164). -/
def authAbandoned (s : State) (p : PendingAuth) (count : SjuCounters → SjuCounters) : State :=
  State.modSjuCtr { s.endAuth p with sju := { (s.endAuth p).sju with
    lateTags := addLateTag s.sju.lateTags ⟨p.tag, p.total⟩ } } count

theorem abandonAuth_eq {s : State} {p : PendingAuth} (pending : s.sju.pendingAuth = some p)
    (r : Result) (count : SjuCounters → SjuCounters) :
    s.abandonAuth r count = (authAbandoned s p count).postNotice (.issueDone p.slot r none) := by
  unfold State.abandonAuth
  rw [pending]
  rfl

/-! ## Answers -/

section
variable {s : State} {f : RxFrame} {rest : List RxFrame}

theorem exec_authres (own : OwnFrame s f rest 7#8) (pins : StrapPins) :
    exec (.frameClassify .up pins) s = .next ((freed s rest).takeAuthres f.payload) :=
  exec_ownFrame own pins (k := .authres) rfl (by decide) rfl

theorem takeAuthres_form {bs : List Byte} (h : AuthResult.ofPayload bs = none) :
    s.takeAuthres bs = s.modSjuCtr fun c => { c with authForm := tally c.authForm } := by
  unfold State.takeAuthres
  rw [h]

theorem takeAuthres_answer {bs : List Byte} {a : AuthResult} (h : AuthResult.ofPayload bs = some a) :
    s.takeAuthres bs = s.answerAuth a := by
  unfold State.takeAuthres
  rw [h]

variable {p : PendingAuth} {a : AuthResult}

theorem answerAuth_pending (pending : s.sju.pendingAuth = some p) (tag : p.tag = a.tag) :
    s.answerAuth a = s.answerPending p a := by
  have found : (s.sju.pendingAuth.filter fun p => p.tag == a.tag) = some p := by
    rw [pending, Option.filter_some, if_pos (beq_iff_eq.mpr tag)]
  unfold State.answerAuth
  rw [found]

theorem not_pending (other : ∀ p, s.sju.pendingAuth = some p → p.tag ≠ a.tag) :
    (s.sju.pendingAuth.filter fun p => p.tag == a.tag) = none := by
  rw [Option.filter_eq_none_iff]
  exact fun p hp tag => other p hp (beq_iff_eq.mp tag)

theorem answerAuth_unknown (other : ∀ p, s.sju.pendingAuth = some p → p.tag ≠ a.tag)
    (late : ∀ y ∈ s.sju.lateTags, y.tag ≠ a.tag) :
    s.answerAuth a = s.modSjuCtr fun c => { c with authUnknown := tally c.authUnknown } := by
  have found : (s.sju.lateTags.find? fun t => t.tag == a.tag) = none :=
    List.find?_eq_none.mpr fun y hy => by simpa using late y hy
  unfold State.answerAuth
  rw [not_pending other, found]

theorem answerAuth_late {before after : List LateTag} {x : LateTag}
    (other : ∀ p, s.sju.pendingAuth = some p → p.tag ≠ a.tag)
    (late : s.sju.lateTags = before ++ x :: after) (tag : x.tag = a.tag)
    (only : ∀ y ∈ before ++ after, y.tag ≠ a.tag) : s.answerAuth a = s.answerLate x a := by
  have found : (s.sju.lateTags.find? fun t => t.tag == a.tag) = some x := by
    rw [late]
    refine List.find?_eq_some_iff_append.mpr ⟨beq_iff_eq.mpr tag, before, after, rfl, fun y hy => ?_⟩
    simpa using only y (List.mem_append_left _ hy)
  unfold State.answerAuth
  rw [not_pending other, found]

theorem lateTags_without {before after : List LateTag} {x : LateTag} {tag : Tag}
    (late : s.sju.lateTags = before ++ x :: after) (named : x.tag = tag)
    (only : ∀ y ∈ before ++ after, y.tag ≠ tag) :
    s.sju.lateTags.filter (fun y => y.tag != x.tag) = before ++ after := by
  have kept : ∀ y ∈ before ++ after, (y.tag != x.tag) = true := fun y hy =>
    bne_iff_ne.mpr (named ▸ only y hy)
  rw [late, List.filter_append, List.filter_cons_of_neg (by simp), ← List.filter_append]
  exact List.filter_eq_self.mpr kept

theorem answerPending_declined (no : a.approved = false) :
    s.answerPending p a
      = (s.endAuth p).postNotice (.issueDone p.slot (declinedAs s.fqu.slots[p.slot]) none) :=
  if_neg (Bool.eq_false_iff.mp no)

theorem answerPending_approved (yes : a.approved = true) :
    s.answerPending p a = s.approve p a.authCode := if_pos yes

theorem approve_live {q : Quote} (slot : s.fqu.slots[p.slot] = .pendingAuth q false)
    (code : List Byte) : s.approve p code
      = ((s.endAuth p).completeSale p.slot q (s.saleOf q .cardOnline (some code))).postNotice
        (.issueDone p.slot .ok (some s.sju.ticketCounter)) := by
  unfold State.approve
  rw [slot]
  rfl

theorem approve_withdrawn {q : Quote} (slot : s.fqu.slots[p.slot] = .pendingAuth q true)
    (code : List Byte) : s.approve p code
      = ((s.appendReversal p.tag p.total code).endAuth p).postNotice
        (.issueDone p.slot .quoteWithdrawn none) := by
  unfold State.approve
  rw [slot]

end

/-! ## Reversals -/

section
variable (s : State) (tag : Tag) (total : Nat) (code : List Byte)

/-- The record of a reversal (R163). -/
def reversalOf : JournalBody := .reversal s.htb.date s.htb.secs tag total code

/-- A REVERSAL with room for its record stands behind the others (R163, R165). -/
theorem appendReversal_journal (set : s.htb.sync ≠ .unset) (room : s.sju.occupancy < 512) :
    bareSju (s.appendReversal tag total code).sju
      = bareSju (s.sju.push (reversalOf s tag total code)) := by
  have may : s.mayAppend (reversalOf s tag total code) = true := mayAppend_of_room rfl set room
  have e : s.appendReversal tag total code
      = (s.appendRecord (reversalOf s tag total code)).afterAppend := if_pos may
  rw [e, (afterAppend_announces _).toTrades.bareSju, (appendRecord_of_mayAppend may).bareSju]

/-- A REVERSAL without room is lost and counted (R163, R165). -/
theorem appendReversal_lost (set : s.htb.sync ≠ .unset) (full : 512 ≤ s.sju.occupancy) :
    s.appendReversal tag total code
      = s.modSjuCtr fun c => { c with reversalLost := tally c.reversalLost } := by
  have may : s.mayAppend (reversalOf s tag total code) = false := mayAppend_of_full rfl full
  exact (if_neg (Bool.eq_false_iff.mp may)).trans (if_neg set)

end

/-! ## The answer to the pending authorisation -/

theorem completeSale_auths (s : State) (i : Fin 4) (q : Quote) (x : Sale) :
    (s.completeSale i q x).sju.pendingAuth = s.sju.pendingAuth
      ∧ (s.completeSale i q x).sju.authsPending = s.sju.authsPending := by
  obtain ⟨pending, auths⟩ := appendRecord_auths s (.sale x)
  have asked := afterAsked_trades s q x
  have after := (afterAppend_announces { (afterAsked s q x).setSlot i .free with
    sju := ((afterAsked s q x).setSlot i .free).sju.withExposure }).toTrades
  rw [completeSale_eq]
  exact ⟨after.pendingAuth.trans (asked.pendingAuth.trans pending),
    after.authsPending.trans (asked.authsPending.trans auths)⟩

/-- The pending authorisation ends with its answer, and its slot is free (R163). -/
theorem answerPending_slot {s : State} {p : PendingAuth} {a : AuthResult} {q : Quote} {w : Bool}
    (slot : s.fqu.slots[p.slot] = .pendingAuth q w) :
    (s.answerPending p a).sju.pendingAuth = none ∧ (s.answerPending p a).sju.authsPending = 0
      ∧ (s.answerPending p a).fqu.slots[p.slot] = .free := by
  have ended (u : State) (n : Notice) : ((u.endAuth p).postNotice n).sju.pendingAuth = none
      ∧ ((u.endAuth p).postNotice n).sju.authsPending = 0
      ∧ ((u.endAuth p).postNotice n).fqu.slots[p.slot] = .free := by
    obtain ⟨b, e⟩ := postNotice_frame (u.endAuth p) n
    rw [e]
    exact ⟨rfl, rfl, endAuth_slot u p⟩
  cases yes : a.approved with
  | false =>
    rw [answerPending_declined yes]
    exact ended s _
  | true =>
    rw [answerPending_approved yes]
    cases w with
    | true =>
      rw [approve_withdrawn slot]
      exact ended _ _
    | false =>
      obtain ⟨pending, auths⟩ := completeSale_auths (s.endAuth p) p.slot q
        (s.saleOf q .cardOnline (some a.authCode))
      rw [approve_live slot]
      obtain ⟨b, e⟩ := postNotice_frame ((s.endAuth p).completeSale p.slot q
        (s.saleOf q .cardOnline (some a.authCode))) (.issueDone p.slot .ok (some s.sju.ticketCounter))
      rw [e]
      exact ⟨pending, auths, completeSale_slot _ _ _ _⟩

section
variable {s : State} {p : PendingAuth} {a : AuthResult} {q : Quote}

/-- An approval while the quote stands completes the sale, and says so (R163). -/
theorem answerPending_sold (slot : s.fqu.slots[p.slot] = .pendingAuth q false)
    (yes : a.approved = true) (set : s.htb.sync ≠ .unset) (room : s.sju.occupancy ≤ 503) :
    SoldAtOnce s (s.answerPending p a) p.slot (s.saleOf q .cardOnline (some a.authCode))
      ∧ (s.tpi.ring.length ≤ 20 → .issueDone p.slot .ok (some s.sju.ticketCounter)
        ∈ (s.answerPending p a).tpi.ring) := by
  obtain ⟨x, hx⟩ : ∃ x, x = s.saleOf q .cardOnline (some a.authCode) := ⟨_, rfl⟩
  rw [answerPending_approved yes, approve_live slot, ← hx]
  obtain ⟨journal, write, ack, counter, totals, window, free, count, amount⟩ :=
    completeSale_sold (s := s.endAuth p) (mayAppend_sale x set room) p.slot q
  have posts := completeSale_posts (s.endAuth p) p.slot q x
  refine ⟨?_, fun few => posted_of_posts posts (by decide) few _⟩
  obtain ⟨b, e⟩ := postNotice_frame ((s.endAuth p).completeSale p.slot q x)
    (.issueDone p.slot .ok (some s.sju.ticketCounter))
  rw [e]
  exact ⟨journal, write, ack, counter, totals, window, free, count, amount⟩

/-- An approval after the quote was withdrawn is reversed (R163). -/
theorem answerPending_reversed (slot : s.fqu.slots[p.slot] = .pendingAuth q true)
    (yes : a.approved = true) (set : s.htb.sync ≠ .unset) (room : s.sju.occupancy < 512) :
    (s.answerPending p a).sju.journal = s.sju.journal
        ++ [⟨s.sju.writeSeq, reversalOf s p.tag p.total a.authCode⟩]
      ∧ (s.tpi.ring.length ≤ 20 →
        .issueDone p.slot .quoteWithdrawn none ∈ (s.answerPending p a).tpi.ring) := by
  rw [answerPending_approved yes, approve_withdrawn slot]
  have books := appendReversal_journal s p.tag p.total a.authCode set room
  have posts := appendReversal_posts s p.tag p.total a.authCode
  obtain ⟨u, hu⟩ : ∃ u, u = (s.appendReversal p.tag p.total a.authCode).endAuth p := ⟨_, rfl⟩
  have kept : u.tpi = (s.appendReversal p.tag p.total a.authCode).tpi := by
    rw [hu]
    rfl
  have journal : u.sju.journal = (s.appendReversal p.tag p.total a.authCode).sju.journal := by
    rw [hu]
    rfl
  have posts : Posts (6 + 0) s u := posts.trans (.of_tpi kept)
  rw [← hu]
  refine ⟨?_, fun few => posted_of_posts posts (by decide) few _⟩
  have posted := congrArg Sju.journal (postNotice_desk u (.issueDone p.slot .quoteWithdrawn none)).bareSju
  exact posted.trans (journal.trans (congrArg Sju.journal books :))

/-- A reversal without room is lost (R163, R165). -/
theorem answerPending_lost (slot : s.fqu.slots[p.slot] = .pendingAuth q true)
    (yes : a.approved = true) (set : s.htb.sync ≠ .unset) (full : 512 ≤ s.sju.occupancy) :
    (s.answerPending p a).sju.journal = s.sju.journal
      ∧ (s.answerPending p a).sju.ctr.reversalLost = tally s.sju.ctr.reversalLost := by
  rw [answerPending_approved yes, approve_withdrawn slot, appendReversal_lost s _ _ _ set full]
  obtain ⟨b, e⟩ := postNotice_frame ((s.modSjuCtr fun c =>
    { c with reversalLost := tally c.reversalLost }).endAuth p) (.issueDone p.slot .quoteWithdrawn none)
  rw [e]
  exact ⟨rfl, rfl⟩

/-- A refusal tells the terminal, and changes nothing else (R163). -/
theorem answerPending_refused {w : Bool} (slot : s.fqu.slots[p.slot] = .pendingAuth q w)
    (no : a.approved = false) : (s.answerPending p a).sju.journal = s.sju.journal
      ∧ (s.answerPending p a).sju.ticketCounter = s.sju.ticketCounter
      ∧ (s.answerPending p a).up = s.up ∧ (s.answerPending p a).tts = s.tts
      ∧ (s.tpi.ring.length < 32 → (s.answerPending p a).tpi.ring = s.tpi.ring
        ++ [.issueDone p.slot (if w = true then .quoteWithdrawn else .declined) none]) := by
  have result : declinedAs s.fqu.slots[p.slot] = if w = true then .quoteWithdrawn else .declined := by
    rw [slot]
    cases w <;> rfl
  rw [answerPending_declined no, result]
  obtain ⟨b, e⟩ := postNotice_frame (s.endAuth p)
    (.issueDone p.slot (if w = true then .quoteWithdrawn else .declined) none)
  refine ⟨?_, ?_, ?_, ?_, fun room => postNotice_room (s := s.endAuth p) room _⟩
  all_goals
    rw [e]
    rfl

end

section
variable {s : State} {f : RxFrame} {rest : List RxFrame} {pins : StrapPins} {r : AuthResult}

theorem pendingAnswered (own : OwnFrame s f rest 7#8) (form : AuthResult.ofPayload f.payload = some r) :
    PendingAnswered s rest pins r := by
  intro a q w pending tag slot
  have given : exec (.frameClassify .up pins) s = .next ((freed s rest).answerPending a r) := by
    rw [exec_authres own, takeAuthres_answer form]
    exact congrArg _ (answerAuth_pending (s := freed s rest) pending tag)
  obtain ⟨ended, zero, free⟩ := answerPending_slot (s := freed s rest) (a := r) slot
  refine ⟨_, given, ended, zero, free, (answerPending_settles _ _ _).onlyTrade,
    fun yes live set room => ?_, fun yes withdrawn set room => ?_, fun yes withdrawn set full => ?_,
    fun no => answerPending_refused (s := freed s rest) slot no⟩
  · obtain ⟨⟨journal, -, -, counter, totals, -, -, -, -⟩, posted⟩ :=
      answerPending_sold (s := freed s rest) (live ▸ slot) yes set room
    exact ⟨⟨_, journal, rfl, rfl, rfl, rfl, rfl, rfl, rfl⟩, counter, totals, posted⟩
  · rw [withReversal, ← tag]
    exact answerPending_reversed (s := freed s rest) (withdrawn ▸ slot) yes set room
  · exact answerPending_lost (s := freed s rest) (withdrawn ▸ slot) yes set full

/-- The answer to a timed-out tag, the tag out of the list (R163). -/
theorem answerLate_eq {s : State} {before after : List LateTag} {x : LateTag}
    (late : s.sju.lateTags = before ++ x :: after) (tag : x.tag = r.tag)
    (only : ∀ y ∈ before ++ after, y.tag ≠ r.tag) : s.answerLate x r = if r.approved
      then State.appendReversal { s with sju := { s.sju with lateTags := before ++ after } }
        x.tag x.total r.authCode
      else State.modSjuCtr { s with sju := { s.sju with lateTags := before ++ after } }
        fun c => { c with authLate := tally c.authLate } := by
  unfold State.answerLate
  rw [lateTags_without late tag only]

theorem otherAnswered (own : OwnFrame s f rest 7#8) (form : AuthResult.ofPayload f.payload = some r) :
    OtherAnswered s rest pins r := by
  intro other
  have given : exec (.frameClassify .up pins) s = .next ((freed s rest).answerAuth r) := by
    rw [exec_authres own, takeAuthres_answer form]
  refine ⟨fun before after x late tag only => ?_, fun unknown => given.trans (congrArg _
    (answerAuth_unknown (s := freed s rest) other unknown))⟩
  have answered := given.trans (congrArg _ (answerAuth_late (s := freed s rest) other late tag only))
  have taken := answerLate_eq (s := freed s rest) late tag only
  refine ⟨fun no => ?_, fun yes set => ?_⟩
  · exact answered.trans (congrArg _ (taken.trans (if_neg (Bool.eq_false_iff.mp no))))
  · rw [if_pos yes, tag] at taken
    have trade := (answerLate_settles (freed s rest) x r).onlyTrade
    rw [taken] at answered trade
    rcases Nat.lt_or_ge s.sju.occupancy 512 with room | full
    · have books := appendReversal_journal { freed s rest with sju := { s.sju with
        lateTags := before ++ after } } r.tag x.total r.authCode set room
      exact ⟨_, answered, (congrArg Sju.lateTags books :), trade,
        fun _ => (congrArg Sju.journal books :), fun full => absurd room (Nat.not_lt.mpr full)⟩
    · have lost := appendReversal_lost { freed s rest with sju := { s.sju with
        lateTags := before ++ after } } r.tag x.total r.authCode set full
      refine ⟨_, answered, ?_, trade, fun room => absurd room (Nat.not_lt.mpr full), fun _ => ?_⟩
      · exact (congrArg (fun u : State => u.sju.lateTags) lost :)
      · exact ⟨(congrArg (fun u : State => u.sju.journal) lost :),
          (congrArg (fun u : State => u.sju.ctr.reversalLost) lost :)⟩

end

/-- Settles O46. -/
theorem authorisationBeginsAndTimesOut : Obligations.AuthorisationBeginsAndTimesOut := by
  refine ⟨fun s r i q listening idle named opened selling card enough => ?_,
    fun s a on pending running => ?_, fun s f rest pins own => ⟨fun form => ?_, fun r form =>
      ⟨pendingAnswered own form, otherAnswered own form⟩⟩⟩
  · have code : PaymentKind.ofCode r.payment.toNat = some .cardOnline := by
      rw [card]
      rfl
    have judged : s.judgePayment q r = .ok .cardOnline :=
      judgePayment_ok (by rw [selling]; exact nofun) enough code (fun _ => by rw [selling]; exact nofun)
        nofun
    obtain ⟨b, given⟩ := whenServed_listening listening 3#8 (serveIssue r)
    have accepted : ({ s with bdc := b } : State).judgeIssue r = .ok (i, q, .cardOnline) :=
      judgeIssue_opened (s := { s with bdc := b }) idle named opened judged
    rw [serveIssue_online accepted] at given
    have settles := startAuth_settles { s with bdc := b } i q r.token
    obtain ⟨slots, pending, serial, journal, queued⟩ := startAuth_acts { s with bdc := b } i q r.token
    refine ⟨_, (exec_issue s r).trans given, slots, pending, serial, journal, ?_, ?_, queued⟩
    · exact congrArg (· ++ [_]) settles.replies
    · exact congrArg (fun u : State => u.pushReply ⟨131#8, .pending, .empty⟩) settles.onlyTrade
  · have given : exec .authTimerExpiry s = .next
        ((authAbandoned s a fun c => { c with authTimeouts := tally c.authTimeouts }).postNotice
          (.issueDone a.slot .authTimeout none)) := by
      rw [exec_authTimerExpiry on, pending]
      exact congrArg _ ((if_pos running).trans (abandonAuth_eq pending _ _))
    refine ⟨_, given, ?_⟩
    obtain ⟨b, e⟩ := postNotice_frame
      (authAbandoned s a fun c => { c with authTimeouts := tally c.authTimeouts })
      (.issueDone a.slot .authTimeout none)
    rw [e]
    exact ⟨rfl, rfl, rfl, rfl, rfl, rfl, fun room => congrArg Tpi.ring (if_pos room), rfl⟩
  · exact (exec_authres own pins).trans (congrArg _ (takeAuthres_form (s := freed s rest) form))

end Sys2Proof.Proofs
end

