-- ==== Sys2Proof/Proofs/Relaying.lean ====
section
/-! Classification and relaying: who takes a frame, and the copy that travels on (R36 to R43, R51). -/

namespace Sys2Proof.Proofs

open Sys2Proof.Machine Sys2Proof.Safety Sys2Proof.Laws

/-! ## The relay steps -/

section
variable {v : State} {p : Port} {f : RxFrame}

/-- The copy of a relayed frame in its queue (R41). -/
def copyOf (f : RxFrame) : Queued := ⟨relayClass f.kind, f.copy⟩

theorem forward_eq (v : State) (p : Port) (f : RxFrame) : v.forward p f = v.offer p.other (copyOf f) :=
  rfl

theorem relay_off (off : (v.port p.other).lsu.state = .off) : v.relay p f = v := if_pos off

theorem relay_hopEnd (live : (v.port p.other).lsu.state ≠ .off) (hop : f.hop = 1#8) :
    v.relay p f = v.modFruCtr p fun k => { k with hopEnd := tally k.hopEnd } :=
  (if_neg live).trans (if_pos hop)

theorem relay_forward (live : (v.port p.other).lsu.state ≠ .off) (hop : f.hop ≠ 1#8)
    (plain : ¬ (p = .down ∧ f.kind = 10#8)) : v.relay p f = v.offer p.other (copyOf f) :=
  ((if_neg live).trans (if_neg hop)).trans (if_neg plain)

theorem offer_out {q : Queued} (out : (v.port p).lsu.state ≠ .service) :
    v.offer p q = v.modFruCtr p fun k => { k with portDownDrop := tally k.portDownDrop } := by
  rw [offer_of_not_room fun room => out (room_serving room), countDrop_of_not_service _ out]
  rfl

theorem offer_full {q : Queued} (serving : (v.port p).lsu.state = .service)
    (full : ¬ Room (v.port p) q.cls) : v.offer p q = v.modFruCtr p fun k => match q.cls with
      | .urgent => { k with dropUrgent := tally k.dropUrgent }
      | .relay => { k with dropRelay := tally k.dropRelay }
      | .own => { k with dropOwn := tally k.dropOwn } := by
  rw [offer_of_not_room full, countDrop_of_service _ serving]
  rfl

/-- A copy admitted to the other port stands behind its queue (R41, R51). -/
theorem offer_other_of_room {q : Queued} (room : Room (v.port p.other) q.cls) : ∃ js, AllJrnl js
    ∧ ((v.offer p.other q).port p.other).queue = (v.port p.other).queue ++ q :: js
    ∧ (p = .up → js = []) ∧ (v.offer p.other q).port p = v.port p
    ∧ v.offer p.other q = { v with
        up := (v.offer p.other q).up, down := (v.offer p.other q).down
        sju := (v.offer p.other q).sju } := by
  cases p with
  | up =>
    have e : v.offer .down q = { v with down := { v.down with queue := v.down.queue ++ [q] } } := by
      rw [offer_down, State.modPort_eq, State.port_down, enqueue_of_room (lp := v.down) room]
      rfl
    refine ⟨[], allJrnl_nil, (congrArg (fun u : State => u.down.queue) e :), fun _ => rfl,
      (congrArg State.up e :), ?_⟩
    exact e.trans (congrArg (fun u : State => { v with
      up := u.up, down := u.down, sju := u.sju }) e).symm
  | down =>
    have drains := offer_up_of_room (s := v) (q := q) room
    obtain ⟨js, jrnls, queue⟩ := drains.queue
    refine ⟨js, jrnls, ?_, nofun, (congrArg State.down drains.frame :), ?_⟩
    · refine queue.trans ?_
      rw [List.append_assoc]
      rfl
    · exact drains.frame.trans (congrArg (fun u : State => { v with
        up := (v.offer .up q).up, down := u.down, sju := (v.offer .up q).sju }) drains.frame).symm

/-- The relay steps forward a frame that the BEACON filter does not hold (R41, R51). -/
theorem relay_forwarded (v : State) (plain : ¬ (p = .down ∧ f.kind = 10#8)) :
    Forwarded v (v.relay p f) p f (relayClass f.kind) := by
  refine ⟨relay_off, relay_hopEnd, fun live out hop => ?_, fun serving full hop => ?_,
    fun room hop => ?_⟩
  · rw [relay_forward live hop plain]
    exact offer_out out
  · rw [relay_forward (by rw [serving]; exact nofun) hop plain]
    refine (offer_full (q := copyOf f) serving full).trans ?_
    show (v.modFruCtr p.other fun k => match relayClass f.kind with
      | .urgent => { k with dropUrgent := tally k.dropUrgent }
      | .relay => { k with dropRelay := tally k.dropRelay }
      | .own => { k with dropOwn := tally k.dropOwn }) = _
    cases relayClass f.kind <;> rfl
  · rw [relay_forward (by rw [room_serving room]; exact nofun) hop plain]
    exact offer_other_of_room (q := copyOf f) room

end

/-! ## The address rule -/

section
variable {s : State} {d : HaltCode}

/-- A code inside an enabled group window (R39). -/
def Grouped (s : State) (d : HaltCode) : Prop :=
  ∃ (i : Fin 4) (w : GroupWindow), s.fru.windows[i] = some w ∧ w.base ≤ d.toNat
    ∧ d.toNat < w.base + w.size ∧ 1 ≤ d.toNat ∧ d.toNat ≤ 4000

theorem inWindow_iff_grouped (s : State) (d : HaltCode) : s.fru.inWindow d = true ↔ Grouped s d :=
  (inWindow_iff s.fru d).trans (exists₂_congr fun _ w => and_congr_right fun _ => covers_iff w d)

theorem addressRule_unaddressed (h : s.fru.unaddressed = true) :
    s.addressRule d = ⟨d == 0#16, true⟩ := if_pos h

theorem addressRule_own (h : s.fru.unaddressed = false) (own : d = s.own.haltCode) :
    s.addressRule d = ⟨true, false⟩ := (if_neg (Bool.eq_false_iff.mp h)).trans (if_pos own)

theorem addressRule_group (h : s.fru.unaddressed = false) (own : d ≠ s.own.haltCode)
    (group : d = 0#16 ∨ Grouped s d) : s.addressRule d = ⟨true, true⟩ := by
  refine (if_neg (Bool.eq_false_iff.mp h)).trans ((if_neg own).trans ?_)
  split
  · rfl
  · next other => exact if_pos ((inWindow_iff_grouped s d).mpr (group.resolve_left other))

theorem addressRule_elsewhere (h : s.fru.unaddressed = false) (own : d ≠ s.own.haltCode)
    (all : d ≠ 0#16) (group : ¬ Grouped s d) : s.addressRule d = ⟨false, true⟩ :=
  (if_neg (Bool.eq_false_iff.mp h)).trans ((if_neg own).trans ((if_neg all).trans
    (if_neg fun inside => group ((inWindow_iff_grouped s d).mp inside))))

theorem addressRule_relays (h : s.fru.unaddressed = true ∨ d ≠ s.own.haltCode) :
    (s.addressRule d).relay = true := by
  cases addressed : s.fru.unaddressed with
  | true => rw [addressRule_unaddressed addressed]
  | false =>
    have own := h.resolve_left (by rw [addressed]; exact nofun)
    by_cases group : d = 0#16 ∨ Grouped s d
    · rw [addressRule_group addressed own group]
    · rw [not_or] at group
      rw [addressRule_elsewhere addressed own group.1 group.2]

end

/-! ## Kinds -/

/-- The kinds that the address rule judges on the Up port (R37). -/
abbrev Addressed (k : Kind) : Prop := k ∈ [Kind.time, .load, .query, .ctrl, .jack, .authres, .stopconf]

theorem verdictOf_down {k : Kind} (h : Addressed k) (s : State) (d : HaltCode) :
    s.verdictOf .down k d = ⟨false, true⟩ := by
  simp only [Addressed, List.mem_cons, List.not_mem_nil, or_false] at h
  rcases h with rfl | rfl | rfl | rfl | rfl | rfl | rfl <;> rfl

/-- The kinds of a class that the address rule judges, by their codes (R37, R50). -/
def Ruled (code : Byte) (cls : TxClass) : Prop :=
  (code ∈ [2#8, 7#8, 8#8] ∧ cls = .urgent) ∨ (code ∈ [3#8, 4#8, 5#8, 6#8] ∧ cls = .relay)

theorem Ruled.kind {code : Byte} {cls : TxClass} (h : Ruled code cls) :
    ∃ k, Kind.ofCode code = some k ∧ Addressed k ∧ k.code = code := by
  simp only [Ruled, List.mem_cons, List.not_mem_nil, or_false] at h
  rcases h with ⟨rfl | rfl | rfl, -⟩ | ⟨rfl | rfl | rfl | rfl, -⟩
  all_goals exact ⟨_, rfl, by decide, rfl⟩

theorem Ruled.cls {code : Byte} {cls : TxClass} (h : Ruled code cls) : cls = relayClass code := by
  simp only [Ruled, List.mem_cons, List.not_mem_nil, or_false] at h
  rcases h with ⟨rfl | rfl | rfl, rfl⟩ | ⟨rfl | rfl | rfl | rfl, rfl⟩ <;> rfl

theorem Ruled.not_beacon {code : Byte} {cls : TxClass} (h : Ruled code cls) : code ≠ 10#8 := by
  simp only [Ruled, List.mem_cons, List.not_mem_nil, or_false] at h
  rcases h with ⟨rfl | rfl | rfl, -⟩ | ⟨rfl | rfl | rfl | rfl, -⟩ <;> decide

theorem code_of_ofCode {code : Byte} {k : Kind} (h : Kind.ofCode code = some k) : code = k.code := by
  have toNat : code.toNat = k.code.toNat := by
    unfold Kind.ofCode at h
    split at h
    all_goals first
      | (cases h; assumption)
      | cases h
  exact BitVec.eq_of_toNat_eq toNat

theorem ofCode_unknown {code : Byte} (h : code = 0#8 ∨ 14#8 < code) : Kind.ofCode code = none := by
  have bound : code.toNat = 0 ∨ 14 < code.toNat := by
    rcases h with rfl | h
    · exact .inl rfl
    · exact .inr (BitVec.lt_def.mp h)
  unfold Kind.ofCode
  split
  all_goals first
    | rfl
    | omega

/-! ## Classification -/

section
variable {u : State} {p : Port} {pins : StrapPins} {f : RxFrame} {k : Kind}

theorem classify_known (code : Kind.ofCode f.kind = some k) :
    u.classify p pins f = u.classifyKnown p pins k f := by
  unfold State.classify
  rw [code]

theorem classify_relayed (code : Kind.ofCode f.kind = some k)
    (plain : unknownLoad k f.payload = false)
    (verdict : u.verdictOf p k f.destination = ⟨false, true⟩) :
    u.classify p pins f = u.relay p f := by
  rw [classify_known code]
  unfold State.classifyKnown
  rw [verdict, plain]
  exact rfl

theorem classify_taken (code : Kind.ofCode f.kind = some k)
    (plain : unknownLoad k f.payload = false)
    (verdict : u.verdictOf p k f.destination = ⟨true, false⟩) :
    u.classify p pins f = u.takeFrame pins k f := by
  rw [classify_known code]
  unfold State.classifyKnown
  rw [verdict, plain]
  exact rfl

/-- A frame taken and relayed; a warm start ends its copy (R36, log entry 22). -/
theorem classify_both (code : Kind.ofCode f.kind = some k)
    (plain : unknownLoad k f.payload = false)
    (verdict : u.verdictOf p k f.destination = ⟨true, true⟩) :
    u.classify p pins f = if isWarmReset k f.payload then u.takeFrame pins k f
      else (u.takeFrame pins k f).relay p f := by
  rw [classify_known code]
  unfold State.classifyKnown
  rw [verdict, plain]
  cases isWarmReset k f.payload <;> rfl

theorem classify_strange (code : Kind.ofCode f.kind = some k)
    (strange : unknownLoad k f.payload = true) :
    u.classify p pins f = if (u.verdictOf p k f.destination).relay
      then (u.countUnknown p).relay p f else u.countUnknown p := by
  rw [classify_known code]
  exact if_pos strange

theorem classify_unknown (code : Kind.ofCode f.kind = none) :
    u.classify p pins f = (u.countUnknown p).relay p f := by
  unfold State.classify
  rw [code]

end

/-- The kind and payload of a LOAD whose subkind is none of those named (R42). -/
def Strange (f : RxFrame) : Prop := f.kind = 3#8 ∧ LoadKind.ofPayload f.payload = none

theorem unknownLoad_of_strange {f : RxFrame} (h : Strange f) : unknownLoad .load f.payload = true :=
  Option.isNone_iff_eq_none.mpr h.2

theorem unknownLoad_plain {f : RxFrame} {k : Kind} (code : k.code = f.kind) (h : ¬ Strange f) :
    unknownLoad k f.payload = false := by
  rw [Strange, ← code] at h
  cases k with
  | load =>
    have known : LoadKind.ofPayload f.payload ≠ none := fun none => h ⟨rfl, none⟩
    exact Option.isNone_eq_false_iff.mpr (Option.isSome_iff_ne_none.mpr known)
  | _ => rfl

theorem field_pair_first (a x : Byte) : field [a, x] 0 1 = a.toNat := by
  simp [field, beVal]

theorem ofPayload_warmReset (x : Byte) : Command.ofPayload [1#8, x] = some .warmReset := rfl

/-- Only the code 1 makes a warm start (11.7). -/
theorem eq_of_ofPayload_warmReset {bs : List Byte} (h : Command.ofPayload bs = some .warmReset) :
    ∃ x, bs = [1#8, x] := by
  unfold Command.ofPayload at h
  split at h
  · next len =>
    obtain ⟨a, x, rfl⟩ := List.length_eq_two.mp len
    rw [field_pair_first] at h
    split at h
    · next one => exact ⟨x, by rw [BitVec.eq_of_toNat_eq (y := 1#8) one]⟩
    all_goals simp at h
  · exact absurd h nofun

theorem isWarmReset_false {k : Kind} {f : RxFrame} (code : k.code = f.kind)
    (h : ∀ x, f.kind = 5#8 → f.payload ≠ [1#8, x]) : isWarmReset k f.payload = false := by
  refine Bool.eq_false_iff.mpr fun reset => ?_
  obtain ⟨ctrl, command⟩ := (Bool.and_eq_true _ _).mp reset
  obtain rfl := beq_iff_eq.mp ctrl
  obtain ⟨x, e⟩ := eq_of_ofPayload_warmReset (beq_iff_eq.mp command)
  exact h x code.symm e

theorem isWarmReset_true {f : RxFrame} {x : Byte} (h : f.payload = [1#8, x]) :
    isWarmReset .ctrl f.payload = true := by
  rw [h, isWarmReset, ofPayload_warmReset]
  rfl

/-! ## The two halves of O22 -/

section
variable {s : State} {p : Port} {f : RxFrame} {rest : List RxFrame} {cls : TxClass}

/-- The state with the front frame's buffer freed (R9). -/
def took (s : State) (p : Port) (rest : List RxFrame) : State :=
  s.setPort p { s.port p with buffers := rest }

theorem took_other (s : State) (p : Port) (rest : List RxFrame) :
    (took s p rest).port p.other = s.port p.other := State.port_setPort_other s p _

theorem took_parts (s : State) (p : Port) (rest : List RxFrame) :
    (took s p rest).fru = s.fru ∧ (took s p rest).own = s.own := by
  cases p <;> exact ⟨rfl, rfl⟩

/-- The kinds that a port only relays (R37, R42). -/
def RelayedOnly (p : Port) (f : RxFrame) (cls : TxClass) (unknown : Nat) : Prop :=
  f.kind ∈ [11#8, 12#8] ∧ cls = .relay ∧ unknown = 0
    ∨ f.kind = 10#8 ∧ p = .up ∧ cls = .relay ∧ unknown = 0
    ∨ f.kind ∈ [13#8, 14#8] ∧ cls = .urgent ∧ unknown = 0
    ∨ (f.kind = 0#8 ∨ 14#8 < f.kind) ∧ cls = .relay ∧ unknown = 1

/-- The port of such a frame's arrival, with an unknown kind counted (R42). -/
def countedPort (lp : LinePort) (rest : List RxFrame) (unknown : Nat) : LinePort :=
  { lp with
    buffers := rest
    fruCtr := if unknown = 1 then { lp.fruCtr with kindUnknown := tally lp.fruCtr.kindUnknown }
      else lp.fruCtr }

theorem RelayedOnly.classify {unknown : Nat} (h : RelayedOnly p f cls unknown) (pins : StrapPins)
    (s : State) : (took s p rest).classify p pins f
        = (s.setPort p (countedPort (s.port p) rest unknown)).relay p f
      ∧ cls = relayClass f.kind ∧ ¬ (p = .down ∧ f.kind = 10#8) := by
  have plain {k : Kind} (code : Kind.ofCode f.kind = some k) (zero : unknown = 0)
      (load : unknownLoad k f.payload = false)
      (verdict : (took s p rest).verdictOf p k f.destination = ⟨false, true⟩) :
      (took s p rest).classify p pins f
        = (s.setPort p (countedPort (s.port p) rest unknown)).relay p f := by
    rw [classify_relayed code load verdict, zero]
    rfl
  simp only [RelayedOnly, List.mem_cons, List.not_mem_nil, or_false] at h
  rcases h with ⟨kind | kind, rfl, zero⟩ | ⟨kind, rfl, rfl, zero⟩ | ⟨kind | kind, rfl, zero⟩ |
    ⟨kind, rfl, one⟩
  · exact ⟨plain (k := .jrnl) (by rw [kind]; rfl) zero rfl rfl, by rw [kind]; rfl,
      by rw [kind]; exact fun b => absurd b.2 (by decide)⟩
  · exact ⟨plain (k := .reply) (by rw [kind]; rfl) zero rfl rfl, by rw [kind]; rfl,
      by rw [kind]; exact fun b => absurd b.2 (by decide)⟩
  · exact ⟨plain (k := .beacon) (by rw [kind]; rfl) zero rfl rfl, by rw [kind]; rfl, nofun⟩
  · exact ⟨plain (k := .stopreq) (by rw [kind]; rfl) zero rfl rfl, by rw [kind]; rfl,
      by rw [kind]; exact fun b => absurd b.2 (by decide)⟩
  · exact ⟨plain (k := .authreq) (by rw [kind]; rfl) zero rfl rfl, by rw [kind]; rfl,
      by rw [kind]; exact fun b => absurd b.2 (by decide)⟩
  · have unknownKind := ofCode_unknown kind
    refine ⟨?_, ?_, ?_⟩
    · rw [classify_unknown unknownKind, one]
      have counted : (took s p rest).countUnknown p
          = s.setPort p (countedPort (s.port p) rest 1) := by
        unfold State.countUnknown took
        rw [State.modFruCtr_eq, State.setPort_setPort, State.port_setPort_self]
        rfl
      rw [counted]
    · unfold relayClass urgentKind
      rw [unknownKind]
      rfl
    · rintro ⟨-, beacon⟩
      rw [beacon] at unknownKind
      exact absurd unknownKind nofun

/-- The first half of O22: a frame that its port only relays. -/
theorem relayedOnly_relayed {unknown : Nat} (on : s.powered = true)
    (front : (s.port p).buffers = f :: rest) (h : RelayedOnly p f cls unknown) (pins : StrapPins) :
    ∃ t, exec (.frameClassify p pins) s = .next t
      ∧ Forwarded (s.setPort p (countedPort (s.port p) rest unknown)) t p f cls := by
  obtain ⟨classified, rfl, plain⟩ := h.classify (rest := rest) pins s
  exact ⟨_, (exec_frameClassify on front pins).trans (congrArg _ classified), relay_forwarded _ plain⟩

end

section
variable {u : State} {p : Port} {f : RxFrame} {cls : TxClass} {pins : StrapPins}

theorem kind_code {k : Kind} {code : Byte} (h : k.code = code) : Kind.ofCode code = some k := by
  subst h
  cases k <;> rfl

/-- A frame for another halt travels on (R38, R43). -/
theorem classify_elsewhere (ruled : Ruled f.kind cls) (plain : ¬ Strange f)
    (elsewhere : p = .down ∨ (u.fru.unaddressed = true ∧ f.destination ≠ 0#16)
      ∨ (u.fru.unaddressed = false ∧ f.destination ≠ u.own.haltCode ∧ f.destination ≠ 0#16
        ∧ ¬ Grouped u f.destination)) :
    Forwarded u (u.classify p pins f) p f cls := by
  obtain ⟨k, code, addressed, named⟩ := ruled.kind
  have verdict : u.verdictOf p k f.destination = ⟨false, true⟩ := by
    cases p with
    | down => exact verdictOf_down addressed u _
    | up =>
      rw [verdictOf_up_of_addressRuled u _ addressed]
      rcases elsewhere with down | ⟨unaddressed, other⟩ | ⟨own, other, all, group⟩
      · exact absurd down nofun
      · rw [addressRule_unaddressed unaddressed, beq_eq_false_iff_ne.mpr other]
      · exact addressRule_elsewhere own other all group
  rw [classify_relayed code (unknownLoad_plain named plain) verdict, ruled.cls]
  exact relay_forwarded u fun down => ruled.not_beacon down.2

/-- A RUN that an unaddressed halt does not take travels on (R43). -/
theorem classify_run_elsewhere (kind : f.kind = 9#8) (urgent : cls = .urgent)
    (unaddressed : u.fru.unaddressed = true) (other : f.destination ≠ 0#16) :
    Forwarded u (u.classify p pins f) p f cls := by
  have code : Kind.ofCode f.kind = some .run := kind_code kind.symm
  have verdict : u.verdictOf p .run f.destination = ⟨false, true⟩ := by
    show (⟨u.takesRun f.destination, true⟩ : Verdict) = _
    unfold State.takesRun
    rw [unaddressed, show (f.destination == allHalts) = false from beq_eq_false_iff_ne.mpr other]
    rfl
  have relay : relayClass f.kind = cls := by
    rw [kind, urgent]
    rfl
  rw [classify_relayed code rfl verdict, ← relay]
  exact relay_forwarded u fun down => absurd (kind.symm.trans down.2) (by decide)

/-- A LOAD of an unknown subkind is counted, and travels on unless it is for this halt alone (R42). -/
theorem classify_strange_own (strange : Strange f) (up : p = .up) (addressed : u.fru.unaddressed = false)
    (own : f.destination = u.own.haltCode) : u.classify p pins f = u.countUnknown p := by
  subst up
  rw [classify_strange (kind_code (k := .load) strange.1.symm) (unknownLoad_of_strange strange),
    verdictOf_up_of_addressRuled u _ (by decide), addressRule_own addressed own]
  rfl

theorem classify_strange_away (strange : Strange f) (relay : cls = .relay)
    (away : p = .down ∨ u.fru.unaddressed = true ∨ f.destination ≠ u.own.haltCode) :
    Forwarded (u.countUnknown p) (u.classify p pins f) p f cls := by
  have relays : (u.verdictOf p .load f.destination).relay = true := by
    cases p with
    | down => rfl
    | up =>
      rw [verdictOf_up_of_addressRuled u _ (by decide)]
      exact addressRule_relays (away.resolve_left nofun)
  have same : relayClass f.kind = cls := by
    rw [strange.1, relay]
    rfl
  rw [classify_strange (kind_code (k := .load) strange.1.symm) (unknownLoad_of_strange strange), if_pos relays,
    ← same]
  exact relay_forwarded _ fun down => absurd (strange.1.symm.trans down.2) (by decide)

/-- A frame of a known kind taken and relayed (R36, R38, R43). -/
theorem classify_taken_relayed {k : Kind} (code : Kind.ofCode f.kind = some k)
    (load : unknownLoad k f.payload = false)
    (verdict : u.verdictOf p k f.destination = ⟨true, true⟩) (named : k.code = f.kind)
    (beacon : f.kind ≠ 10#8) (same : relayClass f.kind = cls)
    (reset : ∀ x, f.kind = 5#8 → f.payload ≠ [1#8, x]) :
    Forwarded (u.takeFrame pins k f) (u.classify p pins f) p f cls := by
  rw [classify_both code load verdict, if_neg (by rw [isWarmReset_false named reset]; exact nofun),
    ← same]
  exact relay_forwarded _ fun down => beacon down.2

theorem takeFrame_destination {k : Kind} (jack : k ≠ .jack) (pins : StrapPins) (d : HaltCode) :
    u.takeFrame pins k { f with destination := d } = u.takeFrame pins k f := by
  cases k with
  | jack => exact absurd rfl jack
  | _ => rfl

/-- A frame for a group or for all is taken as one for the halt alone is, and travels on unless it
makes a warm start (R38, log entry 22). -/
theorem classify_group (ruled : Ruled f.kind cls) (plain : ¬ Strange f) (jack : f.kind ≠ 6#8)
    (addressed : u.fru.unaddressed = false) (other : f.destination ≠ u.own.haltCode)
    (group : f.destination = 0#16 ∨ Grouped u f.destination) : ∃ k,
    u.classify .up pins { f with destination := u.own.haltCode } = u.takeFrame pins k f
      ∧ ((∀ x, f.kind = 5#8 → f.payload ≠ [1#8, x]) →
        Forwarded (u.takeFrame pins k f) (u.classify .up pins f) .up f cls)
      ∧ ∀ x, f.kind = 5#8 → f.payload = [1#8, x] → u.classify .up pins f = u.takeFrame pins k f := by
  obtain ⟨k, code, judged, named⟩ := ruled.kind
  have load := unknownLoad_plain named plain
  have both : u.verdictOf .up k f.destination = ⟨true, true⟩ :=
    (verdictOf_up_of_addressRuled u _ judged).trans (addressRule_group addressed other group)
  have alone : u.verdictOf .up k u.own.haltCode = ⟨true, false⟩ :=
    (verdictOf_up_of_addressRuled u _ judged).trans (addressRule_own addressed rfl)
  have notJack : k ≠ .jack := by
    rintro rfl
    exact jack named.symm
  refine ⟨k, ?_, classify_taken_relayed code load both named ruled.not_beacon ruled.cls.symm,
    fun x ctrl command => ?_⟩
  · exact (classify_taken (f := { f with destination := u.own.haltCode }) code load alone).trans
      (takeFrame_destination notJack pins _)
  · obtain rfl : k = .ctrl := Option.some.inj (code.symm.trans (kind_code (k := .ctrl) ctrl.symm))
    rw [classify_both code load both, if_pos (isWarmReset_true command)]

theorem takeJack_other {d : HaltCode} (h : d ≠ u.own.haltCode) (bs : List Byte) :
    u.takeJack d bs = u.modSjuCtr fun c => { c with jackForm := tally c.jackForm } := by
  unfold State.takeJack
  split
  · exact if_neg fun own => h own.1
  · rfl

/-- A JACK for a group or for all is misdirected, and travels on (R169, log entry 41). -/
theorem classify_jack_group (jack : f.kind = 6#8) (relay : cls = .relay)
    (addressed : u.fru.unaddressed = false) (other : f.destination ≠ u.own.haltCode)
    (group : f.destination = 0#16 ∨ Grouped u f.destination) :
    Forwarded (u.modSjuCtr fun c => { c with jackForm := tally c.jackForm })
      (u.classify .up pins f) .up f cls := by
  have both : u.verdictOf .up .jack f.destination = ⟨true, true⟩ :=
    (verdictOf_up_of_addressRuled u _ (by decide)).trans (addressRule_group addressed other group)
  have taken : u.takeFrame pins .jack f = _ := takeJack_other other f.payload
  rw [← taken]
  refine classify_taken_relayed (kind_code (k := .jack) jack.symm) rfl both jack.symm ?_ ?_ ?_
  · rw [jack]
    decide
  · rw [jack, relay]
    rfl
  · rw [jack]
    exact fun x ctrl => absurd ctrl (by decide)

/-- A RUN that the halt takes, and a frame for all at an unaddressed halt, travel on after they are
taken (R37, R43). -/
theorem classify_both_kinds {k : Kind} (code : Kind.ofCode f.kind = some k)
    (reset : ∀ x, f.kind = 5#8 → f.payload ≠ [1#8, x])
    (both : k = .run ∧ cls = .urgent ∧ (u.fru.unaddressed = false ∨ f.destination = 0#16)
      ∨ p = .up ∧ Ruled f.kind cls ∧ ¬ Strange f ∧ u.fru.unaddressed = true
        ∧ f.destination = 0#16) :
    Forwarded (u.takeFrame pins k f) (u.classify p pins f) p f cls := by
  have named := code_of_ofCode code
  rcases both with ⟨rfl, rfl, takes⟩ | ⟨rfl, ruled, plain, unaddressed, all⟩
  · have takesRun : u.takesRun f.destination = true := by
      unfold State.takesRun
      rcases takes with addressed | all
      · rw [addressed]
        rfl
      · rw [all, Bool.or_eq_true]
        exact .inr rfl
    refine classify_taken_relayed code rfl ?_ named.symm ?_ ?_ reset
    · show (⟨u.takesRun f.destination, true⟩ : Verdict) = _
      rw [takesRun]
    · rw [named]
      decide
    · rw [named]
      rfl
  · obtain ⟨k', code', judged, -⟩ := ruled.kind
    obtain rfl : k = k' := Option.some.inj (code.symm.trans code')
    refine classify_taken_relayed code (unknownLoad_plain named.symm plain) ?_ named.symm
      ruled.not_beacon ruled.cls.symm reset
    rw [verdictOf_up_of_addressRuled u _ judged, addressRule_unaddressed unaddressed, all]
    rfl

end

/-- Settles O22. -/
theorem relayedCopy : Obligations.RelayedCopy := by
  refine ⟨fun s p pins f rest on front _ cls unknown h => ?_,
    fun s p pins f rest cls on front _ => ?_⟩
  · dsimp only
    obtain ⟨t, given, off, hopEnd, out, full, room⟩ := relayedOnly_relayed on front h pins
    rw [State.port_setPort_other] at off hopEnd out full room
    refine ⟨fun o => ?_, fun live hop => ?_, fun live o hop => ?_, fun serving f hop => ?_,
      fun r hop => ?_⟩
    · rw [given, off o]
      rfl
    · rw [given, hopEnd live hop, State.modFruCtr_eq, State.port_setPort_self]
      rfl
    · rw [given, out live o hop, State.modFruCtr_eq, State.port_setPort_other]
      rfl
    · rw [given, full serving f hop]
      rcases h with ⟨-, rfl, -⟩ | ⟨-, -, rfl, -⟩ | ⟨-, rfl, -⟩ | ⟨-, rfl, -⟩
      all_goals rfl
    · obtain ⟨js, jrnls, queue, none, same, frame⟩ := room r hop
      refine ⟨t, js, given, queue, jrnls, none, same, ?_⟩
      cases p <;> exact frame
  · dsimp only
    have given : exec (.frameClassify p pins) s = .next ((took s p rest).classify p pins f) :=
      exec_frameClassify on front pins
    obtain ⟨fru, own⟩ := took_parts s p rest
    refine ⟨fun ruled plain elsewhere => ⟨_, given, classify_elsewhere (u := took s p rest) ruled plain ?_⟩,
      fun kind urgent unaddressed other => ⟨_, given,
        classify_run_elsewhere (u := took s p rest) kind urgent ?_ other⟩,
      fun strange relay => ⟨fun up addressed mine => ?_, fun away => ⟨_, given, ?_⟩⟩,
      fun up ruled plain jack addressed other group v taken => ?_,
      fun up jack relay addressed other group => ⟨_, given, ?_⟩,
      fun k code reset both => ⟨_, given, ?_⟩⟩
    · unfold Grouped
      rw [fru, own]
      exact elsewhere
    · rw [fru]
      exact unaddressed
    · exact given.trans (congrArg _ (classify_strange_own (u := took s p rest) strange up
        (by rw [fru]; exact addressed) (by rw [own]; exact mine)))
    · exact classify_strange_away (u := took s p rest) strange relay (by rw [fru, own]; exact away)
    · subst up
      obtain ⟨k, alone, both, reset⟩ := classify_group (u := took s .up rest) (pins := pins) ruled plain
        jack addressed other group
      have front' : ({ s with up := { s.up with
          buffers := { f with destination := s.own.haltCode } :: rest } } : State).up.buffers
            = { f with destination := s.own.haltCode } :: rest := rfl
      have mine := exec_frameClassify (s := { s with up := { s.up with
        buffers := { f with destination := s.own.haltCode } :: rest } }) on (p := .up) front' pins
      obtain rfl : (took s .up rest).takeFrame pins k f = v :=
        alone.symm.trans (Host.Outcome.next.inj (mine.symm.trans taken))
      exact ⟨_, given, fun ⟨x, ctrl, command⟩ => reset x ctrl command, both⟩
    · subst up
      exact classify_jack_group jack relay addressed other group
    · exact classify_both_kinds (u := took s p rest) code reset (by rw [fru]; exact both)

end Sys2Proof.Proofs
end

