-- ==== Sys2Proof/Proofs/BeaconFilter.lean ====
section
/-! The BEACON filter and the origin table (R44 to R46). -/

namespace Sys2Proof.Proofs

open Sys2Proof.Machine Sys2Proof.Safety Sys2Proof.Laws

/-! ## The first of a list in an order -/

theorem mem_of_firstBy {α : Type} {less : α → α → Bool} {as : List α} {b : α}
    (h : firstBy less as = some b) : b ∈ as := by
  induction as generalizing b with
  | nil => exact absurd h nofun
  | cons a as ih =>
    unfold firstBy at h
    split at h
    · cases h
      exact List.mem_cons_self
    · next c first =>
      split at h
      · cases h
        exact List.mem_cons_of_mem _ (ih first)
      · cases h
        exact List.mem_cons_self

theorem firstBy_cons {α : Type} {less : α → α → Bool} {a b : α} {as : List α}
    (h : firstBy less as = some b) :
    firstBy less (a :: as) = if less b a then some b else some a := by
  rw [firstBy, h]

/-- The first of the least by a key. -/
theorem firstBy_eq_some {α : Type} {key : α → Nat} {before after : List α} {b : α}
    (earlier : ∀ x ∈ before, key b < key x) (later : ∀ x ∈ after, key b ≤ key x) :
    firstBy (fun x y => decide (key x < key y)) (before ++ b :: after) = some b := by
  induction before with
  | nil =>
    cases h : firstBy (fun x y => decide (key x < key y)) after with
    | none =>
      rw [List.nil_append, firstBy, h]
    | some c =>
      have le := later c (mem_of_firstBy h)
      rw [List.nil_append, firstBy_cons h, if_neg (by simpa using le)]
  | cons a before ih =>
    rw [List.cons_append, firstBy_cons (ih fun x hx => earlier x (List.mem_cons_of_mem a hx)),
      if_pos (by simpa using earlier a List.mem_cons_self)]

/-! ## The entry numbers -/

theorem originNumbers_split (i : Fin 32) : ∃ before after, originNumbers = before ++ i :: after
    ∧ (∀ j ∈ before, j < i) ∧ ∀ j ∈ after, i < j := by
  obtain ⟨before, after, split⟩ := List.append_of_mem (List.mem_finRange i)
  have ordered := List.pairwise_lt_finRange 32
  rw [split, List.pairwise_append, List.pairwise_cons] at ordered
  obtain ⟨-, ⟨later, -⟩, earlier⟩ := ordered
  exact ⟨before, after, split, fun j hj => earlier j hj i List.mem_cons_self, later⟩

theorem find_originNumbers {hit : Fin 32 → Bool} {i : Fin 32} (found : hit i = true)
    (first : ∀ j < i, hit j = false) : originNumbers.find? hit = some i := by
  obtain ⟨before, after, split, earlier, -⟩ := originNumbers_split i
  exact List.find?_eq_some_iff_append.mpr ⟨found, before, after, split, fun j hj => by
    rw [first j (earlier j hj)]
    rfl⟩

/-! ## The entry of an origin -/

section
variable {r : Fru} {o : HaltCode} {i : Fin 32}

theorem originOf_only {e : OriginEntry} (held : r.origins[i] = some e) (named : e.origin = o)
    (only : ∀ (j : Fin 32) (x : OriginEntry), r.origins[j] = some x → x.origin = o → j = i) :
    r.originOf o = some i := by
  refine find_originNumbers ?_ fun j lt => ?_
  · rw [held]
    exact beq_iff_eq.mpr named
  · refine Bool.eq_false_iff.mpr fun hit => ?_
    obtain ⟨x, at_j, origin⟩ := (Option.any_eq_true _ _).mp hit
    exact absurd (only j x at_j (beq_iff_eq.mp origin)) (ne_of_lt lt)

theorem originOf_unknown
    (unknown : ∀ (j : Fin 32) (x : OriginEntry), r.origins[j] = some x → x.origin ≠ o) :
    r.originOf o = none := by
  refine List.find?_eq_none.mpr fun j _ hit => ?_
  obtain ⟨x, at_j, origin⟩ := (Option.any_eq_true _ _).mp hit
  exact unknown j x at_j (beq_iff_eq.mp origin)

theorem originSlot_known (known : r.originOf o = some i) : r.originSlot o = i := by
  unfold Fru.originSlot
  rw [known]
  rfl

theorem originSlot_empty (unknown : r.originOf o = none) (empty : r.origins[i] = none)
    (first : ∀ j : Fin 32, j < i → r.origins[j] ≠ none) : r.originSlot o = i := by
  have found : originNumbers.find? (fun i => r.origins[i].isNone) = some i := by
    refine find_originNumbers (by rw [empty]; rfl) fun j lt => ?_
    exact Bool.eq_false_iff.mpr fun none => first j lt (Option.isNone_iff_eq_none.mp none)
  unfold Fru.originSlot
  rw [unknown, found]
  rfl

theorem entryAge_some {e : OriginEntry} (h : r.origins[i] = some e) : r.entryAge i = e.uptime := by
  unfold Fru.entryAge
  rw [h]

theorem originSlot_oldest (unknown : r.originOf o = none)
    (full : ∀ j : Fin 32, r.origins[j] ≠ none) {e : OriginEntry} (held : r.origins[i] = some e)
    (oldest : ∀ (j : Fin 32) (x : OriginEntry), r.origins[j] = some x →
      e.uptime ≤ x.uptime ∧ (j < i → e.uptime < x.uptime)) : r.originSlot o = i := by
  have noEmpty : originNumbers.find? (fun i => r.origins[i].isNone) = none :=
    List.find?_eq_none.mpr fun j _ empty => full j (Option.isNone_iff_eq_none.mp empty)
  have age (j : Fin 32) : r.entryAge i ≤ r.entryAge j ∧ (j < i → r.entryAge i < r.entryAge j) := by
    obtain ⟨x, hx⟩ := Option.ne_none_iff_exists'.mp (full j)
    rw [entryAge_some held, entryAge_some hx]
    exact oldest j x hx
  obtain ⟨before, after, split, earlier, -⟩ := originNumbers_split i
  have first : firstBy (fun i j => decide (r.entryAge i < r.entryAge j)) originNumbers = some i := by
    rw [split]
    exact firstBy_eq_some (fun j hj => (age j).2 (earlier j hj)) fun j _ => (age j).1
  simp only [Fru.originSlot, unknown, Option.orElse_none, noEmpty, first]

end

/-! ## The filter -/

theorem cut_length (sizes : List Nat) (bs : List Byte) : (cut sizes bs).length = sizes.length := by
  induction sizes generalizing bs with
  | nil => rfl
  | cons n ns ih => exact congrArg (· + 1) (ih _)

theorem length_of_beaconOfPayload {bs : List Byte} {fields : List Nat}
    (h : beaconOfPayload bs = some fields) : fields.length = 18 := by
  unfold beaconOfPayload at h
  split at h
  · cases h
    exact cut_length beaconSizes bs
  · exact absurd h nofun

theorem differIn_iff (mask : BitVec 18) (from_ : Nat) (as bs : List Nat)
    (same : as.length = bs.length) : differIn mask from_ as bs = true
      ↔ ∃ n, n < as.length ∧ mask.getLsbD (from_ + n) = true ∧ as[n]? ≠ bs[n]? := by
  induction as generalizing from_ bs with
  | nil => simp [differIn]
  | cons a as ih =>
    cases bs with
    | nil => simp at same
    | cons b bs =>
      rw [differIn, Bool.or_eq_true, ih (from_ + 1) bs (by simpa using same), Bool.and_eq_true,
        bne_iff_ne]
      constructor
      · rintro (⟨masked, differ⟩ | ⟨n, lt, masked, differ⟩)
        · exact ⟨0, Nat.succ_pos _, masked, by simpa using differ⟩
        · refine ⟨n + 1, Nat.succ_lt_succ lt, ?_, by simpa using differ⟩
          rwa [Nat.add_comm n, ← Nat.add_assoc]
      · rintro ⟨n, lt, masked, differ⟩
        cases n with
        | zero => exact .inl ⟨masked, by simpa using differ⟩
        | succ n =>
          refine .inr ⟨n, Nat.lt_of_succ_lt_succ lt, ?_, by simpa using differ⟩
          rwa [Nat.add_assoc, Nat.add_comm 1]

section
variable {s : State} {o : HaltCode} {i : Fin 32} {fields : List Nat}

theorem passesFilter_unknown (unknown : s.fru.originOf o = none) : s.passesFilter o fields = true := by
  unfold State.passesFilter
  rw [unknown]
  rfl

theorem passesFilter_known {e : OriginEntry} (known : s.fru.originOf o = some i)
    (held : s.fru.origins[i] = some e) (same : e.fields.length = fields.length) :
    s.passesFilter o fields = true
      ↔ (∃ n, n < e.fields.length ∧ s.params.beaconMask.getLsbD n = true ∧ e.fields[n]? ≠ fields[n]?)
        ∨ s.params.refresh ≤ s.htb.uptime - e.uptime := by
  have entry : ((s.fru.originOf o).bind fun i => s.fru.origins[i]) = some e := by
    rw [known]
    exact held
  unfold State.passesFilter
  rw [entry]
  dsimp only
  rw [Bool.or_eq_true, differIn_iff _ 0 _ _ same, decide_eq_true_eq]
  simp only [Nat.zero_add]

end

section
variable {v : State} {f : RxFrame} {fields : List Nat}

theorem relay_beacon (live : v.up.lsu.state ≠ .off) (hop : f.hop ≠ 1#8) (kind : f.kind = 10#8) :
    v.relay .down f = v.forwardBeacon .down f :=
  ((if_neg live).trans (if_neg hop)).trans (if_pos ⟨rfl, kind⟩)

theorem forwardBeacon_filtered (form : beaconOfPayload f.payload = some fields)
    (held : v.passesFilter f.origin fields = false) : v.forwardBeacon .down f
      = { v with fru := { v.fru with filtered := tally v.fru.filtered } } := by
  unfold State.forwardBeacon
  rw [form]
  exact if_neg (Bool.eq_false_iff.mp held)

theorem forwardBeacon_passed (form : beaconOfPayload f.payload = some fields)
    (passes : v.passesFilter f.origin fields = true) : v.forwardBeacon .down f
      = if v.up.admits .relay then (v.offer .up (copyOf f)).recordOrigin f.origin fields
        else v.offer .up (copyOf f) := by
  unfold State.forwardBeacon
  rw [form]
  exact if_pos passes

end

section
variable {v : State} {f : RxFrame} {fields : List Nat} {i : Fin 32}

/-- The entry that a BEACON's fields go to, where the filter lets it pass (R45, R46). -/
def EntryOf (v : State) (f : RxFrame) (fields : List Nat) (i : Fin 32) : Prop :=
  let unknown := ∀ (j : Fin 32) (x : OriginEntry), v.fru.origins[j] = some x → x.origin ≠ f.origin
  (∃ e, v.fru.origins[i] = some e ∧ e.origin = f.origin ∧ e.fields.length = 18
      ∧ (∀ (j : Fin 32) (x : OriginEntry), v.fru.origins[j] = some x → x.origin = f.origin → j = i)
      ∧ ((∃ n, n < 18 ∧ v.params.beaconMask.getLsbD n = true ∧ e.fields[n]? ≠ fields[n]?)
        ∨ v.params.refresh ≤ v.htb.uptime - e.uptime))
    ∨ (unknown ∧ v.fru.origins[i] = none ∧ ∀ j : Fin 32, j < i → v.fru.origins[j] ≠ none)
    ∨ (unknown ∧ (∀ j : Fin 32, v.fru.origins[j] ≠ none) ∧ ∃ e, v.fru.origins[i] = some e
      ∧ ∀ (j : Fin 32) (x : OriginEntry), v.fru.origins[j] = some x →
        e.uptime ≤ x.uptime ∧ (j < i → e.uptime < x.uptime))

theorem entryOf_passes (form : beaconOfPayload f.payload = some fields)
    (place : EntryOf v f fields i) :
    v.passesFilter f.origin fields = true ∧ v.fru.originSlot f.origin = i := by
  rcases place with ⟨e, held, named, len, only, moved⟩ | ⟨unknown, empty, first⟩ |
    ⟨unknown, full, e, held, oldest⟩
  · have known := originOf_only held named only
    have same : e.fields.length = fields.length := len.trans (length_of_beaconOfPayload form).symm
    refine ⟨(passesFilter_known known held same).mpr ?_, originSlot_known known⟩
    rw [len]
    exact moved
  · exact ⟨passesFilter_unknown (originOf_unknown unknown),
      originSlot_empty (originOf_unknown unknown) empty first⟩
  · exact ⟨passesFilter_unknown (originOf_unknown unknown),
      originSlot_oldest (originOf_unknown unknown) full held oldest⟩

theorem stays_of_recent {e : OriginEntry} (form : beaconOfPayload f.payload = some fields)
    (held : v.fru.origins[i] = some e) (named : e.origin = f.origin)
    (only : ∀ (j : Fin 32) (x : OriginEntry),
      v.fru.origins[j] = some x → x.origin = f.origin → j = i)
    (equal : ∀ n, n < 18 → v.params.beaconMask.getLsbD n = true → e.fields[n]? = fields[n]?)
    (len : e.fields.length = 18) (recent : v.htb.uptime - e.uptime < v.params.refresh) :
    v.passesFilter f.origin fields = false := by
  have same : e.fields.length = fields.length := len.trans (length_of_beaconOfPayload form).symm
  refine Bool.eq_false_iff.mpr fun passes => ?_
  rcases (passesFilter_known (originOf_only held named only) held same).mp passes with
    ⟨n, lt, masked, differ⟩ | late
  · exact differ (equal n (by rwa [← len]) masked)
  · exact absurd recent (Nat.not_lt.mpr late)

/-- A BEACON that passes is offered; its fields are recorded where it is admitted (R45, R46). -/
theorem forwardBeacon_acts (kind : f.kind = 10#8) (form : beaconOfPayload f.payload = some fields)
    (place : EntryOf v f fields i) :
    (Room v.up .relay → QueuedUp v (v.forwardBeacon .down f) (copyOf f)
      ∧ (v.forwardBeacon .down f).fru = { v.fru with
          origins := v.fru.origins.set i (some ⟨f.origin, fields, v.htb.uptime⟩) })
    ∧ (¬ Room v.up .relay → (v.forwardBeacon .down f).up.queue = v.up.queue
      ∧ (v.forwardBeacon .down f).fru = v.fru)
    ∧ v.forwardBeacon .down f = { v with
        up := (v.forwardBeacon .down f).up, fru := (v.forwardBeacon .down f).fru
        sju := (v.forwardBeacon .down f).sju } := by
  obtain ⟨passes, slot⟩ := entryOf_passes form place
  have forwarded := forwardBeacon_passed form passes
  have cls : (copyOf f).cls = .relay := by
    show relayClass f.kind = _
    rw [kind]
    rfl
  by_cases room : Room v.up .relay
  · rw [if_pos ((admits_iff v.up .relay).mpr room)] at forwarded
    obtain ⟨js, jrnls, queue⟩ := (offer_up_of_room (s := v) (q := copyOf f) (cls ▸ room)).queue
    obtain ⟨x, y, frame⟩ : ∃ x y, v.offer .up (copyOf f) = { v with up := x, sju := y } :=
      ⟨_, _, offerUp_frame v _⟩
    rw [frame] at forwarded queue
    rw [forwarded, State.recordOrigin]
    refine ⟨fun _ => ⟨⟨js, jrnls, ?_⟩, ?_⟩, fun full => absurd room full, rfl⟩
    · refine queue.trans ?_
      rw [List.append_assoc]
      rfl
    · rw [← slot]
  · have full : ¬ Room (v.port .up) (copyOf f).cls := by rwa [cls]
    rw [if_neg fun admits => room ((admits_iff v.up .relay).mp admits), offer_of_not_room full]
      at forwarded
    rw [forwarded]
    exact ⟨fun r => absurd r room, fun _ => ⟨rfl, rfl⟩, rfl⟩

end

/-- A BEACON from the Down port goes to the relay steps (R37). -/
theorem exec_beacon {s : State} {f : RxFrame} {rest : List RxFrame} (pins : StrapPins)
    (on : s.powered = true) (front : s.down.buffers = f :: rest) (kind : f.kind = 10#8)
    (live : s.up.lsu.state ≠ .off) (hop : f.hop ≠ 1#8) :
    exec (.frameClassify .down pins) s = .next ((took s .down rest).forwardBeacon .down f) :=
  (exec_frameClassify on (p := .down) front pins).trans (congrArg _
    ((classify_relayed (u := took s .down rest) (kind_code (k := .beacon) kind.symm) rfl rfl).trans
      (relay_beacon (v := took s .down rest) live hop kind)))

/-- Settles O23. -/
theorem beaconIsFiltered : Obligations.BeaconIsFiltered := by
  refine ⟨fun s pins f rest i e fields on front kind _ hop live form held named only equal len recent =>
    ?_, fun s pins f rest i fields on front kind _ hop live form place => ?_⟩
  · exact (exec_beacon pins on front kind live hop).trans (congrArg _
      (forwardBeacon_filtered (v := took s .down rest) form
        (stays_of_recent form held named only equal len recent)))
  · obtain ⟨admitted, dropped, frame⟩ := forwardBeacon_acts (v := took s .down rest) kind form place
    dsimp only
    refine ⟨_, exec_beacon pins on front kind live hop, fun room => ?_, dropped, frame⟩
    obtain ⟨queued, entered⟩ := admitted room
    have copy : copyOf f = ⟨.relay, ⟨10#8, f.destination, f.origin, f.hop - 1#8,
        .octets f.payload⟩⟩ := by
      unfold copyOf RxFrame.copy
      rw [kind]
      rfl
    rw [← copy]
    exact ⟨queued, entered⟩

end Sys2Proof.Proofs
end

