-- ==== Sys2Proof/Proofs/DayBanks.lean ====
section
/-! What the announcements and the operations of the day leave of the calls, the banks, the quote slots
and the journal (4.4, 5.4, R63, R89, R150, R151, R170). -/

namespace Sys2Proof.Proofs

open Sys2Proof.Machine Sys2Proof.Safety Sys2Proof.Laws

/-! ## Calls but for their stop requests -/

/-- Two calls alike but for their stop requests. -/
def SameItems (c d : Call) : Prop :=
  { d with stop := .none, resend := .stopped } = { c with stop := .none, resend := .stopped }

theorem SameItems.refl (c : Call) : SameItems c c := rfl

theorem SameItems.trans (a b c : Call) (h : SameItems a b) (k : SameItems b c) : SameItems a c :=
  Eq.trans k h

/-- The calls of CURRENT alike but for their stop requests. -/
def Restops (s t : State) : Prop := List.Forall₂ SameItems s.tts.current t.tts.current

theorem Restops.of_tts {s t : State} (h : t.tts = s.tts) : Restops s t := by
  rw [Restops, h]
  exact forall₂_refl SameItems.refl _

theorem Restops.trans {s t u : State} (h : Restops s t) (k : Restops t u) : Restops s u :=
  forall₂_comp SameItems.trans h k

theorem Restops.ite {c : Prop} [Decidable c] {s t u : State} (h : Restops s t) (k : Restops s u) :
    Restops s (if c then t else u) := by
  split
  · exact h
  · exact k

theorem Restops.foldl {α : Type} (f : State → α → State) (h : ∀ s a, Restops s (f s a))
    (as : List α) (s : State) : Restops s (as.foldl f s) := by
  induction as generalizing s with
  | nil => exact .of_tts rfl
  | cons a as ih => exact (h s a).trans (ih (f s a))

theorem Restops.mapCalls (s : State) {f : Call → Call} (h : ∀ c, SameItems c (f c)) :
    Restops s (s.mapCalls f) := by
  rw [Restops, State.mapCalls_tts, List.forall₂_map_right_iff]
  exact List.forall₂_same.mpr fun c _ => h c

theorem Restops.modCall (s : State) (k : Key) {f : Call → Call} (h : ∀ c, SameItems c (f c)) :
    Restops s (s.modCall k f) := by
  refine .mapCalls s fun c => ?_
  split
  · exact h c
  · exact rfl

theorem tts_of_bdc {s t : State} (h : ∃ b, t = { s with bdc := b }) : t.tts = s.tts := by
  obtain ⟨b, rfl⟩ := h
  rfl

theorem compose_tts (s : State) : s.compose.tts = s.tts := tts_of_bdc (compose_frame s)

theorem postNotice_tts (s : State) (n : Notice) : (s.postNotice n).tts = s.tts :=
  (postNotice_desk s n).tts

theorem announceStop_tts (s : State) (k : Key) (a b : StopState) : (s.announceStop k a b).tts = s.tts := by
  have composed : (if a = b then s.deriveLamps else s.deriveLamps.compose).tts = s.tts := by
    split
    · rfl
    · exact compose_tts _
  unfold State.announceStop
  dsimp only
  split
  · exact (postNotice_tts _ _).trans composed
  · exact composed

theorem changeStop_restops (s : State) (c : Call) {f : Call → Call} (h : ∀ c, SameItems c (f c)) :
    Restops s (s.changeStop c f) :=
  (Restops.modCall s c.key h).trans (.of_tts (announceStop_tts _ _ _ _))

theorem sendStopreq_restops (s : State) (c : Call) : Restops s (s.sendStopreq c) := by
  rw [sendStopreq_eq]
  exact (Restops.of_tts (tts_afterOffer s c)).trans (changeStop_restops _ c fun _ => rfl)

theorem trySend_restops (s : State) (k : Key) : Restops s (s.trySend k) := by
  unfold State.trySend
  split
  · exact .ite (sendStopreq_restops s _) (.of_tts rfl)
  · exact .of_tts rfl

theorem testCutoff_restops (s : State) (k : Key) : Restops s (s.testCutoff k) := by
  unfold State.testCutoff
  split
  · exact .of_tts rfl
  · next c _ =>
    have late : Restops s (s.changeStop c fun c => { c with stop := .late, resend := .stopped }) :=
      changeStop_restops s c fun _ => rfl
    have wanted : Restops s (s.changeStop c fun c => { c with stop := .wanted }) :=
      changeStop_restops s c fun _ => rfl
    exact .ite (.of_tts rfl) (.ite late (.ite (wanted.trans (trySend_restops _ k)) (.of_tts rfl)))

theorem testCutoffs_restops (s : State) : Restops s s.testCutoffs :=
  (Restops.foldl _ testCutoff_restops s.keys s).trans (.of_tts rfl)

theorem announceForecast_restops (s : State) (k : Key) : Restops s (s.announceForecast k) := by
  unfold State.announceForecast
  generalize e : s.testCutoff k = u
  have tested : Restops s u := e ▸ testCutoff_restops s k
  refine tested.trans (.of_tts ?_)
  exact (compose_tts _).trans (cutoffQuotes_desk _).tts

/-- A derivation leaves each call as derived, but for its stop request. -/
theorem rederive_restops (s : State) (f : Call → Call) : Restops (s.mapCalls f) (s.rederive f) :=
  Restops.foldl _ announceForecast_restops _ _

/-! ## Calls that keep their forecasts -/

/-- Two calls of the same loaded fields, state, report and forecast. -/
structure Steady (c d : Call) : Prop where
  loaded : d.loaded = c.loaded
  state : d.state = c.state
  report : d.report = c.report
  forecast : d.forecast = c.forecast

theorem SameItems.steady {c d : Call} (h : SameItems c d) : Steady c d :=
  ⟨(congrArg Call.loaded h :), (congrArg Call.state h :), (congrArg Call.report h :),
    (congrArg Call.forecast h :)⟩

theorem Steady.trans (a b c : Call) (h : Steady a b) (k : Steady b c) : Steady a c :=
  ⟨k.loaded.trans h.loaded, k.state.trans h.state, k.report.trans h.report,
    k.forecast.trans h.forecast⟩

theorem Steady.refl (c : Call) : Steady c c := ⟨rfl, rfl, rfl, rfl⟩

theorem Steady.expected {c d : Call} (h : Steady c d) : d.expected = c.expected := by
  simp only [Call.expected, h.loaded, h.forecast]

theorem Steady.isRunning {c d : Call} (h : Steady c d) : d.isRunning = c.isRunning :=
  isRunning_of_state h.state

/-- The calls of CURRENT with the forecasts they had. -/
def Steadies (s t : State) : Prop := List.Forall₂ Steady s.tts.current t.tts.current

theorem Steadies.trans {s t u : State} (h : Steadies s t) (k : Steadies t u) : Steadies s u :=
  forall₂_comp Steady.trans h k

theorem Restops.steadies {s t : State} (h : Restops s t) : Steadies s t :=
  List.Forall₂.imp (fun _ _ => SameItems.steady) h

theorem Steadies.of_tts {s t : State} (h : t.tts = s.tts) : Steadies s t := (Restops.of_tts h).steadies

theorem rederive_steadies (s : State) {f : Call → Call} (h : ∀ c, Steady c (f c)) :
    Steadies s (s.rederive f) := by
  refine Steadies.trans (t := s.mapCalls f) ?_ (rederive_restops s f).steadies
  rw [Steadies, State.mapCalls_tts, List.forall₂_map_right_iff]
  exact List.forall₂_same.mpr fun c _ => h c

theorem rederiveConfidence_steadies (s : State) : Steadies s s.rederiveConfidence :=
  rederive_steadies s fun _ => ⟨rfl, rfl, rfl, rfl⟩

theorem testOverdue_steadies (s : State) : Steadies s s.testOverdue :=
  rederive_steadies s fun _ => ⟨rfl, rfl, rfl, rfl⟩

theorem announceSync_steadies (s : State) (before : Htb) : Steadies s (s.announceSync before) := by
  have derived := rederiveConfidence_steadies s
  unfold State.announceSync
  split
  · split
    · exact .of_tts rfl
    · exact derived
  · refine derived.trans (.of_tts ?_)
    rw [postNotice_tts, compose_tts, tts_of_bdc (chooseEnergy_frame _), (evaluateMessages_desk _).tts]
    exact (setSalesMode_desk _ _).tts

/-- A live call stays live while the calls keep their forecasts (R88). -/
theorem any_of_forall₂ {R : Call → Call → Prop} {p : Call → Bool} {as bs : List Call}
    (h : List.Forall₂ R as bs) (same : ∀ c d, R c d → p d = p c) : bs.any p = as.any p := by
  induction h with
  | nil => rfl
  | cons r _ ih => rw [List.any_cons, List.any_cons, ih, same _ _ r]

theorem hasLiveCall_of_steadies {s t : State} (h : Steadies s t) (htb : t.htb = s.htb) :
    t.hasLiveCall = s.hasLiveCall := by
  unfold State.hasLiveCall
  rw [htb]
  refine any_of_forall₂ h fun c d steady => ?_
  rw [steady.isRunning, steady.expected]

/-! ## Banks -/

/-- The banks with the calls of CURRENT as an announcement leaves them. -/
structure KeepsBanks (a b : Tts) : Prop where
  frame : b = { a with current := b.current }
  calls : List.Forall₂ SameCall a.current b.current

theorem KeepsBanks.refl (a : Tts) : KeepsBanks a a := ⟨rfl, forall₂_refl SameCall.refl _⟩

theorem KeepsBanks.trans {a b c : Tts} (h : KeepsBanks a b) (k : KeepsBanks b c) : KeepsBanks a c := by
  refine ⟨k.frame.trans ?_, forall₂_comp SameCall.trans h.calls k.calls⟩
  rw [h.frame]

theorem KeepsBanks.of_eq {a b : Tts} (h : b = a) : KeepsBanks a b := h ▸ .refl a

theorem Trades.banks {s t : State} (h : Trades s t) : KeepsBanks s.tts t.tts := ⟨h.tts, h.calls⟩

theorem testActivation_banks (s : State) : KeepsBanks s.tts s.testActivation.tts := by
  rcases testActivation_cases s with e | ⟨_, _, _, _, e⟩
  · rw [e]
    exact .refl _
  · rw [e]
    exact (activate_trades s).banks

theorem appendOrLose_banks (s : State) (b : JournalBody) (lost : SjuCounters → SjuCounters) :
    KeepsBanks s.tts (s.appendOrLose b lost).tts := by
  unfold State.appendOrLose
  split
  · next may => exact ((appendRecord_trades may).trans (afterAppend_announces _).toTrades).banks
  · split
    all_goals exact .refl _

theorem testSecond_banks (s : State) : KeepsBanks s.tts s.testSecond.tts :=
  (((testOverdue_trades s).banks.trans (testCutoffs_announces _).toTrades.banks).trans
    (testActivation_banks _)).trans (cutoffQuotes_announces _).toTrades.banks

theorem announceTime_banks (s : State) : KeepsBanks s.tts s.announceTime.tts :=
  ((((((testOverdue_trades s).banks.trans (testCutoffs_announces _).toTrades.banks).trans
    (testActivation_banks _)).trans (cutoffQuotes_announces _).toTrades.banks).trans
    (evaluateMessages_announces _).toTrades.banks).trans (chooseEnergy_announces _).toTrades.banks).trans
    (compose_announces _).toTrades.banks

theorem switchBanks_banks (s : State) :
    KeepsBanks (s.tts.switchTo s.htb.date) s.switchBanks.tts :=
  (announceSwitch_trades { s with tts := s.tts.switchTo s.htb.date }).banks

theorem closeDay_banks (s : State) (d : Date) : KeepsBanks s.tts (s.closeDay d).tts :=
  appendOrLose_banks _ _ _

theorem announceDaySwitch_banks (s : State) (d : Option Date) :
    KeepsBanks (s.tts.switchTo s.htb.date) (s.announceDaySwitch d).tts := by
  have front := ((switchBanks_banks s).trans (invalidateAll_announces _).toTrades.banks).trans
    (testActivation_banks _)
  unfold State.announceDaySwitch
  cases d with
  | none => exact front.trans (boardsOnSwitch_announces _).toTrades.banks
  | some d => exact (front.trans (closeDay_banks _ d)).trans (boardsOnSwitch_announces _).toTrades.banks

theorem map_eq_of_forall₂ {α : Type} {R : Call → Call → Prop} {f : Call → α} {as bs : List Call}
    (h : List.Forall₂ R as bs) (same : ∀ c d, R c d → f d = f c) : bs.map f = as.map f := by
  induction h with
  | nil => rfl
  | cons r _ ih => rw [List.map_cons, List.map_cons, ih, same _ _ r]

theorem switchTo_ready {t : Tts} {d : Date} (h : t.nextState = .ready ∧ t.nextDate = d) :
    t.switchTo d = { t with
      current := t.next, currentState := .active, next := [], nextState := .empty
      nextDate := t.currentDate, currentDate := d, generation := t.generation + 1#16 } := by
  unfold Tts.switchTo
  dsimp only
  rw [if_pos h]
  exact rfl

theorem switchTo_later {t : Tts} {d : Date} (h : ¬ (t.nextState = .ready ∧ t.nextDate = d))
    (later : 0 < (t.nextDate - d).toInt) :
    t.switchTo d = { t with
      current := [], currentState := .empty, currentDate := d, generation := t.generation + 1#16 } := by
  unfold Tts.switchTo
  dsimp only
  rw [if_neg h, if_pos (show 0 < dateDiff t.nextDate d from later)]
  exact rfl

theorem switchTo_past {t : Tts} {d : Date} (h : ¬ (t.nextState = .ready ∧ t.nextDate = d))
    (past : (t.nextDate - d).toInt ≤ 0) :
    t.switchTo d = { t with
      current := [], currentState := .empty, next := [], nextState := .empty, currentDate := d
      generation := t.generation + 1#16 } := by
  unfold Tts.switchTo
  dsimp only
  rw [if_neg h, if_neg (show ¬ 0 < dateDiff t.nextDate d from not_lt.mpr past)]
  exact rfl

/-- The banks switched, and the calls as the announcements leave them (R89). -/
theorem banksSwitched_of_keeps {s t : State} {d : Date} (h : KeepsBanks (s.tts.switchTo d) t.tts) :
    BanksSwitched s t d := by
  obtain ⟨frame, calls⟩ := h
  have loaded := map_eq_of_forall₂ calls (f := (·.loaded)) fun _ _ e => e.loaded
  have states := map_eq_of_forall₂ calls (f := (·.state)) fun _ _ e => e.state
  unfold BanksSwitched
  generalize t.tts = x at *
  by_cases ready : s.tts.nextState = .ready ∧ s.tts.nextDate = d
  · rw [switchTo_ready ready] at frame loaded states
    rw [frame]
    exact ⟨rfl, rfl, fun _ => ⟨rfl, loaded, states, rfl, rfl, rfl⟩,
      fun other => absurd ready (by rcases other with n | n <;> simp [n])⟩
  · rcases lt_or_ge 0 (s.tts.nextDate - d).toInt with later | past
    · rw [switchTo_later ready later] at frame calls
      rw [frame]
      exact ⟨rfl, rfl, fun r => absurd r ready, fun _ => ⟨rfl, List.forall₂_nil_left_iff.mp calls, rfl,
        fun _ => ⟨rfl, rfl⟩, fun le => absurd later (not_lt.mpr le)⟩⟩
    · rw [switchTo_past ready past] at frame calls
      rw [frame]
      exact ⟨rfl, rfl, fun r => absurd r ready, fun _ => ⟨rfl, List.forall₂_nil_left_iff.mp calls, rfl,
        fun lt => absurd past (not_le.mpr lt), fun _ => ⟨rfl, rfl⟩⟩⟩

end Sys2Proof.Proofs
end

