-- ==== Sys2Proof/Proofs/Withdrawing.lean ====
section
/-! What withdrawing quotes leaves in the four slots, and what a day switch leaves of the quotes and of
the journal (R63, R150, R151, R170). -/

namespace Sys2Proof.Proofs

open Sys2Proof.Machine Sys2Proof.Safety Sys2Proof.Laws

/-! ## The slots one by one -/

theorem postNotice_fqu (s : State) (n : Notice) : (s.postNotice n).fqu = s.fqu := by
  obtain ⟨b, e⟩ := postNotice_frame s n
  exact (congrArg State.fqu e :)

theorem setSlot_slots (s : State) (i j : Fin 4) (x : Slot) :
    (s.setSlot i x).fqu.slots[j] = if i = j then x else s.fqu.slots[j] := by
  rw [State.setSlot_fqu]
  exact set_getElem _ _ _ _

theorem withdrawSlot_slots (s : State) (i j : Fin 4) :
    (s.withdrawSlot i).fqu.slots[j] = if i = j then .free else s.fqu.slots[j] := by
  unfold State.withdrawSlot
  rw [postNotice_fqu]
  exact setSlot_slots s i j .free

/-- One command on each slot in turn is one function on each slot. -/
theorem foldl_slots {f : State → Fin 4 → State} {g : Slot → Slot} {s : State}
    (step : ∀ t i, OnlyDesk s t → OnlyDesk t (f t i)
      ∧ ∀ j : Fin 4, (f t i).fqu.slots[j] = if i = j then g t.fqu.slots[j] else t.fqu.slots[j])
    (j : Fin 4) : (allSlots.foldl f s).fqu.slots[j] = g s.fqu.slots[j] := by
  have zero := step s 0 (.refl s)
  have one := step (f s 0) 1 zero.1
  have two := step (f (f s 0) 1) 2 (zero.1.trans one.1)
  have three := step (f (f (f s 0) 1) 2) 3 ((zero.1.trans one.1).trans two.1)
  refine (three.2 j).trans ?_
  rw [two.2 j, one.2 j, zero.2 j]
  fin_cases j <;> rfl

/-- A slot after its quote is invalidated (R150). -/
def invalidated (hit : Quote → Bool) : Slot → Slot
  | .opened q => if hit q then .free else .opened q
  | .pendingAuth q w => .pendingAuth q (w || hit q)
  | .free => .free

theorem invalidateSlot_slots (hit : Quote → Bool) (s : State) (i j : Fin 4) :
    (s.invalidateSlot hit i).fqu.slots[j]
      = if i = j then invalidated hit s.fqu.slots[j] else s.fqu.slots[j] := by
  have same (h : invalidated hit s.fqu.slots[i] = s.fqu.slots[i]) :
      s.fqu.slots[j] = if i = j then invalidated hit s.fqu.slots[j] else s.fqu.slots[j] := by
    split
    · next e => rw [← e, h]
    · rfl
  have changed {x : Slot} (h : invalidated hit s.fqu.slots[i] = x) :
      (if i = j then x else s.fqu.slots[j])
        = if i = j then invalidated hit s.fqu.slots[j] else s.fqu.slots[j] := by
    split
    · next e => rw [← e, h]
    · rfl
  unfold State.invalidateSlot
  split
  · next e => exact same (by rw [e]; rfl)
  · next e => exact same (by rw [e]; rfl)
  · next q e =>
    split
    · next yes => exact (withdrawSlot_slots s i j).trans (changed (by rw [e]; exact if_pos yes))
    · next no => exact same (by rw [e]; exact if_neg no)
  · next q e =>
    split
    · next yes =>
      exact (setSlot_slots s i j _).trans (changed (by rw [e, invalidated, yes]; rfl))
    · next no => exact same (by rw [e, invalidated, Bool.eq_false_iff.mpr no]; rfl)

theorem invalidate_slots (s : State) (hit : Quote → Bool) (j : Fin 4) :
    (s.invalidate hit).fqu.slots[j] = invalidated hit s.fqu.slots[j] :=
  foldl_slots (fun t i _ => ⟨invalidateSlot_desk hit t i, invalidateSlot_slots hit t i⟩) j

/-- A slot after the cutoff of its quote is tested (R151). -/
def cutOff (s : State) : Slot → Slot
  | .opened q => if s.quotePastCutoff q then .free else .opened q
  | x => x

theorem quotePastCutoff_congr {s t : State} (current : t.tts.current = s.tts.current)
    (secs : t.htb.secs = s.htb.secs) (params : t.params = s.params) (q : Quote) :
    t.quotePastCutoff q = s.quotePastCutoff q := by
  have past : t.pastCutoff = s.pastCutoff := by
    funext c
    unfold State.pastCutoff
    rw [secs, params]
  have call : t.call = s.call := by
    funext k
    unfold State.call
    rw [current]
  unfold State.quotePastCutoff
  rw [past, call]

theorem OnlyDesk.quotePastCutoff {s t : State} (h : OnlyDesk s t) (q : Quote) :
    t.quotePastCutoff q = s.quotePastCutoff q :=
  quotePastCutoff_congr (congrArg Tts.current h.tts) (congrArg Htb.secs h.htb) h.params q

theorem cutoffSlot_slots {s t : State} (desk : OnlyDesk s t) (i j : Fin 4) :
    (t.cutoffSlot i).fqu.slots[j] = if i = j then cutOff s t.fqu.slots[j] else t.fqu.slots[j] := by
  have same (h : cutOff s t.fqu.slots[i] = t.fqu.slots[i]) :
      t.fqu.slots[j] = if i = j then cutOff s t.fqu.slots[j] else t.fqu.slots[j] := by
    split
    · next e => rw [← e, h]
    · rfl
  unfold State.cutoffSlot
  split
  · next q e =>
    rw [desk.quotePastCutoff]
    split
    · next yes =>
      refine (withdrawSlot_slots t i j).trans ?_
      split
      · next same => rw [← same, e]; exact (if_pos yes).symm
      · rfl
    · next no => exact same (by rw [e]; exact if_neg no)
  · next e => exact same (by rw [e]; rfl)
  · next e => exact same (by rw [e]; rfl)

theorem cutoffQuotes_slots (s : State) (j : Fin 4) :
    s.cutoffQuotes.fqu.slots[j] = cutOff s s.fqu.slots[j] :=
  foldl_slots (fun t i desk => ⟨cutoffSlot_desk t i, cutoffSlot_slots desk i⟩) j

/-- After the cutoff test no OPEN quote is past its call's cutoff (R151). -/
theorem cutoffQuotes_open {s : State} {i : Fin 4} {q : Quote}
    (h : s.cutoffQuotes.fqu.slots[i] = .opened q) : s.cutoffQuotes.quotePastCutoff q = false := by
  rw [(cutoffQuotes_desk s).quotePastCutoff]
  rw [cutoffQuotes_slots] at h
  unfold cutOff at h
  split at h
  · next x _ =>
    split at h
    · exact absurd h nofun
    · next no =>
      obtain rfl : x = q := Slot.opened.inj h
      exact Bool.eq_false_iff.mpr no
  · next other => exact absurd h (other q)

/-! ## No quote OPEN -/

/-- No slot holds an OPEN quote. -/
def NoneOpen (s : State) : Prop := ∀ (i : Fin 4) (q : Quote), s.fqu.slots[i] ≠ .opened q

theorem NoneOpen.of_slots {s t : State} (h : NoneOpen s)
    (slots : ∀ i : Fin 4, SlotFollows s.fqu.slots[i] t.fqu.slots[i]) : NoneOpen t := by
  intro i q opened
  have follows := slots i
  rw [opened] at follows
  generalize e : s.fqu.slots[i] = x at follows
  cases follows with
  | same => exact h i q e

theorem Turns.noneOpen {s t : State} (h : NoneOpen s) (k : Turns s t) : NoneOpen t := h.of_slots k.slots

theorem Trades.noneOpen {s t : State} (h : NoneOpen s) (k : Trades s t) : NoneOpen t := h.of_slots k.slots

theorem invalidateAll_none (s : State) : NoneOpen s.invalidateAll := by
  intro i q opened
  have e : invalidated (fun _ => true) s.fqu.slots[i] = .opened q :=
    (invalidate_slots s _ i).symm.trans opened
  cases slot : s.fqu.slots[i] with
  | free => rw [slot] at e; exact absurd e nofun
  | opened _ => rw [slot] at e; exact absurd e nofun
  | pendingAuth _ _ => rw [slot] at e; exact absurd e nofun

theorem pendingAuth_of_follows {x y : Slot} {q : Quote} (h : SlotFollows x y)
    (marked : x = .pendingAuth q true) : y = .pendingAuth q true := by
  cases h with
  | same => exact marked
  | freed => exact absurd marked nofun
  | marked _ _ => rw [(Slot.pendingAuth.inj marked).1]

/-- The slots once all were invalidated, whatever follows of them (R150). -/
theorem allWithdrawn_of_slots {s t : State}
    (slots : ∀ i : Fin 4, SlotFollows s.invalidateAll.fqu.slots[i] t.fqu.slots[i]) : AllWithdrawn s t := by
  refine ⟨(invalidateAll_none s).of_slots slots, fun i q w pending => ?_⟩
  refine pendingAuth_of_follows (slots i) ((invalidate_slots s _ i).trans ?_)
  rw [pending, invalidated, Bool.or_true]

/-- The slots once those that name a call were invalidated, whatever follows of them (R150). -/
theorem quotesWithdrawn_of_slots {s u t : State} {k : Key}
    (before : ∀ i : Fin 4, SlotFollows s.fqu.slots[i] u.fqu.slots[i])
    (slots : ∀ i : Fin 4, SlotFollows (u.invalidateNaming k).fqu.slots[i] t.fqu.slots[i]) :
    QuotesWithdrawn s t k := by
  intro i q naming
  have hit : (q.call == some k) = true := beq_iff_eq.mpr naming
  have naming := invalidate_slots u (fun q => q.call == some k) i
  have first := before i
  have last := slots i
  refine ⟨fun opened => ?_, fun w pending => ?_⟩
  · have freed : (u.invalidateNaming k).fqu.slots[i] = .free := by
      rw [opened] at first
      refine naming.trans ?_
      generalize u.fqu.slots[i] = y at first
      cases first with
      | same => exact if_pos hit
      | freed => rfl
    rw [freed] at last
    generalize t.fqu.slots[i] = y at last
    cases last with
    | same => rfl
  · refine pendingAuth_of_follows last (naming.trans ?_)
    rw [pending] at first
    generalize u.fqu.slots[i] = y at first
    cases first with
    | same => rw [invalidated, hit, Bool.or_true]
    | marked => rfl

/-! ## The day switch -/

theorem switchBanks_desk_sju (s : State) : bareSju s.switchBanks.sju = bareSju s.sju :=
  (announceSwitch_trades { s with tts := s.tts.switchTo s.htb.date }).bareSju

theorem testActivation_bareSju (s : State) : bareSju s.testActivation.sju = bareSju s.sju := by
  rcases testActivation_cases s with e | ⟨_, _, _, _, e⟩
  · rw [e]
  · rw [e]
    exact (activate_trades s).bareSju

theorem announceDaySwitch_none (s : State) (d : Option Date) : NoneOpen (s.announceDaySwitch d) := by
  have front : NoneOpen s.switchBanks.invalidateAll.testActivation :=
    (testActivation_turns _).noneOpen (invalidateAll_none _)
  unfold State.announceDaySwitch
  cases d with
  | none => exact (boardsOnSwitch_announces _).toTrades.noneOpen front
  | some d =>
    exact (boardsOnSwitch_announces _).toTrades.noneOpen ((closeDay_turns _ d).noneOpen front)

theorem announceDaySwitch_htb (s : State) (d : Option Date) : (s.announceDaySwitch d).htb = s.htb :=
  (announceDaySwitch_turns s d).htb

theorem announceDaySwitch_some_sju (s : State) (d : Date) :
    bareSju (s.announceDaySwitch (some d)).sju
      = bareSju (s.switchBanks.invalidateAll.testActivation.closeDay d).sju :=
  (boardsOnSwitch_announces _).toTrades.bareSju

theorem closeDay_totals (s : State) (d : Date) : (s.closeDay d).sju.totals = {} := rfl

theorem announceDaySwitch_totals (s : State) (d : Date) :
    (s.announceDaySwitch (some d)).sju.totals = {} :=
  (congrArg Sju.totals (announceDaySwitch_some_sju s d) :)

theorem closeDay_journal {s : State} (d : Date) (set : s.htb.sync ≠ .unset)
    (room : s.sju.occupancy < 512) :
    (s.closeDay d).sju.journal = s.sju.journal ++ [⟨s.sju.writeSeq, .dayTotal d s.sju.totals⟩] := by
  have may : s.mayAppend (.dayTotal d s.sju.totals) = true := mayAppend_of_room rfl set room
  have e : s.appendOther (.dayTotal d s.sju.totals)
      = (s.appendRecord (.dayTotal d s.sju.totals)).afterAppend := if_pos may
  calc (s.closeDay d).sju.journal
      = (s.appendOther (.dayTotal d s.sju.totals)).sju.journal := rfl
    _ = (s.appendRecord (.dayTotal d s.sju.totals)).sju.journal := by
        rw [e, (afterAppend_announces _).toTrades.journal]
    _ = _ := (congrArg Sju.journal (appendRecord_of_mayAppend may).bareSju :)

/-- The day's total is recorded as the day closes (R170). -/
theorem announceDaySwitch_journal {s : State} (d : Date) (set : s.htb.sync ≠ .unset)
    (room : s.sju.occupancy < 512) : (s.announceDaySwitch (some d)).sju.journal
      = s.sju.journal ++ [⟨s.sju.writeSeq, .dayTotal d s.sju.totals⟩] := by
  have front : Turns s s.switchBanks.invalidateAll.testActivation :=
    ((switchBanks_turns s).trans (invalidateAll_announces _).turns).trans (testActivation_turns _)
  have sju : bareSju s.switchBanks.invalidateAll.testActivation.sju = bareSju s.sju :=
    ((testActivation_bareSju _).trans (invalidateAll_announces _).toTrades.bareSju).trans
      (switchBanks_desk_sju s)
  have htb := front.htb
  have back := announceDaySwitch_some_sju s d
  generalize s.switchBanks.invalidateAll.testActivation = u at sju htb back
  have journal := congrArg Sju.journal sju
  have seq := congrArg Sju.writeSeq sju
  have totals := congrArg Sju.totals sju
  have occupancy : u.sju.occupancy = s.sju.occupancy := (congrArg Sju.occupancy sju :)
  refine (congrArg Sju.journal back :).trans ?_
  refine (closeDay_journal d (by rw [htb]; exact set) (by rw [occupancy]; exact room)).trans ?_
  simp only [bareSju] at journal seq totals
  rw [journal, seq, totals]

theorem daySwitchOnce_htb (s : State) (x : Nat) :
    (s.daySwitchOnce x).htb = s.htb.switchedAt s.params.hour x := announceDaySwitch_htb _ _

theorem daySwitchOnce_banks (s : State) (x : Nat) :
    BanksSwitched s (s.daySwitchOnce x) (s.htb.switchedAt s.params.hour x).date :=
  banksSwitched_of_keeps (s := s) (announceDaySwitch_banks { s with htb := s.htb.switchedAt s.params.hour x } _)

theorem daySwitchOnce_noneOpen (s : State) (x : Nat) : NoneOpen (s.daySwitchOnce x) :=
  announceDaySwitch_none _ _

theorem daySwitchOnce_totals (s : State) (x : Nat) : (s.daySwitchOnce x).sju.totals = {} :=
  announceDaySwitch_totals _ _

theorem daySwitchOnce_journal {s : State} (x : Nat) (set : s.htb.sync ≠ .unset)
    (room : s.sju.occupancy < 512) : (s.daySwitchOnce x).sju.journal
      = s.sju.journal ++ [⟨s.sju.writeSeq, .dayTotal s.htb.date s.sju.totals⟩] :=
  announceDaySwitch_journal (s := { s with htb := s.htb.switchedAt s.params.hour x }) _ set room

end Sys2Proof.Proofs
end

