-- ==== Sys2Proof/Proofs/Seconds.lean ====
section
/-! The seconds of the retained oscillator: counting, deferral, rollover and the day switch
(4.1, 4.3, 4.4; R56, R58, R61 to R63, R66). -/

namespace Sys2Proof.Proofs

open Sys2Proof.Machine Sys2Proof.Safety Sys2Proof.Laws

/-! ## The clock -/

theorem live_iff {s : State} {x : Nat} (h : s.htb.secs = x) : s.hasLiveCall = true ↔
    ∃ c ∈ s.tts.current, (c.state = .scheduled ∨ c.state = .running) ∧ x ≤ c.expected + 60 := by
  rw [hasLiveCall_iff, h]
  simp only [isRunning_iff]

/-- L and the sync state advanced (R56). -/
def synced (h : Htb) : Htb :=
  { h with sinceSync := tally h.sinceSync, sync := syncOf (tally h.sinceSync) }

theorem advanceSync_eq {h : Htb} (set : h.sync ≠ .unset) : h.advanceSync = synced h := by
  unfold Htb.advanceSync
  split
  · next unset => exact absurd unset set
  all_goals exact rfl

theorem advanceSecs_stand {h : Htb} (set : h.sync ≠ .unset) (stand : 0 < h.stand) :
    h.advanceSecs = { h with stand := h.stand - 1 } := by
  unfold Htb.advanceSecs
  split
  · next unset => exact absurd unset set
  all_goals exact if_pos stand

theorem advanceSecs_count {h : Htb} (set : h.sync ≠ .unset) (stand : h.stand = 0) :
    h.advanceSecs = { h with secs := tally h.secs } := by
  have none : ¬ 0 < h.stand := by omega
  unfold Htb.advanceSecs
  split
  · next unset => exact absurd unset set
  all_goals exact if_neg none

theorem syncOf_set (l : Nat) : syncOf l ≠ .unset := by
  unfold syncOf
  split <;> decide

theorem tally_of_lt {n : Nat} (h : n < 4294967295) : tally n = n + 1 := Nat.min_eq_left h

theorem unset_frozen {s : State} (unset : s.htb.sync = .unset) :
    s.htb.advanceSync = s.htb ∧ s.htb.advanceSecs = s.htb := by
  simp only [Htb.advanceSync, Htb.advanceSecs, unset, and_self]

theorem announceSync_self (s : State) : s.announceSync s.htb = s :=
  (if_pos rfl).trans (if_pos rfl)

theorem serviceSecond_unset {s : State} (unset : s.htb.sync = .unset) : s.serviceSecond = s := by
  obtain ⟨sync, secs⟩ := unset_frozen unset
  unfold State.serviceSecond
  rw [sync]
  dsimp only
  rw [announceSync_self, secs]
  exact if_pos rfl

/-- The state after L advances (R58). -/
def secondSynced (s : State) : State := State.announceSync { s with htb := synced s.htb } s.htb

theorem secondSynced_trades (s : State) : Trades { s with htb := synced s.htb } (secondSynced s) :=
  announceSync_trades _ _

theorem secondSynced_htb (s : State) : (secondSynced s).htb = synced s.htb := (secondSynced_trades s).htb

/-- The state after s advances. -/
def secondCounted (s : State) : State :=
  { secondSynced s with htb := { synced s.htb with secs := s.htb.secs + 1 } }

theorem secondCounted_banks (s : State) : KeepsBanks s.tts (secondCounted s).tts :=
  (secondSynced_trades s).banks

theorem secondCounted_sju (s : State) : bareSju (secondCounted s).sju = bareSju s.sju :=
  (secondSynced_trades s).bareSju

theorem secondCounted_params (s : State) : (secondCounted s).params = s.params :=
  (secondSynced_trades s).params

/-- Live calls are those of the calls before the second (R88). -/
theorem secondCounted_live (s : State) : (secondCounted s).hasLiveCall = true ↔
    ∃ c ∈ s.tts.current, (c.state = .scheduled ∨ c.state = .running)
      ∧ s.htb.secs + 1 ≤ c.expected + 60 := by
  have steady : Steadies { s with htb := { synced s.htb with secs := s.htb.secs + 1 } } (secondCounted s) :=
    announceSync_steadies { s with htb := synced s.htb } s.htb
  rw [hasLiveCall_of_steadies steady rfl]
  exact live_iff rfl

theorem serviceSecond_stand {s : State} (set : s.htb.sync ≠ .unset) (stand : 0 < s.htb.stand) :
    s.serviceSecond
      = { secondSynced s with htb := { synced s.htb with stand := s.htb.stand - 1 } } := by
  have secs : (secondSynced s).htb.advanceSecs = { synced s.htb with stand := s.htb.stand - 1 } := by
    rw [secondSynced_htb]
    exact advanceSecs_stand (h := synced s.htb) (syncOf_set _) stand
  unfold State.serviceSecond
  rw [advanceSync_eq set]
  change (if (secondSynced s).htb.advanceSecs.secs = (secondSynced s).htb.secs then
    { secondSynced s with htb := (secondSynced s).htb.advanceSecs }
    else (State.checkDay { secondSynced s with htb := (secondSynced s).htb.advanceSecs }).testSecond) = _
  rw [secs, secondSynced_htb]
  exact if_pos rfl

theorem serviceSecond_count {s : State} (set : s.htb.sync ≠ .unset) (stand : s.htb.stand = 0)
    (small : s.htb.secs < 4294967295) : s.serviceSecond = (secondCounted s).checkDay.testSecond := by
  have secs : (secondSynced s).htb.advanceSecs = { synced s.htb with secs := s.htb.secs + 1 } := by
    rw [secondSynced_htb, advanceSecs_count (h := synced s.htb) (syncOf_set _) stand]
    exact congrArg (fun n => { synced s.htb with secs := n }) (tally_of_lt small)
  unfold State.serviceSecond
  rw [advanceSync_eq set]
  change (if (secondSynced s).htb.advanceSecs.secs = (secondSynced s).htb.secs then
    { secondSynced s with htb := (secondSynced s).htb.advanceSecs }
    else (State.checkDay { secondSynced s with htb := (secondSynced s).htb.advanceSecs }).testSecond) = _
  rw [secs, secondSynced_htb]
  exact if_neg (Nat.succ_ne_self s.htb.secs)

/-! ## The day switch -/

theorem switchedAt_hour {h : Htb} {hour : Nat} (same : hour = h.hour) (x : Nat) :
    h.switchedAt hour x = { h with
      date := h.date + BitVec.ofNat 16 (x / 86400), secs := x % 86400, stand := 0
      deferral := false } := by
  subst same
  have secs : (((x % 86400 : Nat) : Int) - 3600 * ((h.hour : Int) - h.hour)).toNat = x % 86400 := by omega
  have stand : (-(((x % 86400 : Nat) : Int) - 3600 * ((h.hour : Int) - h.hour))).toNat = 0 := by omega
  unfold Htb.switchedAt Config.daySeconds
  dsimp only
  rw [secs, stand]

theorem daySwitch_once {s : State} {x : Nat} (h : (s.htb.switchedAt s.params.hour x).secs < 86400) :
    s.daySwitch x = s.daySwitchOnce x := by
  have below : ¬ Config.daySeconds ≤ (s.daySwitchOnce x).htb.secs := by
    rw [daySwitchOnce_htb]
    exact Nat.not_le.mpr h
  exact if_neg below

theorem daySwitch_hour {s : State} (same : s.params.hour = s.htb.hour) (x : Nat) :
    s.daySwitch x = s.daySwitchOnce x := by
  refine daySwitch_once ?_
  rw [switchedAt_hour same]
  exact Nat.mod_lt _ (by decide)

theorem banksSwitched_congr {s u t : State} {d : Date} (h : KeepsBanks s.tts u.tts)
    (k : BanksSwitched u t d) : BanksSwitched s t d := by
  unfold BanksSwitched at k ⊢
  rw [h.frame] at k
  exact k

/-- The switched day, whatever keeps the banks, the clock and the slots after it (R63). -/
structure DaySwitched (s t : State) (h : Htb) : Prop where
  htb : t.htb = h
  banks : BanksSwitched s t h.date
  none : NoneOpen t
  totals : t.sju.totals = {}

theorem DaySwitched.once (s : State) (x : Nat) :
    DaySwitched s (s.daySwitchOnce x) (s.htb.switchedAt s.params.hour x) :=
  ⟨daySwitchOnce_htb s x, daySwitchOnce_banks s x, daySwitchOnce_noneOpen s x, daySwitchOnce_totals s x⟩

theorem DaySwitched.hour {s : State} (same : s.params.hour = s.htb.hour) (x : Nat) :
    DaySwitched s (s.daySwitch x) { s.htb with
      date := s.htb.date + BitVec.ofNat 16 (x / 86400), secs := x % 86400, stand := 0
      deferral := false } := by
  rw [daySwitch_hour same, ← switchedAt_hour same]
  exact .once s x

theorem banksSwitched_keeps {s t u : State} {d : Date} (h : BanksSwitched s t d)
    (k : KeepsBanks t.tts u.tts) : BanksSwitched s u d := by
  have loaded := map_eq_of_forall₂ k.calls (f := (·.loaded)) fun _ _ e => e.loaded
  have states := map_eq_of_forall₂ k.calls (f := (·.state)) fun _ _ e => e.state
  have none (h : t.tts.current = []) : u.tts.current = [] := List.forall₂_nil_left_iff.mp (h ▸ k.calls)
  have frame := k.frame
  unfold BanksSwitched at h ⊢
  generalize u.tts = y at *
  obtain ⟨date, generation, ready, other⟩ := h
  rw [frame]
  refine ⟨date, generation, fun r => ?_, fun o => ?_⟩
  · obtain ⟨active, loads, sts, rest⟩ := ready r
    exact ⟨active, loaded.trans loads, states.trans sts, rest⟩
  · obtain ⟨empty, calls, rest⟩ := other o
    exact ⟨empty, none calls, rest⟩

theorem testSecond_sju (s : State) : bareSju s.testSecond.sju = bareSju s.sju :=
  (((cutoffQuotes_announces _).toTrades.bareSju.trans (testActivation_bareSju _)).trans
    (testCutoffs_announces _).toTrades.bareSju).trans (testOverdue_trades s).bareSju

theorem DaySwitched.then {s t u : State} {h : Htb} (k : DaySwitched s t h) (turns : Turns t u)
    (banks : KeepsBanks t.tts u.tts) (sju : bareSju u.sju = bareSju t.sju) : DaySwitched s u h :=
  ⟨turns.htb.trans k.htb, banksSwitched_keeps k.banks banks, turns.noneOpen k.none,
    (congrArg Sju.totals sju :).trans k.totals⟩

theorem DaySwitched.second {s t : State} {h : Htb} (k : DaySwitched s t h) : DaySwitched s t.testSecond h :=
  k.then (testSecond_turns t) (testSecond_banks t) (testSecond_sju t)

/-! ## Deferral and rollover -/

section
variable {s : State}

theorem deferralTests_end (h : s.deferEnd ≤ s.htb.secs) :
    s.deferralTests = s.countDefer.daySwitch s.htb.secs := if_pos h

theorem deferralTests_live (h : s.htb.secs < s.deferEnd) (live : s.hasLiveCall = true) :
    s.deferralTests = s := (if_neg (Nat.not_le.mpr h)).trans (if_pos live)

theorem deferralTests_clear (h : s.htb.secs < s.deferEnd) (clear : s.hasLiveCall = false) :
    s.deferralTests = s.daySwitch s.htb.secs :=
  (if_neg (Nat.not_le.mpr h)).trans (if_neg (Bool.eq_false_iff.mp clear))

theorem rolloverCheck_clear (h : s.hasLiveCall = false ∨ s.params.deferLimit = 0) :
    s.rolloverCheck = s.daySwitch s.htb.secs := by
  refine if_pos ?_
  rcases h with clear | zero
  · rw [clear]; rfl
  · rw [zero]; exact Bool.or_true _

theorem rolloverCheck_end (live : s.hasLiveCall = true) (some : s.params.deferLimit ≠ 0)
    (h : s.deferEnd ≤ s.htb.secs) : s.rolloverCheck = s.countDefer.daySwitch s.htb.secs := by
  refine (if_neg ?_).trans (if_pos h)
  rw [live, Bool.not_true, Bool.false_or, beq_iff_eq]
  exact some

theorem rolloverCheck_defer (live : s.hasLiveCall = true) (h : s.htb.secs < s.deferEnd)
    (day : 86400 ≤ s.htb.secs) :
    s.rolloverCheck = { s with htb := { s.htb with deferral := true } } := by
  have some : s.params.deferLimit ≠ 0 := by
    unfold State.deferEnd Config.daySeconds at h
    omega
  refine (if_neg ?_).trans (if_neg (Nat.not_le.mpr h))
  rw [live, Bool.not_true, Bool.false_or, beq_iff_eq]
  exact some

theorem checkDay_deferring (h : s.htb.deferral = true) : s.checkDay = s.deferralTests := if_pos h

theorem checkDay_rollover (h : s.htb.deferral = false) (day : 86400 ≤ s.htb.secs) :
    s.checkDay = s.rolloverCheck := (if_neg (Bool.eq_false_iff.mp h)).trans (if_pos day)

theorem checkDay_within (h : s.htb.deferral = false) (day : s.htb.secs < 86400) : s.checkDay = s :=
  (if_neg (Bool.eq_false_iff.mp h)).trans (if_neg (Nat.not_le.mpr day))

end

/-! ## The second in its cases -/

theorem second_frame {s t : State} (h : s.serviceSecond = t) : t = { s with
    up := t.up, htb := t.htb, tts := t.tts, sru := t.sru, bdc := t.bdc, fqu := t.fqu, sju := t.sju
    tpi := t.tpi } := by
  have winds := serviceSecond_winds s
  rw [h] at winds
  exact winds.onlyClock

theorem testSecond_open {u t : State} (h : t = u.testSecond) {i : Fin 4} {q : Quote}
    (opened : t.fqu.slots[i] = .opened q) : t.quotePastCutoff q = false := by
  subst h
  exact cutoffQuotes_open opened

/-- A second that leaves the day as it counted it. -/
theorem secondCounted_kept {s t : State} (h : t = (secondCounted s).testSecond) :
    t.htb = { synced s.htb with secs := s.htb.secs + 1 } ∧ KeepsBanks s.tts t.tts := by
  have htb := (testSecond_turns (secondCounted s)).htb
  have banks := testSecond_banks (secondCounted s)
  rw [← h] at htb banks
  exact ⟨htb, (secondCounted_banks s).trans banks⟩

/-- A second that switches the day, DEFER_LIMIT counted or not (R61, R62). -/
theorem secondCounted_switched {s : State} {u : State} {h : Htb}
    (counted : DaySwitched u (u.daySwitch (s.htb.secs + 1)) h)
    (same : u.tts = (secondCounted s).tts) :
    DaySwitched s (u.daySwitch (s.htb.secs + 1)).testSecond h := by
  obtain ⟨htb, banks, none, totals⟩ := counted.second
  exact ⟨htb, banksSwitched_congr (same ▸ secondCounted_banks s) banks, none, totals⟩

/-- Settles O26. -/
theorem secondIsCounted : Obligations.SecondIsCounted := by
  intro s
  refine ⟨fun unset => ?_, fun off set stand => ?_, fun on set stand => ?_,
    fun on set stand still day => ?_, fun off set stand => ?_, fun on set stand deferring day small => ?_⟩
  · have still : exec .serviceSecond s = .next (if s.powered then s.serviceSecond else
        { s with htb := s.htb.advanceSync.advanceSecs }) := rfl
    obtain ⟨sync, secs⟩ := unset_frozen unset
    rw [still, serviceSecond_unset unset, sync, secs]
    exact congrArg _ (ite_self s)
  · have unpowered : exec .serviceSecond s = .next { s with htb := s.htb.advanceSync.advanceSecs } :=
      congrArg Host.Outcome.next (if_neg (Bool.eq_false_iff.mp off))
    rw [unpowered, advanceSync_eq set, advanceSecs_count (h := synced s.htb) (syncOf_set _) stand]
    rfl
  · rw [exec_serviceSecond on]
    exact ⟨_, rfl, congrArg State.htb (serviceSecond_stand set stand), second_frame rfl⟩
  · have counted := serviceSecond_count set stand (by omega)
    rw [checkDay_within (s := secondCounted s) still day] at counted
    have frame := second_frame (s := s) rfl
    rw [exec_serviceSecond on]
    generalize s.serviceSecond = t at counted frame
    obtain ⟨htb, _⟩ := secondCounted_kept counted
    exact ⟨t, rfl, htb, fun i q => testSecond_open counted, frame⟩
  · have unpowered : exec .serviceSecond s = .next { s with htb := s.htb.advanceSync.advanceSecs } :=
      congrArg Host.Outcome.next (if_neg (Bool.eq_false_iff.mp off))
    rw [unpowered, advanceSync_eq set, advanceSecs_stand (h := synced s.htb) (syncOf_set _) stand]
    rfl
  · have counted := serviceSecond_count set stand small
    rw [checkDay_deferring (s := secondCounted s) deferring] at counted
    have params := secondCounted_params s
    have ends : (secondCounted s).deferEnd = 86400 + 60 * s.params.deferLimit := by
      rw [State.deferEnd, params]
      rfl
    rw [exec_serviceSecond on]
    refine ⟨_, rfl, fun early live => ?_, fun past same => ?_⟩
    · rw [deferralTests_live (s := secondCounted s) (by rw [ends]; exact early)
        ((secondCounted_live s).mpr live)] at counted
      obtain ⟨htb, banks⟩ := secondCounted_kept counted
      exact ⟨htb, (congrArg Tts.generation banks.frame :)⟩
    · have hour : (secondCounted s).params.hour = s.htb.hour := by rw [params]; exact same
      by_cases limit : 86400 + 60 * s.params.deferLimit ≤ s.htb.secs + 1
      · have switched := DaySwitched.hour (s := (secondCounted s).countDefer) hour (s.htb.secs + 1)
        rw [deferralTests_end (s := secondCounted s) (by rw [ends]; exact limit)] at counted
        have second := secondCounted_switched switched rfl
        rw [show ((secondCounted s).countDefer.daySwitch (s.htb.secs + 1)).testSecond = s.serviceSecond from
          counted.symm] at second
        generalize s.serviceSecond = t at second
        obtain ⟨htb, banks, none, _⟩ := second
        refine ⟨htb.trans ?_, banks, none⟩
        simp only [if_pos limit]
        rfl
      · have clear : (secondCounted s).hasLiveCall = false := by
          rw [Bool.eq_false_iff, Ne, secondCounted_live]
          exact past.resolve_left limit
        have switched := DaySwitched.hour (s := secondCounted s) hour (s.htb.secs + 1)
        rw [deferralTests_clear (s := secondCounted s) (by rw [ends]; exact not_le.mp limit) clear] at counted
        have second := secondCounted_switched switched rfl
        rw [show ((secondCounted s).daySwitch (s.htb.secs + 1)).testSecond = s.serviceSecond from
          counted.symm] at second
        generalize s.serviceSecond = t at second
        obtain ⟨htb, banks, none, _⟩ := second
        refine ⟨htb.trans ?_, banks, none⟩
        simp only [if_neg limit]
        rfl

/-! ## The end of the day -/

theorem switchedAt_midnight (h : Htb) (hour : Nat) :
    (h.switchedAt hour 86400).date = h.date + 1#16 ∧ (h.switchedAt hour 86400).hour = hour
      ∧ (h.switchedAt hour 86400).deferral = false
      ∧ ((h.switchedAt hour 86400).secs : Int) - (h.switchedAt hour 86400).stand
        = 3600 * ((h.hour : Int) - hour)
      ∧ ((h.switchedAt hour 86400).secs = 0 ∨ (h.switchedAt hour 86400).stand = 0) := by
  refine ⟨rfl, rfl, rfl, ?_, ?_⟩
  all_goals
    simp only [Htb.switchedAt, Config.daySeconds]
    omega

/-- The switch at midnight makes no second one (R63). -/
theorem daySwitch_midnight {s : State} (h : (s.htb.hour : Int) - s.params.hour ≤ 2) :
    s.daySwitch 86400 = s.daySwitchOnce 86400 := by
  refine daySwitch_once ?_
  obtain ⟨_, _, _, total, one⟩ := switchedAt_midnight s.htb s.params.hour
  omega

theorem secondCounted_midnight {s : State} (secs : s.htb.secs = 86399) (still : s.htb.deferral = false) :
    (secondCounted s).checkDay = (secondCounted s).rolloverCheck :=
  checkDay_rollover still (show 86400 ≤ s.htb.secs + 1 by omega)

/-- The second before midnight, when no call defers the switch (R61). -/
theorem serviceSecond_midnight {s : State} (set : s.htb.sync ≠ .unset) (stand : s.htb.stand = 0)
    (secs : s.htb.secs = 86399) (still : s.htb.deferral = false)
    (clear : ¬ (∃ c ∈ s.tts.current, (c.state = .scheduled ∨ c.state = .running)
      ∧ 86400 ≤ c.expected + 60) ∨ s.params.deferLimit = 0)
    (hours : (s.htb.hour : Int) - s.params.hour ≤ 2) :
    s.serviceSecond = ((secondCounted s).daySwitchOnce 86400).testSecond
      ∧ DaySwitched s s.serviceSecond ((secondCounted s).htb.switchedAt s.params.hour 86400) := by
  have params := secondCounted_params s
  have none : (secondCounted s).hasLiveCall = false ∨ (secondCounted s).params.deferLimit = 0 := by
    rw [params, Bool.eq_false_iff, Ne, secondCounted_live, secs]
    exact clear
  have once : (secondCounted s).daySwitch 86400 = (secondCounted s).daySwitchOnce 86400 :=
    daySwitch_midnight (by rw [params]; exact hours)
  have midnight : s.htb.secs + 1 = 86400 := by omega
  have rolled : (secondCounted s).rolloverCheck = (secondCounted s).daySwitch 86400 :=
    (rolloverCheck_clear none).trans (congrArg (secondCounted s).daySwitch midnight)
  have counted := serviceSecond_count set stand (by omega)
  rw [secondCounted_midnight secs still, rolled] at counted
  refine ⟨once ▸ counted, ?_⟩
  have switched := DaySwitched.once (secondCounted s) 86400
  rw [← once, params, ← midnight] at switched
  have second := secondCounted_switched switched rfl
  rw [midnight] at second
  rw [counted]
  exact second

end Sys2Proof.Proofs
end

