-- ==== Sys2Proof/Proofs/Rollover.lean ====
section
/-! The rollover check at the end of the day and CTRL FORCE_DAY_SWITCH (4.4; R61 to R63). -/

namespace Sys2Proof.Proofs

open Sys2Proof.Machine Sys2Proof.Safety Sys2Proof.Laws

section
variable {s : State} {f : RxFrame} {rest : List RxFrame}

/-- A live call defers the switch at the end of the day (R61, R62). -/
theorem serviceSecond_deferred (set : s.htb.sync ≠ .unset) (stand : s.htb.stand = 0)
    (secs : s.htb.secs = 86399) (still : s.htb.deferral = false)
    (live : ∃ c ∈ s.tts.current, (c.state = .scheduled ∨ c.state = .running)
      ∧ 86400 ≤ c.expected + 60) (limit : 0 < s.params.deferLimit) :
    s.serviceSecond.htb = { synced s.htb with secs := s.htb.secs + 1, deferral := true }
      ∧ KeepsBanks s.tts s.serviceSecond.tts := by
  have running : (secondCounted s).hasLiveCall = true := by
    rw [secondCounted_live, secs]
    exact live
  have ends : (secondCounted s).deferEnd = 86400 + 60 * s.params.deferLimit := by
    rw [State.deferEnd, secondCounted_params]
    rfl
  have early : (secondCounted s).htb.secs < (secondCounted s).deferEnd := by
    rw [ends]
    exact show s.htb.secs + 1 < _ by omega
  have deferred := rolloverCheck_defer running early (show 86400 ≤ s.htb.secs + 1 by omega)
  have counted := serviceSecond_count set stand (by omega)
  rw [secondCounted_midnight secs still, deferred] at counted
  generalize e : ({ secondCounted s with htb := { (secondCounted s).htb with deferral := true } } : State) = u
    at counted
  have htb : u.htb = { synced s.htb with secs := s.htb.secs + 1, deferral := true } := by rw [← e]; rfl
  have banks : KeepsBanks s.tts u.tts := by rw [← e]; exact secondCounted_banks s
  rw [counted]
  exact ⟨(testSecond_turns u).htb.trans htb, banks.trans (testSecond_banks u)⟩

theorem serviceSecond_midnight_journal (room : s.sju.occupancy < 512)
    (switched : s.serviceSecond = ((secondCounted s).daySwitchOnce 86400).testSecond) :
    s.serviceSecond.sju.journal
      = s.sju.journal ++ [⟨s.sju.writeSeq, .dayTotal s.htb.date s.sju.totals⟩] := by
  have sju := secondCounted_sju s
  have tested := congrArg Sju.journal (testSecond_sju ((secondCounted s).daySwitchOnce 86400))
  have occupancy : (secondCounted s).sju.occupancy = s.sju.occupancy := (congrArg Sju.occupancy sju :)
  have closed := daySwitchOnce_journal (s := secondCounted s) 86400 (syncOf_set _)
    (by rw [occupancy]; exact room)
  have journal := congrArg Sju.journal sju
  have seq := congrArg Sju.writeSeq sju
  have totals := congrArg Sju.totals sju
  simp only [bareSju] at tested journal seq totals
  rw [switched, tested, closed, journal, seq, totals]
  rfl

theorem exec_ctrl (own : OwnFrame s f rest 5#8) (pins : StrapPins) :
    exec (.frameClassify .up pins) s = .next ((freed s rest).takeCtrl pins f.payload) :=
  exec_ownFrame own pins (k := .ctrl) rfl (by decide) rfl

theorem takeCtrl_command {bs : List Byte} {c : Command} (h : Command.ofPayload bs = some c)
    (pins : StrapPins) : s.takeCtrl pins bs = s.control pins c := by
  unfold State.takeCtrl
  rw [h]

theorem exec_command {c : Command} (own : OwnFrame s f rest 5#8)
    (h : Command.ofPayload f.payload = some c) (pins : StrapPins) :
    exec (.frameClassify .up pins) s = .next ((freed s rest).control pins c) :=
  (exec_ctrl own pins).trans (congrArg _ (takeCtrl_command h pins))

theorem forceDaySwitch_idle (h : s.htb.sync = .unset ∨ s.htb.secs < 86400) : s.forceDaySwitch = s := by
  refine if_neg fun both => ?_
  obtain ⟨set, past⟩ := both
  exact h.elim set (Nat.not_lt.mpr past)

/-- A day switch changes the clock and the trade of the halt only (R63). -/
theorem daySwitchOnce_onlyTrade (s : State) (x : Nat) :
    OnlyTrade { s with htb := (s.daySwitchOnce x).htb } (s.daySwitchOnce x) := by
  rw [daySwitchOnce_htb]
  exact (announceDaySwitch_turns { s with htb := s.htb.switchedAt s.params.hour x } _).onlyTrade

theorem forceDaySwitch_switched (set : s.htb.sync ≠ .unset) (past : 86400 ≤ s.htb.secs)
    (same : s.params.hour = s.htb.hour) :
    DaySwitched s s.forceDaySwitch { s.htb with
        date := s.htb.date + BitVec.ofNat 16 (s.htb.secs / 86400), secs := s.htb.secs % 86400, stand := 0
        deferral := false }
      ∧ OnlyTrade { s with htb := s.forceDaySwitch.htb } s.forceDaySwitch := by
  have e : s.forceDaySwitch = s.daySwitch s.htb.secs := if_pos ⟨set, past⟩
  refine ⟨e ▸ .hour same _, ?_⟩
  rw [e, daySwitch_hour same]
  exact daySwitchOnce_onlyTrade s _

end

/-- Settles O27. -/
theorem rolloverSwitchesOrDefers : Obligations.RolloverSwitchesOrDefers := by
  refine ⟨fun s on set stand secs still => ⟨fun live limit => ?_, fun clear same room => ?_,
    fun clear stands => ?_⟩, fun s f rest pins x own payload => ?_⟩
  · obtain ⟨htb, banks⟩ := serviceSecond_deferred set stand secs still live limit
    rw [exec_serviceSecond on]
    generalize s.serviceSecond = t at htb banks
    have loaded := map_eq_of_forall₂ banks.calls (f := (·.loaded)) fun _ _ e => e.loaded
    have count := congrArg Htb.secs htb
    refine ⟨t, rfl, (congrArg Htb.deferral htb :), count.trans ?_,
      (congrArg Htb.date htb :),
      (congrArg Tts.generation banks.frame :), loaded, (congrArg Tts.next banks.frame :)⟩
    exact show s.htb.secs + 1 = 86400 by omega
  · obtain ⟨e, switched⟩ := serviceSecond_midnight set stand secs still clear
      (show (s.htb.hour : Int) - s.params.hour ≤ 2 by omega)
    have journal := serviceSecond_midnight_journal room e
    obtain ⟨date, _, deferral, total, one⟩ := switchedAt_midnight (secondCounted s).htb s.params.hour
    have hours : (secondCounted s).htb.hour = s.htb.hour := rfl
    rw [exec_serviceSecond on]
    generalize s.serviceSecond = t at switched journal
    obtain ⟨htb, banks, none, totals⟩ := switched
    generalize (secondCounted s).htb.switchedAt s.params.hour 86400 = h at *
    rw [date] at banks
    exact ⟨t, rfl, by rw [htb]; exact deferral, by rw [htb]; omega, by rw [htb]; omega,
      by rw [htb]; exact date, banks.1, banks.2.1, banks, none, totals, journal⟩
  · obtain ⟨_, _, ⟨_, top⟩, ⟨low, _⟩⟩ := stands
    obtain ⟨e, switched⟩ := serviceSecond_midnight set stand secs still clear
      (show (s.htb.hour : Int) - s.params.hour ≤ 2 by omega)
    obtain ⟨date, hour, deferral, total, one⟩ := switchedAt_midnight (secondCounted s).htb s.params.hour
    rw [exec_serviceSecond on]
    generalize s.serviceSecond = t at switched
    obtain ⟨htb, banks, none, totals⟩ := switched
    rw [date] at banks
    rw [← htb] at date hour deferral total one
    exact ⟨t, rfl, date, hour, deferral, total, one, banks, totals⟩
  · have command : Command.ofPayload f.payload = some .forceDaySwitch := by rw [payload]; rfl
    rw [exec_command own command]
    refine ⟨fun idle => congrArg _ (forceDaySwitch_idle (s := freed s rest) idle), fun set past same => ?_⟩
    obtain ⟨⟨htb, banks, none, totals⟩, only⟩ :=
      forceDaySwitch_switched (s := freed s rest) set past same
    exact ⟨_, rfl, htb, banks, none, totals, only⟩

end Sys2Proof.Proofs
end

