-- ==== Sys2Proof/Proofs/TimePlacing.lean ====
section
/-! What a TIME does: its judgement, and its placing by its target (4.2; R59, R60). -/

namespace Sys2Proof.Proofs

open Sys2Proof.Machine Sys2Proof.Safety Sys2Proof.Laws

section
variable {s : State} {f : TimeFrame} {t : Int}

/-! ## Judgement -/

theorem timeOfPayload_none {bs : List Byte} (h : bs.length ≠ 6 ∨ 86400 ≤ field bs 2 3) :
    TimeFrame.ofPayload bs = none :=
  if_neg fun both => h.elim (fun long => long both.1) (Nat.not_le.mpr both.2)

theorem timeOfPayload_some {bs : List Byte} (length : bs.length = 6) (h : field bs 2 3 < 86400) :
    TimeFrame.ofPayload bs = some ⟨word bs 0, field bs 2 3, flagSet (field bs 5 1)⟩ :=
  if_pos ⟨length, h⟩

theorem acceptsTime_iff : s.acceptsTime f = true ↔ f.force = true
    ∨ (-300 ≤ s.htb.target f.date f.secs - s.htb.held
      ∧ s.htb.target f.date f.secs - s.htb.held ≤ 300) := by
  simp only [State.acceptsTime, Bool.or_eq_true, Bool.and_eq_true, decide_eq_true_eq]

theorem takeTime_form {bs : List Byte} (h : TimeFrame.ofPayload bs = none) :
    s.takeTime bs = s.modHtbCtr fun c => { c with form := tally c.form } := by
  unfold State.takeTime
  rw [h]

theorem takeTime_frame {bs : List Byte} (h : TimeFrame.ofPayload bs = some f) : s.takeTime bs
    = if s.htb.sync = .unset then s.firstTime f
      else if s.acceptsTime f then s.applyTime f
      else s.modHtbCtr fun c => { c with rejected := tally c.rejected } := by
  unfold State.takeTime
  rw [h]

theorem takeTime_rejected {bs : List Byte} (h : TimeFrame.ofPayload bs = some f)
    (set : s.htb.sync ≠ .unset) (force : f.force = false)
    (far : s.htb.target f.date f.secs - s.htb.held < -300
      ∨ 300 < s.htb.target f.date f.secs - s.htb.held) :
    s.takeTime bs = s.modHtbCtr fun c => { c with rejected := tally c.rejected } := by
  refine (takeTime_frame h).trans ((if_neg set).trans (if_neg ?_))
  rw [acceptsTime_iff, force]
  rintro (no | ⟨low, high⟩)
  · exact absurd no nofun
  · omega

theorem takeTime_applied {bs : List Byte} (h : TimeFrame.ofPayload bs = some f)
    (set : s.htb.sync ≠ .unset) (near : f.force = true
      ∨ (-300 ≤ s.htb.target f.date f.secs - s.htb.held
        ∧ s.htb.target f.date f.secs - s.htb.held ≤ 300)) : s.takeTime bs = s.applyTime f :=
  (takeTime_frame h).trans ((if_neg set).trans (if_pos (acceptsTime_iff.mpr near)))

/-! ## Placing -/

theorem place_within (low : 0 ≤ t) (high : t < 86400) :
    s.place t f = { s with htb := s.htb.placed t.toNat 0 } :=
  (if_neg (by omega)).trans ((if_neg (by omega)).trans (if_pos low))

theorem place_ahead (low : -7200 ≤ t) (high : t < 0) :
    s.place t f = { s with htb := s.htb.placed 0 (-t).toNat } :=
  (if_neg (by omega)).trans ((if_neg (by omega)).trans ((if_neg (by omega)).trans (if_pos low)))

theorem place_farBack (low : t < -7200) : s.place t f = if f.force then
      State.announceDaySwitch { s with htb := { s.htb.placed f.secs 0 with date := f.date } } none
    else { s with htb := s.htb.placed 0 7200 } :=
  (if_neg (by omega)).trans ((if_neg (by omega)).trans ((if_neg (by omega)).trans (if_neg (by omega))))

theorem place_farAhead (high : 172800 ≤ t) : s.place t f = s.daySwitch t.toNat := if_pos high

theorem place_past (low : 86400 ≤ t) (high : t < 172800) : s.place t f = s.placePast t.toNat :=
  (if_neg (by omega)).trans (if_pos low)

/-- The state with the extended value of a TIME placed at or past 86400. -/
def placedPast (s : State) (x : Nat) : State := { s with htb := { s.htb with secs := x, stand := 0 } }

theorem placedPast_live (s : State) (x : Nat) : (placedPast s x).hasLiveCall = true ↔
    ∃ c ∈ s.tts.current, (c.state = .scheduled ∨ c.state = .running) ∧ x ≤ c.expected + 60 :=
  live_iff rfl

theorem placePast_eq (s : State) (x : Nat) : s.placePast x =
    if s.htb.deferral then (placedPast s x).deferralTests else (placedPast s x).rolloverCheck := rfl

/-- A live call defers the switch of a TIME past midnight (R60, R61). -/
theorem placePast_deferred {x : Nat} (day : 86400 ≤ x) (early : x < 86400 + 60 * s.params.deferLimit)
    (live : (placedPast s x).hasLiveCall = true) :
    s.placePast x = { s with htb := { s.htb with secs := x, stand := 0, deferral := true } } := by
  rw [placePast_eq]
  cases deferring : s.htb.deferral with
  | true =>
    refine (deferralTests_live (s := placedPast s x) early live).trans ?_
    rw [placedPast, ← deferring]
  | false => exact rolloverCheck_defer (s := placedPast s x) live early day

/-- A TIME past midnight that no live call defers switches the day (R60 to R62). -/
theorem placePast_switched {x : Nat} (same : s.params.hour = s.htb.hour)
    (h : (placedPast s x).hasLiveCall = false ∨ 86400 + 60 * s.params.deferLimit ≤ x) :
    ∃ k, DaySwitched s (s.placePast x) { s.htb with
      date := s.htb.date + BitVec.ofNat 16 (x / 86400), secs := x % 86400, stand := 0
      deferral := false, ctr := k } := by
  have plain : DaySwitched s ((placedPast s x).daySwitch x) { s.htb with
      date := s.htb.date + BitVec.ofNat 16 (x / 86400), secs := x % 86400, stand := 0
      deferral := false } := by
    obtain ⟨htb, banks, none, totals⟩ := DaySwitched.hour (s := placedPast s x) same x
    exact ⟨htb, banks, none, totals⟩
  have counted : ∃ k, DaySwitched s ((placedPast s x).countDefer.daySwitch x) { s.htb with
      date := s.htb.date + BitVec.ofNat 16 (x / 86400), secs := x % 86400, stand := 0
      deferral := false, ctr := k } := by
    obtain ⟨htb, banks, none, totals⟩ := DaySwitched.hour (s := (placedPast s x).countDefer) same x
    exact ⟨_, htb, banks, none, totals⟩
  rw [placePast_eq]
  by_cases ends : 86400 + 60 * s.params.deferLimit ≤ x
  · cases s.htb.deferral with
    | true =>
      rw [if_pos rfl, deferralTests_end (s := placedPast s x) ends]
      exact counted
    | false =>
      rw [if_neg Bool.false_ne_true]
      by_cases clear : (placedPast s x).hasLiveCall = false ∨ s.params.deferLimit = 0
      · rw [rolloverCheck_clear (s := placedPast s x) clear]
        exact ⟨_, plain⟩
      · rw [not_or, Bool.not_eq_false] at clear
        obtain ⟨live, some⟩ := clear
        rw [rolloverCheck_end (s := placedPast s x) live some ends]
        exact counted
  · have clear := h.resolve_right ends
    cases s.htb.deferral with
    | true =>
      rw [if_pos rfl, deferralTests_clear (s := placedPast s x) (Nat.not_le.mp ends) clear]
      exact ⟨_, plain⟩
    | false =>
      rw [if_neg Bool.false_ne_true, rolloverCheck_clear (s := placedPast s x) (.inl clear)]
      exact ⟨_, plain⟩

/-! ## Applying -/

theorem announceTime_sju (s : State) : bareSju s.announceTime.sju = bareSju s.sju :=
  ((((((compose_announces _).toTrades.bareSju.trans (chooseEnergy_announces _).toTrades.bareSju).trans
    (evaluateMessages_announces _).toTrades.bareSju).trans
    (cutoffQuotes_announces _).toTrades.bareSju).trans (testActivation_bareSju _)).trans
    (testCutoffs_announces _).toTrades.bareSju).trans (testOverdue_trades s).bareSju

/-- What follows of a placed TIME, its clock apart (R58, R59). -/
structure Applies (p t : State) : Prop where
  htb : t.htb = p.htb.locked
  banks : KeepsBanks p.tts t.tts
  slots : NoneOpen p → NoneOpen t
  sju : bareSju t.sju = bareSju p.sju

theorem applyTime_applies {p : State} (h : s.place (s.htb.target f.date f.secs) f = p) :
    Applies p (s.applyTime f) := by
  have e : s.applyTime f = (State.announceSync { p with htb := p.htb.locked } p.htb).announceTime := by
    rw [← h]
    rfl
  have told := announceSync_trades { p with htb := p.htb.locked } p.htb
  rw [e]
  generalize State.announceSync { p with htb := p.htb.locked } p.htb = u at told
  exact ⟨(announceTime_turns u).htb.trans told.htb, told.banks.trans (announceTime_banks u),
    fun none => (announceTime_turns u).noneOpen (Trades.noneOpen (s := { p with htb := p.htb.locked }) none told),
    (announceTime_sju u).trans told.bareSju⟩

theorem DaySwitched.applied {p u : State} {h : Htb} (k : DaySwitched s p h) (a : Applies p u) :
    u.htb = h.locked ∧ BanksSwitched s u h.date ∧ NoneOpen u ∧ u.sju.totals = {} := by
  obtain ⟨htb, banks, none, totals⟩ := k
  exact ⟨a.htb.trans (congrArg Htb.locked htb), banksSwitched_keeps banks a.banks, a.slots none,
    (congrArg Sju.totals a.sju :).trans totals⟩

/-- The date and the second of a target past midnight (R60). -/
theorem target_parts {d date : Date} {secs : Nat} (small : secs < 86400)
    (past : 86400 ≤ (secs : Int) + 86400 * (date - d).toInt) :
    d + BitVec.ofNat 16 (((secs : Int) + 86400 * (date - d).toInt).toNat / 86400) = date
      ∧ ((secs : Int) + 86400 * (date - d).toInt).toNat % 86400 = secs := by
  have back : BitVec.ofInt 16 (date - d).toInt = date - d := BitVec.ofInt_toInt
  generalize (date - d).toInt = k at past back
  lift k to ℕ using by omega
  have days : ((secs : Int) + 86400 * k).toNat / 86400 = k := by omega
  refine ⟨?_, by omega⟩
  rw [days, ← BitVec.ofInt_natCast, back]
  exact add_sub_cancel d date

/-- A forced TIME far back (R60, log entry 8). -/
theorem forced_switched (force : f.force = true) (low : t < -7200) :
    (s.place t f).htb = { s.htb.placed f.secs 0 with date := f.date }
      ∧ BanksSwitched s (s.place t f) f.date ∧ NoneOpen (s.place t f) := by
  have e := (place_farBack (s := s) (f := f) low).trans (if_pos force)
  generalize s.place t f = p at e
  have banks := announceDaySwitch_banks
    { s with htb := { s.htb.placed f.secs 0 with date := f.date } } none
  have switched : BanksSwitched s p f.date := banksSwitched_of_keeps (e ▸ banks)
  exact ⟨e ▸ announceDaySwitch_htb _ none, switched, e ▸ announceDaySwitch_none _ none⟩

/-- The switch a TIME makes past midnight (R60). -/
theorem place_switched {date : Date} {secs : Nat} (same : s.params.hour = s.htb.hour)
    (small : secs < 86400) (e : t = (secs : Int) + 86400 * (date - s.htb.date).toInt)
    (past : 86400 ≤ t)
    (clear : 172800 ≤ t ∨ (placedPast s t.toNat).hasLiveCall = false
      ∨ 86400 + 60 * (s.params.deferLimit : Int) ≤ t) :
    ∃ k, DaySwitched s (s.place t f) { s.htb with
      date := date, secs := secs, stand := 0, deferral := false, ctr := k } := by
  have parts := target_parts small (e ▸ past)
  rw [← e] at parts
  obtain ⟨day, second⟩ := parts
  have switched : ∃ k, DaySwitched s (s.place t f) { s.htb with
      date := s.htb.date + BitVec.ofNat 16 (t.toNat / 86400), secs := t.toNat % 86400, stand := 0
      deferral := false, ctr := k } := by
    by_cases far : 172800 ≤ t
    · rw [place_farAhead far]
      exact ⟨_, .hour same _⟩
    · rw [place_past past (by omega)]
      refine placePast_switched same ?_
      rcases clear with far' | clear | ends
      · exact absurd far' far
      · exact .inl clear
      · exact .inr (by omega)
  rw [day, second] at switched
  exact switched

/-! ## The first TIME -/

theorem firstTime_parts (s : State) (f : TimeFrame) :
    (s.firstTime f).htb = { s.htb with
        date := f.date, secs := f.secs, stand := 0, deferral := false, sinceSync := 0
        sync := .locked, hour := s.params.hour }
      ∧ (s.firstTime f).tts.currentDate = f.date := by
  have told := announceSync_trades { s with
    htb := { (s.htb.placed f.secs 0).locked with date := f.date, hour := s.params.hour } } s.htb
  unfold State.firstTime
  dsimp only
  generalize State.announceSync { s with
    htb := { (s.htb.placed f.secs 0).locked with date := f.date, hour := s.params.hour } } s.htb = u
    at told
  have date : u.htb.date = f.date := (congrArg Htb.date told.htb :)
  refine ⟨((announceTime_turns _).htb.trans (announceDaySwitch_htb u none)).trans told.htb, ?_⟩
  have switched := banksSwitched_of_keeps (s := u) (t := (u.announceDaySwitch none).announceTime)
    ((announceDaySwitch_banks u none).trans (announceTime_banks _))
  exact switched.1.trans date

theorem takeTime_first {bs : List Byte} (h : TimeFrame.ofPayload bs = some f)
    (unset : s.htb.sync = .unset) : s.takeTime bs = s.firstTime f :=
  (takeTime_frame h).trans (if_pos unset)

theorem exec_time {f : RxFrame} {rest : List RxFrame} (own : OwnFrame s f rest 2#8) (pins : StrapPins) :
    exec (.frameClassify .up pins) s = .next ((freed s rest).takeTime f.payload) :=
  exec_ownFrame own pins (k := .time) rfl (by decide) rfl

end

/-- What an applied TIME does by its target (R60), on the state with the frame taken. -/
theorem applyTime_acts (s : State) (f : TimeFrame) (small : f.secs < 86400) (set : s.htb.sync ≠ .unset) :
    let target : Int := f.secs + 86400 * (f.date - s.htb.date).toInt
    let live := ∃ c ∈ s.tts.current, (c.state = .scheduled ∨ c.state = .running)
      ∧ target ≤ c.expected + 60
    let limit : Int := 86400 + 60 * s.params.deferLimit
    let t := s.applyTime f
    t = { s with
        up := t.up, htb := t.htb, tts := t.tts, sru := t.sru, bdc := t.bdc, fqu := t.fqu
        sju := t.sju, tpi := t.tpi }
      ∧ (0 ≤ target → target < 86400 → t.htb = { s.htb with
        secs := target.toNat, stand := 0, deferral := false, sinceSync := 0, sync := .locked })
      ∧ (-7200 ≤ target → target < 0 → t.htb = { s.htb with
        secs := 0, stand := (-target).toNat, deferral := false, sinceSync := 0, sync := .locked })
      ∧ (target < -7200 → f.force = false → t.htb = { s.htb with
        secs := 0, stand := 7200, deferral := false, sinceSync := 0, sync := .locked })
      ∧ (target < -7200 → f.force = true → t.htb = { s.htb with
          date := f.date, secs := f.secs, stand := 0, deferral := false, sinceSync := 0
          sync := .locked }
        ∧ BanksSwitched s t f.date ∧ NoneOpen t)
      ∧ (86400 ≤ target → target < 172800 → live → target < limit → t.htb = { s.htb with
          secs := target.toNat, stand := 0, deferral := true, sinceSync := 0, sync := .locked }
        ∧ t.tts.generation = s.tts.generation)
      ∧ (86400 ≤ target → 172800 ≤ target ∨ ¬ live ∨ limit ≤ target → s.params.hour = s.htb.hour →
        t.htb = { s.htb with
          date := f.date, secs := f.secs, stand := 0, deferral := false, sinceSync := 0
          sync := .locked, ctr := t.htb.ctr }
        ∧ BanksSwitched s t f.date ∧ NoneOpen t ∧ t.sju.totals = {}) := by
  intro target live limit t
  have applies : Applies (s.place target f) t := applyTime_applies rfl
  have winds : Winds s t := applyTime_winds set f
  have alive : 0 ≤ target → ((placedPast s target.toNat).hasLiveCall = true ↔ live) := by
    intro positive
    rw [placedPast_live]
    refine exists_congr fun c => and_congr_right fun _ => and_congr_right fun _ => ?_
    rw [Int.toNat_le]
    exact Iff.rfl
  generalize e : target = x at applies alive ⊢
  generalize t = u at applies winds ⊢
  refine ⟨winds.onlyClock, fun low high => ?_, fun low high => ?_, fun low force => ?_,
    fun low force => ?_, fun low high calls early => ?_, fun low clear same => ?_⟩
  · rw [place_within low high] at applies
    exact applies.htb
  · rw [place_ahead low high] at applies
    exact applies.htb
  · rw [(place_farBack low).trans (if_neg (Bool.eq_false_iff.mp force))] at applies
    exact applies.htb
  · obtain ⟨htb, banks, none⟩ := forced_switched (s := s) force low
    exact ⟨applies.htb.trans (congrArg Htb.locked htb), banksSwitched_keeps banks applies.banks,
      applies.slots none⟩
  · rw [place_past low high, placePast_deferred (by omega) (by omega) ((alive (by omega)).mpr calls)]
      at applies
    exact ⟨applies.htb, (congrArg Tts.generation applies.banks.frame :)⟩
  · obtain ⟨k, switched⟩ := place_switched (s := s) (f := f) same small e.symm low
      (clear.imp_right (Or.imp_left fun no =>
        Bool.eq_false_iff.mpr fun yes => no ((alive (by omega)).mp yes)))
    obtain ⟨htb, banks, none, totals⟩ := switched.applied applies
    exact ⟨by rw [htb]; rfl, banks, none, totals⟩

/-- Settles O29. -/
theorem timeIsJudged : Obligations.TimeIsJudged := by
  intro s pins f rest on addressed held kind own taken
  have frame : OwnFrame s f rest 2#8 := ⟨on, addressed, held, kind, own⟩
  rw [exec_time frame]
  refine ⟨fun form => congrArg _ (takeTime_form (s := taken) (timeOfPayload_none form)), fun length small => ?_⟩
  have form := timeOfPayload_some length small
  generalize word f.payload 0 = d, field f.payload 2 3 = x, flagSet (field f.payload 5 1) = b
    at form small ⊢
  intro date secs force heldBy target
  refine ⟨fun unset => ?_, fun set plain far => ?_, fun set near low high => ?_, fun set near => ?_⟩
  · obtain ⟨htb, currentDate⟩ := firstTime_parts taken ⟨d, x, b⟩
    exact ⟨_, congrArg _ (takeTime_first (s := taken) form unset), htb, currentDate⟩
  · exact congrArg _ (takeTime_rejected (s := taken) form set plain far)
  · have applied := takeTime_applied (s := taken) form set near
    obtain ⟨_, within, _⟩ := applyTime_acts taken ⟨d, x, b⟩ small set
    exact ⟨_, congrArg _ applied, within low high⟩
  · have applied := takeTime_applied (s := taken) form set near
    obtain ⟨clock, _, rest⟩ := applyTime_acts taken ⟨d, x, b⟩ small set
    refine ⟨_, congrArg _ applied, ?_, rest⟩
    generalize taken.applyTime ⟨d, x, b⟩ = t at clock
    rw [clock]

end Sys2Proof.Proofs
end

