-- ==== Sys2Proof/Proofs/MinuteTicks.lean ====
section
/-! The rows composed each second of uptime, and the expiry of calls at a minute tick
(4.1, 5.4, 9.4; R57, R87, R128). -/

namespace Sys2Proof.Proofs

open Sys2Proof.Machine Sys2Proof.Safety Sys2Proof.Laws

/-! ## Rows -/

theorem padRows_length {n : Nat} {rows : List RowRecord} (h : rows.length ≤ n) :
    (padRows n rows).length = n := by
  rw [padRows, List.length_append, List.length_replicate]
  omega

theorem shownCalls_length (s : State) (n : ScreenNo) : (s.shownCalls n).length ≤ n.departureRows :=
  List.length_take_le _ _

theorem plainRows_length (s : State) (n : ScreenNo) : (s.plainRows n).length = n.departureRows := by
  refine padRows_length ?_
  have one : 1 ≤ n.departureRows := by cases n <;> decide
  split
  · exact one
  · split
    · exact one
    · rw [List.length_map]
      exact shownCalls_length s n

theorem rowsOf_length (s : State) (n : ScreenNo) : (s.rowsOf n).length = n.departureRows + 1 := by
  unfold State.rowsOf
  split
  · rw [List.length_append, plainRows_length]
    rfl
  · split
    · exact padRows_length (by rw [List.length_singleton]; omega)
    · rw [List.length_append, plainRows_length]
      rfl

theorem update_image (r : RowRecord) (cell : RowCell) : (cell.update r).image = r := by
  unfold RowCell.update
  split
  · next same => exact same.symm
  · rfl

theorem zipWith_images {rows : List RowRecord} {cells : List RowCell} (h : cells.length = rows.length) :
    (List.zipWith RowCell.update rows cells).map (·.image) = rows := by
  induction rows generalizing cells with
  | nil => rfl
  | cons r rows ih =>
    cases cells with
    | nil => exact absurd h nofun
    | cons c cells =>
      rw [List.zipWith_cons_cons, List.map_cons, ih (Nat.succ.inj h), update_image]

theorem composeRows_images {s : State} {n : ScreenNo} {sc : Screen} (h : s.bdc.screen n = some sc)
    (full : sc.rows.length = n.departureRows + 1) :
    (s.composeRows.bdc.screen n).map imagesOf = some (s.rowsOf n) := by
  have e : s.composeRows.bdc.screen n = some { sc with
      rows := List.zipWith RowCell.update (s.rowsOf n) sc.rows } := by
    refine (Bdc.screen_mapScreens s.bdc n _).trans ?_
    rw [h]
    exact rfl
  rw [e]
  exact congrArg some (zipWith_images (full.trans (rowsOf_length s n).symm))

theorem compose_images {s : State} {n : ScreenNo} {sc : Screen} (h : s.bdc.screen n = some sc)
    (full : sc.rows.length = n.departureRows + 1) :
    (s.compose.bdc.screen n).map imagesOf = some (s.rowsOf n) := by
  have same : SameShow s.composeRows.bdc s.compose.bdc :=
    (darkTest_same s.composeRows .none).trans (stateLinkStart_same _)
  rw [same.images n]
  exact composeRows_images h full

/-! ## A call in a new state -/

/-- One call of a pass over the keys: the call of the key takes a state, the others stay (R87). -/
structure Restated (k : Key) (st : CallState) (c d : Call) : Prop where
  loaded : d.loaded = c.loaded
  report : d.report = c.report
  others : c.key ≠ k → Steady c d
  named : c.key = k → d.state = st

theorem freeze_same (c : Call) : SameItems c c.freeze := rfl

theorem stopsOnCall_restops (s : State) (k : Key) : Restops s (s.stopsOnCall k) := by
  have stopped : Restops s (match s.call k with
      | none => s
      | some c => if c.isRunning then s.testCutoff k else s.modCall k Call.freeze) := by
    split
    · exact .of_tts rfl
    · exact .ite (testCutoff_restops s k) (.modCall s k freeze_same)
  exact stopped.trans (.of_tts rfl)

theorem announceState_restops (s : State) (k : Key) :
    Restops (s.mapCalls fun c => if c.key = k then s.deriveCall c else c) (s.announceState k) := by
  have derived : Restops (s.mapCalls fun c => if c.key = k then s.deriveCall c else c)
      ((s.rederiveCall k).stopsOnCall k) :=
    (rederive_restops s _).trans (stopsOnCall_restops _ k)
  unfold State.announceState
  dsimp only
  generalize (s.rederiveCall k).stopsOnCall k = u at derived
  exact (derived.trans (.ite (.of_tts rfl) (.of_tts (invalidate_desk u _).tts))).trans
    (.of_tts (compose_tts _))

theorem setCallState_calls (s : State) (k : Key) (st : CallState) :
    List.Forall₂ (Restated k st) s.tts.current (s.setCallState k st).tts.current := by
  have derived := announceState_restops (s.modCall k fun c => { c with state := st }) k
  unfold State.setCallState
  generalize e : s.modCall k (fun c => { c with state := st }) = u at derived
  have calls : u.tts.current
      = s.tts.current.map fun c => if c.key = k then { c with state := st } else c := by
    rw [← e]
    rfl
  rw [Restops, State.mapCalls_tts] at derived
  change List.Forall₂ SameItems (u.tts.current.map _) _ at derived
  rw [calls, List.map_map, List.forall₂_map_left_iff] at derived
  refine derived.imp fun c d same => ?_
  have steady := same.steady
  rw [Function.comp_apply] at steady
  by_cases named : c.key = k
  · rw [if_pos named, if_pos (show Call.key { c with state := st } = k from named)] at steady
    have kept := deriveCall_sameCall u { c with state := st }
    exact ⟨steady.loaded.trans kept.loaded, steady.report.trans kept.report,
      fun other => absurd named other, fun _ => steady.state.trans kept.state⟩
  · rw [if_neg named, if_neg named] at steady
    exact ⟨steady.loaded, steady.report, fun _ => steady, fun is => absurd is named⟩

/-! ## Expiry -/

/-- A call past its expiry (R87). -/
def Overtime (s : State) (c : Call) : Prop := c.isRunning = true ∧ c.expected + 1800 < s.htb.secs

/-- A call after a pass of the expiry over some keys (R87). -/
structure Expired (s : State) (ks : List Key) (c d : Call) : Prop where
  loaded : d.loaded = c.loaded
  untouched : c.key ∉ ks → Steady c d
  gone : c.key ∈ ks → Overtime s c → d.state = .expired
  within : c.key ∈ ks → ¬ Overtime s c → d.state = c.state

theorem Steady.overtime {s : State} {c d : Call} (h : Steady c d) : Overtime s d ↔ Overtime s c := by
  unfold Overtime
  rw [h.isRunning, h.expected]

theorem Expired.of_steady {s : State} {k : Key} {c d : Call} (h : Steady c d)
    (within : c.key = k → ¬ Overtime s c) : Expired s [k] c d :=
  ⟨h.loaded, fun _ => h, fun mem gone => absurd gone (within (List.mem_singleton.mp mem)),
    fun _ _ => h.state⟩

theorem forall₂_self {R : Call → Call → Prop} {cs : List Call} (h : ∀ c ∈ cs, R c c) :
    List.Forall₂ R cs cs := List.forall₂_same.mpr h

/-- A call is found by its key where no two calls have the same key. -/
theorem call_of_mem {s : State} (unique : s.keys.Nodup) {c : Call} (mem : c ∈ s.tts.current) :
    s.call c.key = some c := by
  unfold State.call findCall State.keys at *
  generalize s.tts.current = cs at *
  induction cs with
  | nil => exact absurd mem nofun
  | cons x cs ih =>
    rw [List.map_cons, List.nodup_cons] at unique
    obtain ⟨fresh, unique⟩ := unique
    rcases List.mem_cons.mp mem with rfl | mem
    · exact List.find?_cons_of_pos (beq_iff_eq.mpr rfl)
    · rw [List.find?_cons_of_neg fun same => fresh ?_]
      · exact ih unique mem
      · rw [beq_iff_eq.mp same]
        exact List.mem_map_of_mem mem

theorem expireCall_calls {s : State} (unique : s.keys.Nodup) (k : Key) :
    List.Forall₂ (Expired s [k]) s.tts.current (s.expireCall k).tts.current := by
  unfold State.expireCall
  split
  · next x found =>
    have named := key_of_call found
    split
    · next gone =>
      have only (c : Call) (mem : c ∈ s.tts.current) (same : c.key = k) : c = x :=
        Option.some.inj ((same ▸ call_of_mem unique mem).symm.trans found)
      have paired := (List.forall₂_and_left (p := fun c => c ∈ s.tts.current) _ _).mpr
        ⟨fun _ h => h, setCallState_calls s k .expired⟩
      refine paired.imp fun c d both => ?_
      obtain ⟨mem, restated⟩ := both
      exact ⟨restated.loaded, fun no => restated.others fun same => no (List.mem_singleton.mpr same),
        fun yes _ => restated.named (List.mem_singleton.mp yes),
        fun yes within => absurd (only c mem (List.mem_singleton.mp yes) ▸ gone) within⟩
    · next within =>
      refine forall₂_self fun c mem => .of_steady (.refl c) fun same => ?_
      have : c = x := Option.some.inj ((same ▸ call_of_mem unique mem).symm.trans found)
      exact this ▸ within
  · next missing =>
    refine forall₂_self fun c mem => .of_steady (.refl c) fun same => ?_
    exact absurd ((same ▸ call_of_mem unique mem).symm.trans missing) nofun

theorem keys_of_loaded {cs ds : List Call} (h : ds.map (·.loaded) = cs.map (·.loaded)) :
    ds.map Call.key = cs.map Call.key := by
  have := congrArg (List.map Loaded.key) h
  rw [List.map_map, List.map_map] at this
  exact this

theorem Expired.cons {s t : State} {k : Key} {ks : List Key} (clock : t.htb = s.htb)
    (fresh : k ∉ ks) (c d e : Call) (h : Expired s [k] c d) (m : Expired t ks d e) :
    Expired s (k :: ks) c e := by
  have key : d.key = c.key := congrArg Loaded.key h.loaded
  have overtime (x : Call) : Overtime t x ↔ Overtime s x := by rw [Overtime, Overtime, clock]
  by_cases first : c.key = k
  · have one := List.mem_singleton.mpr first
    have later : d.key ∉ ks := by rw [key, first]; exact fresh
    have rest := m.untouched later
    exact ⟨rest.loaded.trans h.loaded, fun no => absurd (List.mem_cons.mpr (.inl first)) no,
      fun _ gone => rest.state.trans (h.gone one gone),
      fun _ within => rest.state.trans (h.within one within)⟩
  · have steady := h.untouched fun one => first (List.mem_singleton.mp one)
    have tail (mem : c.key ∈ k :: ks) : d.key ∈ ks := by
      rw [key]
      exact (List.mem_cons.mp mem).resolve_left first
    refine ⟨m.loaded.trans h.loaded, fun no => ?_, fun mem gone => ?_, fun mem within => ?_⟩
    · exact Steady.trans _ _ _ steady (m.untouched fun mem => no (List.mem_cons.mpr (.inr (key ▸ mem))))
    · exact m.gone (tail mem) ((overtime d).mpr (steady.overtime.mpr gone))
    · refine (m.within (tail mem) fun gone => within ?_).trans steady.state
      exact steady.overtime.mp ((overtime d).mp gone)

theorem expireFold_calls (ks : List Key) (once : ks.Nodup) {s : State} (unique : s.keys.Nodup) :
    List.Forall₂ (Expired s ks) s.tts.current (ks.foldl State.expireCall s).tts.current := by
  induction ks generalizing s with
  | nil =>
    exact forall₂_self fun c _ => ⟨rfl, fun _ => .refl c, fun no => absurd no nofun, fun no => absurd no nofun⟩
  | cons k ks ih =>
    obtain ⟨fresh, once⟩ := List.nodup_cons.mp once
    have one := expireCall_calls unique k
    have keys : (s.expireCall k).keys = s.keys :=
      keys_of_loaded (map_eq_of_forall₂ one fun _ _ e => e.loaded)
    have rest := ih once (s := s.expireCall k) (by rw [keys]; exact unique)
    exact forall₂_comp (Expired.cons (expireCall_turns s k).htb fresh) one rest

theorem expireCalls_calls {s : State} (unique : s.keys.Nodup) :
    List.Forall₂ (Expired s s.keys) s.tts.current s.expireCalls.tts.current :=
  expireFold_calls s.keys unique unique

theorem forall₂_keys {R : List Key → Call → Call → Prop} {cs ds : List Call}
    (h : List.Forall₂ (R (cs.map Call.key)) cs ds) :
    List.Forall₂ (fun c d => c.key ∈ cs.map Call.key ∧ R (cs.map Call.key) c d) cs ds := by
  exact (List.forall₂_and_left (p := fun c => Call.key c ∈ cs.map Call.key) _ _).mpr
    ⟨fun c mem => List.mem_map_of_mem mem, h⟩

/-- The states of the calls after the expiry at a minute tick (R87). -/
theorem expireCalls_states {s : State} (unique : s.keys.Nodup) :
    s.expireCalls.tts.current.map (·.state) = s.tts.current.map (fun c =>
      if c.isRunning = true ∧ c.expected + 1800 < s.htb.secs then .expired else c.state) := by
  have calls := forall₂_keys (R := Expired s) (expireCalls_calls unique)
  generalize s.expireCalls.tts.current = ds at calls
  generalize s.tts.current.map Call.key = ks at calls
  generalize s.tts.current = cs at calls
  induction calls with
  | nil => rfl
  | cons h _ ih =>
    obtain ⟨mem, expired⟩ := h
    rw [List.map_cons, List.map_cons, ih]
    refine congrArg (· :: _) ?_
    split
    · next gone => exact expired.gone mem gone
    · next within => exact expired.within mem within

theorem minuteTick_follows (s : State) : Trades s.expireCalls s.minuteTick :=
  (((rederiveConfidence_trades _).trans (evaluateMessages_announces _).toTrades).trans
    (chooseEnergy_announces _).toTrades).trans (minuteRefresh_announces _).toTrades

/-- Settles O28. -/
theorem uptimeAndMinuteTick : Obligations.UptimeAndMinuteTick := by
  intro s on
  refine ⟨?_, fun idle => ?_, fun due ordered => ?_⟩
  · rw [exec_uptimeSecond on]
    generalize e : ({ s with htb := { s.htb with
        uptime := tally s.htb.uptime
        minuteDue := s.htb.minuteDue || tally s.htb.uptime % 60 == 0 } } : State) = u
    have rows (n : ScreenNo) : u.rowsOf n = s.rowsOf n := by rw [← e]; rfl
    have bdc : u.bdc = s.bdc := by rw [← e]
    obtain ⟨b, composed⟩ := compose_frame u
    refine ⟨_, rfl, ?_, fun n sc sc' held full shown => ?_, ?_⟩
    · rw [composed, ← e]
      rfl
    · have images := compose_images (s := u) (by rw [bdc]; exact held) full
      rw [shown, rows] at images
      exact Option.some.inj images
    · rw [composed, ← e]
  · rw [exec_minuteTick on, idle]
    rfl
  · rw [exec_minuteTick on, due]
    generalize e : ({ s with htb := { s.htb with minuteDue := false } } : State) = u
    have tts : u.tts = s.tts := by rw [← e]
    have secs : u.htb.secs = s.htb.secs := by rw [← e]
    have unique : u.keys.Nodup := by
      rw [State.keys, tts]
      exact ordered.2.2
    have follows := minuteTick_follows u
    have expired := expireCalls_calls unique
    have states := expireCalls_states unique
    have loaded := map_eq_of_forall₂ expired (f := (·.loaded)) fun _ _ h => h.loaded
    have same := map_eq_of_forall₂ follows.calls (f := (·.loaded)) fun _ _ h => h.loaded
    have stay := map_eq_of_forall₂ follows.calls (f := (·.state)) fun _ _ h => h.state
    have clock := (minuteTick_turns u).htb
    have frame := (minuteTick_turns u).winds.onlyClock
    rw [tts, secs] at states
    rw [tts] at loaded
    refine ⟨u.minuteTick, rfl, ?_, same.trans loaded, stay.trans states, ?_⟩
    · rw [clock, ← e]
    · refine frame.trans ?_
      rw [← e]

end Sys2Proof.Proofs
end

