-- ==== Sys2Proof/Proofs/Stopping.lean ====
section
/-! A call's stop request followed through the tests of R110 and R112, with the serial of the STOPREQs
(7.1, 7.2; R107, R110, R112, R115). -/

namespace Sys2Proof.Proofs

open Sys2Proof.Machine Sys2Proof.Safety Sys2Proof.Laws

/-! ## What a stop request does not alter -/

/-- A change of the boards, lamps, quotes, notices and queues: the calls, the clock, the parameters, the
Up port's LSU and the serial of the STOPREQs stand. -/
structure Beside (s t : State) : Prop where
  tts : t.tts = s.tts
  htb : t.htb = s.htb
  params : t.params = s.params
  lsu : t.up.lsu = s.up.lsu
  serial : t.sru.serial = s.sru.serial

theorem Beside.refl (s : State) : Beside s s := ⟨rfl, rfl, rfl, rfl, rfl⟩

theorem Beside.trans {s t u : State} (h : Beside s t) (k : Beside t u) : Beside s u :=
  ⟨k.tts.trans h.tts, k.htb.trans h.htb, k.params.trans h.params, k.lsu.trans h.lsu,
    k.serial.trans h.serial⟩

theorem OnlyDesk.beside {s t : State} (h : OnlyDesk s t) : Beside s t :=
  ⟨h.tts, h.htb, h.params, congrArg LinePort.lsu h.up, congrArg Sru.serial h.sru⟩

theorem Beside.ite {c : Prop} [Decidable c] {s t u : State} (h : Beside s t) (k : Beside s u) :
    Beside s (if c then t else u) := by
  split
  · exact h
  · exact k

theorem deriveLamps_beside (s : State) : Beside s s.deriveLamps := ⟨rfl, rfl, rfl, rfl, rfl⟩

theorem compose_desk (s : State) : OnlyDesk s s.compose := .of_bdc (compose_frame s)

theorem announceStop_lamps (s : State) (k : Key) (a b : StopState) :
    OnlyDesk s.deriveLamps (s.announceStop k a b) := by
  unfold State.announceStop
  dsimp only
  have composed : OnlyDesk s.deriveLamps (if a = b then s.deriveLamps else s.deriveLamps.compose) :=
    .ite (.refl _) (compose_desk _)
  exact .ite (composed.trans (postNotice_desk _ _)) composed

theorem announceStop_beside (s : State) (k : Key) (a b : StopState) : Beside s (s.announceStop k a b) :=
  (deriveLamps_beside s).trans (announceStop_lamps s k a b).beside

theorem cutoffQuotes_beside (s : State) : Beside s s.cutoffQuotes := (cutoffQuotes_desk s).beside

/-! ## The steps of R112 and R110 by their cases -/

section
variable {s : State} {k : Key} {c : Call}

theorem testCutoff_ended (named : s.call k = some c) (ended : c.isRunning = false) :
    s.testCutoff k = s := by
  unfold State.testCutoff
  rw [named]
  refine if_pos ?_
  rw [ended]
  rfl

theorem testCutoff_running (named : s.call k = some c) (running : c.isRunning = true) : s.testCutoff k
    = if (c.stop = .wanted ∨ c.stop = .sent) ∧ s.pastCutoff c = true then
        s.changeStop c fun c => { c with stop := .late, resend := .stopped }
      else if c.stop = .late ∧ s.pastCutoff c = false then
        (s.changeStop c fun c => { c with stop := .wanted }).trySend k
      else s := by
  unfold State.testCutoff
  rw [named]
  refine if_neg ?_
  rw [running]
  exact nofun

theorem trySend_named (named : s.call k = some c) :
    s.trySend k = if s.maySend c then s.sendStopreq c else s := by
  unfold State.trySend
  rw [named]

theorem call_of_tts {t : State} (h : t.tts = s.tts) (k : Key) : t.call k = s.call k :=
  congrArg (fun x : Tts => findCall x.current k) h

/-- The call of a changed stop state, and what stands beside it. -/
theorem changeStop_named (named : s.call k = some c) {f : Call → Call} (same : ∀ x, SameItems x (f x)) :
    (s.changeStop c f).call k = some (f c) ∧ Beside (s.modCall k f) (s.changeStop c f) := by
  have key := key_of_call named
  have beside : Beside (s.modCall k f) (s.changeStop c f) := by
    unfold State.changeStop
    rw [key]
    exact announceStop_beside _ _ _ _
  refine ⟨(call_of_tts beside.tts k).trans ?_, beside⟩
  have keys (x : Call) : (if x.key = k then f x else x).key = x.key := by
    split
    · exact (congrArg Call.key (same x) :)
    · rfl
  refine (call_mapCalls s keys k).trans ?_
  rw [named]
  exact congrArg some (if_pos key)

/-- A STOPREQ sent: the call is SENT, and the serial has advanced (R110). -/
theorem sendStopreq_named (named : s.call k = some c) :
    (s.sendStopreq c).call k = some { c with stop := .sent, resend := .running 30000 }
      ∧ (s.sendStopreq c).sru.serial = s.sru.serial + 1#8
      ∧ (s.sendStopreq c).htb = s.htb ∧ (s.sendStopreq c).params = s.params
      ∧ (s.sendStopreq c).up.lsu = s.up.lsu := by
  have frame := afterOffer_frame s c
  have trades := (sendStopreq_trades s c)
  have tts := tts_afterOffer s c
  rw [sendStopreq_eq] at trades ⊢
  generalize afterOffer s c = u at *
  obtain ⟨call, beside⟩ := changeStop_named (s := u) ((call_of_tts tts k).trans named)
    (f := fun c => { c with stop := .sent, resend := .running Config.resendMs }) fun _ => rfl
  have serial : u.sru.serial = s.sru.serial + 1#8 := (congrArg (fun x : State => x.sru.serial) frame :)
  exact ⟨call, beside.serial.trans serial, trades.htb, trades.params, trades.lsu⟩

end

/-! ## A stop request followed -/

/-- How a call's stop request stands while R110 and R112 are tested for it alone: `past` is whether its
cutoff is past, `serving` whether the Up port is in SERVICE, `c` the call before, of the serial `n`. -/
structure Asking (s : State) (k : Key) (c : Call) (t : State) (d : Call) : Prop where
  named : t.call k = some d
  items : SameItems c d
  htb : t.htb = s.htb
  params : t.params = s.params
  lsu : t.up.lsu = s.up.lsu
  serial : t.sru.serial = s.sru.serial + (if d.stop = .sent then 1#8 else 0#8)
  sent : d.stop = .sent → d.resend = .running 30000 ∧ s.up.lsu.state = .service ∧ s.pastCutoff c = false
  settled : c.stop = .none ∨ c.stop = .confirmed → d.stop = c.stop
  asked : c.stop = .wanted ∨ c.stop = .late → d.stop = .wanted ∨ d.stop = .sent ∨ d.stop = .late

section
variable {s t : State} {k : Key} {c d : Call}

theorem Asking.start (named : s.call k = some c) (unsent : c.stop ≠ .sent) : Asking s k c s c := by
  refine ⟨named, rfl, rfl, rfl, rfl, ?_, fun h => absurd h unsent, fun _ => rfl, fun h => ?_⟩
  · rw [if_neg unsent]
    exact (BitVec.add_zero _).symm
  · exact h.elim .inl fun late => .inr (.inr late)

theorem Asking.beside {u : State} (h : Asking s k c t d) (b : Beside t u) : Asking s k c u d :=
  ⟨(call_of_tts b.tts k).trans h.named, h.items, b.htb.trans h.htb, b.params.trans h.params,
    b.lsu.trans h.lsu, b.serial.trans h.serial, h.sent, h.settled, h.asked⟩

theorem Asking.past (h : Asking s k c t d) : t.pastCutoff d = s.pastCutoff c := by
  have expected := h.items.steady.expected
  unfold State.pastCutoff
  rw [expected, h.htb, h.params]

theorem Asking.isRunning (h : Asking s k c t d) : d.isRunning = c.isRunning := h.items.steady.isRunning

/-- A request of a state that is not SENT, so that no serial is taken. -/
theorem Asking.unsent (h : Asking s k c t d) (from_ : d.stop ≠ .sent) {f : Call → Call}
    (same : ∀ x, SameItems x (f x)) (to_ : (f d).stop ≠ .sent)
    (ask : (f d).stop = .wanted ∨ (f d).stop = .late) (was : d.stop = .wanted ∨ d.stop = .late) :
    Asking s k c (t.changeStop d f) (f d) := by
  obtain ⟨call, beside⟩ := changeStop_named h.named same
  refine ⟨call, SameItems.trans _ _ _ h.items (same d), beside.htb.trans h.htb,
    beside.params.trans h.params, beside.lsu.trans h.lsu, ?_, fun sent => absurd sent to_, fun s => ?_,
    fun _ => ask.elim .inl fun late => .inr (.inr late)⟩
  · rw [if_neg to_]
    refine beside.serial.trans (h.serial.trans ?_)
    rw [if_neg from_]
  · have kept := h.settled s
    rcases was with w | w <;> rcases s with s | s <;> rw [w, s] at kept <;> exact absurd kept nofun

theorem Asking.sends (h : Asking s k c t d) (wanted : d.stop = .wanted)
    (serving : s.up.lsu.state = .service) (within : s.pastCutoff c = false) :
    Asking s k c (t.sendStopreq d) { d with stop := .sent, resend := .running 30000 } := by
  obtain ⟨call, serial, htb, params, lsu⟩ := sendStopreq_named h.named
  refine ⟨call, h.items, htb.trans h.htb, params.trans h.params, lsu.trans h.lsu, ?_,
    fun _ => ⟨rfl, serving, within⟩, fun s => ?_, fun _ => .inr (.inl rfl)⟩
  · have before := h.serial
    rw [if_neg (by rw [wanted]; exact nofun), BitVec.add_zero] at before
    rw [serial, before]
    rfl
  · have kept := h.settled s
    rcases s with s | s <;> rw [wanted, s] at kept <;> exact absurd kept nofun

theorem maySend_eq (h : Asking s k c t d) : t.maySend d = true ↔ c.isRunning = true ∧ d.stop = .wanted
    ∧ s.up.lsu.state = .service ∧ s.pastCutoff c = false := by
  rw [maySend_iff, h.isRunning, h.past, h.lsu]

/-- R110 tested for the call (R110). -/
theorem Asking.trySend (h : Asking s k c t d) : ∃ e, Asking s k c (t.trySend k) e
    ∧ (e = d ∨ d.stop = .wanted ∧ e.stop = .sent ∧ s.up.lsu.state = .service ∧ s.pastCutoff c = false)
    ∧ (e.stop = .wanted → c.isRunning = true → s.pastCutoff c = false → s.up.lsu.state ≠ .service) := by
  rw [trySend_named h.named]
  by_cases may : t.maySend d = true
  · obtain ⟨_, wanted, serving, within⟩ := (maySend_eq h).mp may
    rw [if_pos may]
    exact ⟨_, h.sends wanted serving within, .inr ⟨wanted, rfl, serving, within⟩, fun no => absurd no nofun⟩
  · rw [if_neg may]
    exact ⟨d, h, .inl rfl, fun wanted running within serving =>
      may ((maySend_eq h).mpr ⟨running, wanted, serving, within⟩)⟩

/-- R112 tested for the call (R112). -/
theorem Asking.testCutoff (h : Asking s k c t d) : ∃ e, Asking s k c (t.testCutoff k) e
    ∧ (c.isRunning = true → (s.pastCutoff c = true → e.stop ≠ .wanted ∧ e.stop ≠ .sent)
      ∧ (s.pastCutoff c = false → e.stop ≠ .late)) := by
  cases running : c.isRunning with
  | false =>
    rw [testCutoff_ended h.named (h.isRunning.trans running)]
    exact ⟨d, h, fun no => absurd no nofun⟩
  | true =>
    rw [testCutoff_running h.named (h.isRunning.trans running), h.past]
    cases past : s.pastCutoff c with
    | true =>
      by_cases asked : d.stop = .wanted ∨ d.stop = .sent
      · have unsent : d.stop ≠ .sent := fun sent =>
          Bool.false_ne_true ((h.sent sent).2.2.symm.trans past)
        have wanted := asked.resolve_right unsent
        rw [if_pos ⟨asked, rfl⟩]
        exact ⟨_, h.unsent unsent (f := fun c => { c with stop := .late, resend := .stopped })
          (fun _ => rfl) nofun (.inr rfl) (.inl wanted), fun _ => ⟨fun _ => ⟨nofun, nofun⟩, nofun⟩⟩
      · rw [if_neg fun both => asked both.1, if_neg fun both => Bool.false_ne_true both.2.symm]
        exact ⟨d, h, fun _ => ⟨fun _ => not_or.mp asked, nofun⟩⟩
    | false =>
      rw [if_neg fun both => Bool.false_ne_true both.2]
      by_cases late : d.stop = .late
      · rw [if_pos ⟨late, rfl⟩]
        have back := h.unsent (by rw [late]; exact nofun) (f := fun c => { c with stop := .wanted })
          (fun _ => rfl) nofun (.inl rfl) (.inr late)
        obtain ⟨e, asking, made, _⟩ := back.trySend
        refine ⟨e, asking, fun _ => ⟨nofun, fun _ => ?_⟩⟩
        rcases made with rfl | ⟨_, sent, _⟩
        · exact nofun
        · rw [sent]
          exact nofun
      · rw [if_neg fun both => late both.1]
        exact ⟨d, h, fun _ => ⟨nofun, fun _ => late⟩⟩

/-- A forecast change of the call announced (R101). -/
theorem Asking.announceForecast (h : Asking s k c t d) : ∃ e, Asking s k c (t.announceForecast k) e := by
  obtain ⟨e, asking, _⟩ := h.testCutoff
  unfold State.announceForecast
  exact ⟨e, ((asking.beside (deriveLamps_beside _)).beside (cutoffQuotes_beside _)).beside
    (compose_desk _).beside⟩

theorem Asking.announceForecasts (ks : List Key) (only : ∀ x ∈ ks, x = k) (h : Asking s k c t d) :
    ∃ e, Asking s k c (ks.foldl State.announceForecast t) e := by
  induction ks generalizing t d with
  | nil => exact ⟨d, h⟩
  | cons x ks ih =>
    obtain rfl : x = k := only x (List.mem_cons_self ..)
    obtain ⟨e, asking⟩ := h.announceForecast
    exact ih (fun y mem => only y (List.mem_cons_of_mem _ mem)) asking

end

/-- Only the calls a derivation alters are announced (R101). -/
theorem changedKeys_of_map {f : Call → Call} {k : Key} (keys : ∀ c, (f c).key = c.key)
    (others : ∀ c, c.key ≠ k → f c = c) (cs : List Call) : ∀ x ∈ changedKeys cs (cs.map f), x = k := by
  induction cs with
  | nil => exact fun x no => absurd no nofun
  | cons c cs ih =>
    intro x mem
    rw [List.map_cons, changedKeys] at mem
    split at mem
    · next changed =>
      rcases List.mem_cons.mp mem with rfl | mem
      · by_contra other
        rw [keys] at other
        rw [others c other] at changed
        refine absurd changed ?_
        simp [forecastChanged]
      · exact ih x mem
    · exact ih x mem

theorem deriveCall_stop (s : State) (c : Call) : (s.deriveCall c).stop = c.stop
    ∧ (s.deriveCall c).stopCause = c.stopCause ∧ (s.deriveCall c).resend = c.resend
    ∧ (s.deriveCall c).key = c.key := by
  unfold State.deriveCall
  dsimp only
  split <;> exact ⟨rfl, rfl, rfl, rfl⟩

/-- The calls of a key derived again, before the changes are announced (R103). -/
def derived (s : State) (k : Key) : State :=
  s.mapCalls fun c => if c.key = k then s.deriveCall c else c

theorem deriveIf_key (s : State) (k : Key) (c : Call) :
    (if c.key = k then s.deriveCall c else c).key = c.key := by
  split
  · exact (deriveCall_stop s c).2.2.2
  · rfl

theorem derived_named {s : State} {k : Key} {c : Call} (named : s.call k = some c) :
    (derived s k).call k = some (s.deriveCall c) := by
  refine (call_mapCalls s (deriveIf_key s k) k).trans ?_
  rw [named]
  exact congrArg some (if_pos (key_of_call named))

/-- One call derived again, and its request tested as its forecast changes (R101, R103). -/
theorem rederiveCall_asking {s : State} {k : Key} {c : Call} (named : s.call k = some c)
    (unsent : c.stop ≠ .sent) :
    ∃ d, Asking (derived s k) k (s.deriveCall c) (s.rederiveCall k) d := by
  have start := Asking.start (derived_named named) (by rw [(deriveCall_stop s c).1]; exact unsent)
  exact start.announceForecasts _
    (changedKeys_of_map (deriveIf_key s k) (fun x other => if_neg other) s.tts.current)

section
variable {s t : State} {k : Key} {c d : Call}

/-- The SRU's part of an announcement of a running call (R115). -/
theorem Asking.stopsOnCall (h : Asking s k c t d) (running : c.isRunning = true) :
    ∃ e, Asking s k c (t.stopsOnCall k) e
      ∧ (s.pastCutoff c = true → e.stop ≠ .wanted ∧ e.stop ≠ .sent)
      ∧ (s.pastCutoff c = false → e.stop ≠ .late) := by
  obtain ⟨e, asking, tested⟩ := h.testCutoff
  have same : t.stopsOnCall k = (t.testCutoff k).deriveLamps := by
    unfold State.stopsOnCall
    rw [h.named]
    dsimp only
    rw [h.isRunning, running]
    exact rfl
  rw [same]
  exact ⟨e, asking.beside (deriveLamps_beside _), tested running⟩

/-- A call's kept request tested again, and sent at most once (R110, R115, log entry 29). -/
theorem Asking.settle (h : Asking s k c t d) (running : c.isRunning = true) :
    ∃ e, Asking s k c (((t.stopsOnCall k).sendWanted k).compose) e
      ∧ (c.stop = .wanted ∨ c.stop = .late → (s.pastCutoff c = true → e.stop = .late)
        ∧ (s.pastCutoff c = false → s.up.lsu.state = .service → e.stop = .sent)
        ∧ (s.pastCutoff c = false → s.up.lsu.state ≠ .service → e.stop = .wanted)) := by
  obtain ⟨x, asking, past, within⟩ := h.stopsOnCall running
  obtain ⟨e, sent, made, unsent⟩ := asking.trySend
  refine ⟨e, (sent.beside (deriveLamps_beside _)).beside (compose_desk _).beside, fun asked => ?_⟩
  have state := sent.asked asked
  refine ⟨fun p => ?_, fun w serving => ?_, fun w out => ?_⟩
  · rcases made with rfl | ⟨_, _, _, w⟩
    · obtain ⟨notWanted, notSent⟩ := past p
      exact (state.resolve_left notWanted).resolve_left notSent
    · exact absurd (w.symm.trans p) nofun
  · rcases state with wanted | sent | late
    · exact absurd serving (unsent wanted running w)
    · exact sent
    · rcases made with rfl | ⟨_, sent, _⟩
      · exact absurd late (within w)
      · exact sent
  · rcases state with wanted | no | late
    · exact wanted
    · exact absurd (sent.sent no).2.1 out
    · rcases made with rfl | ⟨_, no, _⟩
      · exact absurd late (within w)
      · exact absurd (sent.sent no).2.1 out

end

end Sys2Proof.Proofs
end

