-- ==== Sys2Proof/Proofs/RunEvents.lean ====
section
/-! What the RUN events do to the call they name (5.3; R80 to R85, R115). -/

namespace Sys2Proof.Proofs

open Sys2Proof.Machine Sys2Proof.Safety Sys2Proof.Laws

/-! ## A RUN taken and relayed -/

theorem offer_frame (v : State) (p : Port) (q : Queued) : v.offer p q = { v with
    up := (v.offer p q).up, down := (v.offer p q).down, sju := (v.offer p q).sju } := by
  by_cases room : Room (v.port p) q.cls
  · cases p with
    | up =>
      obtain ⟨_, _, _, _, _, frame⟩ := offer_other_of_room (p := .down) room
      exact frame
    | down =>
      obtain ⟨_, _, _, _, _, frame⟩ := offer_other_of_room (p := .up) room
      exact frame
  · rw [offer_of_not_room room]
    cases p <;> rfl

theorem relay_frame {p : Port} {f : RxFrame} (v : State) (plain : ¬ (p = .down ∧ f.kind = 10#8)) :
    v.relay p f = { v with
      up := (v.relay p f).up, down := (v.relay p f).down, sju := (v.relay p f).sju } := by
  by_cases off : (v.port p.other).lsu.state = .off
  · rw [relay_off off]
  · by_cases hop : f.hop = 1#8
    · rw [relay_hopEnd off hop]
      cases p <;> rfl
    · rw [relay_forward off hop plain]
      exact offer_frame _ _ _

section
variable {s : State} {p : Port} {f : RxFrame} {rest : List RxFrame}

theorem exec_run (on : s.powered = true) (addressed : s.fru.unaddressed = false)
    (held : (s.port p).buffers = f :: rest) (kind : f.kind = 9#8) (pins : StrapPins) :
    exec (.frameClassify p pins) s = .next (((took s p rest).takeRun f.payload).relay p f) := by
  have code : Kind.ofCode f.kind = some .run := by rw [kind]; rfl
  have verdict : (took s p rest).verdictOf p .run f.destination = ⟨true, true⟩ := by
    have takes : (took s p rest).takesRun f.destination = true := by
      rw [State.takesRun, (took_parts s p rest).1, addressed]
      rfl
    cases p <;> exact congrArg (fun b => (⟨b, true⟩ : Verdict)) takes
  exact (exec_frameClassify on held pins).trans
    (congrArg _ ((classify_both (k := .run) code rfl verdict).trans (if_neg nofun)))

/-- What a RUN does is what it does before its copy goes on (R40, R80). -/
theorem relayed_run (v : State) (kind : f.kind = 9#8) : (v.relay p f).tts = v.tts
    ∧ (v.relay p f).fqu = v.fqu ∧ (v.relay p f).sru = v.sru ∧ (v.relay p f).htb = v.htb
    ∧ (v.relay p f).params = v.params := by
  have frame := relay_frame (p := p) (f := f) v fun both => by
    rw [kind] at both
    exact absurd both.2 (by decide)
  generalize v.relay p f = t at frame
  rw [frame]
  exact ⟨rfl, rfl, rfl, rfl, rfl⟩

end

section
variable {s : State} {bs : List Byte} {n : RunNotice} {c : Call}

theorem takeRun_point {code : PointCode} {delay : Int} {time : Nat}
    (form : RunNotice.ofPayload bs = some n) (named : s.call n.key = some c)
    (event : n.event = .point code delay time) : s.takeRun bs = s.runPoint c code delay time := by
  unfold State.takeRun
  rw [form]
  dsimp only
  rw [named, event]

theorem takeRun_cancel (form : RunNotice.ofPayload bs = some n) (named : s.call n.key = some c)
    (event : n.event = .cancel) : s.takeRun bs = s.runCancel c := by
  unfold State.takeRun
  rw [form]
  dsimp only
  rw [named, event]

theorem takeRun_reinstate (form : RunNotice.ofPayload bs = some n) (named : s.call n.key = some c)
    (event : n.event = .reinstate) : s.takeRun bs = s.runReinstate c := by
  unfold State.takeRun
  rw [form]
  dsimp only
  rw [named, event]

theorem takeRun_platform {p : Platform} (form : RunNotice.ofPayload bs = some n)
    (named : s.call n.key = some c) (event : n.event = .platform p) :
    s.takeRun bs = s.runPlatform c p := by
  unfold State.takeRun
  rw [form]
  dsimp only
  rw [named, event]

end

/-! ## A call that ends -/

section
variable {s t : State} {k : Key} {c : Call}

theorem modCall_named (named : s.call k = some c) {f : Call → Call} (keys : ∀ x, (f x).key = x.key) :
    (s.modCall k f).call k = some (f c) := by
  have same (x : Call) : (if x.key = k then f x else x).key = x.key := by
    split
    · exact keys x
    · rfl
  refine (call_mapCalls s same k).trans ?_
  rw [named]
  exact congrArg some (if_pos (key_of_call named))

theorem call_of_restops (h : Restops s t) (named : s.call k = some c) :
    ∃ d, t.call k = some d ∧ SameItems c d := by
  unfold Restops State.call findCall at *
  generalize s.tts.current = cs at h named
  generalize t.tts.current = ds at h
  induction h with
  | nil => exact absurd named nofun
  | @cons a b as bs same rest ih =>
    have key : b.key = a.key := (congrArg Call.key same :)
    rw [List.find?_cons] at named ⊢
    rw [key]
    cases hit : a.key == k with
    | true =>
      rw [hit] at named
      obtain rfl : a = c := Option.some.inj named
      exact ⟨b, rfl, same⟩
    | false =>
      rw [hit] at named
      exact ih named

theorem isRunning_false (h : c.state = .departed ∨ c.state = .cancelled ∨ c.state = .expired) :
    c.isRunning = false := by
  unfold Call.isRunning
  rcases h with h | h | h <;> rw [h]

theorem deriveCall_ended (s : State) (ended : c.isRunning = false) :
    (s.deriveCall c).forecast = c.forecast := by
  unfold State.deriveCall
  dsimp only
  rw [ended]
  rfl

theorem stopsOnCall_ended (named : s.call k = some c) (ended : c.isRunning = false) :
    s.stopsOnCall k = (s.modCall k Call.freeze).deriveLamps := by
  unfold State.stopsOnCall
  rw [named]
  dsimp only
  rw [ended]
  rfl

/-- What an end leaves of the call: its stop request as it stood, with its resend timer stopped
(R83, R86, R87, R115). -/
structure EndedAs (st : CallState) (c d : Call) : Prop where
  state : d.state = st
  loaded : d.loaded = c.loaded
  report : d.report = c.report
  forecast : d.forecast = c.forecast
  stop : d.stop = c.stop
  stopCause : d.stopCause = c.stopCause
  resend : d.resend = .stopped

theorem rederiveCall_ended (named : s.call k = some c) (ended : c.isRunning = false) :
    ∃ d, ((s.rederiveCall k).stopsOnCall k).call k = some d ∧ EndedAs c.state c d := by
  have kept := deriveCall_sameCall s c
  obtain ⟨stop, cause, _, _⟩ := deriveCall_stop s c
  have still : (s.deriveCall c).isRunning = false := kept.isRunning.trans ended
  obtain ⟨d, named', follows⟩ := (rederive_announces s _).stops k _ (derived_named named)
  have frozen := follows.frozen still
  change (s.rederiveCall k).call k = some d at named'
  rw [stopsOnCall_ended named' (follows.isRunning.trans still)]
  refine ⟨d.freeze, modCall_named named' (f := Call.freeze) fun _ => rfl, ?_⟩
  exact ⟨follows.state.trans kept.state, follows.loaded.trans kept.loaded,
    follows.report.trans kept.report, follows.forecast.trans (deriveCall_ended s ended),
    frozen.1.trans stop, follows.stopCause.trans cause, rfl⟩

theorem announceState_ended (named : s.call k = some c) (ended : c.isRunning = false) :
    (∃ d, (s.announceState k).call k = some d ∧ EndedAs c.state c d)
      ∧ QuotesWithdrawn s (s.announceState k) k := by
  obtain ⟨d, named', as⟩ := rederiveCall_ended named ended
  have before (i : Fin 4) := ((rederiveCall_trades s k).trans (stopsOnCall_announces _ k).toTrades).slots i
  have still : d.isRunning = false := (isRunning_of_state as.state).trans ended
  have e : s.announceState k = (((s.rederiveCall k).stopsOnCall k).invalidateNaming k).compose := by
    refine congrArg State.compose (if_neg ?_)
    rw [named', Option.any_some, still]
    exact nofun
  rw [e]
  generalize (s.rederiveCall k).stopsOnCall k = u at *
  have desk := (invalidate_desk u fun q => q.call == some k).trans (compose_desk _)
  refine ⟨⟨d, (call_of_tts desk.tts k).trans named', as⟩, ?_⟩
  exact quotesWithdrawn_of_slots before (compose_announces _).toTrades.slots

/-- A call ended: its items kept, and the quotes that name it withdrawn (R83, R86, R87, R150). -/
theorem setCallState_ended (named : s.call k = some c) {st : CallState}
    (ended : st = .departed ∨ st = .cancelled ∨ st = .expired) :
    (∃ d, (s.setCallState k st).call k = some d ∧ EndedAs st c d)
      ∧ QuotesWithdrawn s (s.setCallState k st) k :=  by
  have named' : (s.modCall k fun c => { c with state := st }).call k = some { c with state := st } :=
    modCall_named named fun _ => rfl
  obtain ⟨⟨d, call, as⟩, quotes⟩ := announceState_ended named' (isRunning_false ended)
  exact ⟨⟨d, call, ⟨as.state, as.loaded, as.report, as.forecast, as.stop, as.stopCause, as.resend⟩⟩, quotes⟩

end

end Sys2Proof.Proofs
end

