-- ==== Sys2Proof/Proofs/RunNotices.lean ====
section
/-! The RUN notices of a matched call: POINT, CANCEL, REINSTATE and PLATFORM (5.3; R81 to R85). -/

namespace Sys2Proof.Proofs

open Sys2Proof.Machine Sys2Proof.Safety Sys2Proof.Laws

section
variable {s : State} {k : Key} {c : Call}

/-! ## POINT -/

theorem runPoint_ended (ended : c.isRunning = false) (code : PointCode) (delay : Int) (time : Nat) :
    s.runPoint c code delay time = s.runStale := by
  refine if_pos ?_
  rw [ended]
  rfl

theorem runPoint_running (running : c.isRunning = true) (code : PointCode) (delay : Int) (time : Nat) :
    s.runPoint c code delay time = if s.isPast c code then s.setCallState c.key .departed
      else if Report.supersedes
          ⟨code, pointIndex c.loaded.points code, delay, time, some s.htb.uptime⟩ c.report
        then s.acceptReport c ⟨code, pointIndex c.loaded.points code, delay, time, some s.htb.uptime⟩
        else s.runStale := by
  refine if_neg ?_
  rw [running]
  exact nofun

theorem isPast_iff (code : PointCode) : s.isPast c code = true
    ↔ c.loaded.beyond = some code ∨ (code = s.params.ownPoint ∧ s.params.ownPoint ≠ 0#16) := by
  simp only [State.isPast, Bool.or_eq_true, Bool.and_eq_true, beq_iff_eq, bne_iff_ne]

theorem supersedes_iff (r : Report) (h : Option Report) : r.supersedes h = true
    ↔ ∀ x, h = some x → x.index < r.index ∨ (x.index = r.index ∧ x.time < r.time) := by
  unfold Report.supersedes
  cases h with
  | none => simp only [reduceCtorEq, false_imp_iff, implies_true]
  | some x =>
    simp only [Bool.or_eq_true, Bool.and_eq_true, beq_iff_eq, decide_eq_true_eq, Option.some.injEq,
      forall_eq', eq_comm (a := r.index)]

/-- A call with an accepted report (R82). -/
def reported (c : Call) (r : Report) : Call := { c with report := some r, state := .running }

theorem acceptReport_restops (s : State) (c : Call) (r : Report) :
    Restops (derived (s.modCall c.key fun c => reported c r) c.key) (s.acceptReport c r) := by
  unfold State.acceptReport
  dsimp only
  split
  · exact rederive_restops _ _
  · exact announceState_restops _ _

theorem acceptReport_named (named : s.call k = some c) (r : Report) :
    ∃ d, (s.acceptReport c r).call k = some d ∧ d.state = .running ∧ d.loaded = c.loaded
      ∧ d.report = some r
      ∧ d.forecast = delayAfter s.params.phi r.delay (remainingAllowance c.loaded.points r.index) := by
  have restops := acceptReport_restops s c r
  rw [key_of_call named] at restops
  generalize e : s.modCall k (fun c => reported c r) = u at restops
  have params : u.params = s.params := by rw [← e]; rfl
  have named' : u.call k = some (reported c r) := e ▸ modCall_named named fun _ => rfl
  obtain ⟨d, call, same⟩ := call_of_restops restops (derived_named named')
  have steady := same.steady
  have kept := deriveCall_sameCall u (reported c r)
  refine ⟨d, call, steady.state.trans kept.state, steady.loaded.trans kept.loaded,
    steady.report.trans kept.report, ?_⟩
  have running : (reported c r).isRunning = true := rfl
  rw [steady.forecast, deriveCall_forecast_of_running u running, params]
  exact delayNow_of_report _ rfl

/-! ## CANCEL -/

theorem runCancel_live (h : c.state = .scheduled ∨ c.state = .running ∨ c.state = .expired) :
    s.runCancel c = s.setCallState c.key .cancelled := by
  unfold State.runCancel
  rcases h with h | h | h <;> simp only [h]

theorem runCancel_cancelled (h : c.state = .cancelled) : s.runCancel c = s := by
  unfold State.runCancel
  simp only [h]

theorem runCancel_departed (h : c.state = .departed) : s.runCancel c = s.runStale := by
  unfold State.runCancel
  simp only [h]

/-! ## REINSTATE -/

theorem runReinstate_other (h : c.state ≠ .cancelled) : s.runReinstate c = s.runStale := by
  unfold State.runReinstate
  split
  · next cancelled => exact absurd cancelled h
  all_goals rfl

theorem runReinstate_cancelled (h : c.state = .cancelled) : s.runReinstate c
    = ((((s.modCall c.key Call.reinstated).rederiveCall c.key).stopsOnCall c.key).sendWanted
      c.key).compose := by
  unfold State.runReinstate
  simp only [h]

/-- The stop request of a reinstated call (R115). -/
theorem reinstated_stop (c : Call) : c.reinstated.stop ≠ .sent
    ∧ (c.stop = .none ∨ c.stop = .confirmed → c.reinstated.stop = c.stop)
    ∧ (c.stop = .wanted ∨ c.stop = .sent ∨ c.stop = .late →
      c.reinstated.stop = .wanted ∨ c.reinstated.stop = .late) := by
  unfold Call.reinstated Call.unsend
  split
  · next sent =>
    have sent : c.stop = .sent := sent
    rw [sent]
    exact ⟨nofun, fun no => no.elim nofun nofun, fun _ => .inl rfl⟩
  · next other =>
    refine ⟨other, fun _ => rfl, fun asked => ?_⟩
    rcases asked with h | h | h
    · exact .inl h
    · exact absurd h other
    · exact .inr h

theorem reinstated_items (c : Call) : c.reinstated.state = .scheduled
    ∧ c.reinstated.loaded = c.loaded ∧ c.reinstated.report = none
    ∧ c.reinstated.stopCause = c.stopCause := by
  unfold Call.reinstated Call.unsend
  split <;> exact ⟨rfl, rfl, rfl, rfl⟩

/-- A reinstated call, on the state before its RUN (R84, R115). -/
structure Reinstated (s t : State) (c d : Call) : Prop where
  state : d.state = .scheduled
  loaded : d.loaded = c.loaded
  report : d.report = none
  forecast : d.forecast = 0
  stopCause : d.stopCause = c.stopCause
  settled : c.stop = .none ∨ c.stop = .confirmed → d.stop = c.stop
  asked : c.stop = .wanted ∨ c.stop = .sent ∨ c.stop = .late →
    (PastCutoff s d → d.stop = .late)
      ∧ (¬ PastCutoff s d → s.up.lsu.state = .service → d.stop = .sent ∧ d.resend = .running 30000)
      ∧ (¬ PastCutoff s d → s.up.lsu.state ≠ .service → d.stop = .wanted)
  serial : t.sru.serial = s.sru.serial + (if d.stop = .sent then 1#8 else 0#8)

theorem runReinstate_named (named : s.call k = some c) (cancelled : c.state = .cancelled) :
    ∃ d, (s.runReinstate c).call k = some d ∧ Reinstated s (s.runReinstate c) c d := by
  obtain ⟨unsent, settled, asked⟩ := reinstated_stop c
  obtain ⟨state, loaded, report, cause⟩ := reinstated_items c
  have running : c.reinstated.isRunning = true := by
    unfold Call.isRunning
    rw [state]
  have keys (x : Call) : x.reinstated.key = x.key := congrArg Loaded.key (reinstated_items x).2.1
  rw [runReinstate_cancelled cancelled, key_of_call named]
  have named' : (s.modCall k Call.reinstated).call k = some c.reinstated := modCall_named named keys
  obtain ⟨x, asking⟩ := rederiveCall_asking named' unsent
  generalize e : s.modCall k Call.reinstated = u at *
  have params : u.params = s.params := by rw [← e]; rfl
  have htb : u.htb = s.htb := by rw [← e]; rfl
  have lsu : u.up.lsu = s.up.lsu := by rw [← e]; rfl
  have serial : u.sru.serial = s.sru.serial := by rw [← e]; rfl
  have kept := deriveCall_sameCall u c.reinstated
  obtain ⟨stop, cause', _, _⟩ := deriveCall_stop u c.reinstated
  have running' : (u.deriveCall c.reinstated).isRunning = true := kept.isRunning.trans running
  have forecast : (u.deriveCall c.reinstated).forecast = 0 :=
    (deriveCall_forecast_of_running u running).trans (delayNow_of_no_report _ report)
  obtain ⟨d, final, ends⟩ := asking.settle running'
  generalize u.deriveCall c.reinstated = c' at *
  have steady := final.items.steady
  have stopCause : d.stopCause = c'.stopCause := (congrArg Call.stopCause final.items :)
  have past : (derived u k).pastCutoff c' = true ↔ PastCutoff s d := by
    rw [pastCutoff_iff, PastCutoff, PastCutoff, steady.expected]
    change c'.expected < u.htb.secs + 60 * u.params.cutoff ↔ _
    rw [htb, params]
  have within : (derived u k).pastCutoff c' = false ↔ ¬ PastCutoff s d := by
    rw [← past, Bool.not_eq_true]
  refine ⟨d, final.named, steady.state.trans (kept.state.trans state),
    steady.loaded.trans (kept.loaded.trans loaded), steady.report.trans (kept.report.trans report),
    steady.forecast.trans forecast, stopCause.trans (cause'.trans cause), fun none => ?_,
    fun wanted => ?_, ?_⟩
  · have before := settled none
    refine (final.settled ?_).trans (stop.trans before)
    rw [stop, before]
    exact none
  · obtain ⟨late, sent, waits⟩ := ends (by rw [stop]; exact asked wanted)
    refine ⟨fun p => late (past.mpr p), fun w serving => ?_, fun w out => waits (within.mpr w) ?_⟩
    · have stop := sent (within.mpr w) (show u.up.lsu.state = .service by rw [lsu]; exact serving)
      exact ⟨stop, (final.sent stop).1⟩
    · show u.up.lsu.state ≠ .service
      rw [lsu]
      exact out
  · refine final.serial.trans ?_
    show u.sru.serial + _ = _
    rw [serial]

/-! ## PLATFORM -/

theorem runPlatform_ended (ended : c.isRunning = false) (p : Platform) :
    s.runPlatform c p = s.runStale := by
  refine if_pos ?_
  rw [ended]
  rfl

theorem runPlatform_same (running : c.isRunning = true) : s.runPlatform c c.loaded.platform = s := by
  refine (if_neg ?_).trans (if_pos rfl)
  rw [running]
  exact nofun

theorem runPlatform_moved (named : s.call k = some c) (running : c.isRunning = true) {p : Platform}
    (other : c.loaded.platform ≠ p) : ∃ d, (s.runPlatform c p).call k = some d
      ∧ d.loaded = { c.loaded with platform := p } ∧ d.state = c.state ∧ d.report = c.report
      ∧ d.forecast = c.forecast ∧ d.stopCause = c.stopCause := by
  have e : s.runPlatform c p = ((s.modCall c.key fun c =>
      { c with loaded := { c.loaded with platform := p } }).stopsOnCall c.key).compose := by
    refine (if_neg ?_).trans (if_neg other)
    rw [running]
    exact nofun
  rw [e, key_of_call named]
  have named' : (s.modCall k fun c => { c with loaded := { c.loaded with platform := p } }).call k
      = some { c with loaded := { c.loaded with platform := p } } := modCall_named named fun _ => rfl
  generalize (s.modCall k fun c => { c with loaded := { c.loaded with platform := p } }) = u at *
  obtain ⟨d, call, same⟩ := call_of_restops
    ((stopsOnCall_restops u k).trans (.of_tts (compose_tts _))) named'
  have steady := same.steady
  exact ⟨d, call, steady.loaded, steady.state, steady.report, steady.forecast,
    (congrArg Call.stopCause same :)⟩

end

/-! ## The obligation -/

theorem quotesWithdrawn_congr {s u v t : State} {k : Key} (h : QuotesWithdrawn u v k)
    (before : u.fqu = s.fqu) (after : t.fqu = v.fqu) : QuotesWithdrawn s t k := by
  unfold QuotesWithdrawn at *
  rw [before] at h
  rw [after]
  exact h

/-- What a RUN of an event does to the state with its frame taken (R80). -/
theorem run_acts {s : State} {p : Port} {f : RxFrame} {rest : List RxFrame} {n : RunNotice} {c : Call}
    (on : s.powered = true) (addressed : s.fru.unaddressed = false)
    (held : (s.port p).buffers = f :: rest) (kind : f.kind = 9#8)
    (named : s.call n.key = some c) (pins : StrapPins) :
    ∃ u t, exec (.frameClassify p pins) s = .next t ∧ u.call n.key = some c
      ∧ Beside s u ∧ u.fqu = s.fqu ∧ t.tts = (u.takeRun f.payload).tts
      ∧ t.fqu = (u.takeRun f.payload).fqu ∧ t.sru = (u.takeRun f.payload).sru := by
  obtain ⟨tts, fqu, sru, _, _⟩ := relayed_run (p := p) ((took s p rest).takeRun f.payload) kind
  have same : (took s p rest).tts = s.tts := State.setPort_tts s p _
  have beside : Beside s (took s p rest) := by cases p <;> exact ⟨rfl, rfl, rfl, rfl, rfl⟩
  refine ⟨took s p rest, _, exec_run on addressed held kind pins,
    (call_of_tts same n.key).trans named, beside, ?_, tts, fqu, sru⟩
  cases p <;> rfl

/-- Settles O30. -/
theorem runCancel : Obligations.RunCancel := by
  refine ⟨fun s p pins f rest k c on addressed held kind form named => ?_,
    fun s p pins f rest n c on addressed held kind form named ordered => ?_⟩
  · obtain ⟨u, t, run, named', beside, slots, tts, fqu, -⟩ :=
      run_acts (n := ⟨k, .cancel⟩) on addressed held kind named pins
    rw [takeRun_cancel form named' rfl] at tts fqu
    refine ⟨t, run, fun live => ?_, fun cancelled => ?_, fun departed => ?_⟩
    · obtain ⟨⟨d, call, as⟩, quotes⟩ := setCallState_ended named' (st := .cancelled) (.inr (.inl rfl))
      rw [runCancel_live live, key_of_call named] at tts fqu
      exact ⟨⟨d, (call_of_tts tts k).trans call, as.state, as.loaded, as.report, as.forecast, as.stop,
        as.stopCause, as.resend⟩, quotesWithdrawn_congr quotes slots fqu⟩
    · rw [tts, runCancel_cancelled cancelled, beside.tts]
    · rw [tts, runCancel_departed departed, ← beside.tts]
      rfl
  · obtain ⟨u, t, run, named', beside, slots, tts, fqu, sru⟩ := run_acts on addressed held kind named pins
    have stale : u.runStale.tts
        = { s.tts with ctr := { s.tts.ctr with runStale := tally s.tts.ctr.runStale } } := by
      rw [← beside.tts]
      rfl
    refine ⟨t, run, fun code delay time event => ?_, fun event => ?_, fun pl event => ?_⟩
    · rw [takeRun_point form named' event] at tts fqu
      refine ⟨fun ended => ?_, fun live past => ?_, fun live ahead newer => ?_, fun live ahead older => ?_⟩
      · rw [tts, runPoint_ended (Bool.eq_false_iff.mpr fun r => ended ((isRunning_iff c).mp r))]
        exact stale
      · rw [runPoint_running ((isRunning_iff c).mpr live),
          if_pos ((isPast_iff code).mpr (by rw [beside.params]; exact past)), key_of_call named] at tts fqu
        obtain ⟨⟨d, call, as⟩, quotes⟩ := setCallState_ended named' (st := .departed) (.inl rfl)
        exact ⟨⟨d, (call_of_tts tts n.key).trans call, as.state, as.loaded, as.report, as.forecast,
          as.stop, as.resend⟩, quotesWithdrawn_congr quotes slots fqu⟩
      · rw [runPoint_running ((isRunning_iff c).mpr live),
          if_neg fun yes => ahead (by rw [← beside.params]; exact (isPast_iff code).mp yes),
          if_pos ((supersedes_iff _ _).mpr newer)] at tts
        obtain ⟨d, call, state, loaded, report, forecast⟩ := acceptReport_named named'
          ⟨code, pointIndex c.loaded.points code, delay, time, some u.htb.uptime⟩
        rw [beside.params] at forecast
        rw [beside.htb] at report
        exact ⟨d, (call_of_tts tts n.key).trans call, state, loaded, report, forecast⟩
      · rw [tts, runPoint_running ((isRunning_iff c).mpr live),
          if_neg fun yes => ahead (by rw [← beside.params]; exact (isPast_iff code).mp yes),
          if_neg fun yes => older ((supersedes_iff _ _).mp yes)]
        exact stale
    · rw [takeRun_reinstate form named' event] at tts sru
      refine ⟨fun other => ?_, fun cancelled => ?_⟩
      · rw [tts, runReinstate_other other]
        exact stale
      · obtain ⟨d, call, as⟩ := runReinstate_named named' cancelled
        have past : PastCutoff u d ↔ PastCutoff s d := by
          rw [PastCutoff, PastCutoff, beside.htb, beside.params]
        refine ⟨d, (call_of_tts tts n.key).trans call, as.state, as.loaded, as.report, as.forecast,
          as.stopCause, as.settled, fun asked => ?_, ?_⟩
        · have ends := as.asked asked
          rw [past, beside.lsu] at ends
          exact ends
        · rw [sru, as.serial, beside.serial]
    · rw [takeRun_platform form named' event] at tts
      refine ⟨fun ended => ?_, fun live same => ?_, fun live other => ?_⟩
      · rw [tts, runPlatform_ended (Bool.eq_false_iff.mpr fun r => ended ((isRunning_iff c).mp r))]
        exact stale
      · rw [tts, ← same, runPlatform_same ((isRunning_iff c).mpr live), beside.tts]
      · obtain ⟨d, call, rest⟩ := runPlatform_moved named' ((isRunning_iff c).mpr live) other
        exact ⟨d, (call_of_tts tts n.key).trans call, rest⟩

end Sys2Proof.Proofs
end

