-- ==== Sys2Proof/Proofs/Platforms.lean ====
section
/-! Presses on a platform and the pulses of its contact (7.1, 7.6; R106, R108, R118, R119). -/

namespace Sys2Proof.Proofs

open Sys2Proof.Machine Sys2Proof.Safety Sys2Proof.Laws

/-! ## What telling a change leaves -/

/-- A change told to the boards, the lamps, the quotes and the terminal: the ports, the clock, the
parameters, the counts and the serial of the SRU and the activity timer stand. -/
structure Tells (s t : State) : Prop where
  htb : t.htb = s.htb
  params : t.params = s.params
  own : t.own = s.own
  fru : t.fru = s.fru
  up : t.up = s.up
  down : t.down = s.down
  ctr : t.sru.ctr = s.sru.ctr
  serial : t.sru.serial = s.sru.serial
  activity : t.bdc.activity = s.bdc.activity

theorem Tells.refl (s : State) : Tells s s := ⟨rfl, rfl, rfl, rfl, rfl, rfl, rfl, rfl, rfl⟩

theorem Tells.trans {s t u : State} (h : Tells s t) (k : Tells t u) : Tells s u :=
  ⟨k.htb.trans h.htb, k.params.trans h.params, k.own.trans h.own, k.fru.trans h.fru, k.up.trans h.up,
    k.down.trans h.down, k.ctr.trans h.ctr, k.serial.trans h.serial, k.activity.trans h.activity⟩

theorem Tells.ite {c : Prop} [Decidable c] {s t u : State} (h : Tells s t) (k : Tells s u) :
    Tells s (if c then t else u) := by
  split
  · exact h
  · exact k

theorem Tells.foldl {α : Type} {f : State → α → State} (as : List α)
    (h : ∀ s, ∀ a ∈ as, Tells s (f s a)) (s : State) : Tells s (as.foldl f s) := by
  induction as generalizing s with
  | nil => exact .refl s
  | cons a as ih =>
    exact (h s a List.mem_cons_self).trans (ih (fun s b mem => h s b (List.mem_cons_of_mem a mem)) _)

theorem OnlyDesk.tells {s t : State} (h : OnlyDesk s t) (activity : t.bdc.activity = s.bdc.activity) :
    Tells s t :=
  ⟨h.htb, h.params, (congrArg State.own h :), h.fru, h.up, h.down, congrArg Sru.ctr h.sru,
    congrArg Sru.serial h.sru, activity⟩

theorem mapCalls_tells (s : State) (f : Call → Call) : Tells s (s.mapCalls f) :=
  ⟨rfl, rfl, rfl, rfl, rfl, rfl, rfl, rfl, rfl⟩

theorem deriveLamps_tells (s : State) : Tells s s.deriveLamps :=
  ⟨rfl, rfl, rfl, rfl, rfl, rfl, rfl, rfl, rfl⟩

theorem darkTest_activity (s : State) (r : WakeCause) :
    (s.darkTest r).bdc.activity = s.bdc.activity := by
  rcases darkTest_cases s r with e | e | ⟨c, e⟩
  · rw [e]
  · rw [e]
    rfl
  · rw [e]
    exact (congrArg Bdc.activity (light_power s.bdc s.params s.litOrDim) :)

theorem linkStart_activity (s : State) : s.linkStart.bdc.activity = s.bdc.activity :=
  (congrArg Bdc.activity (linkStart_power s.bdc) :)

theorem compose_tells (s : State) : Tells s s.compose :=
  (compose_desk s).tells ((linkStart_activity _).trans (darkTest_activity s.composeRows .none))

theorem postNotice_tells (s : State) (n : Notice) : Tells s (s.postNotice n) := by
  refine (postNotice_desk s n).tells ?_
  unfold State.postNotice State.setRing
  split
  · dsimp only
    split
    · rfl
    · exact (linkStart_activity _).trans (darkTest_activity _ _)
  · rfl

theorem setSlot_tells (s : State) (i : Fin 4) (x : Slot) : Tells s (s.setSlot i x) :=
  (setSlot_desk s i x).tells rfl

theorem withdrawSlot_tells (s : State) (i : Fin 4) : Tells s (s.withdrawSlot i) := by
  have freed : Tells s ((s.setSlot i .free).modFquCtr fun c => { c with withdrawn := tally c.withdrawn }) :=
    ⟨rfl, rfl, rfl, rfl, rfl, rfl, rfl, rfl, rfl⟩
  exact freed.trans (postNotice_tells _ _)

theorem invalidateSlot_tells (hit : Quote → Bool) (s : State) (i : Fin 4) :
    Tells s (s.invalidateSlot hit i) := by
  unfold State.invalidateSlot
  split
  · exact .refl s
  · exact .refl s
  · exact .ite (withdrawSlot_tells s i) (.refl s)
  · exact .ite (setSlot_tells s i _) (.refl s)

theorem invalidate_tells (s : State) (hit : Quote → Bool) : Tells s (s.invalidate hit) :=
  .foldl _ (fun s i _ => invalidateSlot_tells hit s i) s

theorem cutoffQuotes_tells (s : State) : Tells s s.cutoffQuotes := by
  refine .foldl _ (fun s i _ => ?_) s
  unfold State.cutoffSlot
  split
  · exact .ite (withdrawSlot_tells s i) (.refl s)
  all_goals exact .refl s

theorem announceStop_tells (s : State) (k : Key) (a b : StopState) : Tells s (s.announceStop k a b) := by
  have composed : Tells s (if a = b then s.deriveLamps else s.deriveLamps.compose) :=
    .ite (deriveLamps_tells s) ((deriveLamps_tells s).trans (compose_tells _))
  unfold State.announceStop
  exact .ite (composed.trans (postNotice_tells _ _)) composed

theorem changeStop_tells (s : State) (c : Call) (f : Call → Call) : Tells s (s.changeStop c f) :=
  (mapCalls_tells s _).trans (announceStop_tells _ _ _ _)

/-! ## A call that no longer runs asks for nothing -/

section
variable {s t : State} {k : Key} {c : Call}

theorem announceForecast_ended (named : s.call k = some c) (ended : c.isRunning = false) :
    Tells s (s.announceForecast k) ∧ (s.announceForecast k).call k = some c := by
  unfold State.announceForecast
  rw [testCutoff_ended named ended]
  refine ⟨((deriveLamps_tells s).trans (cutoffQuotes_tells _)).trans (compose_tells _), ?_⟩
  exact (call_of_tts ((compose_tts _).trans (cutoffQuotes_desk _).tts) k).trans named

theorem announceForecasts_ended (ks : List Key) (only : ∀ x ∈ ks, x = k) (named : s.call k = some c)
    (ended : c.isRunning = false) : Tells s (ks.foldl State.announceForecast s)
      ∧ (ks.foldl State.announceForecast s).call k = some c := by
  induction ks generalizing s with
  | nil => exact ⟨.refl s, named⟩
  | cons x ks ih =>
    obtain rfl : x = k := only x List.mem_cons_self
    obtain ⟨tells, call⟩ := announceForecast_ended named ended
    obtain ⟨tells', call'⟩ := ih (fun y mem => only y (List.mem_cons_of_mem _ mem)) call
    exact ⟨tells.trans tells', call'⟩

theorem announceState_tells (named : s.call k = some c) (ended : c.isRunning = false) :
    Tells s (s.announceState k) := by
  have still : (s.deriveCall c).isRunning = false := (deriveCall_sameCall s c).isRunning.trans ended
  obtain ⟨told, call⟩ := announceForecasts_ended _
    (changedKeys_of_map (deriveIf_key s k) (fun x other => if_neg other) s.tts.current)
    (derived_named named) still
  have first : Tells s (s.rederiveCall k) := (mapCalls_tells s _).trans told
  change (s.rederiveCall k).call k = some _ at call
  have second : Tells s ((s.rederiveCall k).stopsOnCall k) := by
    rw [stopsOnCall_ended call still]
    exact (first.trans (mapCalls_tells _ _)).trans (deriveLamps_tells _)
  unfold State.announceState
  dsimp only
  exact (second.trans (.ite (.refl _) (invalidate_tells _ _))).trans (compose_tells _)

theorem setCallState_tells (named : s.call k = some c) {st : CallState}
    (ended : st = .departed ∨ st = .cancelled ∨ st = .expired) : Tells s (s.setCallState k st) := by
  have named' : (s.modCall k fun c => { c with state := st }).call k = some { c with state := st } :=
    modCall_named named fun _ => rfl
  exact (mapCalls_tells s _).trans (announceState_tells named' (isRunning_false ended))

end

end Sys2Proof.Proofs
end

