-- ==== Sys2Proof/Proofs/Presses.lean ====
section
/-! BUTTON_PRESS and CONTACT_PULSE (7.1, 7.6; R106, R108, R110, R118, R119). -/

namespace Sys2Proof.Proofs

open Sys2Proof.Machine Sys2Proof.Safety Sys2Proof.Laws

/-! ## The chosen call -/

theorem firstBy_split {α : Type} {less : α → α → Bool} {before after : List α} {b : α}
    (earlier : ∀ x ∈ before, less b x = true) (later : ∀ x ∈ after, less x b = false) :
    firstBy less (before ++ b :: after) = some b := by
  induction before with
  | nil =>
    cases h : firstBy less after with
    | none => rw [List.nil_append, firstBy, h]
    | some c =>
      rw [List.nil_append, firstBy_cons h, if_neg (by rw [later c (mem_of_firstBy h)]; exact nofun)]
  | cons a before ih =>
    rw [List.cons_append, firstBy_cons (ih fun x hx => earlier x (List.mem_cons_of_mem a hx)),
      if_pos (earlier a List.mem_cons_self)]

theorem firstBy_filter {α : Type} {less : α → α → Bool} {hit : α → Bool} {before after : List α} {b : α}
    (found : hit b = true) (earlier : ∀ x ∈ before, hit x = true → less b x = true)
    (later : ∀ x ∈ after, hit x = true → less x b = false) :
    firstBy less ((before ++ b :: after).filter hit) = some b := by
  rw [List.filter_append, List.filter_cons_of_pos found]
  refine firstBy_split (fun x mem => ?_) fun x mem => ?_
  · obtain ⟨mem, hits⟩ := List.mem_filter.mp mem
    exact earlier x mem hits
  · obtain ⟨mem, hits⟩ := List.mem_filter.mp mem
    exact later x mem hits

section
variable {s : State} {p : Platform} {c : Call} {before after : List Call}

theorem requestable_iff : (c.requestableAt p && s.insideWindow c) = true ↔ PressEligible s p c := by
  unfold Call.requestableAt State.insideWindow State.windowOpen
  rw [Bool.and_eq_true, Bool.and_eq_true, Bool.and_eq_true, Bool.and_eq_true, beq_iff_eq, beq_iff_eq,
    decide_eq_true_eq, Bool.not_eq_true', pastCutoff_eq_false_iff, isRunning_iff, PastCutoff, Nat.not_lt]
  exact ⟨fun ⟨⟨⟨a, b⟩, m⟩, w, e⟩ => ⟨a, b, m, w, e⟩, fun ⟨a, b, m, w, e⟩ => ⟨⟨⟨a, b⟩, m⟩, w, e⟩⟩

theorem pressTarget_none (h : ∀ c ∈ s.tts.current, ¬ PressEligible s p c) : s.pressTarget p = none := by
  unfold State.pressTarget
  rw [List.filter_eq_nil_iff.mpr fun c mem yes => h c mem (requestable_iff.mp yes)]
  rfl

theorem pressTarget_some (split : s.tts.current = before ++ c :: after) (eligible : PressEligible s p c)
    (earlier : ∀ x ∈ before, PressEligible s p x → c.expected < x.expected)
    (later : ∀ x ∈ after, PressEligible s p x → c.expected ≤ x.expected) :
    s.pressTarget p = some c := by
  unfold State.pressTarget
  rw [split]
  refine firstBy_filter (requestable_iff.mpr eligible) (fun x mem hit => ?_) fun x mem hit => ?_
  · exact decide_eq_true (earlier x mem (requestable_iff.mp hit))
  · exact decide_eq_false (Nat.not_lt.mpr (later x mem (requestable_iff.mp hit)))

theorem inSpan_iff : (c.loaded.platform == p && c.isRunning && s.inContactSpan c) = true
    ↔ PulseEligible s p c := by
  unfold State.inContactSpan
  rw [Bool.and_eq_true, Bool.and_eq_true, Bool.and_eq_true, beq_iff_eq, decide_eq_true_eq,
    decide_eq_true_eq, isRunning_iff, and_assoc]
  exact Iff.rfl

theorem contactMatch_none (h : ∀ c ∈ s.tts.current, ¬ PulseEligible s p c) : s.contactMatch p = none := by
  unfold State.contactMatch
  rw [List.filter_eq_nil_iff.mpr fun c mem yes => h c mem (inSpan_iff.mp yes)]
  rfl

theorem nearer_iff (a b : Call) : s.nearer a b = true ↔ s.distance a < s.distance b
    ∨ (s.distance a = s.distance b ∧ a.loaded.sched < b.loaded.sched) := by
  simp only [State.nearer, Bool.or_eq_true, Bool.and_eq_true, decide_eq_true_eq, beq_iff_eq]

theorem sched_of_before {a b : Loaded} (h : a.before b = true) : a.sched ≤ b.sched := by
  simp only [Loaded.before, Bool.or_eq_true, Bool.and_eq_true, decide_eq_true_eq, beq_iff_eq] at h
  omega

theorem contactMatch_some (ordered : BankOrdered s.tts.current)
    (split : s.tts.current = before ++ c :: after) (eligible : PulseEligible s p c)
    (earlier : ∀ x ∈ before, PulseEligible s p x → s.distance c < s.distance x)
    (later : ∀ x ∈ after, PulseEligible s p x → s.distance c ≤ s.distance x) :
    s.contactMatch p = some c := by
  obtain ⟨_, sorted, _⟩ := ordered
  rw [split, List.pairwise_append, List.pairwise_cons] at sorted
  obtain ⟨_, ⟨behind, _⟩, _⟩ := sorted
  unfold State.contactMatch
  rw [split]
  refine firstBy_filter (inSpan_iff.mpr eligible) (fun x mem hit => ?_) fun x mem hit => ?_
  · exact (nearer_iff c x).mpr (.inl (earlier x mem (inSpan_iff.mp hit)))
  · have near := later x mem (inSpan_iff.mp hit)
    have sched := sched_of_before (behind x mem)
    rw [Bool.eq_false_iff, Ne, nearer_iff]
    omega

end

/-! ## A press -/

section
variable {s : State} {p : Platform} {c : Call} {before after : List Call}

theorem modIo_tells (s : State) (p : Platform) (f : PlatformIo → PlatformIo) :
    Tells s (s.modIo p f) ∧ s.modIo p f = { s with sru := (s.modIo p f).sru } := by
  cases p <;> exact ⟨⟨rfl, rfl, rfl, rfl, rfl, rfl, rfl, rfl, rfl⟩, rfl⟩

/-- A button down, noted as activity (R106, R136). -/
def pressed (s : State) (p : Platform) : State :=
  (s.modIo p fun io => { io with button := .pressed }).noteActivity .button

theorem pressed_frame (s : State) (p : Platform) : ∃ b, b.activity = .running 60000
    ∧ pressed s p = { s.modIo p fun io => { io with button := .pressed } with bdc := b } := by
  obtain ⟨b, e⟩ := noteActivity_frame (s.modIo p fun io => { io with button := .pressed }) .button
  refine ⟨b, ?_, e⟩
  have activity : (pressed s p).bdc.activity = .running 60000 := darkTest_activity _ _
  rw [pressed, e] at activity
  exact activity

theorem press_none (none : s.pressTarget p = none) : s.press p
    = ((s.modSruCtr fun k => { k with noTarget := tally k.noTarget }).modIo p fun io =>
      { io with noTarget := .running 5000 }).deriveLamps := by
  unfold State.press
  rw [none]
  exact rfl

theorem press_some (target : s.pressTarget p = some c) : s.press p
    = (if c.stop = .none then
        (s.modIo p fun io => { io with noTarget := .stopped }).wantStop c .button
      else s.modIo p fun io => { io with noTarget := .stopped }).deriveLamps := by
  unfold State.press
  rw [target]

theorem lampOf_noTarget (h : (s.sru.io p).noTarget.isRunning = true) : s.lampOf p = .fastFlash :=
  if_pos h

/-- The press that finds no call (R108). -/
theorem press_unmatched (h : ∀ c ∈ s.tts.current, ¬ PressEligible s p c) :
    ((pressed s p).press p).bdc.activity = .running 60000
      ∧ (((pressed s p).press p).sru.io p).button = .pressed
      ∧ (((pressed s p).press p).sru.io p).noTarget = .running 5000
      ∧ (((pressed s p).press p).sru.io p).lamp = .fastFlash
      ∧ ((pressed s p).press p).sru.ctr = { s.sru.ctr with noTarget := tally s.sru.ctr.noTarget }
      ∧ (pressed s p).press p = { s with
        sru := ((pressed s p).press p).sru, bdc := ((pressed s p).press p).bdc } := by
  obtain ⟨b, activity, frame⟩ := pressed_frame s p
  rw [frame]
  have none : ({ s.modIo p fun io => { io with button := .pressed } with bdc := b } : State).pressTarget p
      = none := by
    refine pressTarget_none ?_
    cases p <;> exact h
  rw [press_none none]
  cases p <;> exact ⟨activity, rfl, rfl, rfl, rfl, rfl⟩

end

/-! ## A stop wanted and sent -/

section
variable {s : State} {c : Call} {before after : List Call}

/-- No other call of the bank has the key of a call. -/
def Alone (before : List Call) (c : Call) (after : List Call) : Prop :=
  (∀ x ∈ before, x.key ≠ c.key) ∧ ∀ x ∈ after, x.key ≠ c.key

theorem alone_of_nodup (unique : ((before ++ c :: after).map Call.key).Nodup) : Alone before c after := by
  rw [List.map_append, List.map_cons, List.nodup_append, List.nodup_cons] at unique
  obtain ⟨_, ⟨fresh, _⟩, apart⟩ := unique
  refine ⟨fun x mem same => ?_, fun x mem same => fresh (same ▸ List.mem_map_of_mem mem)⟩
  exact apart _ (List.mem_map_of_mem mem) _ List.mem_cons_self same

theorem call_of_alone (split : s.tts.current = before ++ c :: after) (alone : Alone before c after) :
    s.call c.key = some c := by
  unfold State.call findCall
  rw [split, List.find?_append, List.find?_eq_none.mpr fun x mem same =>
    alone.1 x mem (beq_iff_eq.mp same), Option.none_or]
  exact List.find?_cons_of_pos (beq_self_eq_true c.key)

theorem changeStop_current (split : s.tts.current = before ++ c :: after) (alone : Alone before c after)
    (f : Call → Call) : (s.changeStop c f).tts.current = before ++ f c :: after := by
  have tts : (s.changeStop c f).tts = (s.modCall c.key f).tts := announceStop_tts _ _ _ _
  have same (xs : List Call) (others : ∀ x ∈ xs, x.key ≠ c.key) :
      xs.map (fun x => if x.key = c.key then f x else x) = xs :=
    (List.map_congr_left fun x mem => if_neg (others x mem)).trans (List.map_id xs)
  calc (s.changeStop c f).tts.current
      = s.tts.current.map fun x => if x.key = c.key then f x else x := congrArg Tts.current tts
    _ = _ := by
      rw [split, List.map_append, List.map_cons, same _ alone.1, same _ alone.2, if_pos rfl]

/-- A call wanted to stop (R108, R109). -/
def wanted (c : Call) (x : StopCause) : Call := { c with stop := .wanted, stopCause := some x }

section
variable (split : s.tts.current = before ++ c :: after) (alone : Alone before c after)
  (running : c.isRunning = true) (within : s.pastCutoff c = false) (x : StopCause)
include split alone running within

theorem wantStop_waits (out : s.up.lsu.state ≠ .service) :
    (s.wantStop c x).tts.current = before ++ wanted c x :: after ∧ Tells s (s.wantStop c x) := by
  have named := call_of_alone split alone
  have tells := changeStop_tells s c (f := fun c => wanted c x)
  have current := changeStop_current split alone (f := fun c => wanted c x)
  have e : s.wantStop c x = ((s.changeStop c fun c => wanted c x).trySend c.key).testCutoff c.key := rfl
  rw [e]
  generalize s.changeStop c (fun c => wanted c x) = u at tells current ⊢
  have named' : u.call c.key = some (wanted c x) := call_of_alone (c := wanted c x) current alone
  have may : ¬ u.maySend (wanted c x) = true := fun yes => by
    have serving := ((maySend_iff u (wanted c x)).mp yes).2.2.1
    rw [tells.up] at serving
    exact out serving
  have early : u.pastCutoff (wanted c x) = false := by
    rw [State.pastCutoff, tells.htb, tells.params]
    exact within
  have stays : u.testCutoff c.key = u := by
    rw [testCutoff_running named' running, if_neg fun both => Bool.false_ne_true (early.symm.trans both.2),
      if_neg fun both => absurd both.1 nofun]
  rw [trySend_named named', if_neg may, stays]
  exact ⟨current, tells⟩

theorem wantStop_sends (serving : s.up.lsu.state = .service) :
    (s.wantStop c x).tts.current
        = before ++ { wanted c x with stop := .sent, resend := .running 30000 } :: after
      ∧ (s.wantStop c x).sru.serial = s.sru.serial + 1#8
      ∧ (s.wantStop c x).sru.ctr.stopreqBuilt = tally s.sru.ctr.stopreqBuilt
      ∧ (s.wantStop c x).bdc.activity = s.bdc.activity
      ∧ (s.fru.unaddressed = false → Room s.up .urgent →
        QueuedUp s (s.wantStop c x) (stopreqOf s { c with stopCause := some x })) := by
  have named := call_of_alone split alone
  have tells := changeStop_tells s c (f := fun c => wanted c x)
  have current := changeStop_current split alone (f := fun c => wanted c x)
  have e : s.wantStop c x = ((s.changeStop c fun c => wanted c x).trySend c.key).testCutoff c.key := rfl
  rw [e]
  generalize s.changeStop c (fun c => wanted c x) = u at tells current ⊢
  have named' : u.call c.key = some (wanted c x) := call_of_alone (c := wanted c x) current alone
  have early (v : State) (htb : v.htb = s.htb) (params : v.params = s.params) :
      v.pastCutoff (wanted c x) = false := by
    rw [State.pastCutoff, htb, params]
    exact within
  have may : u.maySend (wanted c x) = true :=
    (maySend_iff u (wanted c x)).mpr ⟨running, rfl, by rw [tells.up]; exact serving,
      early u tells.htb tells.params⟩
  have frame := afterOffer_frame u (wanted c x)
  have calls := tts_afterOffer u (wanted c x)
  have queued := afterOffer_queued (s := u) (c := wanted c x)
  have same : stopreqOf u (wanted c x) = stopreqOf s { c with stopCause := some x } := by
    unfold stopreqOf ownQueued
    rw [tells.own, tells.params, tells.serial]
    rfl
  rw [trySend_named named', if_pos may, sendStopreq_eq]
  generalize afterOffer u (wanted c x) = v at *
  have told := changeStop_tells v (wanted c x)
    (f := fun c => { c with stop := .sent, resend := .running Config.resendMs })
  have last := changeStop_current (c := wanted c x) (by rw [calls]; exact current) alone
    (f := fun c => { c with stop := .sent, resend := .running Config.resendMs })
  generalize v.changeStop (wanted c x) (fun c => { c with stop := .sent, resend := .running Config.resendMs })
    = t at told last
  have named'' : t.call c.key = some { wanted c x with stop := .sent, resend := .running 30000 } :=
    call_of_alone (c := { wanted c x with stop := .sent, resend := .running 30000 }) last alone
  have htb : v.htb = s.htb := (congrArg State.htb frame :).trans tells.htb
  have params : v.params = s.params := (congrArg State.params frame :).trans tells.params
  have stays : t.testCutoff c.key = t := by
    rw [testCutoff_running named'' running, if_neg fun both => Bool.false_ne_true
      ((early t (told.htb.trans htb) (told.params.trans params)).symm.trans both.2),
      if_neg fun both => absurd both.1 nofun]
  have serial : v.sru.serial = u.sru.serial + 1#8 := (congrArg (fun y : State => y.sru.serial) frame :)
  have built : v.sru.ctr.stopreqBuilt = tally u.sru.ctr.stopreqBuilt :=
    (congrArg (fun y : State => y.sru.ctr.stopreqBuilt) frame :)
  have activity : v.bdc.activity = u.bdc.activity := (congrArg (fun y : State => y.bdc.activity) frame :)
  rw [stays]
  refine ⟨last, ?_, ?_, told.activity.trans (activity.trans tells.activity), fun addressed room => ?_⟩
  · rw [told.serial, serial, tells.serial]
  · rw [told.ctr, built, tells.ctr]
  · have := queued (by rw [tells.fru]; exact addressed) (by rw [tells.up]; exact room)
    rw [same] at this
    obtain ⟨js, jrnls, queue⟩ := this
    exact ⟨js, jrnls, by rw [told.up, queue, tells.up]⟩

end

end

end Sys2Proof.Proofs
end

