-- ==== Sys2Proof/Proofs/PlatformInputs.lean ====
section
/-! What a press and a contact pulse do (7.1, 7.6; R106, R108, R118, R119). -/

namespace Sys2Proof.Proofs

open Sys2Proof.Machine Sys2Proof.Safety Sys2Proof.Laws

/-! ## A press that finds its call -/

section
variable {s : State} {p : Platform} {c : Call} {before after : List Call}

/-- The state of a press with its call found, before the request (R108, R117). -/
structure Aimed (s u : State) (p : Platform) : Prop where
  frame : u = { s with sru := u.sru, bdc := u.bdc }
  activity : u.bdc.activity = .running 60000
  ctr : u.sru.ctr = s.sru.ctr
  serial : u.sru.serial = s.sru.serial
  button : (u.sru.io p).button = .pressed
  noTarget : (u.sru.io p).noTarget = .stopped

theorem aimed (s : State) (p : Platform) :
    Aimed s ((pressed s p).modIo p fun io => { io with noTarget := .stopped }) p := by
  obtain ⟨b, activity, frame⟩ := pressed_frame s p
  rw [frame]
  cases p <;> exact ⟨rfl, activity, rfl, rfl, rfl, rfl⟩

theorem Aimed.onlyTrade {u t : State} (h : Aimed s u p) (trades : Trades u t) : OnlyTrade s t := by
  have only := trades.onlyTrade
  unfold OnlyTrade at *
  rw [h.frame] at only
  exact only

theorem Aimed.io {u t : State} (h : Aimed s u p) (trades : Trades u t) :
    (t.sru.io p).button = .pressed ∧ (t.sru.io p).noTarget = .stopped := by
  rw [trades.io p]
  exact ⟨h.button, h.noTarget⟩

theorem pressed_target (split : s.tts.current = before ++ c :: after) (eligible : PressEligible s p c)
    (earlier : ∀ x ∈ before, PressEligible s p x → c.expected < x.expected)
    (later : ∀ x ∈ after, PressEligible s p x → c.expected ≤ x.expected) :
    (pressed s p).pressTarget p = some c := by
  obtain ⟨b, _, frame⟩ := pressed_frame s p
  rw [frame]
  cases p <;> exact pressTarget_some split eligible earlier later

/-- The press that finds its call (R108, R110). -/
theorem press_matched (unique : (s.tts.current.map Call.key).Nodup)
    (split : s.tts.current = before ++ c :: after) (eligible : PressEligible s p c)
    (target : (pressed s p).pressTarget p = some c) :
    ∃ t, (pressed s p).press p = t ∧ (t.sru.io p).button = .pressed ∧ (t.sru.io p).noTarget = .stopped
      ∧ t.bdc.activity = .running 60000
      ∧ (c.stop ≠ .none → t.tts = s.tts ∧ t.up = s.up ∧ t.sru.serial = s.sru.serial)
      ∧ (c.stop = .none → s.up.lsu.state ≠ .service →
        t.tts.current = before ++ { c with stop := .wanted, stopCause := some .button } :: after
        ∧ t.up = s.up ∧ t.sru.serial = s.sru.serial)
      ∧ (c.stop = .none → s.up.lsu.state = .service →
        t.tts.current = before ++ { c with
          stop := .sent, stopCause := some .button, resend := .running 30000 } :: after
        ∧ t.sru.serial = s.sru.serial + 1#8
        ∧ t.sru.ctr.stopreqBuilt = tally s.sru.ctr.stopreqBuilt
        ∧ (s.fru.unaddressed = false → Room s.up .urgent →
          QueuedUp s t (stopreqOf s { c with stopCause := some .button })))
      ∧ OnlyTrade s t := by
  have aims := aimed s p
  have e := press_some target
  generalize (pressed s p).modIo p (fun io => { io with noTarget := .stopped }) = u at aims e
  obtain ⟨_, live, _, _, cutoff⟩ := eligible
  have running := (isRunning_iff c).mpr live
  have tts : u.tts = s.tts := (congrArg State.tts aims.frame :)
  have up : u.up = s.up := (congrArg State.up aims.frame :)
  have split' : u.tts.current = before ++ c :: after := by rw [tts]; exact split
  have alone : Alone before c after := alone_of_nodup (split ▸ unique)
  have within : u.pastCutoff c = false := by
    have same : u.pastCutoff c = s.pastCutoff c := by
      rw [aims.frame]
      rfl
    rw [same, pastCutoff_eq_false_iff]
    exact Nat.not_lt.mpr cutoff
  by_cases none : c.stop = .none
  · rw [if_pos none] at e
    have trades := (wantStop_trades u c .button).trans (deriveLamps_announces _).toTrades
    obtain ⟨button, noTarget⟩ := aims.io trades
    have waits := wantStop_waits split' alone running within .button
    have sends := wantStop_sends split' alone running within .button
    have only := aims.onlyTrade trades
    have lamps := deriveLamps_tells (u.wantStop c .button)
    have calls : (u.wantStop c .button).deriveLamps.tts = (u.wantStop c .button).tts := rfl
    generalize (u.wantStop c .button).deriveLamps = t at *
    rw [← calls] at waits sends
    refine ⟨t, e, button, noTarget, ?_, fun other => absurd none other, fun _ out => ?_,
      fun _ serving => ?_, only⟩
    · by_cases serving : s.up.lsu.state = .service
      · obtain ⟨_, _, _, activity, _⟩ := sends (by rw [up]; exact serving)
        rw [lamps.activity, activity, aims.activity]
      · obtain ⟨_, told⟩ := waits (by rw [up]; exact serving)
        rw [lamps.activity, told.activity, aims.activity]
    · obtain ⟨current, told⟩ := waits (by rw [up]; exact out)
      exact ⟨current, lamps.up.trans (told.up.trans up), lamps.serial.trans (told.serial.trans aims.serial)⟩
    · obtain ⟨current, serial, built, _, queued⟩ := sends (by rw [up]; exact serving)
      refine ⟨current, ?_, ?_, fun addressed room => ?_⟩
      · rw [lamps.serial, serial, aims.serial]
      · rw [lamps.ctr, built, aims.ctr]
      · have fru : u.fru = s.fru := (congrArg State.fru aims.frame :)
        have own : u.own = s.own := (congrArg State.own aims.frame :)
        have params : u.params = s.params := (congrArg State.params aims.frame :)
        obtain ⟨js, jrnls, queue⟩ := queued (by rw [fru]; exact addressed) (by rw [up]; exact room)
        refine ⟨js, jrnls, ?_⟩
        have same : stopreqOf u { c with stopCause := some .button }
            = stopreqOf s { c with stopCause := some .button } := by
          unfold stopreqOf ownQueued
          rw [aims.serial, own, params]
        rw [lamps.up, queue, up, same]
  · rw [if_neg none] at e
    have trades := (deriveLamps_announces u).toTrades
    obtain ⟨button, noTarget⟩ := aims.io trades
    exact ⟨u.deriveLamps, e, button, noTarget, aims.activity, fun _ => ⟨tts, up, aims.serial⟩,
      fun is => absurd is none, fun is => absurd is none, aims.onlyTrade trades⟩

end

/-! ## A pulse -/

section
variable {s : State} {p : Platform} {c : Call} {before after : List Call}

theorem matchPulse_some (found : s.contactMatch p = some c) :
    s.matchPulse p = (s.setCallState c.key .departed).originateRun c := by
  unfold State.matchPulse
  rw [found]

theorem matchPulse_none (none : s.contactMatch p = none) :
    s.matchPulse p = s.modSruCtr fun k => { k with contactUnmatched := tally k.contactUnmatched } := by
  unfold State.matchPulse
  rw [none]

/-- What a RUN of the halt's own alters. -/
theorem originateRun_frame (s : State) (c : Call) : ∃ k, s.originateRun c = { s with
    up := (s.originateRun c).up, down := (s.originateRun c).down, sju := (s.originateRun c).sju
    sru := { s.sru with ctr := k } } := by
  unfold State.originateRun
  split
  · exact ⟨_, rfl⟩
  · refine ⟨s.sru.ctr, ?_⟩
    dsimp only
    have up := offerOwnUp_frame s .run allHalts (.octets (s.departureOctets c))
    generalize s.offerOwn .up .run allHalts (.octets (s.departureOctets c)) = u at up ⊢
    obtain ⟨a, b, j, down⟩ := offerOwn_frame u .down .run allHalts (.octets (s.departureOctets c))
    rw [down, up]

theorem originateRun_pointless (none : s.params.ownPoint = 0#16) :
    s.originateRun c = s.modSruCtr fun k => { k with contactNoPoint := tally k.contactNoPoint } :=
  if_pos none

theorem originateRun_offers (point : s.params.ownPoint ≠ 0#16) (addressed : s.fru.unaddressed = false) :
    s.originateRun c = (s.offer .up (runOf s c)).offer .down (runOf s c) := by
  have e : s.originateRun c = (s.offerOwn .up .run allHalts (.octets (s.departureOctets c))).offerOwn
      .down .run allHalts (.octets (s.departureOctets c)) := if_neg point
  have first : s.offerOwn .up .run allHalts (.octets (s.departureOctets c)) = s.offer .up (runOf s c) :=
    offerOwn_addressed addressed ..
  have frame := offerUp_frame s (runOf s c)
  rw [e, first]
  generalize s.offer .up (runOf s c) = u at frame ⊢
  have fru : u.fru = s.fru := (congrArg State.fru frame :)
  have own : u.own = s.own := (congrArg State.own frame :)
  have params : u.params = s.params := (congrArg State.params frame :)
  refine (offerOwn_addressed (by rw [fru]; exact addressed) ..).trans ?_
  refine congrArg (u.offer .down) ?_
  unfold runOf ownQueued
  rw [own, params]
  rfl

/-- The RUN of a departure behind both queues (R119). -/
theorem originateRun_queued (point : s.params.ownPoint ≠ 0#16) (addressed : s.fru.unaddressed = false) :
    (Room s.up .urgent → QueuedUp s (s.originateRun c) (runOf s c))
      ∧ (Room s.down .urgent → (s.originateRun c).down.queue = s.down.queue ++ [runOf s c]) := by
  rw [originateRun_offers point addressed]
  have frame := offerUp_frame s (runOf s c)
  refine ⟨fun room => ?_, fun room => ?_⟩
  · obtain ⟨js, jrnls, queue⟩ := (offer_up_of_room (s := s) (q := runOf s c) room).queue
    refine ⟨js, jrnls, ?_⟩
    have up : ((s.offer .up (runOf s c)).offer .down (runOf s c)).up = (s.offer .up (runOf s c)).up := by
      rw [offer_down, State.modPort_eq]
      exact rfl
    rw [up, queue, List.append_assoc]
    rfl
  · have down : (s.offer .up (runOf s c)).down = s.down := (congrArg State.down frame :)
    rw [← down] at room ⊢
    obtain ⟨js, _, queue, none, _⟩ :=
      offer_other_of_room (v := s.offer .up (runOf s c)) (p := .up) (q := runOf s c) room
    rw [none rfl] at queue
    exact queue

/-- A pulse that finds its call (R86, R118, R119). -/
theorem pulse_matched (ordered : BankOrdered s.tts.current)
    (split : s.tts.current = before ++ c :: after) (found : s.contactMatch p = some c) :
    ∃ t, s.matchPulse p = t
      ∧ (t.sru.io p).lockout = (s.sru.io p).lockout
      ∧ (∃ c', t.call c.key = some c' ∧ EndedAs .departed c c')
      ∧ QuotesWithdrawn s t c.key
      ∧ (∀ x ∈ s.tts.current, x ≠ c → ∃ x' ∈ t.tts.current, x'.key = x.key ∧ x'.state = x.state)
      ∧ (s.params.ownPoint = 0#16 →
        t.sru.ctr.contactNoPoint = tally s.sru.ctr.contactNoPoint ∧ t.up = s.up ∧ t.down = s.down)
      ∧ (s.params.ownPoint ≠ 0#16 → s.fru.unaddressed = false → Room s.up .urgent →
        QueuedUp s t (runOf s c))
      ∧ (s.params.ownPoint ≠ 0#16 → s.fru.unaddressed = false → Room s.down .urgent →
        t.down.queue = s.down.queue ++ [runOf s c])
      ∧ t = { s with
          up := t.up, down := t.down, tts := t.tts, sru := t.sru, bdc := t.bdc, fqu := t.fqu
          sju := t.sju, tpi := t.tpi } := by
  have unique : (s.tts.current.map Call.key).Nodup := ordered.2.2
  have alone : Alone before c after := alone_of_nodup (split ▸ unique)
  have named := call_of_alone split alone
  have mem : c ∈ s.tts.current := by rw [split]; simp
  obtain ⟨departed, quotes⟩ := setCallState_ended named (st := .departed) (.inl rfl)
  have told := setCallState_tells named (st := .departed) (.inl rfl)
  have calls := setCallState_calls s c.key .departed
  have only := (setCallState_turns s c.key .departed).onlyTrade
  have lockout : ((s.setCallState c.key .departed).sru.io p).lockout = (s.sru.io p).lockout := by
    have io := (announceState_trades (s.modCall c.key fun c => { c with state := .departed }) c.key).io p
    exact (congrArg PlatformIo.lockout io :)
  rw [matchPulse_some found]
  generalize s.setCallState c.key .departed = u at *
  have run : runOf u c = runOf s c := by
    unfold runOf ownQueued State.departureOctets
    rw [told.own, told.params, told.htb]
  obtain ⟨k, frame⟩ := originateRun_frame u c
  have pointless := originateRun_pointless (s := u) (c := c)
  have queued := originateRun_queued (s := u) (c := c)
  generalize u.originateRun c = t at frame pointless queued
  have tts : t.tts = u.tts := (congrArg State.tts frame :)
  have fqu : t.fqu = u.fqu := (congrArg State.fqu frame :)
  rw [told.params, told.fru] at queued
  refine ⟨t, rfl, ?_, ?_, quotesWithdrawn_congr quotes rfl fqu, fun x held other => ?_, fun none => ?_,
    fun point addressed room => ?_, fun point addressed room => ?_, ?_⟩
  · rw [← lockout, frame]
    cases p <;> rfl
  · obtain ⟨d, call, as⟩ := departed
    exact ⟨d, (call_of_tts tts c.key).trans call, as⟩
  · obtain ⟨i, low, at_⟩ := List.mem_iff_getElem.mp held
    have bound : i < u.tts.current.length := calls.length_eq ▸ low
    have pair := calls.get low bound
    have keys : x.key ≠ c.key := fun same => other (by
      have a := call_of_mem (s := s) unique held
      have b := call_of_mem (s := s) unique mem
      rw [same] at a
      exact Option.some.inj (a.symm.trans b))
    simp only [List.get_eq_getElem, at_] at pair
    have steady := pair.others keys
    refine ⟨u.tts.current[i], ?_, congrArg Loaded.key steady.loaded, steady.state⟩
    rw [tts]
    exact List.getElem_mem bound
  · have e := pointless (by rw [told.params]; exact none)
    refine ⟨?_, ?_, ?_⟩
    · rw [e, ← told.ctr]
      rfl
    · rw [e, ← told.up]
      rfl
    · rw [e, ← told.down]
      rfl
  · obtain ⟨js, jrnls, queue⟩ := (queued point addressed).1 (by rw [told.up]; exact room)
    exact ⟨js, jrnls, by rw [queue, told.up, run]⟩
  · have queue := (queued point addressed).2 (by rw [told.down]; exact room)
    rw [queue, told.down, run]
  · unfold OnlyTrade at only
    rw [frame, only]

end

/-- Settles O33. -/
theorem platformInputsAct : Obligations.PlatformInputsAct := by
  refine ⟨fun s p on down => exec_buttonPress_pressed on down, fun s p on released => ⟨fun none => ?_,
    fun before after c ordered split eligible earlier later => ?_⟩, fun s p on => ⟨fun locked => ?_,
    fun open_ none => ?_, fun open_ ordered before after c split eligible earlier later => ?_⟩⟩
  · rw [exec_buttonPress_released on released]
    obtain ⟨activity, button, noTarget, lamp, ctr, frame⟩ := press_unmatched none
    exact ⟨_, rfl, button, noTarget, lamp, ctr, activity, frame⟩
  · rw [exec_buttonPress_released on released]
    obtain ⟨t, e, facts⟩ := press_matched ordered.2.2 split eligible
      (pressed_target split eligible earlier later)
    exact ⟨t, congrArg _ e, facts⟩
  · rw [exec_contactPulse on]
    exact congrArg _ (if_pos locked)
  · have unlocked : ¬ (s.sru.io p).lockout.isRunning = true := Bool.eq_false_iff.mp open_
    rw [exec_contactPulse on, if_neg unlocked, matchPulse_none]
    · rfl
    · refine contactMatch_none ?_
      cases p <;> exact none
  · have unlocked : ¬ (s.sru.io p).lockout.isRunning = true := Bool.eq_false_iff.mp open_
    rw [exec_contactPulse on, if_neg unlocked]
    have held := State.modIo_io_self s p fun io => { io with lockout := .running Config.lockoutMs }
    obtain ⟨told, frame⟩ := modIo_tells s p fun io => { io with lockout := .running Config.lockoutMs }
    generalize s.modIo p (fun io => { io with lockout := .running Config.lockoutMs }) = u at held told frame
    have found : u.contactMatch p = some c := by
      rw [frame]
      exact contactMatch_some ordered split eligible earlier later
    have tts : u.tts = s.tts := (congrArg State.tts frame :)
    obtain ⟨t, e, lockout, departed, quotes, others, pointless, up, down, only⟩ :=
      pulse_matched (s := u) (by rw [tts]; exact ordered) (by rw [tts]; exact split) found
    have run : runOf u c = runOf s c := by
      unfold runOf ownQueued State.departureOctets
      rw [told.own, told.params, told.htb]
    rw [told.params, told.ctr, told.up, told.down] at pointless
    rw [told.params, told.fru, told.up, run] at up
    rw [told.params, told.fru, told.down, run] at down
    rw [tts] at others
    obtain ⟨d, call, as⟩ := departed
    refine ⟨t, congrArg _ e, ?_, ⟨d, call, as.loaded, as.state, as.forecast, as.report, as.stop, as.resend⟩,
      quotesWithdrawn_congr quotes (congrArg State.fqu frame :) rfl, others, pointless, ?_, down, ?_⟩
    · rw [lockout, held]
      rfl
    · intro point addressed room
      obtain ⟨js, jrnls, queue⟩ := up point addressed room
      exact ⟨js, jrnls, by rw [queue, told.up]⟩
    · refine only.trans ?_
      rw [frame]

end Sys2Proof.Proofs
end

