-- ==== Sys2Proof/Proofs/Controls.lean ====
section
/-! The CTRLs of the centre: sales open and closed, the tables cleared, a port restarted
(11.4; R17, R34, R90, R131, R154, R177). -/

namespace Sys2Proof.Proofs

open Sys2Proof.Machine Sys2Proof.Safety Sys2Proof.Laws

/-! ## Sales closed and opened -/

section
variable {s t u : State}

theorem allWithdrawn_of_before (before : ∀ i : Fin 4, SlotFollows s.fqu.slots[i] u.fqu.slots[i])
    (h : AllWithdrawn u t) : AllWithdrawn s t := by
  obtain ⟨none, marked⟩ := h
  refine ⟨none, fun i q w pending => ?_⟩
  have follows := before i
  rw [pending] at follows
  generalize e : u.fqu.slots[i] = y at follows
  cases follows with
  | same => exact marked i q w e
  | marked => exact marked i q true e

theorem setSalesMode_same (s : State) : s.setSalesMode s.sju.salesMode = s := if_pos rfl

/-- Sales closed withdraw every quote (R154). -/
theorem setSalesMode_closed (open_ : s.sju.salesMode ≠ .closed) :
    AllWithdrawn s (s.setSalesMode .closed) := by
  have e : s.setSalesMode .closed = State.invalidateAll
      (if s.starting then { s with sju := { s.sju with salesMode := .closed } }
        else State.postNotice { s with sju := { s.sju with salesMode := .closed } } (.salesMode .closed)) :=
    (if_neg open_.symm).trans (if_pos rfl)
  have slots : (if s.starting then { s with sju := { s.sju with salesMode := .closed } }
      else State.postNotice { s with sju := { s.sju with salesMode := .closed } }
        (.salesMode .closed) : State).fqu = s.fqu := by
    split
    · rfl
    · exact postNotice_fqu _ _
  rw [e]
  generalize (if s.starting then { s with sju := { s.sju with salesMode := .closed } }
      else State.postNotice { s with sju := { s.sju with salesMode := .closed } }
        (.salesMode .closed) : State) = v at slots ⊢
  exact allWithdrawn_of_before (fun i => slots ▸ .same _) (allWithdrawn_of_slots fun i => .same _)

theorem salesModeOf_closed (h : s.salesClosed = true ∨ s.fqu.active = none) : s.salesModeOf = .closed := by
  refine if_pos ?_
  rcases h with closed | none
  · exact .inr (.inr (.inl closed))
  · exact .inr (.inl none)

theorem deriveSalesMode_closed (h : s.salesModeOf = .closed) :
    OnlyDesk { s with sju := { s.sju with salesMode := .closed } } s.deriveSalesMode
      ∧ (s.sju.salesMode ≠ .closed → AllWithdrawn s s.deriveSalesMode) := by
  unfold State.deriveSalesMode
  rw [h]
  exact ⟨setSalesMode_desk s .closed, setSalesMode_closed⟩

theorem setSalesClosed_same {closed : Bool} (h : s.salesClosed = closed) :
    s.setSalesClosed closed = s := if_pos h

theorem setSalesClosed_other {closed : Bool} (h : s.salesClosed ≠ closed) :
    s.setSalesClosed closed = State.deriveSalesMode { s with salesClosed := closed } := if_neg h

end

/-! ## The tables cleared -/

theorem mapCalls_empty {s : State} (none : s.tts.current = []) (f : Call → Call) : s.mapCalls f = s := by
  have tts : (s.mapCalls f).tts = s.tts := by
    rw [State.mapCalls_tts, none]
    have := congrArg (fun c : List Call => { s.tts with current := c }) none
    exact this.symm
  exact congrArg (fun t : Tts => { s with tts := t }) tts

theorem rederive_empty {s : State} (none : s.tts.current = []) (f : Call → Call) : s.rederive f = s := by
  unfold State.rederive
  rw [mapCalls_empty none, none]
  rfl

/-- With no call in CURRENT a switch is told to the FQU and the BDC alone (R90). -/
theorem announceSwitch_empty {s : State} (none : s.tts.current = []) :
    OnlyDesk s.deriveLamps s.announceSwitch := by
  have cutoffs : s.testCutoffs = s.deriveLamps := by
    unfold State.testCutoffs State.keys
    rw [none]
    rfl
  unfold State.announceSwitch State.rederiveAll
  rw [rederive_empty none, cutoffs]
  exact (invalidate_desk _ _).trans (compose_desk _)

section
variable {s : State}

theorem clearBanks_parts (s : State) : s.clearBanks.tts = s.tts.clear ∧ s.clearBanks.sju
      = { s.sju with quotesHeld := s.clearBanks.sju.quotesHeld }
    ∧ s.clearBanks.fqu = { s.fqu with slots := s.clearBanks.fqu.slots, ctr := s.clearBanks.fqu.ctr }
    ∧ (∀ i : Fin 4, SlotFollows s.fqu.slots[i] s.clearBanks.fqu.slots[i]) := by
  have desk := announceSwitch_empty (s := { s with tts := s.tts.clear }) rfl
  have turns := clearBanks_turns s
  exact ⟨desk.tts, desk.sju, desk.fqu, turns.slots⟩

/-- The fare tables gone (R177). -/
def fareless (s : State) : State :=
  { s with fqu := { s.fqu with active := none, pendingTable := none, schedule := none } }

theorem clearFares_parts (s : State) :
    OnlyDesk { fareless s with sju := { s.sju with salesMode := .closed } } s.clearFares
      ∧ AllWithdrawn s s.clearFares := by
  have desk := invalidate_desk (fareless s) fun _ => true
  have none : (fareless s).invalidateAll.fqu.active = none := (congrArg Fqu.active desk.fqu :)
  obtain ⟨closed, _⟩ := deriveSalesMode_closed (salesModeOf_closed (.inr none))
  have slots := (deriveSalesMode_announces (fareless s).invalidateAll).toTrades.slots
  change OnlyDesk _ s.clearFares at closed
  change ∀ i, SlotFollows _ s.clearFares.fqu.slots[i] at slots
  refine ⟨?_, ?_⟩
  · change OnlyDesk (fareless s) (fareless s).invalidateAll at desk
    generalize (fareless s).invalidateAll = u at desk closed
    refine OnlyDesk.trans ?_ closed
    unfold OnlyDesk deskFrame at *
    have := congrArg (fun x : State => { x with sju := { x.sju with salesMode := .closed } }) desk
    exact this
  · exact allWithdrawn_of_slots (s := fareless s) slots

/-- The boards keep their messages, those valid, and the loads that found no room. -/
structure SameNotes (a b : Bdc) : Prop where
  messages : b.messages = a.messages
  valid : b.valid = a.valid
  full : b.ctr.full = a.ctr.full

theorem SameNotes.refl (a : Bdc) : SameNotes a a := ⟨rfl, rfl, rfl⟩

theorem SameNotes.trans {a b c : Bdc} (h : SameNotes a b) (k : SameNotes b c) : SameNotes a c :=
  ⟨k.messages.trans h.messages, k.valid.trans h.valid, k.full.trans h.full⟩

theorem SameShow.notes {a b : Bdc} (h : SameShow a b) : SameNotes a b := ⟨h.messages, h.valid, h.full⟩

theorem compose_notes (s : State) : SameNotes s.bdc s.compose.bdc :=
  SameNotes.trans (b := s.composeRows.bdc) ⟨rfl, rfl, rfl⟩
    ((darkTest_same s.composeRows .none).trans (stateLinkStart_same _)).notes

theorem withdrawSlot_notes (s : State) (i : Fin 4) : SameNotes s.bdc (s.withdrawSlot i).bdc :=
  (postNotice_same ((s.setSlot i .free).modFquCtr fun c => { c with withdrawn := tally c.withdrawn })
    (.quoteWithdrawn i)).notes

theorem invalidateSlot_notes (hit : Quote → Bool) (s : State) (i : Fin 4) :
    SameNotes s.bdc (s.invalidateSlot hit i).bdc := by
  unfold State.invalidateSlot
  split
  · exact .refl _
  · exact .refl _
  · split
    · exact withdrawSlot_notes s i
    · exact .refl _
  · split
    · exact ⟨rfl, rfl, rfl⟩
    · exact .refl _

theorem invalidate_notes (s : State) (hit : Quote → Bool) : SameNotes s.bdc (s.invalidate hit).bdc := by
  have all (is : List (Fin 4)) (s : State) :
      SameNotes s.bdc (is.foldl (State.invalidateSlot hit) s).bdc := by
    induction is generalizing s with
    | nil => exact .refl _
    | cons i is ih => exact (invalidateSlot_notes hit s i).trans (ih _)
  exact all allSlots s

theorem evaluateMessages_boards (s : State) : s.evaluateMessages.bdc.messages = s.bdc.messages
    ∧ s.evaluateMessages.bdc.valid = s.validMessages
    ∧ s.evaluateMessages.bdc.ctr.full = s.bdc.ctr.full := by
  unfold State.evaluateMessages
  dsimp only
  split
  · next same => exact ⟨rfl, same.symm, rfl⟩
  · generalize e : ({ s with bdc := { s.bdc with
      valid := s.validMessages, held := heldCodes s.validMessages } } : State) = u
    have notes := (((invalidate_notes u fun q =>
      decide (q.destination ∈ codesAdded s.bdc.held (heldCodes s.validMessages))).trans
      (compose_notes _)).trans (darkTest_same _ .none).notes).trans (stateLinkStart_same _).notes
    obtain ⟨messages, valid, full⟩ := notes
    subst e
    exact ⟨messages, valid, full⟩

/-- The boards as new messages leave them (R132). -/
theorem setMessages_boards (s : State) (ms : Vector (Option Message) 8) :
    (s.setMessages ms).bdc.messages = ms
      ∧ (s.setMessages ms).bdc.valid = (ms.toList.filterMap id).filter s.messageValid := by
  obtain ⟨messages, valid, _⟩ := evaluateMessages_boards { s with bdc := { s.bdc with messages := ms } }
  obtain ⟨messages', valid', _⟩ := compose_notes
    (State.evaluateMessages { s with bdc := { s.bdc with messages := ms } })
  exact ⟨messages'.trans messages, valid'.trans valid⟩

theorem setMessages_onlyTrade (s : State) (ms : Vector (Option Message) 8) :
    OnlyTrade s (s.setMessages ms) := (setMessages_announces s ms).toTrades.onlyTrade

theorem onlyTrade_trans {s t u : State} (h : OnlyTrade s t) (k : OnlyTrade t u) : OnlyTrade s u := by
  unfold OnlyTrade at *
  rw [h] at k
  exact k

/-- CTRL CLEAR_TABLES (R90, R131, R177). -/
structure TablesCleared (s t : State) : Prop where
  tts : t.tts = s.tts.clear
  active : t.fqu.active = none
  pendingTable : t.fqu.pendingTable = none
  schedule : t.fqu.schedule = none
  activations : t.fqu.activations = s.fqu.activations
  withdrawn : AllWithdrawn s t
  messages : ∀ i : Fin 8, t.bdc.messages[i] = none
  valid : t.bdc.valid = []
  sju : t.sju = { s.sju with salesMode := .closed, quotesHeld := t.sju.quotesHeld }
  only : OnlyTrade s t

theorem clearTables (s : State) : TablesCleared s s.clearBanks.clearFares.clearMessages := by
  obtain ⟨tts, sju, fqu, before⟩ := clearBanks_parts s
  have banks : OnlyTrade s s.clearBanks := (clearBanks_turns s).onlyTrade
  generalize s.clearBanks = u at *
  obtain ⟨desk, withdrawn⟩ := clearFares_parts u
  have fares : OnlyTrade u u.clearFares := (clearFares_settles u).onlyTrade
  generalize u.clearFares = v at *
  have last := setMessages_desk v (Vector.replicate 8 none)
  obtain ⟨messages, valid⟩ := setMessages_boards v (Vector.replicate 8 none)
  have slots := (setMessages_announces v (Vector.replicate 8 none)).toTrades.slots
  have only := setMessages_onlyTrade v (Vector.replicate 8 none)
  change TablesCleared s (v.setMessages (Vector.replicate 8 none))
  generalize v.setMessages (Vector.replicate 8 none) = t at *
  have first : v.fqu = { (fareless u).fqu with slots := v.fqu.slots, ctr := v.fqu.ctr } := desk.fqu
  have kept : t.fqu = { v.fqu with slots := t.fqu.slots, ctr := t.fqu.ctr } := last.fqu
  rw [first] at kept
  obtain ⟨open_, marked⟩ := withdrawn
  refine ⟨last.tts.trans (desk.tts.trans tts), (congrArg Fqu.active kept :),
    (congrArg Fqu.pendingTable kept :), (congrArg Fqu.schedule kept :), ?_, ?_, fun i => ?_, ?_, ?_,
    onlyTrade_trans (onlyTrade_trans banks fares) only⟩
  · have same : t.fqu.activations = u.fqu.activations := (congrArg Fqu.activations kept :)
    exact same.trans (congrArg Fqu.activations fqu :)
  · refine allWithdrawn_of_before before ⟨NoneOpen.of_slots open_ slots, fun i q w pending => ?_⟩
    exact pendingAuth_of_follows (slots i) (marked i q w pending)
  · rw [messages]
    simp
  · rw [valid]
    rfl
  · have one := last.sju
    rw [desk.sju, sju] at one
    exact one

/-! ## A port restarted -/

theorem onlyTrade_of_onlyLink {p : Port} {s t : State} (h : OnlyLink p s t) : t = { s with
    up := t.up, down := t.down, tts := t.tts, sru := t.sru, bdc := t.bdc, fqu := t.fqu, sju := t.sju
    tpi := t.tpi } := by
  cases p with
  | up =>
    unfold OnlyLink at h
    dsimp only at h
    rw [h]
  | down =>
    unfold OnlyLink at h
    dsimp only at h
    rw [h]

/-- A port's entry into HUNT (R17, R20). -/
theorem enterHunt_parts (s : State) (p : Port) :
    let lp := if (s.port p).lsu.state = .service then (s.port p).toHunt.flush else (s.port p).toHunt
    txFrameOf ((s.enterHunt p).port p) = txFrameOf lp
      ∧ s.enterHunt p = { s with
          up := (s.enterHunt p).up, down := (s.enterHunt p).down, tts := (s.enterHunt p).tts
          sru := (s.enterHunt p).sru, bdc := (s.enterHunt p).bdc, fqu := (s.enterHunt p).fqu
          sju := (s.enterHunt p).sju, tpi := (s.enterHunt p).tpi } := by
  have ports := huntState_onlyPorts s p
  have hunt := huntState_port s p
  have link := onlyTrade_of_onlyLink (leaveIf_onlyLink (huntState s p) (s.port p).lsu.state p)
  have port := leaveIf_port (huntState s p) (s.port p).lsu.state p
  rw [← enterHunt_eq] at link port
  intro lp
  refine ⟨?_, ?_⟩
  · rw [port]
    split
    · next serving =>
      have e : lp = (s.port p).toHunt.flush := if_pos serving
      rw [e]
      have flushed := congrArg LinePort.flush hunt
      exact flushed
    · next out =>
      have e : lp = (s.port p).toHunt := if_neg out
      rw [e]
      exact hunt
  · unfold OnlyPorts at ports
    rw [ports] at link
    exact link

end

end Sys2Proof.Proofs
end

