-- ==== Sys2Proof/Proofs/Queries.lean ====
section
/-! What a CTRL and a QUERY for the halt do (11.3, 11.4; R176, R177). -/

namespace Sys2Proof.Proofs

open Sys2Proof.Machine Sys2Proof.Safety Sys2Proof.Laws

/-! ## CTRL -/

section
variable {s : State} {f : RxFrame} {rest : List RxFrame}

theorem takeCtrl_none {bs : List Byte} (h : Command.ofPayload bs = none) (pins : StrapPins) :
    s.takeCtrl pins bs = { s with mgu := { s.mgu with ctrlForm := tally s.mgu.ctrlForm } } := by
  unfold State.takeCtrl
  rw [h]

/-- CTRL SALES_CLOSE of open sales (R154, R177). -/
theorem salesClose_acts (open_ : s.salesClosed = false) : ∃ t, s.setSalesClosed true = t
    ∧ t.salesClosed = true
    ∧ t.sju = { s.sju with salesMode := .closed, quotesHeld := t.sju.quotesHeld }
    ∧ (s.sju.salesMode ≠ .closed → AllWithdrawn s t)
    ∧ OnlyTrade { s with salesClosed := true } t := by
  have e := setSalesClosed_other (s := s) (closed := true) (by rw [open_]; exact nofun)
  obtain ⟨desk, withdrawn⟩ := deriveSalesMode_closed (s := { s with salesClosed := true })
    (salesModeOf_closed (.inl rfl))
  have only := (deriveSalesMode_announces { s with salesClosed := true }).toTrades.onlyTrade
  rw [e]
  generalize State.deriveSalesMode { s with salesClosed := true } = t at *
  exact ⟨t, rfl, (congrArg State.salesClosed desk :), desk.sju, withdrawn, only⟩

/-- CTRL SALES_OPEN of closed sales (R154, R177). -/
theorem salesOpen_acts (closed : s.salesClosed = true) : ∃ t, s.setSalesClosed false = t
    ∧ t.salesClosed = false ∧ t.sju.salesMode = t.salesModeOf ∧ t.sju.journal = s.sju.journal
    ∧ OnlyTrade { s with salesClosed := false } t := by
  have e := setSalesClosed_other (s := s) (closed := false) (by rw [closed]; exact nofun)
  have mode := deriveSalesMode_true { s with salesClosed := false }
  have trades := (deriveSalesMode_announces { s with salesClosed := false }).toTrades
  rw [e]
  generalize State.deriveSalesMode { s with salesClosed := false } = t at *
  exact ⟨t, rfl, (congrArg State.salesClosed trades.frame :), mode, trades.journal, trades.onlyTrade⟩

theorem ctrlActs (own : OwnFrame s f rest 5#8) (pins : StrapPins) (x : Byte) :
    CtrlActs s rest pins f.payload x := by
  refine ⟨fun none => ?_, fun close => ⟨fun closed => ?_, fun open_ => ?_⟩,
    fun open_ => ⟨fun opened => ?_, fun closed => ?_⟩, fun lost => ?_, fun clear => ?_⟩
  · exact (exec_ctrl own pins).trans (congrArg _ (takeCtrl_none none pins))
  · exact (exec_command own (c := .salesClose) (by rw [close]; rfl) pins).trans
      (congrArg _ (setSalesClosed_same (s := freed s rest) closed))
  · obtain ⟨t, e, facts⟩ := salesClose_acts (s := freed s rest) open_
    exact ⟨t, (exec_command own (c := .salesClose) (by rw [close]; rfl) pins).trans (congrArg _ e), facts⟩
  · exact (exec_command own (c := .salesOpen) (by rw [open_]; rfl) pins).trans
      (congrArg _ (setSalesClosed_same (s := freed s rest) opened))
  · obtain ⟨t, e, facts⟩ := salesOpen_acts (s := freed s rest) closed
    exact ⟨t, (exec_command own (c := .salesOpen) (by rw [open_]; rfl) pins).trans (congrArg _ e), facts⟩
  · exact exec_command own (c := .clearJournalLost) (by rw [lost]; rfl) pins
  · have cleared := clearTables (freed s rest)
    refine ⟨_, exec_command own (c := .clearTables) (by rw [clear]; rfl) pins, ?_⟩
    exact ⟨cleared.tts, cleared.active, cleared.pendingTable, cleared.schedule, cleared.activations,
      cleared.withdrawn, cleared.messages, cleared.valid, cleared.sju, cleared.only⟩

/-! ## PORT_RESTART -/

theorem restartPort_off {p : Port} (off : (s.port p).lsu.state = .off) : s.restartPort p = s := if_pos off

theorem restartPort_live {p : Port} (live : (s.port p).lsu.state ≠ .off) :
    s.restartPort p = (s.modPort p fun lp => { lp with buffers := [] }).enterHunt p := if_neg live

theorem freed_port (s : State) (rest : List RxFrame) (p : Port) :
    ((freed s rest).port p).lsu = (s.port p).lsu ∧ ((freed s rest).port p).ctr = (s.port p).ctr
      ∧ ((freed s rest).port p).fruCtr = (s.port p).fruCtr
      ∧ ((freed s rest).port p).queue = (s.port p).queue := by
  cases p <;> exact ⟨rfl, rfl, rfl, rfl⟩

theorem toHunt_parts (lp : LinePort) : lp.toHunt.buffers = lp.buffers ∧ lp.toHunt.rx = .seek
    ∧ lp.toHunt.octetCount = 0 ∧ lp.toHunt.ctr = lp.ctr ∧ lp.toHunt.fruCtr = lp.fruCtr
    ∧ lp.toHunt.queue = lp.queue := by
  unfold LinePort.toHunt LinePort.startSearch
  split <;> exact ⟨rfl, rfl, rfl, rfl, rfl, rfl⟩

/-- A port in HUNT, flushed if it was in SERVICE (R20, R34). -/
theorem hunting_parts {lp m : LinePort} (h : txFrameOf m
      = txFrameOf (if lp.lsu.state = .service then lp.toHunt.flush else lp.toHunt)) :
    m.buffers = lp.buffers ∧ m.rx = .seek ∧ m.octetCount = 0 ∧ m.ctr = lp.ctr ∧ m.lsu = lp.lsu.toHunt
      ∧ (lp.lsu.state = .service → m.queue = []
        ∧ m.fruCtr.flushed = satAdd lp.fruCtr.flushed lp.queue.length) := by
  obtain ⟨buffers, rx, octets, ctr, fruCtr, queue⟩ := toHunt_parts lp
  split at h
  · refine ⟨(congrArg LinePort.buffers h :).trans buffers, (congrArg LinePort.rx h :).trans rx,
      (congrArg LinePort.octetCount h :).trans octets, (congrArg LinePort.ctr h :).trans ctr,
      (congrArg LinePort.lsu h :), fun _ => ⟨(congrArg LinePort.queue h :), ?_⟩⟩
    rw [← fruCtr, ← queue]
    exact (congrArg (fun x : LinePort => x.fruCtr.flushed) h :)
  · next out =>
    exact ⟨(congrArg LinePort.buffers h :).trans buffers, (congrArg LinePort.rx h :).trans rx,
      (congrArg LinePort.octetCount h :).trans octets, (congrArg LinePort.ctr h :).trans ctr,
      (congrArg LinePort.lsu h :), fun serving => absurd serving out⟩

/-- A port restarted (R17, R34). -/
theorem restartPort_acts {p : Port} (live : (s.port p).lsu.state ≠ .off) :
    ∃ t, s.restartPort p = t ∧ (t.port p).buffers = [] ∧ (t.port p).rx = .seek
      ∧ (t.port p).octetCount = 0 ∧ (t.port p).ctr = (s.port p).ctr
      ∧ (t.port p).lsu = (s.port p).lsu.toHunt
      ∧ ((s.port p).lsu.state = .service → (t.port p).queue = []
        ∧ (t.port p).fruCtr.flushed
            = satAdd (s.port p).fruCtr.flushed (s.port p).queue.length)
      ∧ t = { s with
          up := t.up, down := t.down, tts := t.tts, sru := t.sru, bdc := t.bdc, fqu := t.fqu
          sju := t.sju, tpi := t.tpi } := by
  obtain ⟨port, frame⟩ := enterHunt_parts (s.modPort p fun lp => { lp with buffers := [] }) p
  have same : (s.modPort p fun lp => { lp with buffers := [] }).port p
      = { s.port p with buffers := [] } := modPort_port _ _ _
  rw [restartPort_live live]
  refine ⟨_, rfl, ?_⟩
  have only := setPort_onlyPorts s p { s.port p with buffers := [] }
  rw [← State.modPort_eq s p fun lp => { lp with buffers := [] }] at only
  rw [same] at port
  generalize (s.modPort p fun lp => { lp with buffers := [] }) = u at *
  generalize u.enterHunt p = t at *
  obtain ⟨buffers, rx, octets, ctr, lsu, flushed⟩ := hunting_parts port
  refine ⟨buffers, rx, octets, ctr, lsu, flushed, ?_⟩
  unfold OnlyPorts at only
  rw [only] at frame
  exact frame

theorem restartActs (own : OwnFrame s f rest 5#8) (pins : StrapPins) {p : Port}
    (h : Command.ofPayload f.payload = some (.portRestart p)) : RestartActs s rest pins p := by
  obtain ⟨lsu, ctr, fruCtr, queue⟩ := freed_port s rest p
  refine ⟨fun off => ?_, fun live => ?_⟩
  · exact (exec_command own h pins).trans
      (congrArg _ (restartPort_off (s := freed s rest) (by rw [lsu]; exact off)))
  · obtain ⟨t, e, facts⟩ := restartPort_acts (s := freed s rest) (p := p) (by rw [lsu]; exact live)
    rw [lsu, ctr, fruCtr, queue] at facts
    exact ⟨t, (exec_command own h pins).trans (congrArg _ e), facts⟩

/-! ## QUERY -/

theorem exec_query (own : OwnFrame s f rest 4#8) (pins : StrapPins) :
    exec (.frameClassify .up pins) s = .next ((freed s rest).takeQuery f.payload) :=
  exec_ownFrame own pins (k := .query) rfl (by decide) rfl

theorem takeQuery_none {bs : List Byte} (h : Query.ofPayload bs = none) :
    s.takeQuery bs = { s with mgu := { s.mgu with queryForm := tally s.mgu.queryForm } } := by
  unfold State.takeQuery
  rw [h]

theorem takeQuery_some {bs : List Byte} {q : Query} (h : Query.ofPayload bs = some q) :
    s.takeQuery bs = s.answerQuery q := by
  unfold State.takeQuery
  rw [h]

theorem offerReply_replied (addressed : s.fru.unaddressed = false) (r : Reply) :
    Replied s (s.offerReply r) r :=
  ⟨fun room => offerOwnUp_queued (k := .reply) addressed room centre (.reply r),
    offerOwnUp_frame s .reply centre (.reply r)⟩

/-- The kind of the REPLY to a request (R176). -/
def replyKind : QueryRequest → ReplyKind
  | .status => .status
  | .counters .. => .counters
  | .call .. => .call
  | .bank => .bank
  | .price .. => .price
  | .config .. => .config

theorem query_kind {bs : List Byte} {n : Byte} {k : ReplyKind} {r : QueryRequest}
    (h : Query.ofPayload bs = some ⟨n, k, some r⟩) : k = replyKind r := by
  have read {c : Prop} [Decidable c] {m : Byte} {j : ReplyKind} {x : Option QueryRequest}
      (e : (if c then some (⟨m, j, x⟩ : Query) else none) = some ⟨n, k, some r⟩) :
      j = k ∧ x = some r := by
    split at e
    · obtain ⟨-, kind, request⟩ := Query.mk.inj (Option.some.inj e)
      exact ⟨kind, request⟩
    · exact absurd e nofun
  unfold Query.ofPayload at h
  dsimp only at h
  split at h
  · obtain ⟨rfl, request⟩ := read h
    rw [← Option.some.inj request]
    rfl
  · obtain ⟨rfl, request⟩ := read h
    split at request
    · rw [← Option.some.inj request]
      rfl
    · exact absurd request nofun
  · obtain ⟨rfl, request⟩ := read h
    split at request
    · exact absurd request nofun
    · obtain ⟨b, _, e⟩ := Option.map_eq_some_iff.mp request
      rw [← e]
      rfl
  · obtain ⟨rfl, request⟩ := read h
    rw [← Option.some.inj request]
    rfl
  · obtain ⟨rfl, request⟩ := read h
    split at request
    · rw [← Option.some.inj request]
      rfl
    · exact absurd request nofun
  · obtain ⟨rfl, request⟩ := read h
    split at request
    · rw [← Option.some.inj request]
      rfl
    · exact absurd request nofun
  · exact absurd h nofun

/-! ## The counters cleared -/

theorem nonUrgent_own (q : List Queued) (x : TxFrame) : nonUrgent (q ++ [⟨.own, x⟩]) = nonUrgent q + 1 := by
  unfold nonUrgent
  rw [List.filter_append, List.length_append]
  rfl

/-- The journal drains without a loss while the queue leaves room for its eight frames (R54). -/
theorem drainUpTo_fruCtr (n : Nat) (few : s.up.queue.length ≤ nonUrgent s.up.queue + 23) :
    (s.drainUpTo n).up.fruCtr = s.up.fruCtr := by
  induction n generalizing s with
  | zero => rfl
  | succ n ih =>
    by_cases builds : (s.drainCondition && s.canBuildJrnl) = true
    · obtain ⟨serving, low⟩ := (drainCondition_iff s).mp ((Bool.and_eq_true _ _).mp builds).1
      have room : Room s.up .own := ⟨serving, by omega, .inr (by omega)⟩
      have e : s.drainUpTo (n + 1) = s.buildJrnl.drainUpTo n :=
        (if_pos builds).trans (if_pos ((admits_iff s.up .own).mpr room))
      have built : s.buildJrnl.up = { s.up with queue := s.up.queue ++ [⟨.own, s.jrnlFrame⟩] } :=
        enqueue_of_room (q := ⟨.own, s.jrnlFrame⟩) room
      rw [e, ih, built]
      rw [built]
      dsimp only
      rw [nonUrgent_own, List.length_append, List.length_singleton]
      omega
    · rw [drainUpTo_succ_of_not n builds]

/-- A REPLY with room about it costs no count (R54). -/
theorem offerReply_counts (addressed : s.fru.unaddressed = false) (room : Room s.up .own)
    (few : s.up.queue.length < 24) (r : Reply) (h : Nat) :
    (s.offerReply r).counterGroup h = s.counterGroup h := by
  have e : s.offerReply r = State.drain { s with up := { s.up with
      queue := s.up.queue ++ [ownQueued s .own 12#8 65535#16 (.reply r)] } } := by
    refine (offerOwn_addressed addressed ..).trans ((if_pos ⟨rfl, (admits_iff s.up .own).mpr room⟩).trans ?_)
    exact congrArg (fun lp : LinePort => State.drain { s with up := lp }) (enqueue_of_room room)
  have kept : (s.offerReply r).up.fruCtr = s.up.fruCtr := by
    rw [e]
    refine drainUpTo_fruCtr _ ?_
    show (s.up.queue ++ [_]).length ≤ nonUrgent (s.up.queue ++ [⟨.own, _⟩]) + 23
    rw [nonUrgent_own, List.length_append, List.length_singleton]
    omega
  have drains := drain_drains ({ s with up := { s.up with
      queue := s.up.queue ++ [ownQueued s .own 12#8 65535#16 (.reply r)] } })
  rw [← e] at drains
  generalize s.offerReply r = t at drains kept
  obtain ⟨js, k, n, x, -, rfl⟩ := drains
  obtain rfl : k = s.up.fruCtr := kept
  rfl

theorem clearGroup_cleared (s : State) (g : Nat) : ∀ v ∈ (s.clearGroup g).counterGroup g, v = 0 := by
  unfold State.clearGroup State.counterGroup
  split <;> simp [LinePort.clearCounters, LinePort.counters, PortCounters.values, LsuCounters.values,
    FruPortCounters.values, HtbCounters.values, TtsCounters.values, SruCounters.values,
    BdcCounters.values, FquCounters.values, SjuCounters.values, TpiCounters.values, MguCounters.values]

theorem clearGroup_others (s : State) {g h : Nat} (other : h ≠ g) :
    (s.clearGroup g).counterGroup h = s.counterGroup h := by
  unfold State.clearGroup
  split
  case h_6 => rfl
  all_goals
    unfold State.counterGroup
    split <;> simp at other ⊢

theorem clearGroup_parts (s : State) (g : Nat) : (s.clearGroup g).fru.unaddressed = s.fru.unaddressed
    ∧ (s.clearGroup g).up.queue = s.up.queue ∧ (s.clearGroup g).up.lsu.state = s.up.lsu.state
    ∧ (s.clearGroup g).own = s.own ∧ (s.clearGroup g).params = s.params := by
  unfold State.clearGroup
  split <;> exact ⟨rfl, rfl, rfl, rfl, rfl⟩

theorem findCall_none {calls : List Call} {k : Key} (h : ∀ x ∈ calls, x.key ≠ k) :
    findCall calls k = none :=
  List.find?_eq_none.mpr fun x mem same => h x mem (beq_iff_eq.mp same)

theorem findCall_first {before after : List Call} {x : Call} {k : Key} (named : x.key = k)
    (first : ∀ y ∈ before, y.key ≠ k) : findCall (before ++ x :: after) k = some x := by
  unfold findCall
  rw [List.find?_append, List.find?_eq_none.mpr fun y mem same => first y mem (beq_iff_eq.mp same),
    Option.none_or]
  exact List.find?_cons_of_pos (beq_iff_eq.mpr named)

theorem callAnswer_none {b : Bank} {k : Key} (h : ∀ x ∈ s.tts.bank b, x.key ≠ k) :
    s.callAnswer b k = (.notFound, .empty) := by
  unfold State.callAnswer
  rw [findCall_none h]

theorem callAnswer_some {b : Bank} {k : Key} {before after : List Call} {x : Call}
    (split : s.tts.bank b = before ++ x :: after) (named : x.key = k)
    (first : ∀ y ∈ before, y.key ≠ k) : s.callAnswer b k = (.found, .call x x.expected) := by
  unfold State.callAnswer
  rw [split, findCall_first named first]

theorem configBody_value {m : Nat} (low : m ≤ 22) (p : Option Port) :
    s.configBody m p = .value (s.params.value m) := by
  have notPort : ¬ perPort m = true := by
    rw [perPort, decide_eq_true_eq]
    omega
  exact (if_neg (by omega)).trans (if_neg notPort)

theorem configBody_port {m : Nat} (low : 22 < m) (high : m ≤ 28) (q : Port) :
    s.configBody m (some q) = .value ((s.params.port q).value m) := by
  have isPort : perPort m = true := by
    rw [perPort, decide_eq_true_eq]
    omega
  exact (if_neg (by omega)).trans (if_pos isPort)

theorem configBody_window (i : Fin 4) (p : Option Port) :
    s.configBody (40 + i.val) p = .window s.fru.windows[i] := by
  refine (if_pos (Nat.le_add_right 40 i.val)).trans ?_
  rw [Nat.add_sub_cancel_left, slotOf, dif_pos i.isLt]
  rfl

/-- A QUERY that clears nothing is answered and leaves the rest (R176). -/
theorem answerQuery_replied (addressed : s.fru.unaddressed = false) {n : Byte} {k : ReplyKind}
    {r : QueryRequest} (keeps : s.afterAnswer r = s) {x : Result × ReplyBody} (answer : s.answer r = x) :
    Replied s (s.answerQuery ⟨n, k, some r⟩) ⟨n, k, x.1, x.2⟩ := by
  have e : s.answerQuery ⟨n, k, some r⟩ = (s.afterAnswer r).offerReply
      ⟨n, k, (s.answer r).1, (s.answer r).2⟩ := rfl
  rw [e, keeps, answer]
  exact offerReply_replied addressed _

/-- QUERY COUNTERS with the clear flag (R176, log entry 39). -/
theorem counters_cleared (addressed : s.fru.unaddressed = false) (n : Byte) (g : Nat)
    (room : Room s.up .own) (few : s.up.queue.length < 24) :
    let t := s.answerQuery ⟨n, .counters, some (.counters g true)⟩
    (∃ js, AllJrnl js ∧ t.up.queue = s.up.queue ++ ownQueued s .own 12#8 65535#16
        (.reply ⟨n, .counters, .ok, .counters (s.counterGroup g)⟩) :: js)
      ∧ (∀ v ∈ t.counterGroup g, v = 0) ∧ ∀ h, h ≠ g → t.counterGroup h = s.counterGroup h := by
  intro t
  have e : t = (s.clearGroup g).offerReply ⟨n, .counters, .ok, .counters (s.counterGroup g)⟩ := rfl
  obtain ⟨fru, queue, state, own, params⟩ := clearGroup_parts s g
  have cleared := clearGroup_cleared s g
  have others (h : Nat) (other : h ≠ g) := clearGroup_others s other
  generalize s.clearGroup g = u at *
  have addressed' : u.fru.unaddressed = false := by rw [fru]; exact addressed
  have room' : Room u.up .own := by
    unfold Room at *
    rw [queue, state]
    exact room
  have counts := offerReply_counts addressed' room' (by rw [queue]; exact few)
    ⟨n, .counters, .ok, .counters (s.counterGroup g)⟩
  obtain ⟨queued, -⟩ := offerReply_replied addressed' ⟨n, .counters, .ok, .counters (s.counterGroup g)⟩
  rw [e]
  refine ⟨?_, fun v mem => ?_, fun h other => ?_⟩
  · obtain ⟨js, jrnls, built⟩ := queued room'
    refine ⟨js, jrnls, built.trans ?_⟩
    unfold ownQueued
    rw [queue, own, params]
  · rw [counts] at mem
    exact cleared v mem
  · rw [counts]
    exact others h other

theorem queryActs (own : OwnFrame s f rest 4#8) (pins : StrapPins) :
    QueryActs s rest pins f.payload := by
  have addressed : (freed s rest).fru.unaddressed = false := own.2.1
  refine ⟨fun none => ?_, fun n k form => ?_, fun n k r form => ?_⟩
  · exact (exec_query own pins).trans (congrArg _ (takeQuery_none none))
  · exact ⟨_, (exec_query own pins).trans (congrArg _ (takeQuery_some form)),
      offerReply_replied addressed _⟩
  · obtain rfl := query_kind form
    refine ⟨_, (exec_query own pins).trans (congrArg _ (takeQuery_some form)), ?_⟩
    have replied := fun keeps x => answerQuery_replied (n := n) (k := replyKind r) (r := r) (x := x)
      addressed keeps
    refine ⟨fun b key is => ?_, fun is => ?_, fun m p is => ?_, fun d type cls time quantity is => ?_,
      fun is => ?_, fun g clear is => ?_⟩
    all_goals subst is
    · refine ⟨fun absent => ?_, fun before after x split named first => ?_⟩
      · exact replied rfl _ (callAnswer_none (s := freed s rest) absent)
      · exact replied rfl _ (callAnswer_some (s := freed s rest) split named first)
    · exact replied rfl _ rfl
    · refine ⟨fun low => ?_, fun q low high is => ?_, fun i is => ?_⟩
      · exact replied rfl _ (congrArg (Prod.mk _) (configBody_value (s := freed s rest) low p))
      · subst is
        exact replied rfl _ (congrArg (Prod.mk _) (configBody_port (s := freed s rest) low high q))
      · subst is
        exact replied rfl _ (congrArg (Prod.mk _) (configBody_window (s := freed s rest) i p))
    · exact replied rfl _ rfl
    · exact replied rfl _ rfl
    · refine ⟨fun keep => ?_, fun clear room few => ?_⟩
      · subst keep
        exact replied rfl _ rfl
      · subst clear
        exact counters_cleared addressed n g room few

end

/-- Settles O48. -/
theorem controlsAndQueriesAct : Obligations.ControlsAndQueriesAct := by
  refine fun s f rest pins => ⟨fun own => ⟨ctrlActs own pins, fun up => ?_, fun down => ?_⟩,
    fun own => queryActs own pins⟩
  · exact restartActs own pins (by rw [up]; rfl)
  · exact restartActs own pins (by rw [down]; rfl)

end Sys2Proof.Proofs
end

