-- ==== Sys2Proof/Proofs/Starting.lean ====
section
/-! The start-up sequence before the part serves: no slot is taken, no frame leaves and the boards warm
up, so that what is announced changes calls, lamps, rows and notices alone (11.5; R178). -/

namespace Sys2Proof.Proofs

open Sys2Proof.Machine Sys2Proof.Safety Sys2Proof.Laws

/-- A part as it starts. -/
structure Booting (s : State) : Prop where
  free : SlotsFree s
  out : s.up.lsu.state ≠ .service
  warm : s.bdc.warmUp.isRunning = true

/-- What the announcements of a start may change. -/
def Boots (s t : State) : Prop := t = { s with
  tts := t.tts, sru := t.sru
  bdc := { s.bdc with
    one := t.bdc.one, two := t.bdc.two, three := t.bdc.three, valid := t.bdc.valid, held := t.bdc.held }
  tpi := { s.tpi with ring := t.tpi.ring, overflow := t.tpi.overflow } }

theorem Boots.refl (s : State) : Boots s s := rfl

theorem Boots.trans {s t u : State} (h : Boots s t) (k : Boots t u) : Boots s u := by
  unfold Boots at *
  rw [h] at k
  exact k

theorem Boots.booting {s t : State} (h : Boots s t) (b : Booting s) : Booting t := by
  unfold Boots at h
  rw [h]
  exact ⟨b.free, b.out, b.warm⟩

theorem Boots.ite {c : Prop} [Decidable c] {s t u : State} (h : Boots s t) (k : Boots s u) :
    Boots s (if c then t else u) := by
  split
  · exact h
  · exact k

theorem Boots.foldl {α : Type} {f : State → α → State} (h : ∀ s a, Booting s → Boots s (f s a))
    (as : List α) {s : State} (b : Booting s) : Boots s (as.foldl f s) := by
  induction as generalizing s with
  | nil => exact .refl s
  | cons a as ih =>
    have one := h s a b
    exact one.trans (ih (one.booting b))

section
variable {s : State} (b : Booting s)
include b

theorem Booting.darkTest (r : WakeCause) : s.darkTest r = s := darkTest_warm b.warm

theorem Booting.linkStart : s.linkStart = s :=
  congrArg (fun x : Bdc => { s with bdc := x }) (linkStart_idle (.inr (.inr b.warm)))

theorem Booting.compose : Boots s s.compose := by
  have rows : Boots s s.composeRows := rfl
  have e : s.compose = s.composeRows := by
    unfold State.compose
    rw [(rows.booting b).darkTest, (rows.booting b).linkStart]
  exact e ▸ rows

theorem Booting.postNotice (n : Notice) : Boots s (s.postNotice n) := by
  have ring : Boots s { s with tpi := { s.tpi with ring := s.tpi.ring ++ [n] } } := rfl
  unfold State.postNotice State.setRing
  dsimp only
  rw [(ring.booting b).darkTest, (ring.booting b).linkStart, ite_self]
  exact .ite ring rfl

theorem Booting.invalidate (hit : Quote → Bool) : s.invalidate hit = s := by
  have slot (i : Fin 4) : s.invalidateSlot hit i = s := by
    unfold State.invalidateSlot
    rw [b.free i]
  have all (is : List (Fin 4)) : is.foldl (State.invalidateSlot hit) s = s := by
    induction is with
    | nil => rfl
    | cons i is ih => rw [List.foldl_cons, slot, ih]
  exact all allSlots

theorem Booting.cutoffQuotes : s.cutoffQuotes = s := by
  have slot (i : Fin 4) : s.cutoffSlot i = s := by
    unfold State.cutoffSlot
    rw [b.free i]
  have all (is : List (Fin 4)) : is.foldl State.cutoffSlot s = s := by
    induction is with
    | nil => rfl
    | cons i is ih => rw [List.foldl_cons, slot, ih]
  exact all allSlots

theorem Booting.drain : s.drain = s := drain_idle (.inl b.out)

theorem Booting.announceStop (k : Key) (x y : StopState) : Boots s (s.announceStop k x y) := by
  have lamps : Boots s s.deriveLamps := rfl
  have composed : Boots s (if x = y then s.deriveLamps else s.deriveLamps.compose) :=
    .ite lamps (lamps.trans (lamps.booting b).compose)
  unfold State.announceStop
  exact .ite (composed.trans ((composed.booting b).postNotice _)) composed

theorem Booting.changeStop (c : Call) (f : Call → Call) : Boots s (s.changeStop c f) := by
  have changed : Boots s (s.modCall c.key f) := rfl
  exact changed.trans ((changed.booting b).announceStop _ _ _)

theorem Booting.trySend (k : Key) : s.trySend k = s := by
  unfold State.trySend
  split
  · exact if_neg fun may => b.out ((maySend_iff s _).mp may).2.2.1
  · rfl

theorem Booting.testCutoff (k : Key) : Boots s (s.testCutoff k) := by
  unfold State.testCutoff
  split
  · exact .refl s
  · next c _ =>
    have wanted := b.changeStop c fun c => { c with stop := .wanted }
    rw [(wanted.booting b).trySend]
    exact .ite (.refl s) (.ite (b.changeStop c _) (.ite wanted (.refl s)))

theorem Booting.testCutoffs : Boots s s.testCutoffs :=
  Boots.trans (Boots.foldl (fun _ k b => b.testCutoff k) s.keys b) rfl

theorem Booting.announceForecast (k : Key) : Boots s (s.announceForecast k) := by
  have lamps : Boots s (s.testCutoff k).deriveLamps := (b.testCutoff k).trans rfl
  unfold State.announceForecast
  rw [(lamps.booting b).cutoffQuotes]
  exact lamps.trans (lamps.booting b).compose

theorem Booting.rederive (f : Call → Call) : Boots s (s.rederive f) := by
  have mapped : Boots s (s.mapCalls f) := rfl
  exact mapped.trans (.foldl (fun _ k b => b.announceForecast k) _ (mapped.booting b))

theorem Booting.stopsOnCall (k : Key) : Boots s (s.stopsOnCall k) := by
  unfold State.stopsOnCall
  refine Boots.trans ?_ (rfl : Boots _ (State.deriveLamps _))
  split
  · exact .refl s
  · exact .ite (b.testCutoff k) rfl

theorem Booting.announceState (k : Key) : Boots s (s.announceState k) := by
  have told : Boots s ((s.rederiveCall k).stopsOnCall k) :=
    (b.rederive _).trans (((b.rederive _).booting b).stopsOnCall k)
  unfold State.announceState State.invalidateNaming
  dsimp only
  rw [(told.booting b).invalidate, ite_self]
  exact told.trans (told.booting b).compose

theorem Booting.setCallState (k : Key) (st : CallState) : Boots s (s.setCallState k st) := by
  have changed : Boots s (s.modCall k fun c => { c with state := st }) := rfl
  exact changed.trans ((changed.booting b).announceState k)

theorem Booting.expireCalls : Boots s s.expireCalls := by
  refine .foldl (fun s k b => ?_) s.keys b
  unfold State.expireCall
  split
  · exact .ite (b.setCallState k _) (.refl s)
  · exact .refl s

theorem Booting.evaluateMessages : Boots s s.evaluateMessages := by
  have judged : Boots s { s with bdc := { s.bdc with
    valid := s.validMessages, held := heldCodes s.validMessages } } := rfl
  have composed := judged.trans (judged.booting b).compose
  unfold State.evaluateMessages
  dsimp only
  rw [(judged.booting b).invalidate, (composed.booting b).darkTest, (composed.booting b).linkStart]
  exact .ite (.refl s) composed

end

end Sys2Proof.Proofs
end

