-- ==== Sys2Proof/Proofs/Restarts.lean ====
section
/-! What a start makes of each call: expiry and the stop requests (11.5; R87, R91, R121, R178). -/

namespace Sys2Proof.Proofs

open Sys2Proof.Machine Sys2Proof.Safety Sys2Proof.Laws

/-! ## Calls ended one by one -/

section
variable {s : State} {k : Key} {c : Call}

theorem announceForecasts_tts (ks : List Key) (only : ∀ x ∈ ks, x = k) (named : s.call k = some c)
    (ended : c.isRunning = false) : (ks.foldl State.announceForecast s).tts = s.tts := by
  induction ks generalizing s with
  | nil => rfl
  | cons x ks ih =>
    obtain rfl : x = k := only x List.mem_cons_self
    have first : (s.announceForecast x).tts = s.tts := by
      unfold State.announceForecast
      rw [testCutoff_ended named ended]
      exact (compose_tts _).trans (cutoffQuotes_desk _).tts
    exact (ih (fun y mem => only y (List.mem_cons_of_mem _ mem))
      ((call_of_tts first x).trans named)).trans first

theorem modCall_tts {t : State} (h : t.tts = s.tts) (k : Key) (f : Call → Call) :
    (t.modCall k f).tts = (s.modCall k f).tts :=
  congrArg (fun x : Tts => { x with
    current := x.current.map fun c : Call => if c.key = k then f c else c }) h

theorem announceState_ended_tts (named : s.call k = some c) (ended : c.isRunning = false) :
    (s.announceState k).tts = ((derived s k).modCall k Call.freeze).tts := by
  have still : (s.deriveCall c).isRunning = false := (deriveCall_sameCall s c).isRunning.trans ended
  have told : (s.rederiveCall k).tts = (derived s k).tts := announceForecasts_tts _
    (changedKeys_of_map (deriveIf_key s k) (fun x other => if_neg other) s.tts.current)
    (derived_named named) still
  have named' : (s.rederiveCall k).call k = some (s.deriveCall c) :=
    (call_of_tts told k).trans (derived_named named)
  have frozen : ((s.rederiveCall k).stopsOnCall k).tts = ((derived s k).modCall k Call.freeze).tts := by
    rw [stopsOnCall_ended named' still]
    exact modCall_tts told k Call.freeze
  unfold State.announceState
  dsimp only
  generalize (s.rederiveCall k).stopsOnCall k = u at frozen ⊢
  rw [compose_tts]
  split
  · exact frozen
  · exact (invalidate_desk u _).tts.trans frozen

/-- One call of a key ended, the others as they were (R87). -/
def EndsOne (k : Key) (st : CallState) (c d : Call) : Prop :=
  (c.key ≠ k → d = c) ∧ (c.key = k → EndedAs st c d)

theorem endedAs_derived (s : State) (c : Call) {st : CallState}
    (ended : st = .departed ∨ st = .cancelled ∨ st = .expired) :
    EndedAs st c (s.deriveCall { c with state := st }).freeze := by
  have kept := deriveCall_sameCall s { c with state := st }
  obtain ⟨stop, cause, _, _⟩ := deriveCall_stop s { c with state := st }
  exact ⟨kept.state, kept.loaded, kept.report,
    deriveCall_ended s (isRunning_false (c := { c with state := st }) ended), stop, cause, rfl⟩

/-- A call ended by its key (R87). -/
def endOne (s : State) (k : Key) (st : CallState) (c : Call) : Call :=
  if c.key = k then
    ((s.modCall k fun c => { c with state := st }).deriveCall { c with state := st }).freeze
  else c

theorem setCallState_exact (named : s.call k = some c) {st : CallState}
    (ended : st = .departed ∨ st = .cancelled ∨ st = .expired) :
    (s.setCallState k st).tts = { s.tts with current := (s.setCallState k st).tts.current }
      ∧ List.Forall₂ (EndsOne k st) s.tts.current (s.setCallState k st).tts.current := by
  have named' : (s.modCall k fun c => { c with state := st }).call k = some { c with state := st } :=
    modCall_named named fun _ => rfl
  have tts := announceState_ended_tts named' (isRunning_false ended)
  change (s.setCallState k st).tts = _ at tts
  have calls : ((derived (s.modCall k fun c => { c with state := st }) k).modCall k
      Call.freeze).tts.current = s.tts.current.map (endOne s k st) := by
    show ((s.tts.current.map fun c => if c.key = k then { c with state := st } else c).map fun c =>
      if c.key = k then (s.modCall k fun c => { c with state := st }).deriveCall c else c).map (fun c =>
      if c.key = k then c.freeze else c) = _
    rw [List.map_map, List.map_map]
    refine List.map_congr_left fun x _ => ?_
    rw [Function.comp_apply, Function.comp_apply, endOne]
    by_cases same : x.key = k
    · have key (y : Call) (h : y.key = x.key) : y.key = k := h.trans same
      rw [if_pos same, if_pos same, if_pos (key { x with state := st } rfl),
        if_pos (key _ (deriveCall_stop _ { x with state := st }).2.2.2)]
    · rw [if_neg same, if_neg same, if_neg same, if_neg same]
  rw [tts]
  refine ⟨rfl, ?_⟩
  rw [calls, List.forall₂_map_right_iff, List.forall₂_same]
  intro x _
  rw [endOne]
  by_cases same : x.key = k
  · rw [if_pos same]
    exact ⟨fun other => absurd same other, fun _ => endedAs_derived _ x ended⟩
  · rw [if_neg same]
    exact ⟨fun _ => rfl, fun is => absurd is same⟩

end

/-! ## Expiry, exactly -/

/-- A call after the expiry of those of some keys: ended, or as it was (R87). -/
def ExpiresTo (s : State) (ks : List Key) (c d : Call) : Prop :=
  (c.key ∈ ks → Overtime s c → EndedAs .expired c d) ∧ (¬ (c.key ∈ ks ∧ Overtime s c) → d = c)

/-- A bank with other calls. -/
def SameBank (a b : Tts) : Prop := b = { a with current := b.current }

theorem SameBank.trans {a b c : Tts} (h : SameBank a b) (k : SameBank b c) : SameBank a c := by
  unfold SameBank at *
  rw [h] at k
  exact k

theorem expireCall_exact {s : State} (unique : s.keys.Nodup) (k : Key) :
    SameBank s.tts (s.expireCall k).tts
      ∧ List.Forall₂ (ExpiresTo s [k]) s.tts.current (s.expireCall k).tts.current := by
  have stays (within : ∀ c ∈ s.tts.current, c.key = k → ¬ Overtime s c) :
      List.Forall₂ (ExpiresTo s [k]) s.tts.current s.tts.current :=
    forall₂_self fun c mem => ⟨fun is late => absurd late (within c mem (List.mem_singleton.mp is)),
      fun _ => rfl⟩
  have only {x : Call} (found : s.call k = some x) (c : Call) (mem : c ∈ s.tts.current)
      (same : c.key = k) : c = x :=
    Option.some.inj ((same ▸ call_of_mem unique mem).symm.trans found)
  unfold State.expireCall
  split
  · next x found =>
    split
    · next late =>
      obtain ⟨bank, ends⟩ := setCallState_exact found (st := .expired) (.inr (.inr rfl))
      have paired := (List.forall₂_and_left (p := fun c => c ∈ s.tts.current) _ _).mpr
        ⟨fun _ h => h, ends⟩
      refine ⟨bank, paired.imp fun c d both => ?_⟩
      obtain ⟨mem, others, named⟩ := both
      refine ⟨fun is _ => named (List.mem_singleton.mp is), fun no => others fun same => no ?_⟩
      exact ⟨List.mem_singleton.mpr same, only found c mem same ▸ late⟩
    · next within =>
      exact ⟨rfl, stays fun c mem same => only found c mem same ▸ within⟩
  · next missing =>
    refine ⟨rfl, stays fun c mem same => ?_⟩
    exact absurd ((same ▸ call_of_mem unique mem).symm.trans missing) nofun

theorem ExpiresTo.key {s : State} {ks : List Key} {c d : Call} (h : ExpiresTo s ks c d) : d.key = c.key := by
  by_cases late : c.key ∈ ks ∧ Overtime s c
  · exact congrArg Loaded.key (h.1 late.1 late.2).loaded
  · rw [h.2 late]

theorem ExpiresTo.cons {s t : State} {k : Key} {ks : List Key} (clock : t.htb = s.htb)
    (fresh : k ∉ ks) (c d e : Call) (h : ExpiresTo s [k] c d) (m : ExpiresTo t ks d e) :
    ExpiresTo s (k :: ks) c e := by
  have key := h.key
  have overtime (x : Call) : Overtime t x ↔ Overtime s x := by rw [Overtime, Overtime, clock]
  by_cases first : c.key = k
  · have rest : e = d := m.2 fun both => fresh (by rw [← first, ← key]; exact both.1)
    refine ⟨fun _ late => rest ▸ h.1 (List.mem_singleton.mpr first) late, fun no => ?_⟩
    rw [rest]
    exact h.2 fun both => no ⟨List.mem_cons.mpr (.inl first), both.2⟩
  · have same : d = c := h.2 fun both => first (List.mem_singleton.mp both.1)
    subst same
    refine ⟨fun mem late => m.1 ((List.mem_cons.mp mem).resolve_left first) ((overtime d).mpr late),
      fun no => m.2 fun both => no ⟨List.mem_cons.mpr (.inr both.1), (overtime d).mp both.2⟩⟩

theorem expireFold_exact (ks : List Key) (once : ks.Nodup) {s : State} (unique : s.keys.Nodup) :
    SameBank s.tts (ks.foldl State.expireCall s).tts
      ∧ List.Forall₂ (ExpiresTo s ks) s.tts.current (ks.foldl State.expireCall s).tts.current := by
  induction ks generalizing s with
  | nil => exact ⟨rfl, forall₂_self fun c _ => ⟨nofun, fun _ => rfl⟩⟩
  | cons k ks ih =>
    obtain ⟨fresh, once⟩ := List.nodup_cons.mp once
    obtain ⟨bank, one⟩ := expireCall_exact unique k
    have keys : (s.expireCall k).keys = s.keys := map_eq_of_forall₂ one fun _ _ e => e.key
    obtain ⟨banks, rest⟩ := ih once (s := s.expireCall k) (by rw [keys]; exact unique)
    exact ⟨bank.trans banks, forall₂_comp (ExpiresTo.cons (expireCall_turns s k).htb fresh) one rest⟩

/-- A call after the expiry pass: ended if past its expiry, and otherwise as it was (R87). -/
theorem expireCalls_exact {s : State} (unique : s.keys.Nodup) : SameBank s.tts s.expireCalls.tts
    ∧ List.Forall₂ (fun c d => (Overtime s c → EndedAs .expired c d) ∧ (¬ Overtime s c → d = c))
      s.tts.current s.expireCalls.tts.current := by
  obtain ⟨bank, calls⟩ := expireFold_exact s.keys unique unique
  refine ⟨bank, (forall₂_keys (R := ExpiresTo s) calls).imp fun c d both => ?_⟩
  obtain ⟨mem, gone, stays⟩ := both
  exact ⟨gone mem, fun within => stays fun late => within late.2⟩

/-! ## Stop requests with no link -/

/-- A call after the test of its cutoff where nothing is sent (R112). -/
def cutCall (s : State) (c : Call) : Call :=
  if c.isRunning = false then c
  else if (c.stop = .wanted ∨ c.stop = .sent) ∧ s.pastCutoff c = true then
    { c with stop := .late, resend := .stopped }
  else if c.stop = .late ∧ s.pastCutoff c = false then { c with stop := .wanted }
  else c

theorem cutCall_same (s : State) (c : Call) : SameItems c (cutCall s c) := by
  unfold cutCall
  split
  · exact rfl
  · split
    · exact rfl
    · split <;> exact rfl

theorem cutCall_key (s : State) (c : Call) : (cutCall s c).key = c.key :=
  (congrArg Call.key (cutCall_same s c) :)

theorem cutCall_congr {s t : State} (htb : t.htb = s.htb) (params : t.params = s.params) (c : Call) :
    cutCall t c = cutCall s c := by
  unfold cutCall State.pastCutoff
  rw [htb, params]

theorem testCutoff_current {s : State} (b : Booting s) (unique : s.keys.Nodup) (k : Key) :
    (s.testCutoff k).tts = (s.mapCalls fun c => if c.key = k then cutCall s c else c).tts := by
  have mapped {f : Call → Call} (h : ∀ c ∈ s.tts.current, c.key = k → f c = cutCall s c) :
      (s.modCall k f).tts = (s.mapCalls fun c => if c.key = k then cutCall s c else c).tts := by
    refine congrArg (fun x : List Call => { s.tts with current := x }) (List.map_congr_left fun c mem => ?_)
    split
    · next same => exact h c mem same
    · rfl
  have same : s.tts = (s.modCall k id).tts := by
    refine congrArg (fun x : List Call => { s.tts with current := x }) ?_
    exact ((List.map_congr_left fun c _ => ite_self c).trans (List.map_id _)).symm
  unfold State.testCutoff
  split
  · next missing =>
    refine same.trans (mapped fun c mem is => ?_)
    exact absurd ((is ▸ call_of_mem unique mem).symm.trans missing) nofun
  · next x found =>
    have only (c : Call) (mem : c ∈ s.tts.current) (is : c.key = k) : c = x :=
      Option.some.inj ((is ▸ call_of_mem unique mem).symm.trans found)
    have key := key_of_call found
    have changed (f : Call → Call) : (s.changeStop x f).tts = (s.modCall k f).tts := by
      unfold State.changeStop
      rw [key]
      exact announceStop_tts _ _ _ _
    have wanted := (b.changeStop x fun c => { c with stop := .wanted }).booting b
    rw [wanted.trySend]
    split
    · next still =>
      refine same.trans (mapped fun c mem is => ?_)
      rw [only c mem is, cutCall, if_pos (by simpa using still)]
      rfl
    · next running =>
      have live : ¬ x.isRunning = false := by simpa using running
      split
      · next late =>
        refine (changed _).trans (mapped fun c mem is => ?_)
        rw [only c mem is, cutCall, if_neg live, if_pos late]
      · next inTime =>
        split
        · next back =>
          refine (changed _).trans (mapped fun c mem is => ?_)
          rw [only c mem is, cutCall, if_neg live, if_neg inTime, if_pos back]
        · next stays =>
          refine same.trans (mapped fun c mem is => ?_)
          rw [only c mem is, cutCall, if_neg live, if_neg inTime, if_neg stays]
          rfl

theorem mapCalls_keys (s : State) {f : Call → Call} (h : ∀ c, (f c).key = c.key) :
    (s.mapCalls f).keys = s.keys := by
  unfold State.keys
  rw [State.mapCalls_tts]
  exact List.map_map.trans (List.map_congr_left fun c _ => h c)

theorem testCutoffFold_current (ks : List Key) (once : ks.Nodup) {s : State} (b : Booting s)
    (unique : s.keys.Nodup) : (ks.foldl State.testCutoff s).tts
      = (s.mapCalls fun c => if c.key ∈ ks then cutCall s c else c).tts := by
  induction ks generalizing s with
  | nil =>
    refine congrArg (fun x : List Call => { s.tts with current := x }) ?_
    exact ((List.map_congr_left fun c _ => if_neg List.not_mem_nil).trans (List.map_id _)).symm
  | cons k ks ih =>
    obtain ⟨fresh, once⟩ := List.nodup_cons.mp once
    have one := testCutoff_current b unique k
    have boots := b.testCutoff k
    have keep (c : Call) : (if c.key = k then cutCall s c else c).key = c.key := by
      split
      · exact cutCall_key s c
      · rfl
    have keys : (s.testCutoff k).keys = s.keys :=
      (congrArg (fun t : Tts => t.current.map Call.key) one).trans (mapCalls_keys s keep)
    have rest := ih once (boots.booting b) (by rw [keys]; exact unique)
    have cut (c : Call) : cutCall (s.testCutoff k) c = cutCall s c :=
      cutCall_congr (congrArg State.htb boots :) (congrArg State.params boots :) c
    rw [List.foldl_cons, rest]
    rw [State.mapCalls_tts, one, State.mapCalls_tts, State.mapCalls_tts]
    refine congrArg (fun x : List Call => { s.tts with current := x }) ?_
    rw [List.map_map]
    refine List.map_congr_left fun c _ => ?_
    rw [Function.comp_apply, keep, cut]
    by_cases first : c.key = k
    · rw [if_pos first, if_neg (by rw [first]; exact fresh), if_pos (List.mem_cons.mpr (.inl first))]
    · rw [if_neg first]
      by_cases later : c.key ∈ ks
      · rw [if_pos later, if_pos (List.mem_cons.mpr (.inr later))]
      · rw [if_neg later, if_neg fun mem => (List.mem_cons.mp mem).elim first later]

/-- Every stop request after the cutoffs are tested with no link (R121). -/
theorem testCutoffs_current {s : State} (b : Booting s) (unique : s.keys.Nodup) :
    s.testCutoffs.tts = (s.mapCalls (cutCall s)).tts := by
  refine (testCutoffFold_current s.keys unique b unique : _).trans ?_
  refine congrArg (fun x : List Call => { s.tts with current := x }) ?_
  exact List.map_congr_left fun c mem => if_pos (List.mem_map_of_mem mem)

/-! ## A call through a start -/

/-- A call after a start has tested its stop request (R121). -/
theorem cutCall_restarted {s : State} {c : Call} (unsent : c.stop ≠ .sent) :
    (c.isRunning = false ∨ c.stop = .none ∨ c.stop = .confirmed → (cutCall s c).stop = c.stop)
      ∧ (c.isRunning = true → c.stop ≠ .none → c.stop ≠ .confirmed →
        (PastCutoff s c → (cutCall s c).stop = .late)
          ∧ (¬ PastCutoff s c → (cutCall s c).stop = .wanted)) := by
  refine ⟨fun still => ?_, fun running asked open_ => ⟨fun past => ?_, fun within => ?_⟩⟩
  · unfold cutCall
    rcases still with ended | none | settled
    · rw [if_pos ended]
    · rw [none]
      simp only [reduceCtorEq, or_self, false_and, if_false, ite_self, none]
    · rw [settled]
      simp only [reduceCtorEq, or_self, false_and, if_false, ite_self, settled]
  · rw [← pastCutoff_iff] at past
    unfold cutCall
    rw [if_neg (by rw [running]; exact nofun), past]
    cases stop : c.stop with
    | none => exact absurd stop asked
    | confirmed => exact absurd stop open_
    | sent => exact absurd stop unsent
    | wanted => rfl
    | late => exact stop
  · rw [← pastCutoff_eq_false_iff] at within
    unfold cutCall
    rw [if_neg (by rw [running]; exact nofun), within]
    cases stop : c.stop with
    | none => exact absurd stop asked
    | confirmed => exact absurd stop open_
    | sent => exact absurd stop unsent
    | wanted => exact stop
    | late => rfl

/-- A call's start values: its volatile items dropped, its report's age forgotten and its items derived
(R91, R105). -/
def readiedCall (s : State) (c : Call) : Call :=
  s.deriveCall { c.retained with report := c.report.map fun r => { r with taken := none } }

theorem readiedCall_parts (s : State) (c : Call) : (readiedCall s c).loaded = c.loaded
    ∧ (readiedCall s c).state = c.state
    ∧ (readiedCall s c).report = c.report.map (fun r => { r with taken := none })
    ∧ (readiedCall s c).stop = c.stop ∧ (readiedCall s c).stopCause = c.stopCause
    ∧ (c.isRunning = false → (readiedCall s c).forecast = c.forecast) := by
  have kept := deriveCall_sameCall s
    { c.retained with report := c.report.map fun r => { r with taken := none } }
  obtain ⟨stop, cause, _, _⟩ := deriveCall_stop s
    { c.retained with report := c.report.map fun r => { r with taken := none } }
  exact ⟨kept.loaded, kept.state, kept.report, stop, cause, fun ended => deriveCall_ended s
    (c := { c.retained with report := c.report.map fun r => { r with taken := none } }) ended⟩

theorem unsend_same (c : Call) : SameItems c c.unsend := by
  unfold Call.unsend
  split <;> exact rfl

/-- What a start makes of a call, from its items derived (R91, R121, R178). -/
theorem restartedCall {s u v : State} {c y : Call} (htb : v.htb.secs = s.htb.secs)
    (params : v.params = s.params)
    (gone : Overtime s (readiedCall u c) → EndedAs .expired (readiedCall u c) y)
    (stays : ¬ Overtime s (readiedCall u c) → y = readiedCall u c) :
    RestartedCall s c (cutCall v y.unsend) := by
  obtain ⟨loaded, state, report, stop, cause, forecast⟩ := readiedCall_parts u c
  have same := SameItems.trans _ _ _ (unsend_same y) (cutCall_same v y.unsend)
  have steady := same.steady
  have stopCause : (cutCall v y.unsend).stopCause = y.stopCause := (congrArg Call.stopCause same :)
  have running : (readiedCall u c).isRunning = c.isRunning := isRunning_of_state state
  have kept : y.loaded = c.loaded ∧ y.stopCause = c.stopCause
      ∧ y.report = c.report.map (fun r => { r with taken := none }) ∧ y.stop = c.stop
      ∧ y.forecast = (readiedCall u c).forecast := by
    by_cases late : Overtime s (readiedCall u c)
    · have as := gone late
      exact ⟨as.loaded.trans loaded, as.stopCause.trans cause, as.report.trans report,
        as.stop.trans stop, as.forecast⟩
    · rw [stays late]
      exact ⟨loaded, cause, report, stop, rfl⟩
  obtain ⟨loaded', cause', report', stop', forecast'⟩ := kept
  have expected : (cutCall v y.unsend).expected = (readiedCall u c).expected := by
    rw [steady.expected, Call.expected, Call.expected, loaded', forecast', loaded]
  have unsent : y.unsend.stop = if c.stop = .sent then .wanted else c.stop := by
    rw [Laws.unsend_stop, stop']
  have past : PastCutoff v y.unsend ↔ PastCutoff s (cutCall v y.unsend) := by
    rw [PastCutoff, PastCutoff, htb, params, (cutCall_same v y.unsend).steady.expected]
  have live : (cutCall v y.unsend).isRunning = y.unsend.isRunning := (cutCall_same v y.unsend).steady.isRunning
  obtain ⟨settled, asked⟩ := cutCall_restarted (s := v) (c := y.unsend)
    (by rw [Laws.unsend_stop]; split <;> [exact nofun; assumption])
  refine ⟨steady.loaded.trans loaded', stopCause.trans cause', steady.report.trans report',
    fun runs late => ?_, fun runs inTime => ?_, fun ended => ?_, fun still => ?_,
    fun runs one two => ?_⟩
  · rw [expected] at late
    exact steady.state.trans (gone ⟨running.trans runs, late⟩).state
  · rw [expected] at inTime
    have e := stays fun late => absurd late.2 (not_lt.mpr inTime)
    exact steady.state.trans ((congrArg Call.state e).trans state)
  · have e := stays fun late => by
      have := late.1
      rw [running, ended] at this
      exact Bool.false_ne_true this
    exact ⟨steady.state.trans ((congrArg Call.state e).trans state),
      steady.forecast.trans (forecast'.trans (forecast ended))⟩
  · rw [← unsent]
    refine settled ?_
    rcases still with ended | none | confirmed
    · exact .inl (live ▸ ended)
    · exact .inr (.inl (by rw [unsent, none]; rfl))
    · exact .inr (.inr (by rw [unsent, confirmed]; rfl))
  · rw [← past]
    refine asked (live ▸ runs) ?_ ?_
    all_goals
      rw [unsent]
      split
      · exact nofun
      · assumption

end Sys2Proof.Proofs
end

