-- ==== Sys2Proof/Proofs/WarmStarts.lean ====
section
/-! A warm start keeps the retained items and examines the calls it keeps (O5). -/

namespace Sys2Proof.Proofs

open Sys2Proof.Machine Sys2Proof.Safety Sys2Proof.Laws

/-! ## The steps of a start -/

/-- What the steps of a start may change. -/
def Starts (s t : State) : Prop := t = { s with
  tts := t.tts, sru := t.sru
  htb := { s.htb with deferral := t.htb.deferral }
  fqu := { t.fqu with slots := s.fqu.slots }
  sju := t.sju
  bdc := { s.bdc with
    one := t.bdc.one, two := t.bdc.two, three := t.bdc.three, valid := t.bdc.valid, held := t.bdc.held }
  tpi := { s.tpi with ring := t.tpi.ring, overflow := t.tpi.overflow } }

theorem Starts.refl (s : State) : Starts s s := rfl

theorem Starts.trans {s t u : State} (h : Starts s t) (k : Starts t u) : Starts s u := by
  unfold Starts at *
  rw [h] at k
  exact k

theorem Starts.booting {s t : State} (h : Starts s t) (b : Booting s) : Booting t := by
  unfold Starts at h
  rw [h]
  exact ⟨b.free, b.out, b.warm⟩

theorem Boots.starts {s t : State} (h : Boots s t) : Starts s t := by
  unfold Boots at h
  unfold Starts
  rw [h]

theorem Boots.sju {s t : State} (h : Boots s t) : t.sju = s.sju := (congrArg State.sju h :)

theorem Boots.fqu {s t : State} (h : Boots s t) : t.fqu = s.fqu := (congrArg State.fqu h :)

theorem Boots.htb {s t : State} (h : Boots s t) : t.htb = s.htb := (congrArg State.htb h :)

section
variable {s : State}

/-- Before the rollover a start at most clears the deferral flag (R68). -/
theorem settleDay_early (early : s.htb.secs < 86400) :
    ∃ d, s.settleDay = { s with htb := { s.htb with deferral := d } } := by
  unfold State.settleDay
  rw [if_pos (show s.htb.secs < Config.daySeconds from early)]
  split
  · exact ⟨_, rfl⟩
  · exact ⟨_, rfl⟩

theorem Booting.deriveSalesMode (b : Booting s) :
    Boots { s with sju := { s.sju with salesMode := s.salesModeOf } } s.deriveSalesMode := by
  have told : Booting { s with sju := { s.sju with salesMode := s.salesModeOf } } :=
    ⟨b.free, b.out, b.warm⟩
  unfold State.deriveSalesMode State.setSalesMode
  split
  · next same =>
    rw [same]
    exact .refl s
  · have posted : Boots { s with sju := { s.sju with salesMode := s.salesModeOf } }
        (if s.starting then { s with sju := { s.sju with salesMode := s.salesModeOf } }
        else State.postNotice { s with sju := { s.sju with salesMode := s.salesModeOf } }
          (.salesMode s.salesModeOf)) := .ite (.refl _) (told.postNotice _)
    have all : State.invalidateAll _ = _ := (posted.booting told).invalidate _
    exact .ite (all.symm ▸ posted) posted

theorem Starts.withSju (s : State) (j : Sju) : Starts s { s with sju := j } := rfl

theorem Booting.deriveSalesMode_starts (b : Booting s) : Starts s s.deriveSalesMode :=
  (Starts.withSju s _).trans b.deriveSalesMode.starts

theorem Booting.activate (b : Booting s) : Starts s s.activate
    ∧ s.activate.fqu = s.fqu.activated
    ∧ s.activate.sju = { s.sju with salesMode := s.activate.sju.salesMode } := by
  have tables : Booting { s with fqu := s.fqu.activated } := ⟨b.free, b.out, b.warm⟩
  have mode := tables.deriveSalesMode
  have e : s.activate = State.deriveSalesMode { s with fqu := s.fqu.activated } :=
    congrArg State.deriveSalesMode (tables.invalidate _)
  rw [← e] at mode
  refine ⟨Starts.trans (t := { s with
    fqu := s.fqu.activated
    sju := { s.sju with
      salesMode := State.salesModeOf { s with fqu := s.fqu.activated } } }) rfl mode.starts, mode.fqu, ?_⟩
  rw [mode.sju]

theorem Booting.testActivation (b : Booting s) : Starts s s.testActivation
    ∧ s.testActivation.sju = { s.sju with salesMode := s.testActivation.sju.salesMode } := by
  rcases testActivation_cases s with e | ⟨_, _, _, _, e⟩
  · rw [e]
    exact ⟨.refl s, rfl⟩
  · rw [e]
    exact ⟨b.activate.1, b.activate.2.2⟩

theorem testActivation_kept
    (unreached : ∀ i, s.fqu.schedule = some i → s.fqu.pendingTable = none ∨ s.reached i = false) :
    s.testActivation = s := by
  rcases testActivation_cases s with e | ⟨i, scheduled, reached, pending, _⟩
  · exact e
  · rcases unreached i scheduled with none | early
    · exact absurd none pending
    · exact absurd (reached.symm.trans early) nofun

theorem testActivation_due {i : Instant} (scheduled : s.fqu.schedule = some i)
    (pending : s.fqu.pendingTable ≠ none) (reached : s.reached i = true) :
    s.testActivation = s.activate := by
  unfold State.testActivation
  rw [scheduled]
  exact if_pos ((Bool.and_eq_true _ _).mpr ⟨reached, Option.isSome_iff_ne_none.mpr pending⟩)

/-- The journal of a start after RESTORE, with what may change in it besides (R165, R172). -/
def restored (j : Sju) (b : JournalBody) (may : Bool) : Sju := if may then j.push b else j

theorem Booting.appendOther (b : Booting s) (x : JournalBody) : Starts s (s.appendOther x)
    ∧ (s.appendOther x).tts = s.tts ∧ (s.appendOther x).fqu = s.fqu ∧ ∃ m c, (s.appendOther x).sju
      = { restored s.sju x (s.mayAppend x) with salesMode := m, ctr := c } := by
  unfold State.appendOther State.appendOrLose
  cases may : s.mayAppend x with
  | false =>
    rw [if_neg Bool.false_ne_true]
    split
    · exact ⟨.refl s, rfl, rfl, _, _, rfl⟩
    · exact ⟨rfl, rfl, rfl, _, _, rfl⟩
  | true =>
    rw [if_pos rfl]
    have pushed : Booting { s with sju := s.sju.push x } := ⟨b.free, b.out, b.warm⟩
    have record : Boots { s with sju := s.sju.push x } (s.appendRecord x) := by
      unfold State.appendRecord
      rw [if_pos may]
      exact .ite (pushed.postNotice _) (.refl _)
    have held := record.booting pushed
    have mode := held.deriveSalesMode
    have appended : Starts s (s.appendRecord x) := (Starts.withSju s _).trans record.starts
    have derived := appended.trans held.deriveSalesMode_starts
    unfold State.afterAppend
    rw [(derived.booting b).drain]
    refine ⟨derived, ?_, mode.fqu.trans record.fqu, (s.appendRecord x).salesModeOf, _,
      by rw [mode.sju, record.sju]; rfl⟩
    exact (setSalesMode_desk _ _).tts.trans (appendRecord_of_mayAppend may).tts

/-- The journal after a start's RESTORE: the record and the cleared restart counts (R172). -/
theorem Booting.restore (b : Booting s) : Starts s s.restore
    ∧ s.restore.tts = s.tts ∧ s.restore.fqu = s.fqu ∧ ∃ m c n a, s.restore.sju = { restored s.sju
        (.restore s.htb.date s.htb.secs s.sju.authsPending s.sju.quotesHeld)
        (s.mayAppend (.restore s.htb.date s.htb.secs s.sju.authsPending s.sju.quotesHeld)) with
      salesMode := m, ctr := c, xc := n, xa := a, authsPending := 0, quotesHeld := 0 } := by
  obtain ⟨appended, tts, fqu, m, c, sju⟩ := b.appendOther
    (.restore s.htb.date s.htb.secs s.sju.authsPending s.sju.quotesHeld)
  rw [restore_eq]
  generalize s.appendOther _ = u at appended tts fqu sju
  have counts : Starts s (counted u) := appended.trans (.withSju u _)
  have held := counts.booting b
  refine ⟨counts.trans held.deriveSalesMode_starts, (setSalesMode_desk _ _).tts.trans tts,
    held.deriveSalesMode.fqu.trans fqu, ?_⟩
  rw [held.deriveSalesMode.sju, counted, Sju.withExposure, sju]
  exact ⟨_, _, _, _, rfl⟩

theorem Booting.startStops (b : Booting s) : Boots s s.startStops := by
  have mapped : Boots s (s.mapCalls Call.unsend) := rfl
  exact mapped.trans (mapped.booting b).testCutoffs

end

/-! ## Banks -/

/-- The banks with other calls of the same loads. -/
def SameLoads (a b : Tts) : Prop := SameBank a b ∧ b.current.map (·.loaded) = a.current.map (·.loaded)

theorem SameLoads.trans {a b c : Tts} (h : SameLoads a b) (k : SameLoads b c) : SameLoads a c :=
  ⟨h.1.trans k.1, k.2.trans h.2⟩

theorem SameLoads.map (s : State) {f : Call → Call} (h : ∀ c, (f c).loaded = c.loaded) :
    SameLoads s.tts (s.mapCalls f).tts :=
  ⟨rfl, (List.map_map.trans (List.map_congr_left fun c _ => h c))⟩

theorem KeepsBanks.loads {a b : Tts} (h : KeepsBanks a b) : SameLoads a b :=
  ⟨h.frame, map_eq_of_forall₂ h.calls fun _ _ same => same.loaded⟩

theorem setCallState_loads (s : State) (k : Key) (st : CallState) :
    SameLoads s.tts (s.setCallState k st).tts := by
  have changed : SameLoads s.tts (s.modCall k fun c => { c with state := st }).tts :=
    .map s fun c => by split <;> rfl
  exact changed.trans (announceState_trades _ k).banks.loads

theorem expireCalls_loads (s : State) : SameLoads s.tts s.expireCalls.tts := by
  have one (s : State) (k : Key) : SameLoads s.tts (s.expireCall k).tts := by
    unfold State.expireCall
    split
    · split
      · exact setCallState_loads s k _
      · exact ⟨rfl, rfl⟩
    · exact ⟨rfl, rfl⟩
  have all (ks : List Key) (s : State) : SameLoads s.tts (ks.foldl State.expireCall s).tts := by
    induction ks generalizing s with
    | nil => exact ⟨rfl, rfl⟩
    | cons k ks ih => exact (one s k).trans (ih _)
  exact all s.keys s

/-! ## The start-up sequence -/

/-- The items of a start at their start values (R178). -/
def unstarted (s : State) : State := { s.startVolatile with starting := true }

theorem unstarted_booting (s : State) : Booting (unstarted s) := by
  refine ⟨(startVolatile_parts s).1, ?_, rfl⟩
  show (LinePort.atStart s.params.up.enabled (latch s.strapPins).upMode).lsu.state ≠ .service
  unfold LinePort.atStart
  split <;> exact nofun

/-- The calls of a start with their items derived (R91). -/
def derivedCalls (s : State) : State := (unstarted s).forgetTakes.deriveQuietly

theorem derivedCalls_boots (s : State) : Boots (unstarted s) (derivedCalls s) := rfl

theorem derivedCalls_current (s : State) :
    (derivedCalls s).tts.current = s.tts.current.map (readiedCall (unstarted s).forgetTakes) := by
  show ((s.tts.current.map Call.retained).map _).map _ = _
  rw [List.map_map, List.map_map]
  rfl

theorem derivedCalls_loads (s : State) : SameLoads s.tts.atStart (derivedCalls s).tts := by
  refine ⟨rfl, ?_⟩
  rw [derivedCalls_current, List.map_map]
  refine (List.map_congr_left fun c _ => (readiedCall_parts _ c).1).trans ?_
  exact (List.map_map (f := Call.retained) (g := Call.loaded)).symm

/-- The calls of a start examined for their expiry (R87). -/
def examined (s : State) : State := (derivedCalls s).expireCalls

theorem examined_boots (s : State) : Boots (unstarted s) (examined s) :=
  (derivedCalls_boots s).trans ((derivedCalls_boots s).booting (unstarted_booting s)).expireCalls

theorem readied_eq (s : State) : readied s = (examined s).settleDay.testActivation := rfl

section
variable {s : State} (early : s.htb.secs < 86400)
include early

theorem examined_settled : ∃ d, (examined s).settleDay = { examined s with
    htb := { (examined s).htb with deferral := d } } :=
  settleDay_early (by rw [(examined_boots s).htb]; exact early)

theorem settled_starts : Starts (unstarted s) (examined s).settleDay := by
  obtain ⟨d, settled⟩ := examined_settled early
  have last : Starts (examined s) (examined s).settleDay := by
    rw [settled]
    exact rfl
  exact (examined_boots s).starts.trans last

theorem settled_booting : Booting (examined s).settleDay :=
  (settled_starts early).booting (unstarted_booting s)

theorem readied_starts : Starts (unstarted s) (readied s) :=
  (settled_starts early).trans (settled_booting early).testActivation.1

theorem readied_sju : ∃ m, (readied s).sju = { s.sju.atStart with salesMode := m } := by
  have same : (examined s).settleDay.sju = s.sju.atStart := by
    obtain ⟨d, settled⟩ := examined_settled early
    rw [settled]
    exact (examined_boots s).sju
  have tested := (settled_booting early).testActivation.2
  rw [same] at tested
  exact ⟨_, tested⟩

theorem settled_fqu : (examined s).settleDay.fqu = s.fqu.atStart := by
  obtain ⟨d, settled⟩ := examined_settled early
  rw [settled]
  exact (examined_boots s).fqu

theorem settled_reached (i : Instant) : (examined s).settleDay.reached i = s.reached i := by
  obtain ⟨d, settled⟩ := examined_settled early
  rw [settled]
  unfold State.reached
  rw [(examined_boots s).htb]
  rfl

theorem readied_kept
    (unreached : ∀ i, s.fqu.schedule = some i → s.fqu.pendingTable = none ∨ s.reached i = false) :
    TablesKept s (readied s) := by
  have fqu := settled_fqu early
  have same : (readied s).fqu = s.fqu.atStart := by
    rw [readied_eq, testActivation_kept, fqu]
    intro i
    rw [fqu, settled_reached early]
    exact unreached i
  rw [TablesKept, same]
  exact ⟨rfl, rfl, rfl, rfl⟩

theorem readied_activated {i : Instant} (scheduled : s.fqu.schedule = some i)
    (pending : s.fqu.pendingTable ≠ none) (reached : s.reached i = true) :
    TableActivated s (readied s) := by
  have fqu := settled_fqu early
  have same : (readied s).fqu = s.fqu.atStart.activated := by
    rw [readied_eq, testActivation_due (i := i), (settled_booting early).activate.2.1, fqu]
    · rw [fqu]
      exact scheduled
    · rw [fqu]
      exact pending
    · rw [settled_reached early]
      exact reached
  rw [TableActivated, same]
  exact ⟨rfl, rfl, rfl, rfl⟩

end

theorem activate_tts (s : State) : s.activate.tts = s.tts := by
  unfold State.activate State.deriveSalesMode State.invalidateAll
  rw [(setSalesMode_desk _ _).tts, (invalidate_desk _ _).tts]

theorem testActivation_tts (s : State) : s.testActivation.tts = s.tts := by
  rcases testActivation_cases s with e | ⟨_, _, _, _, e⟩
  · rw [e]
  · rw [e, activate_tts]

theorem readied_tts {s : State} (early : s.htb.secs < 86400) : (readied s).tts = (examined s).tts := by
  obtain ⟨d, settled⟩ := examined_settled early
  rw [readied_eq, testActivation_tts, settled]

/-! ## After RESTORE -/

/-- The RESTORE of a start (R172). -/
def restoreOf (s : State) : JournalBody :=
  .restore s.htb.date s.htb.secs s.sju.authsPending s.sju.quotesHeld

theorem mayAppend_restore {s t : State} (sync : t.htb.sync = s.htb.sync)
    (occupancy : t.sju.occupancy = s.sju.occupancy) :
    t.mayAppend (restoreOf s) = !decide (s.htb.sync = .unset ∨ 512 ≤ s.sju.occupancy) := by
  by_cases unset : s.htb.sync = .unset
  · rw [mayAppend_of_unset _ (sync.trans unset)]
    simp [unset]
  · by_cases full : 512 ≤ s.sju.occupancy
    · rw [mayAppend_of_full rfl (occupancy ▸ full)]
      simp [full]
    · rw [mayAppend_of_room rfl (fun e => unset (sync.symm.trans e)) (occupancy ▸ Nat.lt_of_not_ge full)]
      simp [unset, full]

section
variable {s : State}

theorem derivedCalls_keys : (derivedCalls s).keys = s.tts.current.map Call.key := by
  unfold State.keys
  rw [derivedCalls_current, List.map_map]
  exact List.map_congr_left fun c _ => congrArg Loaded.key (readiedCall_parts _ c).1

theorem keys_of_loads {a b : Tts} (h : SameLoads a b) : b.current.map Call.key = a.current.map Call.key := by
  have keys := congrArg (List.map Loaded.key) h.2
  rw [List.map_map, List.map_map] at keys
  exact keys

theorem examined_calls (unique : (s.tts.current.map Call.key).Nodup) :
    List.Forall₂ (fun c y =>
        (Overtime s (readiedCall (unstarted s).forgetTakes c) →
          EndedAs .expired (readiedCall (unstarted s).forgetTakes c) y)
        ∧ (¬ Overtime s (readiedCall (unstarted s).forgetTakes c) →
          y = readiedCall (unstarted s).forgetTakes c)) s.tts.current (examined s).tts.current := by
  have expired := (expireCalls_exact (s := derivedCalls s) (derivedCalls_keys.symm ▸ unique)).2
  rw [derivedCalls_current, List.forall₂_map_left_iff] at expired
  exact expired

end

/-- A start with its stop requests and messages examined (R121, R134). -/
def served (s : State) : State := (readied s).restore.startStops.evaluateMessages

/-- The calls of a start with their stop requests brought up to date (R121). -/
theorem startStops_current {s : State} (b : Booting s) (unique : s.keys.Nodup) :
    s.startStops.tts.current
      = s.tts.current.map fun c => cutCall (s.mapCalls Call.unsend) c.unsend := by
  have mapped : Boots s (s.mapCalls Call.unsend) := rfl
  have keys : (s.mapCalls Call.unsend).keys = s.keys :=
    mapCalls_keys s fun c => (congrArg Call.key (unsend_same c) :)
  have cut := testCutoffs_current (mapped.booting b) (keys ▸ unique)
  refine (congrArg Tts.current cut).trans ?_
  rw [State.mapCalls_tts, State.mapCalls_tts]
  exact List.map_map

section
variable {s : State} (early : s.htb.secs < 86400)
include early

theorem readied_booting : Booting (readied s) := (readied_starts early).booting (unstarted_booting s)

theorem restored_booting : Booting (readied s).restore :=
  (readied_booting early).restore.1.booting (readied_booting early)

theorem served_boots : Boots (readied s).restore (served s) :=
  (restored_booting early).startStops.trans
    (((restored_booting early).startStops.booting (restored_booting early)).evaluateMessages)

theorem served_starts : Starts (unstarted s) (served s) :=
  ((readied_starts early).trans (readied_booting early).restore.1).trans (served_boots early).starts

theorem served_fqu : (served s).fqu = (readied s).fqu :=
  (served_boots early).fqu.trans (readied_booting early).restore.2.2.1

theorem served_sju : ∃ m c n a, (served s).sju = { restored s.sju.atStart (restoreOf s)
      (!decide (s.htb.sync = .unset ∨ 512 ≤ s.sju.occupancy)) with
    salesMode := m, ctr := c, xc := n, xa := a, authsPending := 0, quotesHeld := 0 } := by
  obtain ⟨_, _, _, m, c, n, a, sju⟩ := (readied_booting early).restore
  obtain ⟨k, before⟩ := readied_sju early
  have clock : { (readied s).htb with deferral := false }
      = { s.htb.atStart with deferral := false } :=
    (congrArg (fun u : State => { u.htb with deferral := false }) (readied_starts early) :)
  have body : (JournalBody.restore (readied s).htb.date (readied s).htb.secs
      (readied s).sju.authsPending (readied s).sju.quotesHeld) = restoreOf s := by
    rw [before]
    have date : (readied s).htb.date = s.htb.date := (congrArg Htb.date clock :)
    have secs : (readied s).htb.secs = s.htb.secs := (congrArg Htb.secs clock :)
    rw [date, secs]
    rfl
  rw [body, mayAppend_restore (s := s) (congrArg Htb.sync clock :) (by rw [before]; rfl), before] at sju
  refine ⟨m, c, n, a, ((served_boots early).sju.trans sju).trans ?_⟩
  unfold restored
  split <;> rfl

theorem served_loads : SameLoads s.tts.atStart (served s).tts := by
  have restore := (readied_booting early).restore.2.1
  have stops := ((startStops_trades (readied s).restore).trans
    (evaluateMessages_announces _).toTrades).banks.loads
  rw [restore, readied_tts early] at stops
  exact (derivedCalls_loads s).trans ((expireCalls_loads (derivedCalls s)).trans stops)

theorem served_bank : (readied s).restore.tts = (examined s).tts :=
  (readied_booting early).restore.2.1.trans (readied_tts early)

theorem served_keys : (readied s).restore.keys = s.tts.current.map Call.key := by
  have bank := congrArg (fun t : Tts => t.current.map Call.key) (served_bank early)
  exact bank.trans ((keys_of_loads (expireCalls_loads (derivedCalls s))).trans derivedCalls_keys)

theorem served_frame : ((readied s).restore.mapCalls Call.unsend).htb.secs = s.htb.secs
    ∧ ((readied s).restore.mapCalls Call.unsend).params = s.params := by
  have frame := (readied_starts early).trans (readied_booting early).restore.1
  generalize (readied s).restore = u at frame
  exact ⟨(congrArg (fun u : State => u.htb.secs) frame :), (congrArg State.params frame :)⟩

theorem served_current (unique : (s.tts.current.map Call.key).Nodup) : (served s).tts.current
    = (examined s).tts.current.map
      fun c => cutCall ((readied s).restore.mapCalls Call.unsend) c.unsend := by
  have stops := startStops_current (restored_booting early) ((served_keys early).symm ▸ unique)
  rw [served_bank early] at stops
  rw [served, (evaluateMessages_desk _).tts, stops]

theorem served_calls (ordered : BankOrdered s.tts.current) :
    List.Forall₂ (RestartedCall s) s.tts.current (served s).tts.current := by
  obtain ⟨htb, params⟩ := served_frame early
  rw [served_current early ordered.2.2, List.forall₂_map_right_iff]
  exact (examined_calls ordered.2.2).imp fun c d h => restartedCall htb params h.1 h.2

end

/-! ## O5 -/

theorem atStart_ctr (e : Bool) (m : RateMode) : (LinePort.atStart e m).ctr = {} := by
  cases e <;> cases m <;> rfl

theorem atStart_state (e : Bool) (m : RateMode) :
    (LinePort.atStart e m).lsu.state = if e = true then .hunt else .off := by
  cases e <;> rfl

/-- The ports after a start (R18, R35). -/
theorem unstarted_ports (s : State) (p : Port) : ((unstarted s).port p).buffers = []
    ∧ ((unstarted s).port p).queue = [] ∧ ((unstarted s).port p).ctr = {}
    ∧ ((unstarted s).port p).lsu.state = if (s.params.port p).enabled then .hunt else .off := by
  cases p
  · exact ⟨atStart_buffers _ _, atStart_queue _ _, atStart_ctr _ _, atStart_state _ _⟩
  · exact ⟨atStart_buffers _ _, atStart_queue _ _, atStart_ctr _ _, atStart_state _ _⟩

theorem exec_powerUp_warm {s : State} (mark : s.mark = true) (pins : StrapPins) (low : Bool) :
    exec (.powerUp true pins low) s
      = .next { served { s with strapPins := pins, lowEnergy := low } with starting := false } := by
  have e : exec (.powerUp true pins low) s = .next (if s.mark && true
      then State.warmStart { s with strapPins := pins, lowEnergy := low }
      else State.coldStart { s with strapPins := pins, lowEnergy := low }) := rfl
  rw [e, mark]
  exact congrArg _ (startUp_eq _)

/-- The journal of a start with its RESTORE (R172). -/
theorem restored_parts (j : Sju) (b : JournalBody) (c : Prop) [Decidable c] :
    (restored j b (!decide c)).journal = j.journal ++ (if c then [] else [⟨j.writeSeq, b⟩])
      ∧ (restored j b (!decide c)).writeSeq = (if c then j.writeSeq else j.writeSeq + 1#32) := by
  by_cases h : c
  · rw [decide_eq_true h, if_pos h, if_pos h]
    exact ⟨(List.append_nil _).symm, rfl⟩
  · rw [decide_eq_false h, if_neg h, if_neg h]
    exact ⟨rfl, rfl⟩

/-- What else RESTORE leaves of the journal. -/
theorem restored_frame (j : Sju) (b : JournalBody) (may : Bool) : restored j b may = { j with
    journal := (restored j b may).journal, writeSeq := (restored j b may).writeSeq } := by
  cases may <;> rfl

/-- The stores of a start (R91, R155). -/
theorem served_tables {s : State} (early : s.htb.secs < 86400) :
    ((∀ i, s.fqu.schedule = some i → s.fqu.pendingTable = none ∨ s.reached i = false) →
        TablesKept s (served s))
      ∧ ∀ i, s.fqu.schedule = some i → s.fqu.pendingTable ≠ none → s.reached i = true →
        TableActivated s (served s) := by
  refine ⟨fun unreached => ?_, fun i scheduled pending reached => ?_⟩
  · have kept := readied_kept early unreached
    rw [TablesKept] at kept ⊢
    rwa [served_fqu early]
  · have made := readied_activated early scheduled pending reached
    rw [TableActivated] at made ⊢
    rwa [served_fqu early]

theorem served_banks {s : State} (early : s.htb.secs < 86400) :
    (served s).tts.current.map (·.loaded) = s.tts.current.map (·.loaded)
      ∧ (served s).tts = { s.tts with current := (served s).tts.current, ctr := {} } := by
  obtain ⟨bank, loads⟩ := served_loads early
  refine ⟨loads.trans ?_, bank⟩
  exact List.map_map

/-- A warm reset starts the part as a power-up does, whatever its Up port held (R178). -/
theorem warmReset_powerUp {s : State} {f : RxFrame} {rest : List RxFrame} {x : Byte}
    (own : OwnFrame s f rest 5#8) (payload : f.payload = [1#8, x]) (mark : s.mark = true)
    (pins : StrapPins) :
    exec (.frameClassify .up pins) s = exec (.powerUp true pins s.lowEnergy) s := by
  have command : Command.ofPayload f.payload = some .warmReset := by
    rw [payload]
    rfl
  rw [exec_command own command, exec_powerUp_warm mark]
  rfl

/-- Settles O5. -/
theorem warmStartKeepsRetained : Obligations.WarmStartKeepsRetained := by
  unfold Obligations.WarmStartKeepsRetained
  refine ⟨fun s pins low mark early => ?_, fun s f rest pins x own payload mark =>
    warmReset_powerUp own payload mark pins⟩
  refine ⟨_, exec_powerUp_warm mark pins low, ?_⟩
  have starts := served_starts (s := { s with strapPins := pins, lowEnergy := low }) early
  have calls := served_calls (s := { s with strapPins := pins, lowEnergy := low }) early
  obtain ⟨kept, activated⟩ := served_tables (s := { s with strapPins := pins, lowEnergy := low }) early
  obtain ⟨loads, bank⟩ := served_banks (s := { s with strapPins := pins, lowEnergy := low }) early
  obtain ⟨m, c, n, a, sju⟩ := served_sju (s := { s with strapPins := pins, lowEnergy := low }) early
  obtain ⟨journal, writeSeq⟩ := restored_parts s.sju.atStart
    (restoreOf { s with strapPins := pins, lowEnergy := low })
    (s.htb.sync = .unset ∨ 512 ≤ s.sju.occupancy)
  have frame := restored_frame s.sju.atStart
    (restoreOf { s with strapPins := pins, lowEnergy := low })
    (!decide (s.htb.sync = .unset ∨ 512 ≤ s.sju.occupancy))
  have ports := unstarted_ports { s with strapPins := pins, lowEnergy := low }
  have slots := (unstarted_booting { s with strapPins := pins, lowEnergy := low }).free
  generalize served { s with strapPins := pins, lowEnergy := low } = t at *
  generalize restored s.sju.atStart (restoreOf { s with strapPins := pins, lowEnergy := low })
    (!decide (s.htb.sync = .unset ∨ 512 ≤ s.sju.occupancy)) = j at *
  replace sju := sju.trans (congrArg (fun j : Sju => { j with
    salesMode := m, ctr := c, xc := n, xa := a, authsPending := 0, quotesHeld := 0 }) frame)
  have port : ∀ p, t.port p = (unstarted { s with strapPins := pins, lowEnergy := low }).port p
    | .up => (congrArg State.up starts :)
    | .down => (congrArg State.down starts :)
  have free : t.fqu.slots
      = (unstarted { s with strapPins := pins, lowEnergy := low }).fqu.slots :=
    (congrArg (fun u : State => u.fqu.slots) starts :)
  exact ⟨(congrArg State.powered starts :), (congrArg State.mark starts :).trans mark,
    (congrArg State.own starts :), (congrArg State.params starts :),
    (congrArg State.salesClosed starts :), (congrArg (fun u : State => u.fru.windows) starts :),
    (congrArg (fun u : State => u.htb.date) starts :),
    (congrArg (fun u : State => u.htb.secs) starts :),
    (congrArg (fun u : State => u.htb.hour) starts :),
    (congrArg (fun u : State => u.htb.sync) starts :),
    (congrArg (fun u : State => u.htb.sinceSync) starts :),
    (congrArg (fun u : State => u.htb.stand) starts :),
    (congrArg (fun u : State => u.htb.uptime) starts :), loads,
    (congrArg Tts.next bank :), (congrArg Tts.currentState bank :), (congrArg Tts.currentDate bank :),
    (congrArg Tts.nextState bank :), (congrArg Tts.nextDate bank :), (congrArg Tts.generation bank :),
    (congrArg Tts.ctr bank :), calls, (congrArg (fun u : State => u.bdc.messages) starts :),
    (congrArg (fun u : State => u.bdc.energy) starts :),
    (congrArg (fun u : State => u.bdc.supply) starts :),
    (congrArg (fun u : State => u.bdc.wakeCause) starts :),
    fun i => (congrArg (fun v : Vector Slot 4 => v[i]) free).trans (slots i), kept, activated,
    (congrArg Sju.ackSeq sju :), (congrArg Sju.nextSeq sju :), (congrArg Sju.ticketCounter sju :),
    (congrArg Sju.totals sju :), (congrArg Sju.journalLost sju :), (congrArg Sju.quotesHeld sju :),
    (congrArg Sju.authsPending sju :), (congrArg Sju.pendingAuth sju :),
    (congrArg Sju.lateTags sju :), (congrArg Sju.window sju :), (congrArg Sju.authSerial sju :),
    (congrArg Sju.journal sju :).trans journal, (congrArg Sju.writeSeq sju :).trans writeSeq,
    (congrArg (fun u : State => u.tpi.replies) starts :),
    (congrArg (fun u : State => u.tpi.parser) starts :), fun p => port p ▸ ports p⟩

end Sys2Proof.Proofs
end

