-- ==== Sys2Proof/Proofs/Loads.lean ====
section
/-! The loads that a bank, a fare table or a window takes with few announcements (R39, R40, R76 to R78,
R141 to R143). -/

namespace Sys2Proof.Proofs

open Sys2Proof.Machine Sys2Proof.Safety Sys2Proof.Laws

section
variable {s : State} {f : RxFrame} {rest : List RxFrame} {bs : List Byte}

theorem exec_load {kind : LoadKind} (own : OwnFrame s f rest 3#8) (pins : StrapPins)
    (known : LoadKind.ofPayload f.payload = some kind) :
    exec (.frameClassify .up pins) s = .next ((freed s rest).takeLoad f.payload) := by
  refine exec_ownFrame own pins (k := .load) rfl (by decide) ?_
  unfold unknownLoad
  rw [known]
  rfl

/-! ## CALL_DELETE (R76) -/

theorem findCall_isSome_iff (calls : List Call) (k : Key) :
    (findCall calls k).isSome = true ↔ ∃ x ∈ calls, x.key = k := by
  simp [findCall]

theorem removeCall_eq (k : Key) (calls : List Call) :
    removeCall k calls = calls.filter fun x => decide (x.key ≠ k) := by
  unfold removeCall
  refine List.filter_congr fun x _ => ?_
  by_cases h : x.key = k
  · simp [h]
  · simp [h]

theorem stopsOnCall_absent {k : Key} (absent : s.call k = none) : s.stopsOnCall k = s.deriveLamps := by
  unfold State.stopsOnCall
  rw [absent]

theorem call_removed (k : Key) (calls : List Call) : findCall (removeCall k calls) k = none := by
  refine List.find?_eq_none.mpr fun x mem => ?_
  rw [beq_iff_eq]
  exact key_ne_of_removed x mem

/-- A record deleted from CURRENT (R76, R115, R150). -/
theorem announceDeleted_acts {k : Key} (absent : s.call k = none) : Trades s (s.announceDeleted k)
    ∧ (s.announceDeleted k).tts = s.tts ∧ QuotesWithdrawn s (s.announceDeleted k) k := by
  have told : Trades s s.deriveLamps :=
    stopsOnCall_absent absent ▸ (stopsOnCall_announces s k).toTrades
  unfold State.announceDeleted
  rw [stopsOnCall_absent absent]
  refine ⟨(told.trans (invalidate_announces _ _).toTrades).trans (compose_announces _).toTrades, ?_, ?_⟩
  · rw [compose_tts]
    exact (invalidate_desk _ _).tts
  · exact quotesWithdrawn_of_slots told.slots (compose_announces _).toTrades.slots

theorem takeCallDelete_none (h : callDeleteOfPayload bs = none) :
    s.takeCallDelete bs = s.modTtsCtr fun c => { c with form := tally c.form } := by
  unfold State.takeCallDelete
  rw [h]

theorem takeCallDelete_some {b : Bank} {k : Key} (h : callDeleteOfPayload bs = some (b, k)) :
    s.takeCallDelete bs = if (findCall (s.tts.bank b) k).isSome then s.deleteCall b k
      else s.modTtsCtr fun c => { c with noKey := tally c.noKey } := by
  unfold State.takeCallDelete
  rw [h]

theorem callDelete_acts {pins : StrapPins}
    (run : exec (.frameClassify .up pins) s = .next ((freed s rest).takeCallDelete bs)) :
    CallDeleteActs s rest pins bs := by
  refine ⟨fun bad => ?_, fun b k good => ⟨fun absent => ?_, fun present => ?_⟩⟩
  · rw [run, takeCallDelete_none bad]
    rfl
  · rw [run, takeCallDelete_some good, if_neg fun found => ?_]
    · rfl
    · obtain ⟨x, mem, same⟩ := (findCall_isSome_iff (s.tts.bank b) k).mp found
      exact absent x mem same
  · have found : (findCall ((freed s rest).tts.bank b) k).isSome = true :=
      (findCall_isSome_iff (s.tts.bank b) k).mpr present
    refine ⟨_, by rw [run, takeCallDelete_some good, if_pos found], fun next => ?_, fun current => ?_⟩
    · rw [next, ← removeCall_eq]
      rfl
    · rw [current, ← removeCall_eq]
      obtain ⟨trades, tts, withdrawn⟩ := announceDeleted_acts (s := { freed s rest with
        tts := Tts.bump { s.tts with current := removeCall k s.tts.current } })
        (call_removed k s.tts.current)
      have removed : OnlyTrade (freed s rest) { freed s rest with
        tts := Tts.bump { s.tts with current := removeCall k s.tts.current } } := rfl
      exact ⟨onlyTrade_trans removed trades.onlyTrade, withdrawn, tts⟩

/-! ## BANK_OPEN and BANK_CLOSE (R77, R78) -/

theorem bankOpen_acts {pins : StrapPins}
    (run : exec (.frameClassify .up pins) s = .next ((freed s rest).takeBankOpen bs)) :
    BankOpenActs s rest pins bs := by
  refine ⟨fun bad => ?_, fun b d good => ⟨fun current => ?_, fun next => ?_⟩⟩
  all_goals
    rw [run]
    unfold State.takeBankOpen
  · rw [bad]
    rfl
  · subst current
    rw [good]
    rfl
  · subst next
    rw [good]
    rfl

theorem closeReply_eq (t : Tts) (n : Nat) : ∃ result,
    (t.nextState = .ready → n = t.next.length → result = Result.ready)
      ∧ (t.nextState ≠ .ready ∨ n ≠ t.next.length → result = .mismatch)
      ∧ t.closeReply n = ⟨0#8, .bankClose, result, .bankClose t.next.length t.nextState t.nextDate⟩ := by
  by_cases agrees : t.nextState = .ready ∧ n = t.next.length
  · refine ⟨.ready, fun _ _ => rfl, fun no => ?_, congrArg (fun r : Result =>
      Reply.mk 0#8 .bankClose r (.bankClose t.next.length t.nextState t.nextDate)) (if_pos agrees)⟩
    exact absurd agrees (not_and_or.mpr no)
  · refine ⟨.mismatch, fun ready same => absurd ⟨ready, same⟩ agrees, fun _ => rfl,
      congrArg (fun r : Result =>
        Reply.mk 0#8 .bankClose r (.bankClose t.next.length t.nextState t.nextDate)) (if_neg agrees)⟩

theorem closed_eq (t : Tts) (n : Nat) :
    (t.nextState = .loading → n = t.next.length → t.closed n = .ready)
      ∧ (t.nextState ≠ .loading ∨ n ≠ t.next.length → t.closed n = t.nextState) :=
  ⟨fun loading same => if_pos ⟨loading, same⟩, fun no => if_neg (not_and_or.mpr no)⟩

theorem takeBankClose_next {n : Nat} (h : bankCloseOfPayload bs = some (.next, n)) :
    s.takeBankClose bs
      = State.offerReply { s with tts := { s.tts with nextState := s.tts.closed n } }
        ({ s.tts with nextState := s.tts.closed n }.closeReply n) := by
  unfold State.takeBankClose
  rw [h]

theorem takeBankClose_current {n : Nat} (h : bankCloseOfPayload bs = some (.current, n)) :
    s.takeBankClose bs
      = (s.modTtsCtr fun c => { c with state := tally c.state }).offerReply (s.tts.closeReply n) := by
  unfold State.takeBankClose
  rw [h]
  rfl

theorem bankClose_acts {pins : StrapPins} (addressed : s.fru.unaddressed = false)
    (run : exec (.frameClassify .up pins) s = .next ((freed s rest).takeBankClose bs)) :
    BankCloseActs s rest pins bs := by
  refine ⟨fun bad => ?_, fun n good => ?_, fun n good => ?_⟩
  · rw [run]
    unfold State.takeBankClose
    rw [bad]
    rfl
  · obtain ⟨loading, stays⟩ := closed_eq s.tts n
    obtain ⟨result, ready, mismatch, reply⟩ := closeReply_eq { s.tts with nextState := s.tts.closed n } n
    refine ⟨_, s.tts.closed n, result, run.trans (congrArg _ (takeBankClose_next good)),
      loading, stays, ready, mismatch, ?_⟩
    exact reply ▸ offerReply_replied (s := { freed s rest with
      tts := { s.tts with nextState := s.tts.closed n } }) addressed _
  · obtain ⟨result, ready, mismatch, reply⟩ := closeReply_eq s.tts n
    refine ⟨_, result, run.trans (congrArg _ (takeBankClose_current good)), ready, mismatch, ?_⟩
    exact reply ▸ offerReply_replied (s := (freed s rest).modTtsCtr
      fun c => { c with state := tally c.state }) addressed _

/-! ## Fare rows (R141) -/

section
variable {α β : Type} [DecidableEq β]

theorem find_removed (key : α → β) (k c : β) (xs : List α) :
    (xs.filter fun x => key x != k).find? (fun x => key x == c)
      = if c = k then none else xs.find? fun x => key x == c := by
  rw [List.find?_filter]
  by_cases same : c = k
  · rw [if_pos same, List.find?_eq_none]
    intro x _
    simp [same]
  · rw [if_neg same]
    congr 1
    funext x
    by_cases named : key x = c
    · simp [named, same]
    · simp [named]

theorem find_replaced (key : α → β) (r : α) (c : β) (xs : List α) :
    ((xs.filter fun x => key x != key r) ++ [r]).find? (fun x => key x == c)
      = if c = key r then some r else xs.find? fun x => key x == c := by
  rw [List.find?_append, find_removed]
  by_cases same : c = key r
  · rw [if_pos same, if_pos same]
    simp [same]
  · rw [if_neg same, if_neg same]
    have other : (key r == c) = false := beq_eq_false_iff_ne.mpr fun e => same e.symm
    simp [other]

theorem length_kept (key : α → β) (k : β) (xs : List α) :
    (xs.filter fun x => key x != k).length = (xs.filter fun x => decide (key x ≠ k)).length := by
  refine congrArg List.length (List.filter_congr fun x _ => ?_)
  by_cases h : key x = k
  · simp [h]
  · simp [h]

end

/-- A row applied to a table, if it fits (R141). -/
theorem apply_fits (table : FareTable) (row : FareRow) (fits : RowFits table row) :
    ∃ v, table.apply row = some v ∧ RowApplied table v row := by
  cases row with
  | dest r =>
    have room := (length_kept DestinationRecord.code r.code table.destinations).trans_lt fits
    exact ⟨_, if_pos room, rfl, fun c => find_replaced DestinationRecord.code r c table.destinations⟩
  | type y =>
    have room := (length_kept TicketType.id y.id table.types).trans_lt fits
    exact ⟨_, if_pos room, rfl, fun c => find_replaced TicketType.id y c table.types⟩
  | destRemove code =>
    exact ⟨_, rfl, rfl, fun c => find_removed DestinationRecord.code code c table.destinations⟩
  | start => exact ⟨_, rfl, rfl⟩
  | header _ _ => exact ⟨_, rfl, rfl⟩
  | base _ _ => exact ⟨_, rfl, rfl⟩
  | band _ _ => exact ⟨_, rfl, rfl⟩
  | bandRemove _ => exact ⟨_, rfl, rfl⟩
  | cls _ _ => exact ⟨_, rfl, rfl⟩
  | clsRemove _ => exact ⟨_, rfl, rfl⟩

theorem apply_full (table : FareTable) (row : FareRow) (full : ¬ RowFits table row) :
    table.apply row = none := by
  cases row with
  | dest r =>
    rw [RowFits, ← length_kept] at full
    exact if_neg full
  | type y =>
    rw [RowFits, ← length_kept] at full
    exact if_neg full
  | start => exact absurd trivial full
  | header _ _ => exact absurd trivial full
  | destRemove _ => exact absurd trivial full
  | base _ _ => exact absurd trivial full
  | band _ _ => exact absurd trivial full
  | bandRemove _ => exact absurd trivial full
  | cls _ _ => exact absurd trivial full
  | clsRemove _ => exact absurd trivial full

theorem fare_acts {pins : StrapPins}
    (run : exec (.frameClassify .up pins) s = .next ((freed s rest).takeFare bs)) :
    FareActs s rest pins bs := by
  refine ⟨fun bad => ?_, fun row good => ⟨fun full => ?_, fun fits => ?_⟩⟩
  · rw [run]
    unfold State.takeFare
    rw [bad]
    rfl
  · have none : ((freed s rest).fqu.pendingTable.getD {}).apply row = none := apply_full _ row full
    rw [run]
    unfold State.takeFare
    rw [good]
    dsimp only
    rw [none]
    rfl
  · obtain ⟨v, applied, is⟩ := apply_fits _ row fits
    have some_ : ((freed s rest).fqu.pendingTable.getD {}).apply row = some v := applied
    refine ⟨v, is, ?_⟩
    rw [run]
    unfold State.takeFare
    rw [good]
    dsimp only
    rw [some_]
    rfl

/-! ## FARE_ACTIVATE (R142, R143) -/

/-- The PENDING table put in force (R143). -/
theorem activate_acts (s : State) : TableActivated s s.activate ∧ AllWithdrawn s s.activate
    ∧ s.activate.tts = s.tts ∧ OnlyTrade s s.activate := by
  have trades := activate_trades s
  have fqu := trades.fqu
  refine ⟨⟨(congrArg Fqu.active fqu :), (congrArg Fqu.pendingTable fqu :), (congrArg Fqu.schedule fqu :),
    (congrArg Fqu.activations fqu :)⟩, ?_, activate_tts s, ?_⟩
  · have withdrawn : AllWithdrawn { s with fqu := s.fqu.activated } s.activate :=
      allWithdrawn_of_slots (deriveSalesMode_announces _).toTrades.slots
    exact withdrawn
  · have tables : OnlyTrade s { s with fqu := s.fqu.activated } := rfl
    exact onlyTrade_trans tables trades.onlyTrade

theorem takeFareActivate_now (h : fareActivateOfPayload bs = some none)
    (pending : s.fqu.pendingTable ≠ none) : s.takeFareActivate bs = s.activate := by
  unfold State.takeFareActivate
  rw [h]
  exact if_neg fun empty => pending (Option.isNone_iff_eq_none.mp empty)

theorem takeFareActivate_at {i : Instant} (h : fareActivateOfPayload bs = some (some i))
    (pending : s.fqu.pendingTable ≠ none) : s.takeFareActivate bs
      = State.testActivation { s with fqu := { s.fqu with schedule := some i } } := by
  unfold State.takeFareActivate
  rw [h]
  exact if_neg fun empty => pending (Option.isNone_iff_eq_none.mp empty)

theorem reached_iff (i : Instant) : s.reached i = true
    ↔ s.htb.sync ≠ .unset ∧ s.htb.target i.date i.secs ≤ s.htb.held := by
  unfold State.reached
  rw [Bool.and_eq_true, bne_iff_ne, decide_eq_true_iff]

theorem takeFareActivate_due {i : Instant} (h : fareActivateOfPayload bs = some (some i))
    (pending : s.fqu.pendingTable ≠ none) (reached : s.reached i = true) :
    s.takeFareActivate bs = State.activate { s with fqu := { s.fqu with schedule := some i } } :=
  (takeFareActivate_at h pending).trans (testActivation_due
    (s := { s with fqu := { s.fqu with schedule := some i } }) rfl pending reached)

theorem takeFareActivate_early {i : Instant} (h : fareActivateOfPayload bs = some (some i))
    (pending : s.fqu.pendingTable ≠ none) (early : s.reached i = false) :
    s.takeFareActivate bs = { s with fqu := { s.fqu with schedule := some i } } := by
  refine (takeFareActivate_at h pending).trans (testActivation_kept
    (s := { s with fqu := { s.fqu with schedule := some i } }) fun j same => ?_)
  obtain rfl := Option.some.inj same
  exact .inr early

theorem activate_scheduled (s : State) (i : Instant) :
    ∃ t, State.activate { s with fqu := { s.fqu with schedule := some i } } = t
      ∧ TableActivated s t ∧ AllWithdrawn s t ∧ t.tts = s.tts ∧ OnlyTrade s t := by
  have acts := activate_acts { s with fqu := { s.fqu with schedule := some i } }
  generalize State.activate _ = t at acts ⊢
  obtain ⟨table, withdrawn, tts, only⟩ := acts
  have scheduled : OnlyTrade s { s with fqu := { s.fqu with schedule := some i } } := rfl
  exact ⟨t, rfl, table, withdrawn, tts, onlyTrade_trans scheduled only⟩

theorem fareActivate_acts {pins : StrapPins}
    (run : exec (.frameClassify .up pins) s = .next ((freed s rest).takeFareActivate bs)) :
    FareActivateActs s rest pins bs := by
  refine ⟨fun bad => ?_, fun at? good => ⟨fun empty => ?_, fun pending due => ?_, fun pending early => ?_⟩⟩
  · rw [run]
    unfold State.takeFareActivate
    rw [bad]
    rfl
  · rw [run]
    unfold State.takeFareActivate
    rw [good]
    exact congrArg _ (if_pos (Option.isNone_iff_eq_none.mpr empty))
  · cases at? with
    | none => exact ⟨_, run.trans (congrArg _ (takeFareActivate_now good pending)),
        activate_acts (freed s rest)⟩
    | some i =>
      have reached : (freed s rest).reached i = true := (reached_iff i).mpr (due i rfl)
      obtain ⟨t, e, acts⟩ := activate_scheduled (freed s rest) i
      have taken := takeFareActivate_due (s := freed s rest) good pending reached
      rw [taken, e] at run
      exact ⟨t, run, acts⟩
  · cases at? with
    | none => exact absurd (fun i => nofun) early
    | some i =>
      have unreached : (freed s rest).reached i = false := by
        rw [← Bool.not_eq_true, reached_iff]
        intro due
        refine early fun j same => ?_
        obtain rfl := Option.some.inj same
        exact due
      exact run.trans (congrArg _ (takeFareActivate_early good pending unreached))

/-! ## WINDOW (R39, R40) -/

theorem mem_allSlots : ∀ j : Fin 4, j ∈ allSlots := by decide

theorem overlapsOther_false (ws : Vector (Option GroupWindow) 4) (i : Fin 4) (w : GroupWindow) :
    overlapsOther ws i w = false ↔ ∀ (j : Fin 4) (v : GroupWindow), j ≠ i → ws[j] = some v →
      w.base + w.size ≤ v.base ∨ v.base + v.size ≤ w.base := by
  have apart (v : GroupWindow) : w.overlaps v = false
      ↔ w.base + w.size ≤ v.base ∨ v.base + v.size ≤ w.base := by
    unfold GroupWindow.overlaps
    rw [Bool.and_eq_false_iff, decide_eq_false_iff_not, decide_eq_false_iff_not, not_lt, not_lt, or_comm]
  unfold overlapsOther
  rw [List.any_eq_false]
  constructor
  · intro none j v other held
    have := none j (mem_allSlots j)
    rw [held] at this
    simpa [other, apart] using this
  · intro fits j _ both
    obtain ⟨other, meets⟩ := (Bool.and_eq_true _ _).mp both
    obtain ⟨v, held, over_⟩ := (Option.any_eq_true _ _).mp meets
    have := (apart v).mpr (fits j v (bne_iff_ne.mp other) held)
    exact absurd (over_.symm.trans this) nofun

theorem takeWindow_some {l : WindowLoad} {ws : Vector (Option GroupWindow) 4}
    (h : WindowLoad.ofPayload bs = some l) (fits : loadWindow s.fru.windows l = some ws) :
    s.takeWindow bs = { s with fru := { s.fru with windows := ws } } := by
  unfold State.takeWindow
  rw [h, Option.bind_some, fits]

theorem takeWindow_refused (h : (WindowLoad.ofPayload bs).bind (loadWindow s.fru.windows) = none) :
    s.takeWindow bs = { s with fru := { s.fru with refused := tally s.fru.refused } } := by
  unfold State.takeWindow
  rw [h]

theorem window_acts {pins : StrapPins}
    (run : exec (.frameClassify .up pins) s = .next ((freed s rest).takeWindow bs)) :
    WindowActs s rest pins bs := by
  have fits_iff (l : WindowLoad) := overlapsOther_false s.fru.windows l.number ⟨l.base, l.size⟩
  refine ⟨fun bad => ?_, fun l good => ⟨fun zero => ?_, fun size fits => ?_, fun size misfits => ?_⟩⟩
  · rw [run, takeWindow_refused (by rw [bad]; rfl)]
    rfl
  · rw [run, takeWindow_some good (if_pos zero)]
    rfl
  · obtain ⟨sized, aligned, apart⟩ := fits
    have loads : loadWindow (freed s rest).fru.windows l
        = some (s.fru.windows.set l.number (some ⟨l.base, l.size⟩)) :=
      (if_neg size).trans (if_pos ⟨sized, aligned, (fits_iff l).mpr apart⟩)
    rw [run, takeWindow_some good loads]
    rfl
  · rw [run, takeWindow_refused]
    · rfl
    · rw [good]
      refine (if_neg size).trans (if_neg fun fits => misfits ?_)
      obtain ⟨sized, aligned, apart⟩ := fits
      exact ⟨sized, aligned, (fits_iff l).mp apart⟩

end

end Sys2Proof.Proofs
end

