-- ==== Sys2Proof/Proofs/CallLoads.lean ====
section
/-! A record loaded into a bank, new or in place of one of its key (R73 to R75, R79). -/

namespace Sys2Proof.Proofs

open Sys2Proof.Machine Sys2Proof.Safety Sys2Proof.Laws

/-! ## A bank after a load -/

theorem findCall_none_iff (calls : List Call) (k : Key) :
    findCall calls k = none ↔ ∀ x ∈ calls, x.key ≠ k := by
  simp [findCall]

theorem findCall_insert (c : Call) (calls : List Call) (new : ∀ x ∈ calls, x.key ≠ c.key) :
    findCall (insertCall c calls) c.key = some c := by
  have first (xs : List Call) : findCall (c :: xs) c.key = some c :=
    List.find?_cons_of_pos (beq_self_eq_true c.key)
  induction calls with
  | nil => exact first []
  | cons x xs ih =>
    unfold insertCall
    split
    · exact first _
    · have other : ¬ (x.key == c.key) = true := fun e => new x List.mem_cons_self (beq_iff_eq.mp e)
      have later : findCall (x :: insertCall c xs) c.key = findCall (insertCall c xs) c.key :=
        List.find?_cons_of_neg (p := fun y : Call => y.key == c.key) other
      exact later.trans (ih fun y mem => new y (List.mem_cons_of_mem _ mem))

/-- The call that a load leaves under its key (R74, R75). -/
def loadedCall (calls : List Call) (l : Loaded) : Call :=
  ((findCall calls l.key).map fun c => c.replacedBy l).getD { loaded := l }

theorem loadedCall_loaded (calls : List Call) (l : Loaded) : (loadedCall calls l).loaded = l := by
  unfold loadedCall
  cases findCall calls l.key with
  | none => rfl
  | some c => exact replacedBy_loaded c l

theorem addTo_eq (calls : List Call) (l : Loaded) :
    addTo calls l = insertCall (loadedCall calls l) (removeCall l.key calls) := by
  unfold addTo loadedCall
  split
  · next c found =>
    rw [found]
    rfl
  · next absent =>
    have kept : removeCall l.key calls = calls := by
      refine List.filter_eq_self.mpr fun x mem => ?_
      exact bne_iff_ne.mpr ((findCall_none_iff calls l.key).mp absent x mem)
    rw [absent, kept]
    rfl

theorem mem_addTo (calls : List Call) (l : Loaded) (x : Call) :
    x ∈ addTo calls l ↔ x = loadedCall calls l ∨ (x ∈ calls ∧ x.key ≠ l.key) := by
  rw [addTo_eq, (insertCall_perm _ _).mem_iff, List.mem_cons, removeCall, List.mem_filter, bne_iff_ne]

theorem findCall_addTo (calls : List Call) (l : Loaded) :
    findCall (addTo calls l) l.key = some (loadedCall calls l) := by
  have key : (loadedCall calls l).key = l.key := congrArg Loaded.key (loadedCall_loaded calls l)
  rw [addTo_eq, ← key]
  refine findCall_insert _ _ fun x mem => ?_
  rw [key] at mem ⊢
  exact key_ne_of_removed x mem

/-! ## The loaded call -/

theorem loadedCall_new {calls : List Call} {l : Loaded} (absent : ∀ x ∈ calls, x.key ≠ l.key) :
    loadedCall calls l = { loaded := l } := by
  unfold loadedCall
  rw [(findCall_none_iff calls l.key).mpr absent]
  rfl

theorem loadedCall_held {calls : List Call} (ordered : BankOrdered calls) {l : Loaded} {x : Call}
    (mem : x ∈ calls) (same : x.key = l.key) : loadedCall calls l = x.replacedBy l := by
  obtain ⟨_, _, unique⟩ := ordered
  unfold loadedCall
  cases found : findCall calls l.key with
  | none => exact absurd same ((findCall_none_iff calls l.key).mp found x mem)
  | some c =>
    obtain ⟨held, named⟩ := key_of_findCall found
    obtain rfl : c = x := List.inj_on_of_nodup_map unique held mem (named.trans same.symm)
    rfl

/-- A call that keeps what a load has left of it (R75, R115). -/
structure KeepsLoad (x d : Call) : Prop where
  loaded : d.loaded = x.loaded
  state : d.state = x.state
  report : d.report = x.report
  forecast : x.report = none → x.forecast = 0 → d.forecast = 0
  stop : x.stop = .none ∨ x.stop = .confirmed → d.stop = x.stop

theorem KeepsLoad.refl (x : Call) : KeepsLoad x x := ⟨rfl, rfl, rfl, fun _ h => h, fun _ => rfl⟩

theorem KeepsLoad.replaced {c d : Call} {l : Loaded} (h : KeepsLoad (c.replacedBy l) d) :
    ReplacedCall c d l := by
  refine ⟨fun same => ?_, fun moved => ?_⟩
  · have e : c.replacedBy l = if l.stopMode = .request then
        { c with loaded := l, report := c.report.map (Report.reindex l.points) }
      else Call.clearStop { c with loaded := l, report := c.report.map (Report.reindex l.points) } :=
      if_pos same
    have items : (c.replacedBy l).report = c.report.map (Report.reindex l.points)
        ∧ (c.replacedBy l).state = c.state := by
      rw [e]
      split <;> exact ⟨rfl, rfl⟩
    refine ⟨h.report.trans items.1, h.state.trans items.2, fun mode => ?_, fun mode settled => ?_⟩
    · have none : (c.replacedBy l).stop = .none := by
        rw [e, if_neg mode]
        rfl
      exact (h.stop (.inl none)).trans none
    · have stop : (c.replacedBy l).stop = c.stop := by rw [e, if_pos mode]
      exact (h.stop (by rw [stop]; exact settled)).trans stop
  · have e : c.replacedBy l = Call.clearStop { c with
        loaded := l, report := none, forecast := 0
        state := if c.isRunning then .scheduled else c.state } := if_neg moved
    rw [e] at h
    exact ⟨h.report, h.forecast rfl rfl, h.stop (.inl rfl), h.state⟩

/-! ## What a load announces -/

section
variable {s : State} {k : Key} {x : Call}

/-- A call derived again and announced keeps what a load has left of it. -/
theorem keepsLoad_of_announces {t : State} (named : s.call k = some x)
    (told : Announces (derived s k) t) : ∃ d, t.call k = some d ∧ KeepsLoad x d := by
  obtain ⟨d, found, follows⟩ := told.stops k _ (derived_named named)
  have kept := deriveCall_sameCall s x
  obtain ⟨stop, _, _, _⟩ := deriveCall_stop s x
  refine ⟨d, found, follows.loaded.trans kept.loaded, follows.state.trans kept.state,
    follows.report.trans kept.report, fun bare zero => follows.forecast.trans ?_, fun settled => ?_⟩
  · cases running : x.isRunning with
    | false => exact (kept.forecast running).trans zero
    | true =>
      unfold State.deriveCall Call.delayNow
      rw [running, bare]
      rfl
  · rw [follows.settled (by rw [stop]; exact settled), stop]

theorem rederiveCall_announces (s : State) (k : Key) : Announces (derived s k) (s.rederiveCall k) :=
  rederive_announces s _

theorem announceAdded_announces (s : State) (k : Key) :
    Announces (derived s k) (s.announceAdded k) :=
  ((rederiveCall_announces s k).trans (stopsOnCall_announces _ _)).trans (compose_announces _)

theorem announceReplaced_announces (s : State) (k : Key) (before after : StopState) :
    Announces (derived s k) (s.announceReplaced k before after) :=
  ((((rederiveCall_announces s k).trans (announceStop_announces _ _ _ _)).trans
    (stopsOnCall_announces _ _)).trans (invalidateNaming_announces _ _)).trans (compose_announces _)

theorem announceReplaced_withdrawn (s : State) (k : Key) (before after : StopState) :
    QuotesWithdrawn s (s.announceReplaced k before after) k :=
  quotesWithdrawn_of_slots (((rederiveCall_trades s k).trans
    (announceStop_announces _ _ _ _).toTrades).trans (stopsOnCall_announces _ _).toTrades).slots
    (compose_announces _).toTrades.slots

end

/-- CURRENT with a record put in, one generation further (R71, R74). -/
def withCall (s : State) (l : Loaded) : State :=
  { s with tts := { s.tts with current := addTo s.tts.current l }.bump }

theorem addCall_current (s : State) (l : Loaded) : (∃ d, (s.addCall .current l).call l.key = some d
      ∧ KeepsLoad (loadedCall s.tts.current l) d)
    ∧ Trades (withCall s l) (s.addCall .current l)
    ∧ ((∃ x ∈ s.tts.current, x.key = l.key) → QuotesWithdrawn s (s.addCall .current l) l.key) := by
  have named : (withCall s l).call l.key = some (loadedCall s.tts.current l) :=
    findCall_addTo s.tts.current l
  cases found : s.call l.key with
  | none =>
    have e : s.addCall .current l = (withCall s l).announceAdded l.key := by
      unfold State.addCall
      dsimp only
      rw [found]
      rfl
    rw [e]
    refine ⟨keepsLoad_of_announces named (announceAdded_announces _ _), announceAdded_trades _ _,
      fun present => ?_⟩
    obtain ⟨x, mem, same⟩ := present
    exact absurd same ((findCall_none_iff s.tts.current l.key).mp found x mem)
  | some c =>
    have e : s.addCall .current l
        = (withCall s l).announceReplaced l.key c.stop (c.replacedBy l).stop := by
      unfold State.addCall
      dsimp only
      rw [found]
      rfl
    rw [e]
    exact ⟨keepsLoad_of_announces named (announceReplaced_announces _ _ _ _),
      announceReplaced_trades _ _ _ _, fun _ => announceReplaced_withdrawn (withCall s l) _ _ _⟩

theorem takeCallAdd_some {s : State} {bs : List Byte} {b : Bank} {l : Loaded}
    (h : callAddOfPayload bs = some (b, l)) : s.takeCallAdd bs =
      if !s.tts.loadable b then s.modTtsCtr fun c => { c with state := tally c.state }
      else if l.runDate ≠ s.tts.date b then s.modTtsCtr fun c => { c with date := tally c.date }
      else if !hasRoom (s.tts.bank b) l.key then s.modTtsCtr fun c => { c with full := tally c.full }
      else s.addCall b l := by
  unfold State.takeCallAdd
  rw [h]

theorem loadable_iff (t : Tts) (b : Bank) : t.loadable b = true
    ↔ (b = .current ∧ t.currentState = .active) ∨ (b = .next ∧ t.nextState ≠ .empty) := by
  cases b with
  | current => simp [Tts.loadable]
  | next => simp [Tts.loadable]

theorem hasRoom_iff (calls : List Call) (k : Key) :
    hasRoom calls k = true ↔ ¬ (∀ x ∈ calls, x.key ≠ k) ∨ calls.length < 160 := by
  unfold hasRoom
  rw [Bool.or_eq_true, decide_eq_true_iff, ← findCall_none_iff, Option.isSome_iff_ne_none]
  exact Iff.rfl

section
variable {s : State} {l : Loaded}

/-- What a load leaves under its key, of a new record and of a replaced one (R74, R75). -/
theorem keepsLoad_acts {calls : List Call} {d : Call} (ordered : BankOrdered calls)
    (kept : KeepsLoad (loadedCall calls l) d) : d.loaded = l
      ∧ ((∀ x ∈ calls, x.key ≠ l.key) →
        d.state = .scheduled ∧ d.report = none ∧ d.forecast = 0 ∧ d.stop = .none)
      ∧ ∀ x ∈ calls, x.key = l.key → ReplacedCall x d l := by
  refine ⟨kept.loaded.trans (loadedCall_loaded calls l), fun absent => ?_, fun x mem same => ?_⟩
  · rw [loadedCall_new absent] at kept
    exact ⟨kept.state, kept.report, kept.forecast rfl rfl, kept.stop (.inl rfl)⟩
  · rw [loadedCall_held ordered mem same] at kept
    exact kept.replaced

/-- The loaded fields of CURRENT after a load (R74, R75). -/
theorem addCall_loads {t : State} (trades : Trades (withCall s l) t) (x : Loaded) :
    x ∈ t.tts.current.map (·.loaded)
      ↔ x = l ∨ (x ∈ s.tts.current.map (·.loaded) ∧ x.key ≠ l.key) := by
  have same : t.tts.current.map (·.loaded) = (addTo s.tts.current l).map (·.loaded) :=
    map_eq_of_forall₂ trades.calls fun _ _ h => h.loaded
  rw [same, List.mem_map]
  constructor
  · rintro ⟨c, mem, rfl⟩
    rcases (mem_addTo s.tts.current l c).mp mem with rfl | ⟨old, other⟩
    · exact .inl (loadedCall_loaded _ l)
    · exact .inr ⟨List.mem_map_of_mem old, other⟩
  · rintro (rfl | ⟨old, other⟩)
    · exact ⟨_, (mem_addTo s.tts.current x _).mpr (.inl rfl), loadedCall_loaded _ x⟩
    · obtain ⟨c, mem, rfl⟩ := List.mem_map.mp old
      exact ⟨c, (mem_addTo s.tts.current l c).mpr (.inr ⟨mem, other⟩), rfl⟩

end

theorem callAdd_acts {s : State} {rest : List RxFrame} {bs : List Byte} {pins : StrapPins}
    (run : exec (.frameClassify .up pins) s = .next ((freed s rest).takeCallAdd bs)) :
    CallAddActs s rest pins bs := by
  refine ⟨fun bad => ?_, fun b l good => ⟨fun shut => ?_, fun loadable other => ?_,
    fun loadable dated absent full => ?_, fun loadable dated room ordered => ?_⟩⟩
  · rw [run]
    unfold State.takeCallAdd
    rw [bad]
    rfl
  all_goals
    rw [run, takeCallAdd_some (s := freed s rest) good]
  · have no : (!(freed s rest).tts.loadable b) = true := by
      rw [Bool.not_eq_true', ← Bool.not_eq_true]
      exact fun can => shut ((loadable_iff s.tts b).mp can)
    rw [if_pos no]
    rfl
  all_goals
    have can : ¬ (!(freed s rest).tts.loadable b) = true := by
      rw [Bool.not_eq_true', Bool.not_eq_false]
      exact (loadable_iff s.tts b).mpr loadable
    rw [if_neg can]
  · rw [if_pos (show l.runDate ≠ (freed s rest).tts.date b from other)]
    rfl
  all_goals rw [if_neg (show ¬ l.runDate ≠ (freed s rest).tts.date b from not_not.mpr dated)]
  · have no : (!hasRoom ((freed s rest).tts.bank b) l.key) = true := by
      rw [Bool.not_eq_true', ← Bool.not_eq_true]
      intro room
      rcases (hasRoom_iff (s.tts.bank b) l.key).mp room with present | free
      · exact present absent
      · exact absurd free (not_lt.mpr full)
    rw [if_pos no]
    rfl
  · have free : ¬ (!hasRoom ((freed s rest).tts.bank b) l.key) = true := by
      rw [Bool.not_eq_true', Bool.not_eq_false]
      exact (hasRoom_iff (s.tts.bank b) l.key).mpr room
    rw [if_neg free]
    cases b with
    | next =>
      obtain ⟨loaded, new, held⟩ := keepsLoad_acts (calls := s.tts.next) ordered (.refl (loadedCall _ l))
      exact ⟨_, _, rfl, loaded, new, held, fun _ => ⟨rfl, mem_addTo s.tts.next l⟩, nofun⟩
    | current =>
      obtain ⟨⟨d, named, kept⟩, trades, withdrawn⟩ := addCall_current (freed s rest) l
      obtain ⟨loaded, new, held⟩ := keepsLoad_acts (calls := s.tts.current) ordered kept
      refine ⟨_, d, rfl, loaded, new, held, nofun, fun _ => ⟨?_, named, trades.tts,
        addCall_loads (s := freed s rest) trades, fun present => withdrawn ?_⟩⟩
      · have put : OnlyTrade (freed s rest) (withCall (freed s rest) l) := rfl
        exact onlyTrade_trans put trades.onlyTrade
      · rw [not_forall] at present
        obtain ⟨x, present⟩ := present
        obtain ⟨mem, same⟩ := Classical.not_imp.mp present
        exact ⟨x, mem, not_not.mp same⟩

end Sys2Proof.Proofs
end

