-- ==== Sys2Proof/Proofs/MessageLoads.lean ====
section
/-! A message loaded into a slot and removed from one (R130 to R132). -/

namespace Sys2Proof.Proofs

open Sys2Proof.Machine Sys2Proof.Safety Sys2Proof.Laws

/-! ## The slots -/

theorem find_finRange {n : Nat} {hit : Fin n → Bool} {i : Fin n} (found : hit i = true)
    (first : ∀ j < i, hit j = false) : (List.finRange n).find? hit = some i := by
  obtain ⟨before, after, split⟩ := List.append_of_mem (List.mem_finRange i)
  have ordered := List.pairwise_lt_finRange n
  rw [split, List.pairwise_append] at ordered
  obtain ⟨-, -, earlier⟩ := ordered
  exact List.find?_eq_some_iff_append.mpr ⟨found, before, after, split, fun j mem => by
    rw [first j (earlier j mem i List.mem_cons_self)]
    rfl⟩

section
variable {ms : Vector (Option Message) 8} {id : Byte} {i : Fin 8}

theorem any_id_false {x : Option Message} (h : ∀ m, x = some m → m.id ≠ id) :
    (x.any fun m => m.id == id) = false := by
  cases x with
  | none => rfl
  | some m => exact beq_eq_false_iff_ne.mpr (h m rfl)

theorem messageSlot_first {x : Message} (held : ms[i] = some x) (named : x.id = id)
    (first : ∀ j : Fin 8, j < i → ∀ y, ms[j] = some y → y.id ≠ id) : messageSlot ms id = some i := by
  refine find_finRange ?_ fun j lt => any_id_false (first j lt)
  rw [held]
  exact beq_iff_eq.mpr named

theorem messageSlot_absent (absent : ∀ (j : Fin 8) (x : Message), ms[j] = some x → x.id ≠ id) :
    messageSlot ms id = none := by
  refine List.find?_eq_none.mpr fun j _ => ?_
  rw [any_id_false (absent j)]
  exact Bool.false_ne_true

theorem freeMessageSlot_first (free : ms[i] = none) (first : ∀ j : Fin 8, j < i → ms[j] ≠ none) :
    freeMessageSlot ms = some i := by
  refine find_finRange (Option.isNone_iff_eq_none.mpr free) fun j lt => ?_
  rw [← Bool.not_eq_true, Option.isNone_iff_eq_none]
  exact first j lt

theorem freeMessageSlot_full (full : ∀ j : Fin 8, ms[j] ≠ none) : freeMessageSlot ms = none := by
  refine List.find?_eq_none.mpr fun j _ => ?_
  rw [Option.isNone_iff_eq_none]
  exact full j

end

/-! ## MESSAGE -/

section
variable {s : State} {rest : List RxFrame} {bs : List Byte} {m : Message}

theorem takeMessage_put {i : Fin 8} (h : messageOfPayload bs = some m)
    (slot : ((messageSlot s.bdc.messages m.id).orElse fun _ => freeMessageSlot s.bdc.messages) = some i) :
    s.takeMessage bs = s.setMessages (s.bdc.messages.set i (some m)) := by
  unfold State.takeMessage
  rw [h]
  dsimp only
  rw [slot]

theorem takeMessage_full (h : messageOfPayload bs = some m)
    (slot : ((messageSlot s.bdc.messages m.id).orElse fun _ => freeMessageSlot s.bdc.messages) = none) :
    s.takeMessage bs = State.evaluateMessages (s.modBdcCtr fun c => { c with full := tally c.full }) := by
  unfold State.takeMessage
  rw [h]
  dsimp only
  rw [slot]

/-- The boards of a part whose messages are replaced (R132). -/
theorem setMessages_acts (rest : List RxFrame) (ms : Vector (Option Message) 8) :
    ∃ t, (freed s rest).setMessages ms = t ∧ t.bdc.messages = ms
      ∧ t.bdc.valid = (t.bdc.messages.toList.filterMap id).filter s.messageValid
      ∧ OnlyTrade (freed s rest) t := by
  obtain ⟨messages, valid⟩ := setMessages_boards (freed s rest) ms
  refine ⟨_, rfl, messages, ?_, setMessages_onlyTrade _ _⟩
  rw [messages]
  exact valid

theorem message_acts {pins : StrapPins}
    (run : exec (.frameClassify .up pins) s = .next ((freed s rest).takeMessage bs)) :
    MessageActs s rest pins bs := by
  refine ⟨fun bad => ?_, fun m good => ⟨fun i place => ?_, fun absent full => ?_⟩⟩
  · rw [run]
    unfold State.takeMessage
    rw [bad]
    rfl
  · have slot : ((messageSlot s.bdc.messages m.id).orElse fun _ => freeMessageSlot s.bdc.messages)
        = some i := by
      rcases place with ⟨⟨x, held, named⟩, first⟩ | ⟨absent, free, first⟩
      · rw [messageSlot_first held named first]
        rfl
      · rw [messageSlot_absent absent]
        exact freeMessageSlot_first free first
    obtain ⟨t, put, acts⟩ := setMessages_acts (s := s) rest (s.bdc.messages.set i (some m))
    have taken := takeMessage_put (s := freed s rest) good slot
    exact ⟨t, run.trans (congrArg _ (taken.trans put)), acts⟩
  · have slot : ((messageSlot s.bdc.messages m.id).orElse fun _ => freeMessageSlot s.bdc.messages)
        = none := by
      rw [messageSlot_absent absent]
      exact freeMessageSlot_full full
    have taken := takeMessage_full (s := freed s rest) good slot
    obtain ⟨messages, _, counted⟩ := evaluateMessages_boards
      ((freed s rest).modBdcCtr fun c => { c with full := tally c.full })
    have only := (evaluateMessages_announces
      ((freed s rest).modBdcCtr fun c => { c with full := tally c.full })).toTrades.onlyTrade
    have tallied : OnlyTrade (freed s rest)
      ((freed s rest).modBdcCtr fun c => { c with full := tally c.full }) := rfl
    exact ⟨_, run.trans (congrArg _ taken), messages, counted, onlyTrade_trans tallied only⟩

/-! ## MESSAGE_DELETE -/

theorem takeMessageDelete_slot {n : Byte} {i : Fin 8} (h : messageDeleteOfPayload bs = some n)
    (slot : messageSlot s.bdc.messages n = some i) :
    s.takeMessageDelete bs = s.setMessages (s.bdc.messages.set i none) := by
  unfold State.takeMessageDelete
  rw [h]
  dsimp only
  rw [slot]

theorem messageDelete_acts {pins : StrapPins}
    (run : exec (.frameClassify .up pins) s = .next ((freed s rest).takeMessageDelete bs)) :
    MessageDeleteActs s rest pins bs := by
  refine ⟨fun bad => ?_, fun n good => ⟨fun absent => ?_, fun i x held named first => ?_⟩⟩
  · rw [run]
    unfold State.takeMessageDelete
    rw [bad]
    rfl
  · have slot : messageSlot (freed s rest).bdc.messages n = none := messageSlot_absent absent
    rw [run]
    unfold State.takeMessageDelete
    rw [good]
    dsimp only
    rw [slot]
    rfl
  · obtain ⟨t, put, acts⟩ := setMessages_acts (s := s) rest (s.bdc.messages.set i none)
    have taken := takeMessageDelete_slot (s := freed s rest) good (messageSlot_first held named first)
    exact ⟨t, run.trans (congrArg _ (taken.trans put)), acts⟩

end

end Sys2Proof.Proofs
end

