-- ==== Sys2Proof/Proofs/PortLoads.lean ====
section
/-! What a stored value does to its port (R19, R20, R27). -/

namespace Sys2Proof.Proofs

open Sys2Proof.Machine Sys2Proof.Safety Sys2Proof.Laws

/-! ## What an effect on a port may change -/

/-- Nothing has changed but the ports and the stores that act on a port's leaving SERVICE. -/
def Wired (s t : State) : Prop := t = { s with
  up := t.up, down := t.down, tts := t.tts, sru := t.sru, bdc := t.bdc, fqu := t.fqu, sju := t.sju
  tpi := t.tpi }

theorem Wired.refl (s : State) : Wired s s := rfl

theorem Wired.trans {s t u : State} (h : Wired s t) (k : Wired t u) : Wired s u := by
  unfold Wired at *
  rw [h] at k
  exact k

theorem Wired.ite {c : Prop} [Decidable c] {s t u : State} (h : Wired s t) (k : Wired s u) :
    Wired s (if c then t else u) := by
  split
  · exact h
  · exact k

theorem wired_of_onlyLink {p : Port} {s t : State} (h : OnlyLink p s t) : Wired s t :=
  onlyTrade_of_onlyLink h

theorem modLsu_wired (s : State) (p : Port) (f : Lsu → Lsu) : Wired s (s.modLsu p f) :=
  wired_of_onlyLink (onlyLink_of_onlyPort (setPort_onlyPort s p _))

section
variable {s : State} {p : Port}

theorem enterHunt_wired (s : State) (p : Port) : Wired s (s.enterHunt p) := (enterHunt_parts s p).2

/-- A port's move to OFF (R19). -/
theorem enterOff_parts (s : State) (p : Port) :
    txFrameOf ((s.enterOff p).port p)
        = txFrameOf (if (s.port p).lsu.state = .service then (s.port p).toOff.flush else (s.port p).toOff)
      ∧ Wired s (s.enterOff p) := by
  have off := offState_port s p
  have ports : Wired s (offState s p) := by
    have h := offState_onlyPorts s p
    unfold OnlyPorts at h
    unfold Wired
    rw [h]
  have link := wired_of_onlyLink (leaveIf_onlyLink (offState s p) (s.port p).lsu.state p)
  have port := leaveIf_port (offState s p) (s.port p).lsu.state p
  rw [← enterOff_eq] at link port
  refine ⟨?_, ports.trans link⟩
  rw [port]
  split
  · have flushed := congrArg LinePort.flush off
    exact flushed
  · exact off

theorem failProving_wired (s : State) (p : Port) : Wired s (s.failProving p) := by
  rw [failProving_eq]
  exact .ite ((modLsu_wired s p _).trans (wired_of_onlyLink (enterOutage_onlyLink _ p _)))
    (modLsu_wired s p _)

theorem portConfigEffect_wired (s : State) (p : Port) (old : PortParams) (n : Nat) :
    Wired s (s.portConfigEffect p old n) := by
  unfold State.portConfigEffect
  split
  · exact .ite (.ite (enterHunt_wired s p) (.refl s)) (.ite (.refl s) (enterOff_parts s p).2)
  · exact .ite (.refl s) (modLsu_wired s p _)
  · have lowered := modLsu_wired s p fun l => { l with bucket := min (s.params.port p).limit l.bucket }
    exact .ite (lowered.trans (wired_of_onlyLink (enterOutage_onlyLink _ p _))) lowered
  · exact .ite (modLsu_wired s p _) (.refl s)
  · exact .ite (failProving_wired s p) (.refl s)
  · exact .refl s

/-! ## Enable (R19, R20) -/

theorem enableEffect_disabled (off : (s.params.port p).enabled = false) :
    ((s.port p).lsu.state = .off → s.enableEffect p = s)
      ∧ ((s.port p).lsu.state ≠ .off → s.enableEffect p = s.enterOff p) := by
  have e : s.enableEffect p = if (s.port p).lsu.state == .off then s else s.enterOff p :=
    if_neg (by rw [off]; exact Bool.false_ne_true)
  refine ⟨fun is => ?_, fun other => ?_⟩
  · rw [e, if_pos (beq_iff_eq.mpr is)]
  · rw [e, if_neg fun is => other (beq_iff_eq.mp is)]

theorem enableEffect_enabled (on : (s.params.port p).enabled = true) :
    ((s.port p).lsu.state ≠ .off → s.enableEffect p = s)
      ∧ ((s.port p).lsu.state = .off → s.enableEffect p = s.enterHunt p) := by
  have e : s.enableEffect p = if (s.port p).lsu.state == .off then s.enterHunt p else s := if_pos on
  refine ⟨fun other => ?_, fun is => ?_⟩
  · rw [e, if_neg fun is => other (beq_iff_eq.mp is)]
  · rw [e, if_pos (beq_iff_eq.mpr is)]

theorem enterOff_acts (s : State) (p : Port) : ((s.enterOff p).port p).rx = .off
    ∧ ((s.enterOff p).port p).buffers = []
    ∧ ((s.enterOff p).port p).lsu = (s.port p).lsu.toOff
    ∧ ((s.port p).lsu.state = .service → ((s.enterOff p).port p).queue = []) := by
  have h := (enterOff_parts s p).1
  generalize (s.enterOff p).port p = lp at h
  by_cases serving : (s.port p).lsu.state = .service
  · rw [if_pos serving] at h
    exact ⟨(congrArg LinePort.rx h :), (congrArg LinePort.buffers h :), (congrArg LinePort.lsu h :),
      fun _ => (congrArg LinePort.queue h :)⟩
  · rw [if_neg serving] at h
    exact ⟨(congrArg LinePort.rx h :), (congrArg LinePort.buffers h :), (congrArg LinePort.lsu h :),
      fun is => absurd is serving⟩

theorem toHunt_search (lp : LinePort) : lp.toHunt.goodRun = 0
    ∧ (lp.rateMode = .auto → lp.toHunt.rxRate = .r19200 ∧ lp.toHunt.dwell = .running 2000) := by
  unfold LinePort.toHunt LinePort.startSearch
  split
  · exact ⟨rfl, fun _ => ⟨rfl, rfl⟩⟩
  · next fixed => exact ⟨rfl, fun auto => absurd (auto.symm.trans fixed) nofun⟩

theorem enterHunt_acts (off : (s.port p).lsu.state = .off) :
    InHunt (s.port p).lsu ((s.enterHunt p).port p).lsu
      ∧ ((s.enterHunt p).port p).rx = .seek ∧ ((s.enterHunt p).port p).goodRun = 0
      ∧ ((s.port p).rateMode = .auto → ((s.enterHunt p).port p).rxRate = .r19200
        ∧ ((s.enterHunt p).port p).dwell = .running 2000) := by
  have h := (enterHunt_parts s p).1
  generalize (s.enterHunt p).port p = lp at h
  rw [if_neg (by rw [off]; exact nofun)] at h
  obtain ⟨goodRun, search⟩ := toHunt_search (s.port p)
  obtain ⟨_, rx, _⟩ := toHunt_parts (s.port p)
  refine ⟨(congrArg LinePort.lsu h :), (congrArg LinePort.rx h :).trans rx,
    (congrArg LinePort.goodRun h :).trans goodRun, fun auto => ?_⟩
  obtain ⟨rate, dwell⟩ := search auto
  exact ⟨(congrArg LinePort.rxRate h :).trans rate, (congrArg LinePort.dwell h :).trans dwell⟩

/-! ## Mode, limit, credit run and alignment limit (R27) -/

theorem modLsu_same (s : State) (p : Port) {f : Lsu → Lsu} (h : f (s.port p).lsu = (s.port p).lsu) :
    s.modLsu p f = s := by
  rw [State.modLsu_eq, h]
  exact State.setPort_port s p

theorem modeEffect_acts (old : MonitorMode) :
    ((s.port p).lsu.state ≠ .service ∨ (s.params.port p).mode = old → s.modeEffect p old = s)
      ∧ ((s.port p).lsu.state = .service → (s.params.port p).mode ≠ old → s.modeEffect p old
        = s.setPort p { s.port p with lsu := { (s.port p).lsu with
            bucketRun := 0, intervalMark := false
            interval := if (s.params.port p).mode = .interval then .running 100 else .stopped } }) :=
  ⟨fun no => if_pos no.symm, fun serving changed => if_neg fun no => no.elim changed fun out =>
    out serving⟩

/-- The bucket of a port held within a limit. -/
def withinLimit (s : State) (p : Port) : State :=
  s.modLsu p fun l => { l with bucket := min (s.params.port p).limit l.bucket }

theorem limitEffect_eq (s : State) (p : Port) : s.limitEffect p
    = if (s.port p).lsu.state = .service ∧ (s.params.port p).limit ≤ (s.port p).lsu.bucket
      then (withinLimit s p).enterOutage p .errorRate else withinLimit s p := rfl

theorem withinLimit_reached (reached : (s.params.port p).limit ≤ (s.port p).lsu.bucket) :
    withinLimit s p = s.setPort p { s.port p with lsu := { (s.port p).lsu with
      bucket := (s.params.port p).limit } } := by
  unfold withinLimit
  rw [State.modLsu_eq, Nat.min_eq_left reached]

theorem limitEffect_acts : ((s.port p).lsu.bucket < (s.params.port p).limit → s.limitEffect p = s)
    ∧ ((s.params.port p).limit ≤ (s.port p).lsu.bucket → (s.port p).lsu.state ≠ .service →
      s.limitEffect p = s.setPort p { s.port p with lsu := { (s.port p).lsu with
        bucket := (s.params.port p).limit } })
    ∧ ((s.params.port p).limit ≤ (s.port p).lsu.bucket → (s.port p).lsu.state = .service →
      InOutage (s.port p).lsu ((s.limitEffect p).port p).lsu .errorRate
        ∧ ((s.limitEffect p).port p).lsu.bucket = (s.params.port p).limit) := by
  rw [limitEffect_eq]
  refine ⟨fun below => ?_, fun reached out => ?_, fun reached serving => ?_⟩
  · rw [if_neg fun both => absurd both.2 (Nat.not_le.mpr below)]
    refine modLsu_same s p ?_
    rw [Nat.min_eq_right below.le]
  · rw [if_neg fun both => out both.1, withinLimit_reached reached]
  · rw [if_pos ⟨serving, reached⟩, enterOutage_lsu, withinLimit_reached reached,
      State.port_setPort_self]
    exact ⟨inOutage_toOutage { (s.port p).lsu with bucket := (s.params.port p).limit } _, rfl⟩

/-- The credit run of a port once a new one is stored. -/
def creditRun (s : State) (p : Port) : State :=
  if (s.port p).lsu.state = .service ∧ (s.params.port p).mode = .frame then
    s.modLsu p fun l => l.creditEffect (s.params.port p).credit
  else s

theorem creditRun_acts : (¬ ((s.port p).lsu.state = .service ∧ (s.params.port p).mode = .frame
      ∧ (s.params.port p).credit ≤ (s.port p).lsu.bucketRun) → creditRun s p = s)
    ∧ ((s.port p).lsu.state = .service ∧ (s.params.port p).mode = .frame
        ∧ (s.params.port p).credit ≤ (s.port p).lsu.bucketRun →
      creditRun s p = s.setPort p { s.port p with lsu := { (s.port p).lsu with
        bucket := (s.port p).lsu.bucket - 1, bucketRun := 0 } }) := by
  unfold creditRun
  refine ⟨fun no => ?_, fun due => ?_⟩
  · split
    · next both =>
      refine modLsu_same s p (if_neg fun reached => no ?_)
      exact ⟨both.1, both.2, reached⟩
    · rfl
  · obtain ⟨serving, mode, reached⟩ := due
    rw [if_pos ⟨serving, mode⟩, State.modLsu_eq, Lsu.creditEffect, if_pos reached]

theorem alignEffect_acts : (¬ ((s.port p).lsu.state = .proving ∧ (s.port p).lsu.phase = .period
      ∧ (s.params.port p).align ≤ (s.port p).lsu.ca) → s.alignEffect p = s)
    ∧ ((s.port p).lsu.state = .proving ∧ (s.port p).lsu.phase = .period
        ∧ (s.params.port p).align ≤ (s.port p).lsu.ca → s.alignEffect p = s.failProving p) :=
  ⟨fun no => if_neg no, fun fails => if_pos fails⟩

/-- A failed proving attempt, the last of five or not (R23). -/
theorem failProving_acts (proving : (s.port p).lsu.state = .proving) :
    ((s.failProving p).port p).lsu.ctr.provingFails = tally (s.port p).lsu.ctr.provingFails
      ∧ ((s.port p).lsu.attempts + 1 < 5 → ((s.failProving p).port p).lsu.state = .proving
        ∧ ((s.failProving p).port p).lsu.phase = .pause
        ∧ ((s.failProving p).port p).lsu.attempts = (s.port p).lsu.attempts + 1
        ∧ ((s.failProving p).port p).lsu.pause = .running 1000
        ∧ ((s.failProving p).port p).lsu.period = .stopped)
      ∧ (5 ≤ (s.port p).lsu.attempts + 1 →
        InOutage (s.port p).lsu ((s.failProving p).port p).lsu .provingFailed) := by
  refine ⟨failProving_fails s p, fun few => ?_, fun many => ?_⟩
  · rw [failProving_few few, modLsu_lsu]
    exact ⟨proving, rfl, rfl, rfl, rfl⟩
  · rw [failProving_outage_lsu many]
    exact inOutage_toOutage (failedAttempt (s.port p).lsu) _

end

/-! ## A value stored -/

theorem takeConfig_some {s : State} {bs : List Byte} {l : ConfigLoad}
    (h : ConfigLoad.ofPayload bs = some l) : s.takeConfig bs = s.loadConfig l := by
  unfold State.takeConfig
  rw [h]

theorem configLoad_range {bs : List Byte} {l : ConfigLoad} (h : ConfigLoad.ofPayload bs = some l) :
    1 ≤ l.number ∧ l.number ≤ 28 ∧ (22 < l.number → ∃ p, l.port = some p) := by
  unfold ConfigLoad.ofPayload at h
  dsimp only at h
  split at h
  · next good =>
    obtain ⟨_, low, high, port⟩ := good
    obtain rfl := Option.some.inj h
    exact ⟨low, high, fun above => Option.isSome_iff_exists.mp
      (port (decide_eq_true ⟨above, high⟩))⟩
  · exact absurd h nofun

/-- The state with the parameters of a port stored (R175). -/
def withPort (s : State) (p : Port) (n v : Nat) : State :=
  { s with params := s.params.setPort p ((s.params.port p).store n v) }

theorem loadConfig_port (s : State) {l : ConfigLoad} {p : Port} (above : 22 < l.number)
    (high : l.number ≤ 28) (port : l.port = some p) : s.loadConfig l
      = (withPort s p l.number l.value).portConfigEffect p (s.params.port p) l.number := by
  have per : perPort l.number = true := decide_eq_true ⟨above, high⟩
  unfold State.loadConfig
  rw [if_pos per, port]
  rfl

theorem withPort_port (s : State) (p : Port) (n v : Nat) : (withPort s p n v).port p = s.port p := by
  cases p <;> rfl

theorem portConfig_effects {s : State} {rest : List RxFrame} {bs : List Byte} {pins : StrapPins}
    (run : exec (.frameClassify .up pins) s = .next ((freed s rest).takeConfig bs)) :
    PortConfigEffects s rest pins bs := by
  intro l p good above port
  obtain ⟨_, high, _⟩ := configLoad_range good
  rw [takeConfig_some good, loadConfig_port (freed s rest) above high port] at run
  have params : ((withPort (freed s rest) p l.number l.value).portConfigEffect p (s.params.port p)
      l.number).params = (withPort (freed s rest) p l.number l.value).params :=
    (congrArg State.params (portConfigEffect_wired _ p (s.params.port p) l.number) :)
  have lsu : (s.port p).lsu = ((withPort (freed s rest) p l.number l.value).port p).lsu := by
    rw [withPort_port, (freed_port s rest p).1]
  have mode : (s.port p).rateMode
      = ((withPort (freed s rest) p l.number l.value).port p).rateMode := by
    cases p <;> rfl
  have same : ((freed s rest).port p) = (withPort (freed s rest) p l.number l.value).port p :=
    (withPort_port _ _ _ _).symm
  have old : (freed s rest).params.port p = s.params.port p := rfl
  rw [old] at run
  refine ⟨_, run, ?_⟩
  dsimp only
  rw [params, lsu, mode, same]
  clear params lsu mode same run
  have is : { freed s rest with params := (withPort (freed s rest) p l.number l.value).params }
    = withPort (freed s rest) p l.number l.value := rfl
  rw [is]
  clear is
  generalize withPort (freed s rest) p l.number l.value = v
  generalize s.params.port p = old
  generalize l.number = n
  refine ⟨?_, ?_, ?_, ?_, ?_, ?_, ?_⟩
  all_goals rintro rfl
  · rfl
  · intro off
    obtain ⟨still, moves⟩ := enableEffect_disabled off
    refine ⟨still, fun other => ?_⟩
    have e : v.portConfigEffect p old 23 = v.enterOff p := moves other
    rw [e]
    exact enterOff_acts v p
  · intro on
    obtain ⟨still, moves⟩ := enableEffect_enabled on
    refine ⟨still, fun off => ?_⟩
    have e : v.portConfigEffect p old 23 = v.enterHunt p := moves off
    rw [e]
    exact enterHunt_acts off
  · exact modeEffect_acts old.mode
  · exact limitEffect_acts
  · exact creditRun_acts
  · obtain ⟨still, fails⟩ := alignEffect_acts (s := v) (p := p)
    refine ⟨still, fun due => ?_⟩
    have e : v.portConfigEffect p old 27 = v.failProving p := fails due
    rw [e]
    exact failProving_acts due.1

end Sys2Proof.Proofs
end

