-- ==== Sys2Proof/Proofs/ConfigLoads.lean ====
section
/-! A value stored within its range and no other (R175, R183). -/

namespace Sys2Proof.Proofs

open Sys2Proof.Machine Sys2Proof.Safety Sys2Proof.Laws

/-! ## Values -/

theorem store_value (ps : Params) (n v : Nat) (low : 1 ≤ n) (high : n ≤ 22) :
    (ps.store n v).value n = paramStored ps n v := by
  have mask : (BitVec.ofNat 18 v).toNat = v % 262144 := BitVec.toNat_ofNat v 18
  have screens : (BitVec.ofNat 3 v).toNat = v % 8 := BitVec.toNat_ofNat v 3
  have point : (BitVec.ofNat 16 (clamp 0 65535 v)).toNat = max 0 (min 65535 v) := by
    rw [BitVec.toNat_ofNat]
    unfold clamp
    omega
  interval_cases n
  pick_goal 22
  · exact screens
  pick_goal 21
  · exact point
  pick_goal 11
  · exact mask
  all_goals rfl

theorem store_others (ps : Params) (n v : Nat) (low : 1 ≤ n) (high : n ≤ 22) {m : Nat} (other : m ≠ n)
    (two : n = 2 → m ≠ 3) : (ps.store n v).value m = ps.value m := by
  interval_cases n
  pick_goal 2
  · have three := two rfl
    unfold Params.value
    split
    case h_2 => exact absurd rfl other
    case h_3 => exact absurd rfl three
    all_goals rfl
  all_goals
    unfold Params.value
    split
    all_goals try exact absurd rfl other
    all_goals rfl

theorem store_ageTwo (ps : Params) (v : Nat) :
    (ps.store 2 v).ageTwo = max (ps.store 2 v).ageOne ps.ageTwo := rfl

theorem store_ports (ps : Params) (n v : Nat) :
    (ps.store n v).up = ps.up ∧ (ps.store n v).down = ps.down := by
  unfold Params.store
  split
  all_goals exact ⟨rfl, rfl⟩

theorem portStore_value (pp : PortParams) (ps : Params) (n v : Nat) (above : 22 < n) (high : n ≤ 28) :
    (pp.store n v).value n = paramStored ps n v := by
  interval_cases n
  · cases v with
    | zero => rfl
    | succ v =>
      have one : max 0 (min 1 (v + 1)) = 1 := by omega
      exact one.symm
  · cases v with
    | zero => rfl
    | succ v =>
      have one : max 0 (min 1 (v + 1)) = 1 := by omega
      exact one.symm
  all_goals rfl

theorem portStore_others (pp : PortParams) (n v : Nat) (above : 22 < n) (high : n ≤ 28) {m : Nat}
    (other : m ≠ n) : (pp.store n v).value m = pp.value m := by
  interval_cases n
  all_goals
    unfold PortParams.value
    split
    all_goals try exact absurd rfl other
    all_goals rfl

theorem setPort_value (ps : Params) (p : Port) (pp : PortParams) (m : Nat) :
    (ps.setPort p pp).value m = ps.value m := by
  cases p <;> rfl

theorem setPort_port (ps : Params) (p : Port) (pp : PortParams) : (ps.setPort p pp).port p = pp
    ∧ (ps.setPort p pp).port p.other = ps.port p.other := by
  cases p <;> exact ⟨rfl, rfl⟩

/-! ## The load -/

/-- The state with a parameter stored (R175). -/
def withParam (s : State) (n v : Nat) : State := { s with params := s.params.store n v }

theorem loadConfig_param (s : State) {l : ConfigLoad} (low : l.number ≤ 22) :
    s.loadConfig l = (withParam s l.number l.value).configEffect l.number := by
  have own : ¬ perPort l.number = true := fun per => by
    have := (of_decide_eq_true per).1
    omega
  exact if_neg own

/-- Where a load of a configuration leads: the effect of a value of the part, or of a port (R175). -/
theorem config_acts {s : State} {rest : List RxFrame} {bs : List Byte} {pins : StrapPins}
    (run : exec (.frameClassify .up pins) s = .next ((freed s rest).takeConfig bs)) :
    ConfigActs s rest pins bs := by
  refine ⟨fun bad => ?_, fun l good => ?_⟩
  · rw [run]
    unfold State.takeConfig
    rw [bad]
    rfl
  obtain ⟨low, high, port⟩ := configLoad_range good
  rw [takeConfig_some good] at run
  rcases Nat.lt_or_ge 22 l.number with above | own
  · obtain ⟨p, named⟩ := port above
    rw [loadConfig_port (freed s rest) above high named] at run
    have wired := portConfigEffect_wired (withPort (freed s rest) p l.number l.value) p
      ((freed s rest).params.port p) l.number
    generalize State.portConfigEffect _ _ _ _ = t at run wired
    have params : t.params = s.params.setPort p ((s.params.port p).store l.number l.value) :=
      (congrArg State.params wired :)
    have stored : Wired { freed s rest with params := t.params } t := by
      rw [params]
      exact wired
    obtain ⟨same, other⟩ := setPort_port s.params p ((s.params.port p).store l.number l.value)
    refine ⟨t, run, ?_, fun own => absurd own (Nat.not_le.mpr above), fun q _ names => ?_⟩
    · unfold Wired at stored
      exact stored.trans (by rw [stored])
    · obtain rfl : p = q := Option.some.inj (named.symm.trans names)
      rw [params, same, other]
      exact ⟨portStore_value _ s.params _ _ above high, fun m no => portStore_others _ _ _ above high no,
        rfl, setPort_value s.params p _⟩
  · rw [loadConfig_param (freed s rest) own] at run
    have winds := configEffect_winds (withParam (freed s rest) l.number l.value) l.number
    generalize State.configEffect _ _ = t at run winds
    have params : t.params = s.params.store l.number l.value := winds.params
    have clock := winds.onlyClock
    obtain ⟨up, down⟩ := store_ports s.params l.number l.value
    refine ⟨t, run, ?_, fun _ => ⟨?_, ?_, fun m other two => ?_, fun is => ?_, ?_, ?_⟩,
      fun _ above => absurd own (Nat.not_le.mpr above)⟩
    · rw [params]
      rw [clock]
      rfl
    · exact (congrArg State.down clock :)
    · rw [params]
      exact store_value s.params _ _ low own
    · rw [params]
      exact store_others s.params _ _ low own other two
    · rw [params, is]
      exact store_ageTwo s.params l.value
    · rw [params]
      exact up
    · rw [params]
      exact down

end Sys2Proof.Proofs
end

