-- ==== Sys2Proof/Proofs/CallEffects.lean ====
section
/-! What a stored value does to the calls of CURRENT: forecasts, confidence, displays and stop requests
(R102, R107, R112, R120, R151). -/

namespace Sys2Proof.Proofs

open Sys2Proof.Machine Sys2Proof.Safety Sys2Proof.Laws

/-! ## Forecast, confidence and display (R102) -/

/-- Calls derived again by a function, then announced: what their stop requests do not touch is what the
function makes of it. -/
theorem rederive_follows (s : State) (f : Call → Call) {R : Call → Call → Prop}
    (h : ∀ x ∈ s.tts.current, ∀ y, SameItems (f x) y → R x y) :
    List.Forall₂ R s.tts.current (s.rederive f).tts.current := by
  have told := rederive_restops s f
  rw [Restops, State.mapCalls_tts, List.forall₂_map_left_iff] at told
  have paired := (List.forall₂_and_left (p := fun x => x ∈ s.tts.current) _ _).mpr
    ⟨fun _ mem => mem, told⟩
  exact paired.imp fun x y both => h x both.1 y both.2

section
variable (s : State)

theorem rederiveDelay_follows : List.Forall₂ (fun x y =>
    y.loaded = x.loaded ∧ y.state = x.state ∧ y.report = x.report
      ∧ (x.isRunning = false ∨ x.report = none → y.forecast = x.forecast)
      ∧ ∀ r, x.isRunning = true → x.report = some r →
        y.forecast = delayAfter s.params.phi r.delay (remainingAllowance x.loaded.points r.index))
    s.tts.current s.rederiveDelay.tts.current := by
  refine rederive_follows s _ fun x _ y same => ?_
  split at same
  · next both =>
    obtain ⟨running, reported⟩ := (Bool.and_eq_true _ _).mp both
    refine ⟨(congrArg Call.loaded same :), (congrArg Call.state same :), (congrArg Call.report same :),
      fun no => ?_, fun r _ is => ?_⟩
    · rcases no with ended | bare
      · exact absurd (running.symm.trans ended) nofun
      · rw [bare] at reported
        exact absurd reported nofun
    · refine (congrArg Call.forecast same : _).trans ?_
      show x.delayNow s.params.phi = _
      unfold Call.delayNow
      rw [is]
  · next no =>
    refine ⟨(congrArg Call.loaded same :), (congrArg Call.state same :), (congrArg Call.report same :),
      fun _ => (congrArg Call.forecast same :), fun r running is => absurd ?_ no⟩
    rw [running, is]
    rfl

/-- The confidence of a running call, as its report and the time give it (R96). -/
theorem confidenceOf_eq {c : Call} (running : c.isRunning = true) :
    s.confidenceOf c = some (confidenceBy s c) := by
  unfold State.confidenceOf
  rw [if_pos running]
  refine congrArg some ?_
  unfold confidenceBy ageConfidence
  cases c.report with
  | none => rfl
  | some r =>
    dsimp only
    cases r.taken with
    | none => rfl
    | some u =>
      dsimp only
      split
      · unfold capConfidence
        cases s.htb.sync with
        | holdover => simp
        | _ => rfl
      · split <;> rfl

theorem confidenceBy_congr {s t : State} {c d : Call} (report : d.report = c.report)
    (htb : t.htb = s.htb) (params : t.params = s.params) : confidenceBy t d = confidenceBy s c := by
  unfold confidenceBy
  rw [report, htb, params]

theorem rederiveConfidence_follows : List.Forall₂ (fun x y =>
    y.loaded = x.loaded ∧ y.state = x.state ∧ y.forecast = x.forecast
      ∧ (x.isRunning = true → y.confidence = some (confidenceBy s.rederiveConfidence y)))
    s.tts.current s.rederiveConfidence.tts.current := by
  have trades := rederiveConfidence_trades s
  refine rederive_follows s _ fun x _ y same => ⟨(congrArg Call.loaded same :),
    (congrArg Call.state same :), (congrArg Call.forecast same :), fun running => ?_⟩
  have report : y.report = x.report := (congrArg Call.report same :)
  rw [confidenceBy_congr report trades.htb trades.params, ← confidenceOf_eq s running]
  exact (congrArg Call.confidence same :)

theorem expectedOr_told (late sched m : Nat) (display : Option DisplayStatus) (shown : Option Nat)
    (h : (display, shown) = expectedOr late sched m) :
    (m < late → display = some .onTime ∧ shown = none)
      ∧ (late ≤ m → display = some .expected ∧ shown = some (sched / 60 + m)) := by
  unfold expectedOr at h
  split at h
  · next below => exact ⟨fun _ => Prod.mk.inj h, fun up => absurd below (not_lt.mpr up)⟩
  · next up => exact ⟨fun below => absurd below up, fun _ => Prod.mk.inj h⟩

/-- The display that R99 gives a call, row by row. -/
theorem displayedBy_of_display {late : Nat} {c : Call}
    (h : (c.display, c.shownMinute) = displayOf late c) : DisplayedBy late c := by
  have running (runs : c.state = .scheduled ∨ c.state = .running) :
      displayOf late c = displayOf late { c with state := .running } := by
    unfold displayOf
    rcases runs with e | e
    all_goals rw [e]
  refine ⟨fun ended => ?_, fun cancelled => ?_, fun runs over_ => ?_, fun runs inTime =>
    ⟨fun lapsed => ?_, fun planned => ?_, fun firm => ?_, fun aged => ?_⟩⟩
  · have e : displayOf late c = (none, none) := by
      unfold displayOf
      rcases ended with e | e
      all_goals rw [e]
    exact Prod.mk.inj (h.trans e)
  · have e : displayOf late c = (some .cancelled, none) := by
      unfold displayOf
      rw [cancelled]
    exact Prod.mk.inj (h.trans e)
  all_goals
    rw [running runs] at h
    unfold displayOf at h
    dsimp only at h
  · rw [if_pos over_] at h
    exact Prod.mk.inj h
  all_goals rw [if_neg (by rw [inTime]; exact Bool.false_ne_true)] at h
  · rw [lapsed] at h
    exact Prod.mk.inj h
  · rw [planned] at h
    exact Prod.mk.inj h
  · rw [firm] at h
    exact expectedOr_told _ _ _ _ _ h
  · rw [aged] at h
    exact expectedOr_told _ _ _ _ _ h

theorem rederiveDisplay_follows : List.Forall₂ (fun x y =>
    y.loaded = x.loaded ∧ y.state = x.state ∧ y.forecast = x.forecast
      ∧ y.confidence = x.confidence ∧ DisplayedBy s.params.late y)
    s.tts.current s.rederiveDisplay.tts.current := by
  refine rederive_follows s _ fun x _ y same => ⟨(congrArg Call.loaded same :),
    (congrArg Call.state same :), (congrArg Call.forecast same :), (congrArg Call.confidence same :),
    displayedBy_of_display ?_⟩
  have shown : displayOf s.params.late y = displayOf s.params.late x :=
    (congrArg (displayOf s.params.late) same :)
  have is : (y.display, y.shownMinute) = displayOf s.params.late x :=
    (congrArg (fun c : Call => (c.display, c.shownMinute)) same :)
  exact is.trans shown.symm

end

/-! ## Stop requests (R112) -/

/-- A stop request that agrees with its cutoff (R112). -/
def Settled (s : State) (y : Call) : Prop := y.isRunning = true →
  (y.stop = .wanted ∨ y.stop = .sent → ¬ PastCutoff s y) ∧ (y.stop = .late → PastCutoff s y)

theorem settled_congr {s t : State} (htb : t.htb = s.htb) (params : t.params = s.params) (y : Call) :
    Settled t y ↔ Settled s y := by
  unfold Settled PastCutoff
  rw [htb, params]

theorem settled_ended (s : State) {y : Call} (ended : y.isRunning = false) : Settled s y :=
  fun running => absurd (running.symm.trans ended) nofun

/-- A request asked again in time, sent or not (R110, R112). -/
theorem settled_wanted {s : State} {c d : Call} (same : SameItems c d) (inTime : s.pastCutoff c = false)
    (asked : d.stop = .wanted ∨ d.stop = .sent) : Settled s d := by
  have expected := same.steady.expected
  rw [pastCutoff_eq_false_iff] at inTime
  refine fun _ => ⟨fun _ past => inTime ?_, fun late => ?_⟩
  · unfold PastCutoff at past ⊢
    rw [← expected]
    exact past
  · rw [late] at asked
    exact absurd asked nofun

/-- A request past its cutoff (R112). -/
def lateStop (c : Call) : Call := { c with stop := .late, resend := .stopped }

/-- A request in time again (R112). -/
def wantedStop (c : Call) : Call := { c with stop := .wanted }

/-- A request sent (R110). -/
def sentStop (c : Call) : Call := { c with stop := .sent, resend := .running Config.resendMs }

section
variable {s : State} {k : Key} {c : Call}

theorem changeStop_tts (key : c.key = k) (f : Call → Call) :
    (s.changeStop c f).tts = (s.modCall k f).tts := by
  unfold State.changeStop
  rw [key]
  exact announceStop_tts _ _ _ _

theorem sendStopreq_tts (key : c.key = k) :
    (s.sendStopreq c).tts = (s.modCall k sentStop).tts := by
  rw [sendStopreq_eq, changeStop_tts key]
  exact modCall_tts (tts_afterOffer s c) k sentStop

theorem modCall_current (s : State) (k : Key) (f : Call → Call) : (s.modCall k f).tts.current
    = s.tts.current.map fun c => if c.key = k then f c else c := rfl

theorem modCall_id (s : State) (k : Key) : (s.modCall k id).tts = s.tts := by
  refine congrArg (fun x : List Call => { s.tts with current := x }) ?_
  exact (List.map_congr_left fun c _ => ite_self c).trans (List.map_id _)

theorem modCall_twice (s : State) (k : Key) {f g h : Call → Call} (keys : ∀ c, (f c).key = c.key)
    (both : ∀ c, g (f c) = h c) : ((s.modCall k f).modCall k g).tts = (s.modCall k h).tts := by
  refine congrArg (fun x : List Call => { s.tts with current := x }) ?_
  rw [modCall_current, List.map_map]
  refine List.map_congr_left fun c _ => ?_
  rw [Function.comp_apply]
  by_cases same : c.key = k
  · rw [if_pos same, if_pos same, if_pos ((keys c).trans same), both]
  · rw [if_neg same, if_neg same, if_neg same]

/-- The test of one cutoff: the call of the key alone may change, and then agrees with its cutoff
(R110, R112). -/
theorem testCutoff_settles (s : State) (k : Key) : ∃ g : Call → Call, (∀ c, SameItems c (g c))
    ∧ (s.testCutoff k).tts = (s.modCall k g).tts
    ∧ ∀ c, s.call k = some c → Settled s (g c) := by
  cases found : s.call k with
  | none =>
    refine ⟨id, fun c => rfl, ?_, fun c named => absurd named nofun⟩
    have still : s.testCutoff k = s := by
      unfold State.testCutoff
      rw [found]
    rw [still, modCall_id]
  | some c =>
    have key := key_of_call found
    cases live : c.isRunning with
    | false =>
      refine ⟨id, fun c => rfl, ?_, fun d same => ?_⟩
      · rw [testCutoff_ended found live, modCall_id]
      · obtain rfl := Option.some.inj same
        exact settled_ended s live
    | true =>
      rw [testCutoff_running found live]
      split
      · next late =>
        refine ⟨lateStop, fun c => rfl, changeStop_tts key lateStop, fun d same => ?_⟩
        obtain rfl := Option.some.inj same
        exact fun _ => ⟨nofun, fun _ => (pastCutoff_iff s c).mp late.2⟩
      · next inTime =>
        split
        · next back =>
          obtain ⟨wanted, _⟩ := changeStop_named found (f := wantedStop) fun _ => rfl
          have tts := changeStop_tts (s := s) key wantedStop
          have tried : (s.changeStop c fun c => { c with stop := .wanted }).trySend k
              = if (s.changeStop c wantedStop).maySend (wantedStop c) then
                  (s.changeStop c wantedStop).sendStopreq (wantedStop c)
                else s.changeStop c wantedStop := trySend_named wanted
          rw [tried]
          split
          · refine ⟨sentStop, fun c => rfl, ?_, fun d same => ?_⟩
            · rw [sendStopreq_tts (c := wantedStop c) (k := k) key, modCall_tts tts]
              exact modCall_twice s k (fun _ => rfl) fun _ => rfl
            · obtain rfl := Option.some.inj same
              exact settled_wanted (c := c) rfl back.2 (.inr rfl)
          · refine ⟨wantedStop, fun c => rfl, tts, fun d same => ?_⟩
            obtain rfl := Option.some.inj same
            exact settled_wanted (c := c) rfl back.2 (.inl rfl)
        · next stays =>
          refine ⟨id, fun c => rfl, (modCall_id s k).symm, fun d same => ?_⟩
          obtain rfl := Option.some.inj same
          refine fun _ => ⟨fun asked past => inTime ⟨asked, (pastCutoff_iff s c).mpr past⟩, fun late => ?_⟩
          rw [← pastCutoff_iff, ← Bool.not_eq_false]
          exact fun early => stays ⟨late, early⟩

end

/-- A call after the cutoffs of some keys are tested: it agrees with its cutoff, or is as it was. -/
def SettlesTo (s : State) (ks : List Key) (c d : Call) : Prop :=
  SameItems c d ∧ (c.key ∈ ks → Settled s d) ∧ (c.key ∉ ks → d = c)

theorem testCutoff_settled {s : State} (unique : s.keys.Nodup) (k : Key) :
    List.Forall₂ (SettlesTo s [k]) s.tts.current (s.testCutoff k).tts.current := by
  obtain ⟨g, same, tts, settled⟩ := testCutoff_settles s k
  rw [tts, modCall_current, List.forall₂_map_right_iff]
  refine forall₂_self fun c mem => ?_
  by_cases named : c.key = k
  · rw [if_pos named]
    refine ⟨same c, fun _ => settled c (named ▸ call_of_mem unique mem), fun no => ?_⟩
    exact absurd (List.mem_singleton.mpr named) no
  · rw [if_neg named]
    exact ⟨rfl, fun is => absurd (List.mem_singleton.mp is) named, fun _ => rfl⟩

theorem testCutoffFold_settled (ks : List Key) (once : ks.Nodup) {s : State} (unique : s.keys.Nodup) :
    List.Forall₂ (SettlesTo s ks) s.tts.current (ks.foldl State.testCutoff s).tts.current := by
  induction ks generalizing s with
  | nil => exact forall₂_self fun c _ => ⟨rfl, nofun, fun _ => rfl⟩
  | cons k ks ih =>
    obtain ⟨fresh, once⟩ := List.nodup_cons.mp once
    have one := testCutoff_settled unique k
    have keys : (s.testCutoff k).keys = s.keys :=
      map_eq_of_forall₂ one fun _ _ e => (congrArg Call.key e.1 :)
    have rest := ih once (s := s.testCutoff k) (by rw [keys]; exact unique)
    have trades := (testCutoff_announces s k).toTrades
    refine forall₂_comp (fun c d e => ?_) one rest
    rintro ⟨first, gone, stays⟩ ⟨then_, gone', stays'⟩
    have key : d.key = c.key := (congrArg Call.key first :)
    refine ⟨SameItems.trans _ _ _ first then_, fun mem => ?_, fun no => ?_⟩
    · by_cases later : c.key ∈ ks
      · exact (settled_congr trades.htb trades.params e).mp (gone' (key ▸ later))
      · have is : c.key = k := (List.mem_cons.mp mem).resolve_right later
        rw [stays' (key ▸ later)]
        exact gone (List.mem_singleton.mpr is)
    · have others : c.key ∉ ks := fun mem => no (List.mem_cons_of_mem _ mem)
      rw [stays' (key ▸ others)]
      exact stays fun mem => no (List.mem_cons.mpr (.inl (List.mem_singleton.mp mem)))

theorem forall₂_mem_right {R : Call → Call → Prop} {cs ds : List Call} (h : List.Forall₂ R cs ds) {d : Call}
    (mem : d ∈ ds) : ∃ c ∈ cs, R c d := by
  induction h with
  | nil => exact absurd mem List.not_mem_nil
  | @cons a b as bs r _ ih =>
    rcases List.mem_cons.mp mem with rfl | later
    · exact ⟨a, List.mem_cons_self, r⟩
    · obtain ⟨c, mem', r'⟩ := ih later
      exact ⟨c, List.mem_cons_of_mem a mem', r'⟩

theorem deriveLamps_lampOf (s : State) (p : Platform) : s.deriveLamps.lampOf p = s.lampOf p := by
  cases p <;> rfl

/-- Once every cutoff is tested each request agrees with its own, and the lamps show them (R112, R117). -/
theorem testCutoffs_settled {s : State} (unique : s.keys.Nodup) :
    (∀ y ∈ s.testCutoffs.tts.current, Settled s.testCutoffs y)
      ∧ ∀ p, (s.testCutoffs.sru.io p).lamp = s.testCutoffs.lampOf p := by
  have calls : List.Forall₂ (SettlesTo s s.keys) s.tts.current s.testCutoffs.tts.current :=
    testCutoffFold_settled s.keys unique unique
  have trades := (testCutoffs_announces s).toTrades
  refine ⟨fun y mem => ?_, fun p => ?_⟩
  · obtain ⟨c, old, _, settled, _⟩ := forall₂_mem_right calls mem
    exact (settled_congr trades.htb trades.params y).mpr (settled (List.mem_map_of_mem old))
  · exact (congrArg PlatformIo.lamp (deriveLamps_io (s.keys.foldl State.testCutoff s) p)).trans
      (deriveLamps_lampOf _ p).symm

/-- No OPEN quote that the cutoff test leaves names a call past its cutoff (R151). -/
theorem cutoffQuotes_past {s : State} {i : Fin 4} {q : Quote} {k : Key} {x : Call}
    (opened : s.cutoffQuotes.fqu.slots[i] = .opened q) (naming : q.call = some k)
    (named : s.cutoffQuotes.call k = some x) : ¬ PastCutoff s.cutoffQuotes x := by
  have inTime := cutoffQuotes_open opened
  unfold State.quotePastCutoff at inTime
  rw [naming, Option.bind_some, named] at inTime
  exact (pastCutoff_eq_false_iff _ x).mp inTime

end Sys2Proof.Proofs
end

