-- ==== Sys2Proof/Proofs/BoardEffects.lean ====
section
/-! What a stored value does to the boards: the dark test, the brightness and the screens (R122, R129,
R135 to R138). -/

namespace Sys2Proof.Proofs

open Sys2Proof.Machine Sys2Proof.Safety Sys2Proof.Laws

/-! ## The dark test of a stored lead (R136, R138) -/

/-- What the dark conditions read of the boards. -/
def showOf (b : Bdc) : Bool × Bool × Bool × List Message × Timer :=
  (b.one.isSome, b.two.isSome, b.three.isSome, b.valid, b.activity)

theorem isSome_screen {a b : Bdc} (h : showOf a = showOf b) (n : ScreenNo) :
    (a.screen n).isSome = (b.screen n).isSome := by
  cases n
  · exact congrArg (fun x => x.1) h
  · exact congrArg (fun x => x.2.1) h
  · exact congrArg (fun x => x.2.2.1) h

theorem darkConditions_congr {s : State} {b : Bdc} (h : showOf b = showOf s.bdc) :
    DarkConditions { s with bdc := b } ↔ DarkConditions s := by
  have valid : b.valid = s.bdc.valid := congrArg (fun x => x.2.2.2.1) h
  have activity : b.activity = s.bdc.activity := congrArg (fun x => x.2.2.2.2) h
  unfold DarkConditions
  dsimp only
  rw [valid, activity]
  have shown (n : ScreenNo) : State.shownCalls { s with bdc := b } n = s.shownCalls n := rfl
  simp only [shown, isSome_screen h]

theorem mapScreens_show (b : Bdc) (f : ScreenNo → Screen → Screen) : showOf (b.mapScreens f) = showOf b := by
  unfold showOf Bdc.mapScreens
  simp

theorem linkStart_show (b : Bdc) : showOf b.linkStart = showOf b := by
  rcases linkStart_cases b with e | ⟨n, e⟩
  · rw [e]
  · obtain ⟨sc, sc', x, present, _, e⟩ := takeFrom_some e
    rw [e]
    cases n
    all_goals
      have held : _ = some sc := present
      unfold showOf Bdc.setScreen
      simp_all [Bdc.screen]

theorem light_show (b : Bdc) (ps : Params) (e : Energy) : showOf (b.light ps e) = showOf b := by
  unfold Bdc.light
  dsimp only
  split
  · rfl
  · exact mapScreens_show _ _

theorem darkTest_show (s : State) (r : WakeCause) :
    ∃ b, s.darkTest r = { s with bdc := b } ∧ showOf b = showOf s.bdc := by
  rcases darkTest_cases s r with e | e | ⟨c, e⟩
  · exact ⟨s.bdc, e, rfl⟩
  · exact ⟨_, e, (mapScreens_show s.bdc fun _ sc => sc.clearMarks)⟩
  · exact ⟨_, e, light_show s.bdc s.params s.litOrDim⟩

/-- A dark test and the link leave what the dark conditions read (R136). -/
theorem darkTested_conditions (s : State) (r : WakeCause) :
    DarkConditions (s.darkTest r).linkStart ↔ DarkConditions s := by
  obtain ⟨b, tested, show_⟩ := darkTest_show s r
  have e : (s.darkTest r).linkStart = { s with bdc := b.linkStart } := by
    rw [tested]
    rfl
  rw [e]
  exact darkConditions_congr ((linkStart_show b).trans show_)

theorem linkStart_energy (s : State) : s.linkStart.bdc.energy = s.bdc.energy :=
  (congrArg Bdc.energy (linkStart_power s.bdc) :)

section
variable {s : State}

theorem trainDue_of_shown {n : ScreenNo} {x : Call} (present : (s.bdc.screen n).isSome)
    (shown : x ∈ s.shownCalls n) (running : x.isRunning = true)
    (due : x.expected ≤ s.htb.secs + 60 * s.params.darkLead) : s.trainDue = true := by
  rw [← Bool.not_eq_false, trainDue_eq_false_iff]
  intro none
  exact absurd due (not_le.mpr (none n present x shown running))

/-- The dark test of a lead newly stored (R136, R138). -/
theorem darkLead_acts (cold : s.bdc.warmUp.isRunning = false) :
    (s.bdc.energy ≠ .dark → ((s.darkTest .none).linkStart.bdc.energy = .dark
        ↔ DarkConditions (s.darkTest .none).linkStart))
      ∧ (s.bdc.energy = .dark → DarkConditions (s.darkTest .none).linkStart →
        (s.darkTest .none).linkStart.bdc.energy = .dark)
      ∧ (s.bdc.energy = .dark → s.trainDue = true →
        (s.darkTest .none).linkStart.bdc.energy ≠ .dark
          ∧ (s.darkTest .none).linkStart.bdc.wakeCause = .dueTrain
          ∧ (s.darkTest .none).linkStart.bdc.supply = true
          ∧ (s.darkTest .none).linkStart.bdc.warmUp = .running 2000) := by
  rw [darkTested_conditions, linkStart_energy]
  refine ⟨fun lit => ?_, fun asleep dark => ?_, fun asleep due => ?_⟩
  · by_cases dark : DarkConditions s
    · rw [darkTest_enter cold lit dark]
      exact ⟨fun _ => dark, fun _ => rfl⟩
    · rw [darkTest_stay lit dark]
      exact ⟨fun is => absurd is lit, fun is => absurd is dark⟩
  · rw [darkTest_asleep asleep dark]
    exact asleep
  · have fails : s.darkFailure .none = some .dueTrain := if_pos due
    rw [darkTest_wake cold asleep fails nofun]
    have lit := light_power s.bdc s.params s.litOrDim
    have idle : (s.wake .dueTrain).linkStart = s.wake .dueTrain :=
      congrArg (fun b : Bdc => { s.wake .dueTrain with bdc := b }) (linkStart_idle (.inr (.inr rfl)))
    rw [idle]
    refine ⟨?_, rfl, rfl, rfl⟩
    have energy : (s.wake .dueTrain).bdc.energy = s.litOrDim := (congrArg Bdc.energy lit :)
    rw [energy]
    exact litOrDim_ne_dark s

/-! ## LIT and DIM chosen by new values (R135, R138) -/

theorem light_marks {b : Bdc} {ps : Params} {e : Energy} (changed : ps.brightnessIn e ≠ b.brightness)
    {n : ScreenNo} {sc : Screen} (present : (b.light ps e).screen n = some sc) :
    sc.brightnessPending = true := by
  unfold Bdc.light at present
  dsimp only at present
  rw [if_neg changed, Bdc.screen_mapScreens] at present
  obtain ⟨x, _, rfl⟩ := Option.map_eq_some_iff.mp present
  rfl

theorem linkStart_marks {b : Bdc}
    (marked : ∀ n sc, b.screen n = some sc → sc.brightnessPending = true) {n : ScreenNo} {sc : Screen}
    (present : b.linkStart.screen n = some sc) :
    sc.brightnessPending = true ∨ b.linkStart.link = some (.brightness n b.linkStart.brightness) := by
  rcases linkStart_cases b with e | ⟨m, e⟩
  · rw [e] at present
    exact .inl (marked n sc present)
  · obtain ⟨x, x', i, held, next, e⟩ := takeFrom_some e
    rw [nextItem_brightness (marked m x held)] at next
    obtain ⟨rfl, rfl⟩ := Prod.mk.inj (Option.some.inj next)
    have screen : b.linkStart.screen n
        = (b.setScreen m (some { x with brightnessPending := false })).screen n := by
      rw [e]
      cases n <;> rfl
    rw [screen, screen_setScreen] at present
    split at present
    · next same =>
      subst same
      refine .inr ?_
      rw [e]
      cases n <;> rfl
    · exact .inl (marked n sc present)

theorem chooseEnergy_acts (s : State) : (s.bdc.energy = .dark → s.chooseEnergy.bdc = s.bdc)
    ∧ (s.bdc.energy ≠ .dark →
      (s.lowEnergy = true ∨ Night s → s.chooseEnergy.bdc.energy = .dim
        ∧ s.chooseEnergy.bdc.brightness = max 1 (s.params.brightness / s.params.dimDivisor))
      ∧ (s.lowEnergy = false → ¬ Night s → s.chooseEnergy.bdc.energy = .lit
        ∧ s.chooseEnergy.bdc.brightness = s.params.brightness)
      ∧ (s.chooseEnergy.bdc.brightness ≠ s.bdc.brightness → ∀ (n : ScreenNo) (sc : Screen),
        s.chooseEnergy.bdc.screen n = some sc → sc.brightnessPending = true
          ∨ s.chooseEnergy.bdc.link = some (.brightness n s.chooseEnergy.bdc.brightness))) := by
  refine ⟨fun asleep => congrArg State.bdc (chooseEnergy_asleep asleep), fun lit => ?_⟩
  have chosen : s.chooseEnergy.bdc = (s.bdc.light s.params s.litOrDim).linkStart :=
    congrArg State.bdc (chooseEnergy_awake lit)
  have power := (linkStart_power _).trans (light_power s.bdc s.params s.litOrDim)
  have brightness : (s.bdc.light s.params s.litOrDim).linkStart.brightness
      = s.params.brightnessIn s.litOrDim := (congrArg Bdc.brightness power :)
  rw [chosen]
  refine ⟨fun dim => ?_, fun low night => ?_, fun changed n sc present => ?_⟩
  · rw [litOrDim_dim dim] at power ⊢
    exact ⟨(congrArg Bdc.energy power :), (congrArg Bdc.brightness power :)⟩
  · rw [litOrDim_lit low night] at power ⊢
    exact ⟨(congrArg Bdc.energy power :), (congrArg Bdc.brightness power :)⟩
  · rw [brightness] at changed
    exact linkStart_marks (fun n sc => light_marks changed) present

end

/-! ## The screens present (R122) -/

section
variable {s : State} {n : ScreenNo}

/-- The boards with the screens that the parameter names (R122). -/
def withScreens (s : State) : State := { s with bdc := { s.bdc with
  one := adoptScreen s.params.screens .one s.bdc.one
  two := adoptScreen s.params.screens .two s.bdc.two
  three := adoptScreen s.params.screens .three s.bdc.three } }

theorem adoptScreens_eq (s : State) : s.adoptScreens = (withScreens s).compose := rfl

theorem withScreens_screen (s : State) (n : ScreenNo) :
    (withScreens s).bdc.screen n = adoptScreen s.params.screens n (s.bdc.screen n) := by
  cases n <;> rfl

theorem fresh_rows (n : ScreenNo) : (Screen.fresh n).rows.length = n.departureRows + 1 := by
  cases n <;> rfl

theorem composeRows_screen (s : State) (n : ScreenNo) : s.composeRows.bdc.screen n
    = (s.bdc.screen n).map fun sc =>
      { sc with rows := List.zipWith RowCell.update (s.rowsOf n) sc.rows } :=
  Bdc.screen_mapScreens s.bdc n _

theorem rowsOf_bdc {b : Bdc} (valid : b.valid = s.bdc.valid) (n : ScreenNo) :
    State.rowsOf { s with bdc := b } n = s.rowsOf n := by
  unfold State.rowsOf State.selectedMessage
  dsimp only
  rw [valid]
  rfl

theorem update_pending {r : RowRecord} {cell : RowCell} (marked : cell.pending = true) :
    (RowCell.update r cell).pending = true := by
  unfold RowCell.update
  split
  · exact marked
  · rfl

theorem zipWith_pending {rs : List RowRecord} {cells : List RowCell}
    (marked : ∀ c ∈ cells, c.pending = true) :
    ∀ c ∈ List.zipWith RowCell.update rs cells, c.pending = true := by
  intro c mem
  rw [List.mem_iff_getElem] at mem
  obtain ⟨i, lt, rfl⟩ := mem
  rw [List.getElem_zipWith]
  exact update_pending (marked _ (List.getElem_mem _))

/-- Every mark of a screen is set. -/
def AllMarked (sc : Screen) : Prop := sc.brightnessPending = true ∧ ∀ r ∈ sc.rows, r.pending = true

theorem light_allMarked {b : Bdc} {ps : Params} {e : Energy} {n : ScreenNo}
    (marked : ∀ sc, b.screen n = some sc → AllMarked sc) {sc : Screen}
    (present : (b.light ps e).screen n = some sc) : AllMarked sc := by
  unfold Bdc.light at present
  dsimp only at present
  split at present
  · exact marked sc ((screen_congr rfl rfl rfl n).symm.trans present)
  · rw [Bdc.screen_mapScreens] at present
    obtain ⟨x, held, rfl⟩ := Option.map_eq_some_iff.mp present
    obtain ⟨_, rows⟩ := marked x ((screen_congr rfl rfl rfl n).symm.trans held)
    exact ⟨rfl, rows⟩

/-- Where the link is held, a composition that does not end in DARK leaves every mark (R128, R129). -/
theorem compose_allMarked (held : s.bdc.link ≠ none)
    (marked : ∀ sc, s.bdc.screen n = some sc → AllMarked sc) {sc : Screen}
    (lit : s.compose.bdc.energy ≠ .dark) (present : s.compose.bdc.screen n = some sc) : AllMarked sc := by
  have rows : ∀ sc, s.composeRows.bdc.screen n = some sc → AllMarked sc := by
    intro sc composed
    rw [composeRows_screen] at composed
    obtain ⟨x, was, rfl⟩ := Option.map_eq_some_iff.mp composed
    obtain ⟨brightness, pending⟩ := marked x was
    exact ⟨brightness, zipWith_pending pending⟩
  unfold State.compose at lit present
  rcases darkTest_cases s.composeRows .none with e | e | ⟨c, e⟩
  · have idle : s.composeRows.linkStart.bdc = s.composeRows.bdc := linkStart_idle (.inl held)
    rw [e, idle] at present
    exact rows sc present
  · rw [e, enterDark_linkStart] at lit
    exact absurd rfl lit
  · have idle : (s.composeRows.wake c).linkStart.bdc = (s.composeRows.wake c).bdc :=
      linkStart_idle (.inr (.inr rfl))
    rw [e, idle, wake_screen] at present
    exact light_allMarked rows present

theorem compose_isSome (s : State) (n : ScreenNo) :
    (s.compose.bdc.screen n).isSome = (s.bdc.screen n).isSome := by
  obtain ⟨b, tested, show_⟩ := darkTest_show s.composeRows .none
  have rows := mapScreens_show s.bdc fun n sc =>
    { sc with rows := List.zipWith RowCell.update (s.rowsOf n) sc.rows }
  unfold State.compose
  rw [tested]
  exact isSome_screen ((linkStart_show b).trans (show_.trans rows)) n

/-- The boards after a load of the screens present (R122). -/
theorem adoptScreens_acts (s : State) (n : ScreenNo) :
    (s.adoptScreens.bdc.screen n).isSome = s.params.screens.getLsbD n.bit
      ∧ ∀ sc, s.adoptScreens.bdc.screen n = some sc → s.bdc.screen n = none →
        sc.rows.map (·.image) = s.adoptScreens.rowsOf n
          ∧ (s.bdc.link.isSome → s.adoptScreens.bdc.energy ≠ .dark →
            sc.brightnessPending = true ∧ ∀ r ∈ sc.rows, r.pending = true) := by
  have adopted := withScreens_screen s n
  rw [adoptScreens_eq]
  have shown : ((withScreens s).compose.bdc.screen n).isSome = s.params.screens.getLsbD n.bit := by
    rw [compose_isSome, adopted]
    unfold adoptScreen
    split
    · next is => exact is.symm
    · next no => exact (Bool.eq_false_iff.mpr no).symm
  refine ⟨shown, fun sc present absent => ?_⟩
  · have named : s.params.screens.getLsbD n.bit = true := by
      rw [← shown, present]
      rfl
    have new : (withScreens s).bdc.screen n = some (Screen.fresh n).markAll := by
      rw [adopted, absent]
      exact if_pos named
    have full : (Screen.fresh n).markAll.rows.length = n.departureRows + 1 :=
      (List.length_map _).trans (fresh_rows n)
    refine ⟨?_, fun held lit => ?_⟩
    · have images := compose_images new full
      rw [present] at images
      obtain ⟨b, frame⟩ := compose_frame (withScreens s)
      have valid : b.valid = (withScreens s).bdc.valid := by
        have notes := (compose_notes (withScreens s)).valid
        rw [frame] at notes
        exact notes
      have rows : (withScreens s).compose.rowsOf n = (withScreens s).rowsOf n := by
        rw [frame]
        exact rowsOf_bdc (s := withScreens s) valid n
      rw [rows]
      exact Option.some.inj images
    · refine compose_allMarked (s := withScreens s) (Option.isSome_iff_ne_none.mp held) ?_ lit present
      intro x is
      obtain rfl := Option.some.inj (new.symm.trans is)
      refine ⟨rfl, fun r mem => ?_⟩
      obtain ⟨c, _, rfl⟩ := List.mem_map.mp mem
      rfl

end

end Sys2Proof.Proofs
end

