-- ==== Sys2Proof/Proofs/ValueEffects.lean ====
section
/-! What a stored value acts on (R62, R67, R149), and the loads together (O36). -/

namespace Sys2Proof.Proofs

open Sys2Proof.Machine Sys2Proof.Safety Sys2Proof.Laws

/-! ## Quotes by their age (R149) -/

/-- A slot after the age of its quote is tested (R149). -/
def agedOut (s : State) : Slot → Slot
  | .opened q => if q.created + s.params.quoteExpiry ≤ s.htb.uptime then .free else .opened q
  | x => x

theorem agedOut_desk {s t : State} (desk : OnlyDesk s t) (x : Slot) : agedOut t x = agedOut s x := by
  unfold agedOut
  rw [desk.params, desk.htb]

theorem expireSlot_slots (s : State) (i j : Fin 4) : (s.expireSlot i).fqu.slots[j]
    = if i = j then agedOut s s.fqu.slots[j] else s.fqu.slots[j] := by
  have same (h : agedOut s s.fqu.slots[i] = s.fqu.slots[i]) :
      s.fqu.slots[j] = if i = j then agedOut s s.fqu.slots[j] else s.fqu.slots[j] := by
    split
    · next e => rw [← e, h]
    · rfl
  unfold State.expireSlot
  split
  · next q opened =>
    split
    · next aged =>
      have posted := congrArg (fun x : Fqu => x.slots[j]) (postNotice_fqu ((s.setSlot i .free).modFquCtr
        fun c => { c with expired := tally c.expired }) (.quoteWithdrawn i))
      refine posted.trans ((setSlot_slots s i j .free).trans ?_)
      split
      · next e =>
        rw [← e, opened]
        exact (if_pos aged).symm
      · rfl
    · next young =>
      refine same ?_
      rw [opened]
      exact if_neg young
  · next e => exact same (by rw [e]; rfl)
  · next e => exact same (by rw [e]; rfl)

theorem expireSlots_slots (s : State) (j : Fin 4) :
    (allSlots.foldl State.expireSlot s).fqu.slots[j] = agedOut s s.fqu.slots[j] := by
  refine foldl_slots (fun t i desk => ⟨expireSlot_desk t i, fun j => ?_⟩) j
  rw [expireSlot_slots, agedOut_desk desk]

/-! ## A deferral at its limit (R62, R67) -/

theorem deferLowered_past {s : State} (deferring : s.htb.deferral = true)
    (past : 86400 + 60 * s.params.deferLimit ≤ s.htb.secs) (same : s.params.hour = s.htb.hour) :
    s.deferLowered.htb = { s.htb with
        date := s.htb.date + BitVec.ofNat 16 (s.htb.secs / 86400)
        secs := s.htb.secs % 86400, stand := 0, deferral := false
        ctr := { s.htb.ctr with deferLimit := tally s.htb.ctr.deferLimit } }
      ∧ BanksSwitched s s.deferLowered (s.htb.date + BitVec.ofNat 16 (s.htb.secs / 86400)) := by
  have e : s.deferLowered = s.countDefer.daySwitch s.htb.secs := if_pos ⟨deferring, past⟩
  have switched : DaySwitched s.countDefer (s.countDefer.daySwitch s.htb.secs) _ :=
    .hour (s := s.countDefer) same s.htb.secs
  rw [e]
  exact ⟨switched.htb, switched.banks⟩

theorem deferLowered_kept {s : State}
    (no : ¬ (s.htb.deferral = true ∧ 86400 + 60 * s.params.deferLimit ≤ s.htb.secs)) :
    s.deferLowered = s := if_neg no

/-! ## A value of the part stored -/

theorem lampOf_congr {s t : State} (tts : t.tts = s.tts) (sru : t.sru = s.sru) (htb : t.htb = s.htb)
    (params : t.params = s.params) (p : Platform) : t.lampOf p = s.lampOf p := by
  unfold State.lampOf State.lampCall State.insideWindow State.windowOpen State.pastCutoff
  rw [tts, sru, htb, params]

/-- A cutoff newly stored: every request and every lamp agrees with it (R112, R117, R151). -/
theorem cutoffLoad_settled {s : State} (unique : s.keys.Nodup) :
    (∀ y ∈ s.testCutoffs.cutoffQuotes.tts.current, Settled s.testCutoffs.cutoffQuotes y)
      ∧ ∀ p, (s.testCutoffs.cutoffQuotes.sru.io p).lamp = s.testCutoffs.cutoffQuotes.lampOf p := by
  obtain ⟨calls, lamps⟩ := testCutoffs_settled unique
  have desk := cutoffQuotes_desk s.testCutoffs
  refine ⟨fun y mem => ?_, fun p => ?_⟩
  · rw [desk.tts] at mem
    exact (settled_congr desk.htb desk.params y).mpr (calls y mem)
  · rw [desk.sru, lampOf_congr desk.tts desk.sru desk.htb desk.params]
    exact lamps p

/-- The boards as a new brightness, divisor or night window chooses them (R135, R138). -/
theorem brightness_acts (s : State) : (s.bdc.energy = .dark → s.chooseEnergy.bdc = s.bdc)
    ∧ (s.bdc.energy ≠ .dark →
      (s.lowEnergy = true ∨ Night s.chooseEnergy → s.chooseEnergy.bdc.energy = .dim
        ∧ s.chooseEnergy.bdc.brightness = max 1 (s.params.brightness / s.params.dimDivisor))
      ∧ (s.lowEnergy = false → ¬ Night s.chooseEnergy → s.chooseEnergy.bdc.energy = .lit
        ∧ s.chooseEnergy.bdc.brightness = s.params.brightness)
      ∧ (s.chooseEnergy.bdc.brightness ≠ s.bdc.brightness → ∀ (n : ScreenNo) (sc : Screen),
        s.chooseEnergy.bdc.screen n = some sc → sc.brightnessPending = true
          ∨ s.chooseEnergy.bdc.link = some (.brightness n s.chooseEnergy.bdc.brightness))) := by
  have night : Night s.chooseEnergy ↔ Night s := by
    obtain ⟨b, e⟩ := chooseEnergy_frame s
    rw [e]
    exact Iff.rfl
  rw [night]
  exact chooseEnergy_acts s

theorem config_effects {s : State} {rest : List RxFrame} {bs : List Byte} {pins : StrapPins}
    (run : exec (.frameClassify .up pins) s = .next ((freed s rest).takeConfig bs)) :
    ConfigEffects s rest pins bs := by
  intro l good
  rw [takeConfig_some good] at run
  refine ⟨_, run, ?_⟩
  clear run good
  rcases Nat.lt_or_ge 22 l.number with above | own
  · generalize l.number = n at above
    refine ⟨fun mem => ?_, fun is => ?_, fun is => ?_, fun is => ?_, fun is => ?_, fun is => ?_,
      fun is => ?_, fun is => ?_, fun is => ?_, fun is => ?_, fun is => ?_⟩
    · simp only [List.mem_cons, List.not_mem_nil, or_false] at mem
      omega
    all_goals omega
  rw [loadConfig_param (freed s rest) own]
  have params := (configEffect_winds (withParam (freed s rest) l.number l.value) l.number).params
  dsimp only
  rw [params]
  generalize l.number = n at *
  refine ⟨fun mem => ?_, ?_, ?_, ?_, ?_, ?_, ?_, ?_, ?_, ?_, ?_⟩
  · simp only [List.mem_cons, List.not_mem_nil, or_false] at mem
    rcases mem with rfl | rfl | rfl | rfl | rfl | rfl | rfl | rfl | rfl
    all_goals rfl
  · rintro rfl _
    exact rederiveDelay_follows (withParam (freed s rest) 1 l.value)
  · rintro (rfl | rfl) _
    · exact rederiveConfidence_follows (withParam (freed s rest) 2 l.value)
    · exact rederiveConfidence_follows (withParam (freed s rest) 3 l.value)
  · rintro rfl _
    exact rederiveDisplay_follows (withParam (freed s rest) 4 l.value)
  · rintro (rfl | rfl) ordered
    · exact testCutoffs_settled (s := withParam (freed s rest) 5 l.value) ordered.2.2
    · exact cutoffLoad_settled (s := withParam (freed s rest) 6 l.value) ordered.2.2
  · rintro rfl i q k x opened naming named
    exact cutoffQuotes_past opened naming named
  · rintro rfl cold
    obtain ⟨lit, asleep, wakes⟩ := darkLead_acts (s := withParam (freed s rest) 7 l.value) cold
    refine ⟨lit, asleep, fun dark due => wakes dark ?_⟩
    obtain ⟨n, present, x, shown, running, soon⟩ := due
    exact trainDue_of_shown present shown running soon
  · rintro rfl
    refine ⟨fun no => deferLowered_kept (s := withParam (freed s rest) 8 l.value) no, fun past same => ?_⟩
    exact deferLowered_past (s := withParam (freed s rest) 8 l.value) past.1 past.2 same
  · rintro rfl i q opened
    have slot := expireSlots_slots (withParam (freed s rest) 16 l.value) i
    have was : (withParam (freed s rest) 16 l.value).fqu.slots[i] = .opened q := opened
    rw [was] at slot
    exact ⟨fun aged => slot.trans (if_pos aged), fun young => slot.trans (if_neg (not_le.mpr young))⟩
  · rintro (rfl | rfl | rfl)
    · exact brightness_acts (withParam (freed s rest) 18 l.value)
    · exact brightness_acts (withParam (freed s rest) 19 l.value)
    · exact brightness_acts (withParam (freed s rest) 20 l.value)
  · rintro rfl
    exact adoptScreens_acts (withParam (freed s rest) 22 l.value)

/-! ## O36 -/

/-- A load by its subkind (R40, R73 to R78, R130, R131, R141, R142, R175). -/
def takeKind (s : State) (bs : List Byte) : LoadKind → State
  | .callAdd => s.takeCallAdd bs
  | .callDelete => s.takeCallDelete bs
  | .bankOpen => s.takeBankOpen bs
  | .bankClose => s.takeBankClose bs
  | .fare => s.takeFare bs
  | .fareActivate => s.takeFareActivate bs
  | .message => s.takeMessage bs
  | .messageDelete => s.takeMessageDelete bs
  | .config => s.takeConfig bs
  | .window => s.takeWindow bs

theorem takeLoad_kind {bs : List Byte} {kind : LoadKind} (known : LoadKind.ofPayload bs = some kind)
    (s : State) : s.takeLoad bs = takeKind s bs kind := by
  unfold State.takeLoad
  rw [known]
  cases kind <;> rfl

/-- Settles O36. -/
theorem loadsAct : Obligations.LoadsAct := by
  intro s f rest pins kind own known
  have run := exec_load own pins known
  obtain ⟨_, addressed, _⟩ := own
  rw [takeLoad_kind known] at run
  refine ⟨?_, ?_, ?_, ?_, ?_, ?_, ?_, ?_, ?_, ?_⟩
  all_goals rintro rfl
  · exact callAdd_acts run
  · exact callDelete_acts run
  · exact bankOpen_acts run
  · exact bankClose_acts addressed run
  · exact fare_acts run
  · exact fareActivate_acts run
  · exact message_acts run
  · exact messageDelete_acts run
  · exact ⟨config_acts run, config_effects run, portConfig_effects run⟩
  · exact window_acts run

end Sys2Proof.Proofs
end
